-- ==== Sys2Proof/Word.lean ====
section
/-!
DEFINITION. The word type of the DDU: the byte. Every other width is written where its register
is declared (Machine/State.lean), as spec/10_state.md gives it.
-/

namespace Sys2Proof

/-- A byte is 8 bits (spec/00_scope.md R9). -/
abbrev Byte := BitVec 8

end Sys2Proof
end

