-- ==== Sys2Proof/Config.lean ====
section
/-!
DEFINITION. The parameters of the DDU that the spec fixes (spec/00_scope.md R7), and the one value
the model chooses: what a memory cell nothing has written reads as (log 6).
No parameter is left open by the spec (R8), so there is no free value here.
-/

namespace Sys2Proof.Config

/-- `WIN_MAX`: capacity of the window memory, in bytes (R7, R27). -/
def winMax : Nat := 32768

/-- `ROWBYTES_MAX`: the largest scanline without its filter byte, and the size of each row buffer
(R7, R26). -/
def rowbytesMax : Nat := 2040

/-- `STRIDE_MAX`: the largest filter stride (R7, R25). -/
def strideMax : Nat := 8

/-- `MAXBITS`: the longest Huffman code (R7). -/
def maxBits : Nat := 15

/-- `MATCH_MAX`: the longest back-reference (R7). -/
def matchMax : Nat := 258

/-- `NLIT_MAX`: the largest literal/length alphabet, the capacity of `lit_tab` (R7, R32). -/
def nlitMax : Nat := 288

/-- `NDIST_MAX`: the largest distance alphabet, the capacity of `dist_tab` (R7, R32). -/
def ndistMax : Nat := 32

/-- `NCL`: the size of the code-length alphabet, the capacity of `cl_tab` (R7, R32). -/
def ncl : Nat := 19

/-- `NLENS_MAX`: the capacity of the combined length array `lens` (R7, R33). -/
def nlensMax : Nat := 320

/-- What a cell of `win`, `bufA` or `bufB` that nothing has written reads as.
DESIGN CHOICE, unsafe (log 6): the spec gives these cells no contents at reset (R41) and shows that
no session that keeps the protocol reads one (R426). -/
def unlistedByte : Byte := 0

end Sys2Proof.Config
end

