-- ==== Sys2Proof/Syntax.lean ====
section
/-!
DEFINITION. The elements the DDU carries out, as syntax: one constructor of `Instr` for each of the
93 rows of spec/opcode_table.json, and the formats they are encoded in (spec/30_encoding.md).
A constructor holds the fields of its row's own bits, and the operands of a host command. The extra
bits of a symbol, and the code lengths that follow a DYN header, are not part of the row's bits: the
meaning reads them from the stream, in the order of its pseudocode (log 12).
-/

namespace Sys2Proof

/-- The formats of spec/30_encoding.md. The table's format STORED is two formats here, its header
(R103) and its raw bytes; FIXED is the row without bits (R208). -/
inductive Format where
  | hostCmd | zhdr | bhdr | storedHdr | raw | fixed | dynHdr | clSym | litLen | dist | filt | ztrl
deriving DecidableEq, Repr

/-- The typed operands carried beside a command code (R116). A command reads the operands it has
and ignores the others. -/
structure CmdOperands where
  /-- START: payload length of the first ImageData chunk. -/
  chunkRem0 : BitVec 32
  /-- START: filter stride, 1 to 8. -/
  stride0 : BitVec 4
  /-- PASS_BEGIN: data bytes per row, 1 to 2040. -/
  rowbytes0 : BitVec 11
deriving DecidableEq, Repr

/-- The operands of an element that is no command. -/
def CmdOperands.none : CmdOperands := ⟨0, 0, 0⟩

/-- The elements of the stream and the commands of the host, one constructor a row of
spec/opcode_table.json. -/
inductive Instr where
  -- host commands (R116)
  | start (chunkRem0 : BitVec 32) (stride0 : BitVec 4)
  | passBegin (rowbytes0 : BitVec 11)
  | row
  | finish
  | abort
  | cmdReserved0
  | cmdReserved6
  | cmdReserved7
  -- zlib header (R101): the fields of CMF and FLG
  | zlib (cm cinfo : BitVec 4) (fcheck : BitVec 5) (fdict : Bool) (flevel : BitVec 2)
  -- block headers (R102): BFINAL
  | blockStored (bfinal : Bool)
  | blockFixed (bfinal : Bool)
  | blockDynamic (bfinal : Bool)
  | blockReserved (bfinal : Bool)
  -- stored block (R103)
  | storedHdr (len nlen : BitVec 16)
  | raw (b : Byte)
  -- the setup of a fixed block (R208), which has no bits
  | fixed
  -- dynamic header (R104): the fields HLIT, HDIST, HCLEN
  | dyn (hlit hdist : BitVec 5) (hclen : BitVec 4)
  -- code-length alphabet (R106)
  | clLen (n : BitVec 4)
  | clRep
  | clZeroS
  | clZeroL
  -- literal/length alphabet (R109)
  | lit (b : Byte)
  | eob
  | len257 | len258 | len259 | len260 | len261 | len262 | len263 | len264
  | len265 | len266 | len267 | len268 | len269 | len270 | len271 | len272
  | len273 | len274 | len275 | len276 | len277 | len278 | len279 | len280
  | len281 | len282 | len283 | len284 | len285
  | lenInvalid286
  | lenInvalid287
  -- distance alphabet (R111)
  | dist0 | dist1 | dist2 | dist3 | dist4 | dist5 | dist6 | dist7 | dist8 | dist9
  | dist10 | dist11 | dist12 | dist13 | dist14 | dist15 | dist16 | dist17 | dist18 | dist19
  | dist20 | dist21 | dist22 | dist23 | dist24 | dist25 | dist26 | dist27 | dist28 | dist29
  | distInvalid30
  | distInvalid31
  -- filter types (R113)
  | fNone
  | fSub
  | fUp
  | fAvg
  | fPaeth
  | fInvalid (t : Byte)
  -- trailer (R114)
  | ztrl (a : BitVec 32)
deriving DecidableEq, Repr

end Sys2Proof
end

