-- ==== Sys2Proof/WellFormed.lean ====
section
/-!
DEFINITION. Which elements are well formed: the operand ranges the spec gives where a field can hold
more than its legal values. START takes a stride of 1 to 8 (R142), PASS_BEGIN 1 to 2040 bytes per row
(R144), and the row F_INVALID stands for the filter-type bytes 5 to 255 only (R339). Every value of
every other field is an element the spec gives a behaviour (an error is one).
-/

namespace Sys2Proof

/-- The operand checks, one arm for each constructor. -/
def Instr.wf : Instr → Bool
  | .start _ stride0 => 1 ≤ stride0.toNat && stride0.toNat ≤ Config.strideMax
  | .passBegin rowbytes0 => 1 ≤ rowbytes0.toNat && rowbytes0.toNat ≤ Config.rowbytesMax
  | .fInvalid t => 5 ≤ t.toNat
  | .zlib _ _ _ _ _ | .blockStored _ | .blockFixed _ | .blockDynamic _ | .blockReserved _
  | .storedHdr _ _ | .raw _ | .dyn _ _ _ | .clLen _ | .lit _ | .ztrl _ => true
  | .row | .finish | .abort | .cmdReserved0 | .cmdReserved6 | .cmdReserved7 | .fixed | .clRep
  | .clZeroS | .clZeroL | .eob | .lenInvalid286 | .lenInvalid287 | .distInvalid30 | .distInvalid31 | .fNone
  | .fSub | .fUp | .fAvg | .fPaeth | .len257 | .len258 | .len259 | .len260
  | .len261 | .len262 | .len263 | .len264 | .len265 | .len266 | .len267 | .len268
  | .len269 | .len270 | .len271 | .len272 | .len273 | .len274 | .len275 | .len276
  | .len277 | .len278 | .len279 | .len280 | .len281 | .len282 | .len283 | .len284
  | .len285 | .dist0 | .dist1 | .dist2 | .dist3 | .dist4 | .dist5 | .dist6
  | .dist7 | .dist8 | .dist9 | .dist10 | .dist11 | .dist12 | .dist13 | .dist14
  | .dist15 | .dist16 | .dist17 | .dist18 | .dist19 | .dist20 | .dist21 | .dist22
  | .dist23 | .dist24 | .dist25 | .dist26 | .dist27 | .dist28 | .dist29 => true

end Sys2Proof
end

