-- ==== Sys2Proof/Decode.lean ====
section
/-!
DEFINITION. Decoding and encoding of elements, from the layouts of spec/30_encoding.md.
The words of different formats overlap, so an encoded element is its format, the word of its bits
(numbered as spec/opcode_table.json numbers them) and, for a host command, its typed operands. The
machine knows the format from its state (istate and the running command), never from the bits.
-/

namespace Sys2Proof

/-- An encoded element: its format, the bits of its word as a number, and the operands carried beside
a command code (R116). -/
structure Element where
  fmt : Format
  word : Nat
  ops : CmdOperands := .none
deriving DecidableEq, Repr

/-- Why a word is no element. -/
inductive DecodeError where
  /-- The word has more bits than its format. -/
  | wordTooWide
  /-- A code-length symbol above 18 (R106). -/
  | clSymbol
  /-- A literal/length symbol above 287 (R109). -/
  | litLenSymbol
  /-- A distance symbol above 31 (R111). -/
  | distSymbol
deriving DecidableEq, Repr

/-- How many bits the opcode table gives an element of the format. -/
def Format.width : Format → Nat
  | .hostCmd => 3
  | .zhdr => 16
  | .bhdr => 3
  | .storedHdr => 32
  | .raw => 8
  | .fixed => 0
  | .dynHdr => 14
  | .clSym => 5
  | .litLen => 9
  | .dist => 5
  | .filt => 8
  | .ztrl => 32

/-- The field of `n` bits of `w` whose lowest bit is bit `lo`. -/
def field (w lo n : Nat) : Nat := w / 2 ^ lo % 2 ^ n

/-- A command code with its operands (R116); the reserved codes are 0, 6 and 7. -/
def decodeCommand (code : BitVec 3) (o : CmdOperands) : Instr :=
  match code.toNat with
  | 0 => .cmdReserved0
  | 1 => .start o.chunkRem0 o.stride0
  | 2 => .passBegin o.rowbytes0
  | 3 => .row
  | 4 => .finish
  | 5 => .abort
  | 6 => .cmdReserved6
  | _ => .cmdReserved7

/-- The zlib header as the number FLG·256 + CMF (R101). -/
def decodeZlib (w : Nat) : Instr :=
  .zlib (BitVec.ofNat 4 (field w 0 4)) (BitVec.ofNat 4 (field w 4 4))
    (BitVec.ofNat 5 (field w 8 5)) (field w 13 1 == 1) (BitVec.ofNat 2 (field w 14 2))

/-- The block header `h = ReadBits(3)`: BFINAL is `h[0]`, BTYPE is `h[2:1]` (R102). -/
def decodeBlock (w : Nat) : Instr :=
  match field w 1 2 with
  | 0 => .blockStored (field w 0 1 == 1)
  | 1 => .blockFixed (field w 0 1 == 1)
  | 2 => .blockDynamic (field w 0 1 == 1)
  | _ => .blockReserved (field w 0 1 == 1)

/-- The dynamic header as the number HCLEN·1024 + HDIST·32 + HLIT (R104). -/
def decodeDyn (w : Nat) : Instr :=
  .dyn (BitVec.ofNat 5 (field w 0 5)) (BitVec.ofNat 5 (field w 5 5)) (BitVec.ofNat 4 (field w 10 4))

/-- The code-length symbols 16 to 18 (R106). -/
def clRows : List Instr := [.clRep, .clZeroS, .clZeroL]

/-- The literal/length symbols from 256 on (R109). -/
def litLenRows : List Instr :=
  [.eob,
   .len257, .len258, .len259, .len260, .len261, .len262, .len263, .len264,
   .len265, .len266, .len267, .len268, .len269, .len270, .len271, .len272,
   .len273, .len274, .len275, .len276, .len277, .len278, .len279, .len280,
   .len281, .len282, .len283, .len284, .len285,
   .lenInvalid286, .lenInvalid287]

/-- The distance symbols from 0 on (R111). -/
def distRows : List Instr :=
  [.dist0, .dist1, .dist2, .dist3, .dist4, .dist5, .dist6, .dist7, .dist8, .dist9,
   .dist10, .dist11, .dist12, .dist13, .dist14, .dist15, .dist16, .dist17, .dist18, .dist19,
   .dist20, .dist21, .dist22, .dist23, .dist24, .dist25, .dist26, .dist27, .dist28, .dist29,
   .distInvalid30, .distInvalid31]

/-- A filter-type byte (R113). -/
def decodeFilter (w : Nat) : Instr :=
  match w with
  | 0 => .fNone
  | 1 => .fSub
  | 2 => .fUp
  | 3 => .fAvg
  | 4 => .fPaeth
  | t => .fInvalid (BitVec.ofNat 8 t)

/-- A word that must be a row of the given list. -/
def decodeRow (rows : List Instr) (k : Nat) (e : DecodeError) : Except DecodeError Instr :=
  match rows[k]? with
  | some i => .ok i
  | none => .error e

/-- The decoder, total on every format and word: an element, or a rejection by name. -/
def decode (e : Element) : Except DecodeError Instr :=
  if 2 ^ e.fmt.width ≤ e.word then
    match e.fmt with
    | .clSym => .error .clSymbol
    | .litLen => .error .litLenSymbol
    | .dist => .error .distSymbol
    | .hostCmd | .zhdr | .bhdr | .storedHdr | .raw | .fixed | .dynHdr | .filt | .ztrl =>
      .error .wordTooWide
  else
    match e.fmt with
    | .hostCmd => .ok (decodeCommand (BitVec.ofNat 3 e.word) e.ops)
    | .zhdr => .ok (decodeZlib e.word)
    | .bhdr => .ok (decodeBlock e.word)
    | .storedHdr => .ok (.storedHdr (BitVec.ofNat 16 (field e.word 0 16)) (BitVec.ofNat 16 (field e.word 16 16)))
    | .raw => .ok (.raw (BitVec.ofNat 8 e.word))
    | .fixed => .ok .fixed
    | .dynHdr => .ok (decodeDyn e.word)
    | .clSym => if e.word < 16 then .ok (.clLen (BitVec.ofNat 4 e.word)) else decodeRow clRows (e.word - 16) .clSymbol
    | .litLen => if e.word < 256 then .ok (.lit (BitVec.ofNat 8 e.word)) else decodeRow litLenRows (e.word - 256) .litLenSymbol
    | .dist => decodeRow distRows e.word .distSymbol
    | .filt => .ok (decodeFilter e.word)
    | .ztrl => .ok (.ztrl (BitVec.ofNat 32 e.word))

/-- The encoder, written from the same layouts: one arm for each constructor. -/
def encode : Instr → Element
  | .start chunkRem0 stride0 => ⟨.hostCmd, 1, ⟨chunkRem0, stride0, 0⟩⟩
  | .passBegin rowbytes0 => ⟨.hostCmd, 2, ⟨0, 0, rowbytes0⟩⟩
  | .row => ⟨.hostCmd, 3, .none⟩
  | .finish => ⟨.hostCmd, 4, .none⟩
  | .abort => ⟨.hostCmd, 5, .none⟩
  | .cmdReserved0 => ⟨.hostCmd, 0, .none⟩
  | .cmdReserved6 => ⟨.hostCmd, 6, .none⟩
  | .cmdReserved7 => ⟨.hostCmd, 7, .none⟩
  | .zlib cm cinfo fcheck fdict flevel =>
    ⟨.zhdr, cm.toNat + 2 ^ 4 * cinfo.toNat + 2 ^ 8 * fcheck.toNat + 2 ^ 13 * fdict.toNat + 2 ^ 14 * flevel.toNat, .none⟩
  | .blockStored bfinal => ⟨.bhdr, bfinal.toNat, .none⟩
  | .blockFixed bfinal => ⟨.bhdr, 2 * 1 + bfinal.toNat, .none⟩
  | .blockDynamic bfinal => ⟨.bhdr, 2 * 2 + bfinal.toNat, .none⟩
  | .blockReserved bfinal => ⟨.bhdr, 2 * 3 + bfinal.toNat, .none⟩
  | .storedHdr len nlen => ⟨.storedHdr, len.toNat + 2 ^ 16 * nlen.toNat, .none⟩
  | .raw b => ⟨.raw, b.toNat, .none⟩
  | .fixed => ⟨.fixed, 0, .none⟩
  | .dyn hlit hdist hclen => ⟨.dynHdr, hlit.toNat + 2 ^ 5 * hdist.toNat + 2 ^ 10 * hclen.toNat, .none⟩
  | .clLen n => ⟨.clSym, n.toNat, .none⟩
  | .clRep => ⟨.clSym, 16, .none⟩
  | .clZeroS => ⟨.clSym, 17, .none⟩
  | .clZeroL => ⟨.clSym, 18, .none⟩
  | .lit b => ⟨.litLen, b.toNat, .none⟩
  | .eob => ⟨.litLen, 256, .none⟩
  | .len257 => ⟨.litLen, 257, .none⟩
  | .len258 => ⟨.litLen, 258, .none⟩
  | .len259 => ⟨.litLen, 259, .none⟩
  | .len260 => ⟨.litLen, 260, .none⟩
  | .len261 => ⟨.litLen, 261, .none⟩
  | .len262 => ⟨.litLen, 262, .none⟩
  | .len263 => ⟨.litLen, 263, .none⟩
  | .len264 => ⟨.litLen, 264, .none⟩
  | .len265 => ⟨.litLen, 265, .none⟩
  | .len266 => ⟨.litLen, 266, .none⟩
  | .len267 => ⟨.litLen, 267, .none⟩
  | .len268 => ⟨.litLen, 268, .none⟩
  | .len269 => ⟨.litLen, 269, .none⟩
  | .len270 => ⟨.litLen, 270, .none⟩
  | .len271 => ⟨.litLen, 271, .none⟩
  | .len272 => ⟨.litLen, 272, .none⟩
  | .len273 => ⟨.litLen, 273, .none⟩
  | .len274 => ⟨.litLen, 274, .none⟩
  | .len275 => ⟨.litLen, 275, .none⟩
  | .len276 => ⟨.litLen, 276, .none⟩
  | .len277 => ⟨.litLen, 277, .none⟩
  | .len278 => ⟨.litLen, 278, .none⟩
  | .len279 => ⟨.litLen, 279, .none⟩
  | .len280 => ⟨.litLen, 280, .none⟩
  | .len281 => ⟨.litLen, 281, .none⟩
  | .len282 => ⟨.litLen, 282, .none⟩
  | .len283 => ⟨.litLen, 283, .none⟩
  | .len284 => ⟨.litLen, 284, .none⟩
  | .len285 => ⟨.litLen, 285, .none⟩
  | .lenInvalid286 => ⟨.litLen, 286, .none⟩
  | .lenInvalid287 => ⟨.litLen, 287, .none⟩
  | .dist0 => ⟨.dist, 0, .none⟩
  | .dist1 => ⟨.dist, 1, .none⟩
  | .dist2 => ⟨.dist, 2, .none⟩
  | .dist3 => ⟨.dist, 3, .none⟩
  | .dist4 => ⟨.dist, 4, .none⟩
  | .dist5 => ⟨.dist, 5, .none⟩
  | .dist6 => ⟨.dist, 6, .none⟩
  | .dist7 => ⟨.dist, 7, .none⟩
  | .dist8 => ⟨.dist, 8, .none⟩
  | .dist9 => ⟨.dist, 9, .none⟩
  | .dist10 => ⟨.dist, 10, .none⟩
  | .dist11 => ⟨.dist, 11, .none⟩
  | .dist12 => ⟨.dist, 12, .none⟩
  | .dist13 => ⟨.dist, 13, .none⟩
  | .dist14 => ⟨.dist, 14, .none⟩
  | .dist15 => ⟨.dist, 15, .none⟩
  | .dist16 => ⟨.dist, 16, .none⟩
  | .dist17 => ⟨.dist, 17, .none⟩
  | .dist18 => ⟨.dist, 18, .none⟩
  | .dist19 => ⟨.dist, 19, .none⟩
  | .dist20 => ⟨.dist, 20, .none⟩
  | .dist21 => ⟨.dist, 21, .none⟩
  | .dist22 => ⟨.dist, 22, .none⟩
  | .dist23 => ⟨.dist, 23, .none⟩
  | .dist24 => ⟨.dist, 24, .none⟩
  | .dist25 => ⟨.dist, 25, .none⟩
  | .dist26 => ⟨.dist, 26, .none⟩
  | .dist27 => ⟨.dist, 27, .none⟩
  | .dist28 => ⟨.dist, 28, .none⟩
  | .dist29 => ⟨.dist, 29, .none⟩
  | .distInvalid30 => ⟨.dist, 30, .none⟩
  | .distInvalid31 => ⟨.dist, 31, .none⟩
  | .fNone => ⟨.filt, 0, .none⟩
  | .fSub => ⟨.filt, 1, .none⟩
  | .fUp => ⟨.filt, 2, .none⟩
  | .fAvg => ⟨.filt, 3, .none⟩
  | .fPaeth => ⟨.filt, 4, .none⟩
  | .fInvalid t => ⟨.filt, t.toNat, .none⟩
  | .ztrl a => ⟨.ztrl, a.toNat, .none⟩

/-- The format in which a table word of `nbits` bits (in whole bytes) is read when nothing but its
bits is known. DESIGN CHOICE (log 4): words of different formats overlap (the byte 1 is START,
DIST_1, F_SUB, CL_LEN 1 and a raw byte), so one format is chosen for each word such that every family
whose words are not wholly covered by another has some word here. -/
def tableFormat (nbits w : Nat) : Format :=
  if nbits = 0 then .fixed
  else if nbits ≤ 8 then
    if w < 8 then .hostCmd
    else if 16 ≤ w ∧ w ≤ 18 then .clSym
    else if w < 32 then .dist
    else .raw
  else if nbits ≤ 16 then
    if w < 288 then .litLen
    else if w % 16 = 8 then .zhdr
    else if w < 2 ^ 14 then .dynHdr
    else .zhdr
  else if field w 0 16 + field w 16 16 = 2 ^ 16 - 1 then .storedHdr
  else .ztrl

/-- The element a bare table word stands for. The operands of a command are no bits of its word
(R116), so the least legal ones stand here: a chunk of no bytes, stride 1, one byte per row (log 4). -/
def tableElement (nbits w : Nat) : Element := ⟨tableFormat nbits w, w, ⟨0, 1, 1⟩⟩

/-- The instruction the decoder reads from a bare table word. -/
def decodeTableWord (nbits w : Nat) : Option Instr :=
  match decode (tableElement nbits w) with
  | .ok i => some i
  | .error _ => none

end Sys2Proof
end

