-- ==== Sys2Proof/Machine/State.lean ====
section
/-!
DEFINITION. The state of the DDU (spec/10_state.md), as plain data: every register and memory of
rules R21 to R34, the commands and source answers the environment supplies (R15, R16), and the
responses given (R153). Also the reasons a step can stop, and the state after hardware reset (R41, R410).
-/

namespace Sys2Proof.Machine

/-- A byte memory: (address, byte) pairs, addresses strictly rising, no entry equal to what an
unlisted address reads as. Its operations and the check of this form are in Machine/Ops.lean. -/
abbrev Memory := List Host.Cell

/-- `sstate`, the session state: IDLE = 0, ACTIVE = 1, FAILED = 2, DONE = 3 (R21). -/
inductive SState where
  | idle | active | failed | done
deriving DecidableEq, Repr

/-- `istate`, the state of the inflate machine, values 0 to 6 in this order (R30). The value 7 is
unused and never written, so it has no constructor. -/
inductive IState where
  | begin | stored | fixed | dynamic | huffman | blockEnd | streamEnd
deriving DecidableEq, Repr

/-- The error causes of R360, in the table's order. `noMem` is reserved and never raised (R377). -/
inductive ErrCode where
  | io | ioChunk | filterType
  | zlibMethod | zlibWindow | zlibFdict | blockType | storedLen | noMatch | lenCode | distCode
  | repeatFirst | lensOverflow | streamEnd | windowOverrun | distTooFar
  | noMem
deriving DecidableEq, Repr

/-- One entry of a Huffman table: code length, code bit-reversed within it, symbol (R32). -/
structure HuffEntry where
  len : BitVec 4
  bits : BitVec 15
  sym : BitVec 9
deriving DecidableEq, Repr

/-- `sstate` and `result` (R21, R22). -/
structure Session where
  sstate : SState
  result : BitVec 8
deriving DecidableEq, Repr

/-- The environment's answers still to come, in the order they will be given (R15, R16, log 3):
to `SrcByte` (R161), a byte or a failure; to `SrcNextIdat` (R166), a chunk length or a failure. Past
the end of a list every request fails. -/
structure Source where
  bytes : List (Option Byte)
  hops : List (Option (BitVec 32))
deriving DecidableEq, Repr

/-- The bit-stream reader: `bitbuf`, `bitcnt`, `chunk_rem` (R23, R24), the accumulator and bit count
`mv`, `mhave` of `Match` (R34), and the source it reads from. -/
structure Reader where
  bitbuf : BitVec 8
  bitcnt : BitVec 4
  chunkRem : BitVec 32
  mv : BitVec 15
  mhave : BitVec 4
  src : Source
deriving DecidableEq, Repr

/-- The defilter registers and the two scanline buffers (R25, R26). `curSel = false` is `cur_sel` = 0:
`cur` is `bufA` and `prev` is `bufB`. -/
structure Scan where
  stride : BitVec 4
  rowbytes : BitVec 11
  passValid : Bool
  ftype : Byte
  bufA : Memory
  bufB : Memory
  curSel : Bool
deriving DecidableEq, Repr

/-- The sliding window: its memory and `wlog` (R27), the cursors and counts (R28). -/
structure Window where
  mem : Memory
  wlog : BitVec 4
  wr : BitVec 15
  rd : BitVec 15
  unread : BitVec 9
  hist : BitVec 16
deriving DecidableEq, Repr

/-- The registers of the inflate state machine (R30, R31). -/
structure Inflate where
  istate : IState
  hdrDone : Bool
  bfinal : Bool
  storedHdr : Bool
  storedRem : BitVec 16
deriving DecidableEq, Repr

/-- The three Huffman table memories with their counts (R32). A list holds the entries stored so far;
the table in force is its first `n` entries. -/
structure Tables where
  litTab : List HuffEntry
  litN : BitVec 9
  distTab : List HuffEntry
  distN : BitVec 6
  clTab : List HuffEntry
  clN : BitVec 5
deriving DecidableEq, Repr

/-- The temporaries of a dynamic header (R33), and the model's own flag `hdrRead`: the DYN element of
this header has been carried out (log 1). -/
structure Dyn where
  lens : List (BitVec 4)
  clLens : List (BitVec 3)
  hlit : BitVec 9
  hdist : BitVec 6
  hclen : BitVec 5
  idx : BitVec 9
  hdrRead : Bool
deriving DecidableEq, Repr

/-- The datapath temporaries of the symbol level (R34), and the model's own flag `lenPend`: a length
symbol has been carried out and its distance symbol comes next (log 1). -/
structure Temps where
  sym : BitVec 9
  mlen : BitVec 9
  mdist : BitVec 16
  lenPend : Bool
deriving DecidableEq, Repr

/-- What the DDU is doing: waiting for a command, in a ROW that has pulled the bytes `d` so far, or
in a FINISH (log 1). -/
inductive Running where
  | waiting
  | row (d : List Byte)
  | finish
deriving DecidableEq, Repr

/-- A command as the host issues it: its 3-bit code and the operands beside it (R116). -/
structure HostReq where
  code : BitVec 3
  ops : CmdOperands
deriving DecidableEq, Repr

/-- A response: `(result, sstate)` for every command, and the row of a successful ROW (R153). -/
structure Response where
  result : BitVec 8
  sstate : SState
  row : Option (List Byte)
deriving DecidableEq, Repr

/-- The host's side of the DDU: the commands not yet issued, the command running, and the responses
given, oldest first (log 2). -/
structure Port where
  cmd : Running
  cmds : List HostReq
  resps : List Response
deriving DecidableEq, Repr

/-- The whole state (R20: one record, and no other mutable state). -/
structure State where
  session : Session
  reader : Reader
  scan : Scan
  window : Window
  inflate : Inflate
  tables : Tables
  dyn : Dyn
  temps : Temps
  port : Port
deriving DecidableEq, Repr

/-- A stop the machine itself makes. -/
inductive Fault where
  /-- Raised by a write to `lens` at or past cell 320, or a row access at or past cell 2040 of a row
  buffer: no such cell exists (R26, R33). Safe (log 17): no state reachable from reset does it. -/
  | noSuchCell
deriving DecidableEq, Repr

/-- Why a run has no meaning from a point on. -/
inductive Refusal where
  /-- An instruction the model gives no meaning yet; raised by exec's arms only. Safe. -/
  | notModelled (mnemonic : String)
  /-- Raised by PASS_BEGIN, ROW and FINISH where the legality table says refused (R141). Safe (log 9). -/
  | protocol
  /-- Raised by the command codes 0, 6 and 7 (R141). Safe (log 9). -/
  | reservedCommand
  /-- Raised by START and PASS_BEGIN on an operand outside its range (R142, R144). Safe (log 9). -/
  | operandRange
  /-- Raised by whatever builds a table from an over-subscribed code-length set (R187). Safe (log 8). -/
  | overSubscribed
  /-- Raised when a table yields a code-length symbol above 18, which is no symbol (R215). Safe
  (log 17): no state reachable from reset does it. -/
  | noSuchSymbol
deriving DecidableEq, Repr

/-- The state after hardware reset (R41, R410): `sstate` IDLE, `result` 0x00, `pass_valid` 0, waiting
for a command. The spec gives no other register a value; DESIGN CHOICE, unsafe (log 5): 0, or the
least legal value where 0 is not legal (R38). Memories list nothing (log 6); the environment's lists
are empty (log 4). -/
def State.reset : State where
  session := { sstate := .idle, result := 0x00 }
  reader := { bitbuf := 0, bitcnt := 0, chunkRem := 0, mv := 0, mhave := 0, src := { bytes := [], hops := [] } }
  scan := { stride := 1, rowbytes := 1, passValid := false, ftype := 0, bufA := [], bufB := [], curSel := false }
  window := { mem := [], wlog := 8, wr := 0, rd := 0, unread := 0, hist := 0 }
  inflate := { istate := .begin, hdrDone := false, bfinal := false, storedHdr := false, storedRem := 0 }
  tables := { litTab := [], litN := 0, distTab := [], distN := 0, clTab := [], clN := 0 }
  dyn := { lens := List.replicate 320 0, clLens := List.replicate 19 0, hlit := 257, hdist := 1, hclen := 4,
           idx := 0, hdrRead := false }
  temps := { sym := 0, mlen := 3, mdist := 1, lenPend := false }
  port := { cmd := .waiting, cmds := [], resps := [] }

end Sys2Proof.Machine
end

