-- ==== Sys2Proof/Machine/Ops.lean ====
section
/-!
DEFINITION. The named operations every meaning is written with: updates of the state's parts, byte
memories (spec/20_memory.md), the bit-stream reader (spec/41_bitstream_reader.md), `Match`
(spec/42_huffman.md R188), the window (spec/44_inflate_symbols.md R250, R256; spec/45_defilter.md
R330), responses, and taking an error (spec/60_exceptions.md R380).
-/

namespace Sys2Proof.Machine

/-- What a step and a meaning answer. -/
abbrev Out := Host.Outcome State Fault Refusal

/-! ## Updates of one part of the state -/

def State.setSession (s : State) (x : Session) : State := { s with session := x }
def State.setReader (s : State) (x : Reader) : State := { s with reader := x }
def State.setScan (s : State) (x : Scan) : State := { s with scan := x }
def State.setWindow (s : State) (x : Window) : State := { s with window := x }
def State.setInflate (s : State) (x : Inflate) : State := { s with inflate := x }
def State.setTables (s : State) (x : Tables) : State := { s with tables := x }
def State.setDyn (s : State) (x : Dyn) : State := { s with dyn := x }
def State.setTemps (s : State) (x : Temps) : State := { s with temps := x }
def State.setPort (s : State) (x : Port) : State := { s with port := x }

/-! ## Byte memories (R70, R72, R73) -/

/-- Reads one cell; a cell that is not listed reads as `Config.unlistedByte` (log 6). -/
def Memory.read : Memory → Nat → Byte
  | [], _ => Config.unlistedByte
  | (b, v) :: m, a => if b = a then v else Memory.read m a

/-- Puts one cell in front of a memory whose addresses are all higher, unless it holds what an
unlisted cell reads as. -/
def Memory.cons (a : Nat) (v : Byte) (m : Memory) : Memory :=
  if v = Config.unlistedByte then m else (a, v) :: m

/-- Writes one cell, keeping the canonical form. -/
def Memory.write : Memory → Nat → Byte → Memory
  | [], a, v => Memory.cons a v []
  | (b, w) :: m, a, v =>
    if a < b then Memory.cons a v ((b, w) :: m)
    else if a = b then Memory.cons a v m
    else (b, w) :: Memory.write m a v

/-- Writes bytes to consecutive cells from `a` on, in increasing order. -/
def Memory.writeAll : Memory → Nat → List Byte → Memory
  | m, _, [] => m
  | m, a, v :: vs => Memory.writeAll (Memory.write m a v) (a + 1) vs

/-- Reads `n` consecutive cells from `a` on. -/
def Memory.readAll (m : Memory) : Nat → Nat → List Byte
  | _, 0 => []
  | a, n + 1 => m.read a :: Memory.readAll m (a + 1) n

/-- The canonical form: addresses strictly rising, no entry equal to what an unlisted cell reads as. -/
def Memory.wf : Memory → Bool
  | [] => true
  | [(_, v)] => v != Config.unlistedByte
  | (a, v) :: (b, w) :: m => v != Config.unlistedByte && decide (a < b) && Memory.wf ((b, w) :: m)

/-! ## Results that may be an error -/

/-- The result of an operation on a part `σ` of the state: a value, or an error raised at a definite
statement, with every effect before it (R381). -/
inductive Eff (σ α : Type) where
  | ok (a : α) (s : σ)
  | raise (c : ErrCode) (s : σ)
deriving DecidableEq, Repr

/-- One operation after another; an error ends the sequence. -/
def Eff.bind {σ α β : Type} : Eff σ α → (α → σ → Eff σ β) → Eff σ β
  | .ok a s, k => k a s
  | .raise c s, _ => .raise c s

/-! ## The bit-stream reader -/

/-- The `while` of `FetchByte` (R162): hops to the next chunk as long as `chunk_rem` is 0. Recursion
on the answers still to come; a chunk of length 0 is hopped over. -/
def Reader.hop (r : Reader) : List (Option (BitVec 32)) → Eff Reader Unit
  | [] => .raise .ioChunk { r with src := { r.src with hops := [] } }
  | none :: hs => .raise .ioChunk { r with src := { r.src with hops := hs } }
  | some n :: hs =>
    if n = 0 then Reader.hop r hs
    else .ok () { r with chunkRem := n, src := { r.src with hops := hs } }

/-- `SrcByte` with the decrement of `chunk_rem` that follows a success (R161, R162). -/
def Reader.srcByte (r : Reader) : Eff Reader Byte :=
  match r.src.bytes with
  | [] => .raise .io r
  | none :: bs => .raise .io { r with src := { r.src with bytes := bs } }
  | some b :: bs => .ok b { r with chunkRem := r.chunkRem - 1, src := { r.src with bytes := bs } }

/-- `FetchByte`: one payload byte, hopping chunks when the current one has none left (R162). -/
def Reader.fetchByte (r : Reader) : Eff Reader Byte :=
  if r.chunkRem = 0 then (r.hop r.src.hops).bind fun _ r' => r'.srcByte
  else r.srcByte

/-- Takes bit 0 of the buffered bits and shifts the rest down (R163). -/
def Reader.shiftBit (r : Reader) : Eff Reader Bool :=
  .ok (r.bitbuf.getLsbD 0) { r with bitbuf := r.bitbuf >>> 1, bitcnt := r.bitcnt - 1 }

/-- `ReadBits(1)`: a byte is fetched only when no bit is buffered (R163). -/
def Reader.readBit (r : Reader) : Eff Reader Bool :=
  if r.bitcnt = 0 then r.fetchByte.bind fun b r' => { r' with bitbuf := b, bitcnt := 8 }.shiftBit
  else r.shiftBit

/-- `ReadBits(n)`: the first bit consumed is bit 0 of the number (R76, R163). -/
def Reader.readBits : Nat → Reader → Eff Reader Nat
  | 0, r => .ok 0 r
  | n + 1, r =>
    r.readBit.bind fun b r' => (Reader.readBits n r').bind fun v r'' => .ok (b.toNat + 2 * v) r''

/-- `ReadBytes(n)`: whole bytes, neither using nor changing the buffered bits (R164). -/
def Reader.readBytes : Nat → Reader → Eff Reader (List Byte)
  | 0, r => .ok [] r
  | n + 1, r =>
    r.fetchByte.bind fun b r' => (Reader.readBytes n r').bind fun bs r'' => .ok (b :: bs) r''

/-- `AlignByte`: drops the partial byte (R165). -/
def Reader.alignByte (r : Reader) : Reader := { r with bitbuf := 0, bitcnt := 0 }

/-- The bytes of a word, the first the least significant (R78, R101). -/
def wordOfBytes : List Byte → Nat
  | [] => 0
  | b :: bs => b.toNat + 2 ^ 8 * wordOfBytes bs

/-- The inner `while` of `Match` (R188): takes `k` more bits into `mv`, the next one at `mhave`. -/
def Reader.accumulate : Nat → Reader → Eff Reader Unit
  | 0, r => .ok () r
  | k + 1, r =>
    r.readBit.bind fun b r' =>
      Reader.accumulate k
        { r' with mv := r'.mv ||| (BitVec.ofNat 15 b.toNat <<< r'.mhave.toNat), mhave := r'.mhave + 1 }

/-- The scan of `Match` over the entries of a table, in order (R188); past the last one there is no
match (R189). -/
def Reader.scanTable : List HuffEntry → Reader → Eff Reader (BitVec 9)
  | [], r => .raise .noMatch r
  | e :: es, r =>
    (r.accumulate (e.len.toNat - r.mhave.toNat)).bind fun _ r' =>
      if r'.mv = e.bits then .ok e.sym r' else Reader.scanTable es r'

/-- `Match(T)`: the symbol whose code comes next in the stream (R188). -/
def Reader.matchSymbol (t : List HuffEntry) (r : Reader) : Eff Reader (BitVec 9) :=
  Reader.scanTable t { r with mv := 0, mhave := 0 }

/-- The table in force: the entries below the count (R32). -/
def Tables.lit (t : Tables) : List HuffEntry := t.litTab.take t.litN.toNat
def Tables.dist (t : Tables) : List HuffEntry := t.distTab.take t.distN.toNat
def Tables.cl (t : Tables) : List HuffEntry := t.clTab.take t.clN.toNat

/-! ## The sliding window -/

/-- `W` = 2^`wlog`, the number of cells in use (R27). -/
def Window.size (w : Window) : Nat := 2 ^ w.wlog.toNat

/-- The cell `d` behind the write cursor, `(wr - d) mod W` (R72, R256). -/
def Window.behind (w : Window) (d : Nat) : Nat := (((w.wr.toNat : Int) - (d : Int)) % (w.size : Int)).toNat

/-- The cell `k` ahead of the write cursor, `(wr + k) mod W`. -/
def Window.ahead (w : Window) (k : Nat) : Nat := (w.wr.toNat + k) % w.size

/-- `Put(b)` appends one byte (R250). -/
def Window.put (b : Byte) (w : Window) : Window :=
  { w with
    mem := w.mem.write w.wr.toNat b
    wr := BitVec.ofNat 15 (w.ahead 1)
    unread := w.unread + 1
    hist := if w.hist.toNat < w.size then w.hist + 1 else w.hist }

/-- `Copy(mlen, mdist)`, byte by byte, the source read with the current write cursor (R256). -/
def Window.copy : Nat → Nat → Window → Window
  | 0, _, w => w
  | n + 1, d, w => Window.copy n d (w.put (w.mem.read (w.behind d)))

/-- One turn of `Pull`: the oldest byte not yet pulled (R330). -/
def Window.front (w : Window) : Byte := w.mem.read w.rd.toNat

/-- The window after that turn (R330). -/
def Window.drop (w : Window) : Window :=
  { w with rd := BitVec.ofNat 15 ((w.rd.toNat + 1) % w.size), unread := w.unread - 1 }

/-! ## Responses and errors -/

/-- The numeric result codes (R360); `result` is 0x00 when there is no error. -/
def ErrCode.code : ErrCode → BitVec 8
  | .io => 0x10
  | .ioChunk => 0x11
  | .filterType => 0x20
  | .zlibMethod => 0x30
  | .zlibWindow => 0x31
  | .zlibFdict => 0x32
  | .blockType => 0x33
  | .storedLen => 0x34
  | .noMatch => 0x35
  | .lenCode => 0x36
  | .distCode => 0x37
  | .repeatFirst => 0x38
  | .lensOverflow => 0x39
  | .streamEnd => 0x3A
  | .windowOverrun => 0x3B
  | .distTooFar => 0x3C
  | .noMem => 0x40

/-- The number of a session state in a response (R21). -/
def SState.code : SState → BitVec 2
  | .idle => 0
  | .active => 1
  | .failed => 2
  | .done => 3

/-- The number of a state of the inflate machine (R30). -/
def IState.code : IState → BitVec 3
  | .begin => 0
  | .stored => 1
  | .fixed => 2
  | .dynamic => 3
  | .huffman => 4
  | .blockEnd => 5
  | .streamEnd => 6

/-- The command in progress ends with a response (R140, R153); the DDU waits for the next one. -/
def State.respond (row : Option (List Byte)) (s : State) : State :=
  s.setPort { s.port with
    cmd := .waiting
    resps := s.port.resps ++ [{ result := s.session.result, sstate := s.session.sstate, row := row }] }

/-- `raise Err(code)`, the one way an error is taken (R380): `result` holds the code, `sstate` is
FAILED, and the command ends with a response that carries no row. Nothing is saved and nothing is
returned to (R383). The rest of the state is dead from here on; it is left as it was at the raise
(log 7). -/
def State.raise (c : ErrCode) (s : State) : State :=
  (s.setSession { sstate := .failed, result := c.code }).respond none

/-- An error as the answer of a meaning: the next state is the one in which it has been taken. -/
def raiseErr (c : ErrCode) (s : State) : Out := .next (s.raise c)

/-! ## Reading from the stream inside a meaning -/

/-- Goes on with a value read by the reader, or takes the error the read raised. -/
def State.andThen {α : Type} (s : State) (e : Eff Reader α) (k : α → State → Out) : Out :=
  match e with
  | .ok a r => k a (s.setReader r)
  | .raise c r => raiseErr c (s.setReader r)

/-- Reads `n` bits and goes on with their number. -/
def State.withBits (s : State) (n : Nat) (k : Nat → State → Out) : Out := s.andThen (s.reader.readBits n) k

end Sys2Proof.Machine
end

