-- ==== Sys2Proof/Machine/Operands.lean ====
section
/-!
DEFINITION. Operand assembly (spec/30_encoding.md R117): every operand of a stream element, and the
constant tables of that file. Everything is unsigned and zero-extended.
-/

namespace Sys2Proof.Machine

/-- `wlog` from CINFO: W = 2^(CINFO + 8) (R101, R203). -/
def wlogOf (cinfo : BitVec 4) : BitVec 4 := cinfo + 8

/-- `hlit` = HLIT + 257 (R104). -/
def hlitOf (f : BitVec 5) : BitVec 9 := f.setWidth 9 + 257

/-- `hdist` = HDIST + 1 (R104). -/
def hdistOf (f : BitVec 5) : BitVec 6 := f.setWidth 6 + 1

/-- `hclen` = HCLEN + 4 (R104). -/
def hclenOf (f : BitVec 4) : BitVec 5 := f.setWidth 5 + 4

/-- The repeat count of `CL_REP`, 3 to 6 (R106, R217). -/
def repCount (x : Nat) : Nat := 3 + x

/-- The run of `CL_ZERO_S`, 3 to 10 (R106, R218). -/
def zeroShortCount (x : Nat) : Nat := 3 + x

/-- The run of `CL_ZERO_L`, 11 to 138 (R106, R219). -/
def zeroLongCount (x : Nat) : Nat := 11 + x

/-- A match length from its base and extra bits, 3 to 258 (R110). -/
def lengthOf (base x : Nat) : BitVec 9 := BitVec.ofNat 9 (base + x)

/-- A match distance from its base and extra bits, 1 to 32768 (R111). -/
def distanceOf (base x : Nat) : BitVec 16 := BitVec.ofNat 16 (base + x)

/-- `CLORD`, the order in which the code-length alphabet's lengths are sent (R105). -/
def clOrder : List Nat := [16, 17, 18, 0, 8, 7, 9, 6, 10, 5, 11, 4, 12, 3, 13, 2, 14, 1, 15]

/-- The fixed literal/length code lengths: 8 for 0 to 143, 9 for 144 to 255, 7 for 256 to 279, 8 for
280 to 287 (R107, R208). -/
def fixedLitLens : List Nat :=
  List.replicate 144 8 ++ List.replicate 112 9 ++ List.replicate 24 7 ++ List.replicate 8 8

/-- The fixed distance code lengths: 5 for each of the 32 symbols (R108, R208). -/
def fixedDistLens : List Nat := List.replicate 32 5

/-- The code lengths of the code-length alphabet from the values sent, in `CLORD` order; a symbol
whose length is not sent has length 0 (R213). -/
def clLensOf (vs : List Nat) : List (BitVec 3) :=
  (clOrder.zip vs).foldl (fun l p => l.set p.1 (BitVec.ofNat 3 p.2)) (List.replicate Config.ncl 0)

end Sys2Proof.Machine
end

