-- ==== Sys2Proof/Machine/Flags.lean ====
section
/-!
DEFINITION. The single-bit state (spec/10_state.md R37). The DDU has no condition codes: no element
writes a flag as a side effect. What stands here is every rule that writes one of `bfinal`,
`hdr_done`, `stored_hdr`, `pass_valid`, `cur_sel`, and the moves of `istate` that go with them
(spec/43_inflate_blocks.md R205, R206, R222; spec/45_defilter.md R341).
-/

namespace Sys2Proof.Machine

/-- The inflate registers as START leaves them (R142). -/
def Inflate.started : Inflate :=
  { istate := .begin, hdrDone := false, bfinal := false, storedHdr := false, storedRem := 0 }

/-- The zlib header has been accepted (R202). -/
def Inflate.headerDone (x : Inflate) : Inflate := { x with hdrDone := true }

/-- A block header writes `bfinal` (R204). -/
def Inflate.final (f : Bool) (x : Inflate) : Inflate := { x with bfinal := f }

/-- The control transfer `istate <- t`. -/
def Inflate.goto (t : IState) (x : Inflate) : Inflate := { x with istate := t }

/-- Into a stored block, its header still to be read (R205). -/
def Inflate.openStored (x : Inflate) : Inflate := { x with storedHdr := false, istate := .stored }

/-- LEN has been accepted; an empty block ends at once (R206). -/
def Inflate.storedLen (len : BitVec 16) (x : Inflate) : Inflate :=
  { x with storedRem := len, storedHdr := true, istate := if len = 0 then .blockEnd else x.istate }

/-- One raw byte has been copied; the last one ends the block (R207). -/
def Inflate.storedByte (x : Inflate) : Inflate :=
  { x with storedRem := x.storedRem - 1, istate := if x.storedRem - 1 = 0 then .blockEnd else x.istate }

/-- The end of a block: the stream ends after the final one (R222). -/
def Inflate.afterBlock (x : Inflate) : Inflate :=
  { x with istate := if x.bfinal then .streamEnd else .begin }

/-- The row just delivered becomes the previous row (R341). -/
def Scan.swap (x : Scan) : Scan := { x with curSel := !x.curSel }

end Sys2Proof.Machine
end

