-- ==== Sys2Proof/Machine/Huffman.lean ====
section
/-!
DEFINITION. The Huffman table builder `Build` (spec/42_huffman.md R181 to R187). `Match` is in
Machine/Ops.lean beside the reader it reads with.
-/

namespace Sys2Proof.Machine

/-- Step 1, count: how many symbols have code length `b`; length 0 counts as none (R182). -/
def lengthCount (ls : List Nat) (b : Nat) : Nat := if b = 0 then 0 else ls.count b

/-- Step 2, the first code of length `b` (R183). -/
def firstCode (ls : List Nat) : Nat → Nat
  | 0 => 0
  | b + 1 => (firstCode ls b + lengthCount ls b) * 2

/-- The bit reversal `rev_b(c)`: its bit i is bit b-1-i of `c` (R184). -/
def revBits : Nat → Nat → Nat
  | 0, _ => 0
  | b + 1, c => c % 2 * 2 ^ b + revBits b (c / 2)

/-- A table entry from a code length, a canonical code and a symbol (R184). -/
def codeEntry (b c sym : Nat) : HuffEntry := ⟨BitVec.ofNat 4 b, BitVec.ofNat 15 (revBits b c), BitVec.ofNat 9 sym⟩

/-- Step 3, assign: symbols from `sym` on in ascending order, each code followed by incrementing its
length's counter in `next` (R184). -/
def assignCodes : List Nat → Nat → List Nat → List HuffEntry
  | [], _, _ => []
  | b :: ls, sym, next =>
    if b = 0 then assignCodes ls (sym + 1) next
    else codeEntry b (next.getD b 0) sym :: assignCodes ls (sym + 1) (next.set b (next.getD b 0 + 1))

/-- The order of a table: by length, and among equal lengths by bits (R185). -/
def HuffEntry.le (x y : HuffEntry) : Bool :=
  decide (x.len.toNat < y.len.toNat) || (x.len == y.len && decide (x.bits.toNat ≤ y.bits.toNat))

/-- Puts an entry in its place in a sorted table. -/
def insertEntry (e : HuffEntry) : List HuffEntry → List HuffEntry
  | [] => [e]
  | x :: xs => if e.le x then e :: x :: xs else x :: insertEntry e xs

/-- Step 4, order: insertion sort (R185). -/
def sortEntries : List HuffEntry → List HuffEntry
  | [] => []
  | e :: es => insertEntry e (sortEntries es)

/-- The table of a code-length set, by the four steps. Of an over-subscribed set the spec gives no table (R187),
and `build`, the only way the machine and the notation take a table from, refuses it (log 8, log 18). -/
def buildTable (ls : List Nat) : List HuffEntry :=
  sortEntries (assignCodes ls 0 ((List.range (Config.maxBits + 1)).map (firstCode ls)))

/-- The Kraft sum of a code-length set, times 2^15 (R187). -/
def kraftSum : List Nat → Nat
  | [] => 0
  | b :: ls => (if b = 0 then 0 else 2 ^ (Config.maxBits - b)) + kraftSum ls

/-- `Build(L, n)` (R181): the table, or nothing where the set is over-subscribed (K > 1): there the
sources do not say what is stored and a model must refuse the run (R187, log 8). Incomplete sets are
accepted. -/
def build (ls : List Nat) : Option (List HuffEntry) :=
  if 2 ^ Config.maxBits < kraftSum ls then none else some (buildTable ls)

/-- Stores a table in its memory: entries 0 to count-1; the cells above keep what they held (R74, R32). -/
def storeTable (t old : List HuffEntry) : List HuffEntry := t ++ old.drop t.length

/-- `lit_tab` and its count (R32). -/
def Tables.setLit (t : List HuffEntry) (x : Tables) : Tables :=
  { x with litTab := storeTable t x.litTab, litN := BitVec.ofNat 9 t.length }

/-- `dist_tab` and its count (R32). -/
def Tables.setDist (t : List HuffEntry) (x : Tables) : Tables :=
  { x with distTab := storeTable t x.distTab, distN := BitVec.ofNat 6 t.length }

/-- `cl_tab` and its count (R32). -/
def Tables.setCl (t : List HuffEntry) (x : Tables) : Tables :=
  { x with clTab := storeTable t x.clTab, clN := BitVec.ofNat 5 t.length }

/-- The two real tables from their code lengths, then `istate <- HuffmanDecode` (R208, R221). -/
def loadTables (lits dists : List Nat) (s : State) : Out :=
  match build lits with
  | none => .refused .overSubscribed
  | some tl =>
    match build dists with
    | none => .refused .overSubscribed
    | some td =>
      .next ((s.setTables ((s.tables.setLit tl).setDist td)).setInflate (s.inflate.goto .huffman))

end Sys2Proof.Machine
end

