-- ==== Sys2Proof/Machine/Commands.lean ====
section
/-!
DEFINITION. The meanings of the host commands and of the trailer FINISH reads
(spec/40_host_commands.md). A command that needs the stream is started here and carried on by the
following steps until its response (log 1).
-/

namespace Sys2Proof.Machine

/-- What the legality table says of PASS_BEGIN, ROW and FINISH (R141): carried out in ACTIVE, answered
with the latched result in FAILED, without any other change, refused in IDLE and DONE. START and ABORT
are carried out in every state. -/
def State.ifLegal (s : State) (k : State → Out) : Out :=
  match s.session.sstate with
  | .active => k s
  | .failed => .next (s.respond none)
  | .idle => .refused .protocol
  | .done => .refused .protocol

/-- The reader as START leaves it: no bits buffered, the first chunk's length loaded (R142). -/
def Reader.started (chunkRem0 : BitVec 32) (r : Reader) : Reader :=
  { r with bitbuf := 0, bitcnt := 0, chunkRem := chunkRem0 }

/-- The window as START leaves it: empty and without history; its memory is not cleared (R142). -/
def Window.started (w : Window) : Window := { w with wr := 0, rd := 0, unread := 0, hist := 0 }

/-- The tables as START leaves them: empty (R142). -/
def Tables.started (t : Tables) : Tables := { t with litN := 0, distN := 0, clN := 0 }

/-- START (R142). What R41 leaves unspecified after START (`rowbytes`, `ftype`, `wlog`, the table entries, `lens`,
`cl_lens`, `hlit`, `hdist`, `hclen`, `idx`, the temporaries of R34) keeps what it held: DESIGN CHOICE, unsafe
(log 19). The two flags of the model's own are put back with the machine (log 1). -/
def execStart (chunkRem0 : BitVec 32) (stride0 : BitVec 4) (s : State) : Out :=
  if stride0.toNat < 1 ∨ Config.strideMax < stride0.toNat then .refused .operandRange
  else
    .next (State.respond none
      { s with
        session := { sstate := .active, result := 0x00 }
        reader := s.reader.started chunkRem0
        scan := { s.scan with stride := stride0, passValid := false, curSel := false }
        window := s.window.started
        inflate := Inflate.started
        tables := s.tables.started
        dyn := { s.dyn with hdrRead := false }
        temps := { s.temps with lenPend := false } })

/-- `cur`, the buffer `cur_sel` selects (R26). -/
def Scan.cur (x : Scan) : Memory := if x.curSel then x.bufB else x.bufA

/-- `prev`, the other buffer (R26). -/
def Scan.prev (x : Scan) : Memory := if x.curSel then x.bufA else x.bufB

/-- Replaces the contents of `cur`. -/
def Scan.setCur (m : Memory) (x : Scan) : Scan := if x.curSel then { x with bufB := m } else { x with bufA := m }

/-- Replaces the contents of `prev`. -/
def Scan.setPrev (m : Memory) (x : Scan) : Scan := if x.curSel then { x with bufA := m } else { x with bufB := m }

/-- The scan registers after PASS_BEGIN: `rowbytes`, `prev[0..rowbytes-1]` zeroed, `pass_valid` (R144). -/
def Scan.beginPass (rowbytes0 : BitVec 11) (x : Scan) : Scan :=
  { x.setPrev (x.prev.writeAll 0 (List.replicate rowbytes0.toNat 0)) with rowbytes := rowbytes0, passValid := true }

/-- PASS_BEGIN (R144): legality first, then the operand check (log 9). -/
def execPassBegin (rowbytes0 : BitVec 11) (s : State) : Out :=
  s.ifLegal fun s =>
    if rowbytes0.toNat < 1 ∨ Config.rowbytesMax < rowbytes0.toNat then .refused .operandRange
    else .next ((s.setScan (s.scan.beginPass rowbytes0)).respond none)

/-- ROW (R146): legal only after a PASS_BEGIN of this session. It starts `Pull(rowbytes + 1)`; the
following steps pull, and the row's filter element ends the command (log 1). -/
def execRow (s : State) : Out :=
  s.ifLegal fun s =>
    if s.scan.passValid then .next (s.setPort { s.port with cmd := .row [] })
    else .refused .protocol

/-- FINISH (R148): the next step reads the trailer (log 1). -/
def execFinish (s : State) : Out :=
  s.ifLegal fun s => .next (s.setPort { s.port with cmd := .finish })

/-- ZTRL (R148, R114): the four bytes are discarded, whatever they are; FINISH ends in DONE. -/
def execZtrl (_ : BitVec 32) (s : State) : Out :=
  .next ((s.setSession { s.session with sstate := .done }).respond none)

/-- ABORT (R150). Every other register is unspecified after it; it is left as it was (log 7). -/
def execAbort (s : State) : Out :=
  .next ((s.setSession { sstate := .idle, result := 0x00 }).respond none)

/-- The reserved command code 0: "Reserved command codes 0, 6 and 7 are refused in every state" (R141). -/
def execCmdReserved0 (_ : State) : Out := .refused .reservedCommand

/-- The reserved command code 6 (R141). -/
def execCmdReserved6 (_ : State) : Out := .refused .reservedCommand

/-- The reserved command code 7 (R141). -/
def execCmdReserved7 (_ : State) : Out := .refused .reservedCommand

end Sys2Proof.Machine
end

