-- ==== Sys2Proof/Machine/Blocks.lean ====
section
/-!
DEFINITION. The meanings of the zlib header, the block headers, stored blocks and the fixed tables
(spec/43_inflate_blocks.md R202 to R209).
-/

namespace Sys2Proof.Machine

/-- ZLIB (R202): the checks in their order, then `wlog` and `hdr_done`. FCHECK and FLEVEL are not
examined. -/
def execZlib (cm cinfo : BitVec 4) (_ : BitVec 5) (fdict : Bool) (_ : BitVec 2) (s : State) : Out :=
  if cm ≠ 8 then raiseErr .zlibMethod s
  else if 7 < cinfo.toNat then raiseErr .zlibWindow s
  else if fdict then raiseErr .zlibFdict s
  else .next ((s.setWindow { s.window with wlog := wlogOf cinfo }).setInflate s.inflate.headerDone)

/-- BLOCK with BTYPE = 0 (R204, R205). -/
def execBlockStored (bfinal : Bool) (s : State) : Out :=
  .next (s.setInflate (s.inflate.final bfinal).openStored)

/-- BLOCK with BTYPE = 1 (R204, R205). -/
def execBlockFixed (bfinal : Bool) (s : State) : Out :=
  .next (s.setInflate ((s.inflate.final bfinal).goto .fixed))

/-- BLOCK with BTYPE = 2 (R204, R205). The model's flag says that its header is still to be read. -/
def execBlockDynamic (bfinal : Bool) (s : State) : Out :=
  .next ((s.setInflate ((s.inflate.final bfinal).goto .dynamic)).setDyn { s.dyn with hdrRead := false })

/-- BLOCK with BTYPE = 3: `bfinal` has been written, then the error (R209). -/
def execBlockReserved (bfinal : Bool) (s : State) : Out :=
  raiseErr .blockType (s.setInflate (s.inflate.final bfinal))

/-- STORED_HDR (R206): NLEN must be the 16-bit complement of LEN. The fetch has aligned the reader and
read the four bytes. -/
def execStoredHdr (len nlen : BitVec 16) (s : State) : Out :=
  if len ≠ ~~~nlen then raiseErr .storedLen s
  else .next (s.setInflate (s.inflate.storedLen len))

/-- RAW (R207): one raw byte into the window. -/
def execRaw (b : Byte) (s : State) : Out :=
  .next ((s.setWindow (s.window.put b)).setInflate s.inflate.storedByte)

/-- FIXED (R208): builds the fixed tables; consumes no stream bits. -/
def execFixed (s : State) : Out := loadTables fixedLitLens fixedDistLens s

end Sys2Proof.Machine
end

