-- ==== Sys2Proof/Machine/Dynamic.lean ====
section
/-!
DEFINITION. The meanings of the dynamic block header (spec/43_inflate_blocks.md R210 to R221). The
spec's one DynamicHuffman step is several steps here: DYN, one step for each coded length, and the
step that builds the two tables once `idx` has reached `total` (log 1).
-/

namespace Sys2Proof.Machine

/-- `n` code lengths of 3 bits each, in the order they are sent (R213). -/
def Reader.readLens : Nat → Reader → Eff Reader (List Nat)
  | 0, r => .ok [] r
  | n + 1, r => (r.readBits 3).bind fun v r' => (Reader.readLens n r').bind fun vs r'' => .ok (v :: vs) r''

/-- The counts of the header, and the length array still empty (R212, R215). -/
def Dyn.counts (hlit hdist : BitVec 5) (hclen : BitVec 4) (d : Dyn) : Dyn :=
  { d with hlit := hlitOf hlit, hdist := hdistOf hdist, hclen := hclenOf hclen }

/-- DYN (R212 to R214): the counts, the code-length alphabet's lengths read in `CLORD` order, the
temporary table, and `idx <- 0`. An over-subscribed code-length set is refused (R187, log 8). -/
def execDyn (hlit hdist : BitVec 5) (hclen : BitVec 4) (s : State) : Out :=
  (s.setDyn (s.dyn.counts hlit hdist hclen)).andThen (s.reader.readLens (hclenOf hclen).toNat) fun vs s =>
    match build ((clLensOf vs).map BitVec.toNat) with
    | none => .refused .overSubscribed
    | some t =>
      .next ((s.setDyn { s.dyn with clLens := clLensOf vs, idx := 0, hdrRead := true }).setTables (s.tables.setCl t))

/-- `total` = `hlit` + `hdist`, the number of code lengths of the array (R215). -/
def Dyn.total (d : Dyn) : Nat := d.hlit.toNat + d.hdist.toNat

/-- Writes `r` equal code lengths from `idx` on and advances `idx` (R216 to R219). -/
def Dyn.fill (r : Nat) (v : BitVec 4) (d : Dyn) : Dyn :=
  { d with
    lens := d.lens.take d.idx.toNat ++ List.replicate r v ++ d.lens.drop (d.idx.toNat + r)
    idx := BitVec.ofNat 9 (d.idx.toNat + r) }

/-- The write of a run to `lens`; a cell past 319 does not exist (log 17). -/
def storeLens (r : Nat) (v : BitVec 4) (s : State) : Out :=
  if Config.nlensMax < s.dyn.idx.toNat + r then .fault .noSuchCell
  else .next (s.setDyn (s.dyn.fill r v))

/-- A repeat: the run may not end beyond `total` (R220). -/
def repeatLens (r : Nat) (v : BitVec 4) (s : State) : Out :=
  if s.dyn.total < s.dyn.idx.toNat + r then raiseErr .lensOverflow s else storeLens r v s

/-- CL_LEN (R216): the next code length is `n`. -/
def execClLen (n : BitVec 4) (s : State) : Out := storeLens 1 n s

/-- CL_REP (R217): repeats the previous length 3 to 6 times; as the first coded length it is an error,
raised before its extra bits are read. -/
def execClRep (s : State) : Out :=
  if s.dyn.idx = 0 then raiseErr .repeatFirst s
  else s.withBits 2 fun x s => repeatLens (repCount x) (s.dyn.lens.getD (s.dyn.idx.toNat - 1) 0) s

/-- CL_ZERO_S (R218): 3 to 10 zero lengths. -/
def execClZeroS (s : State) : Out := s.withBits 3 fun x s => repeatLens (zeroShortCount x) 0 s

/-- CL_ZERO_L (R219): 11 to 138 zero lengths. -/
def execClZeroL (s : State) : Out := s.withBits 7 fun x s => repeatLens (zeroLongCount x) 0 s

/-- The literal/length part of the array (R221). -/
def Dyn.litLens (d : Dyn) : List Nat := (d.lens.take d.hlit.toNat).map BitVec.toNat

/-- The distance part of the array: symbol j is cell hlit + j (R221). -/
def Dyn.distLens (d : Dyn) : List Nat := ((d.lens.drop d.hlit.toNat).take d.hdist.toNat).map BitVec.toNat

/-- The end of the header: the two real tables (R221). -/
def finishDyn (s : State) : Out :=
  loadTables s.dyn.litLens s.dyn.distLens (s.setDyn { s.dyn with hdrRead := false })

end Sys2Proof.Machine
end

