-- ==== Sys2Proof/Machine/Symbols.lean ====
section
/-!
DEFINITION. The meanings of the literal/length symbols (spec/44_inflate_symbols.md R252 to R254, R257,
R261 to R289). A length symbol reads its extra bits and sets `mlen`; its distance symbol is the next
element (log 1).
-/

namespace Sys2Proof.Machine

/-- LIT (R252): the byte goes into the window. -/
def execLit (b : Byte) (s : State) : Out := .next (s.setWindow (s.window.put b))

/-- EOB (R253). -/
def execEob (s : State) : Out := .next (s.setInflate (s.inflate.goto .blockEnd))

/-- The first line of R254: `mlen <- LBASE + ReadBits(LEXT)`. -/
def lengthSymbol (base ext : Nat) (s : State) : Out :=
  s.withBits ext fun x s => .next (s.setTemps { s.temps with mlen := lengthOf base x, lenPend := true })

/-- LEN_257 (R261). -/
def execLen257 (s : State) : Out := lengthSymbol 3 0 s

/-- LEN_258 (R262). -/
def execLen258 (s : State) : Out := lengthSymbol 4 0 s

/-- LEN_259 (R263). -/
def execLen259 (s : State) : Out := lengthSymbol 5 0 s

/-- LEN_260 (R264). -/
def execLen260 (s : State) : Out := lengthSymbol 6 0 s

/-- LEN_261 (R265). -/
def execLen261 (s : State) : Out := lengthSymbol 7 0 s

/-- LEN_262 (R266). -/
def execLen262 (s : State) : Out := lengthSymbol 8 0 s

/-- LEN_263 (R267). -/
def execLen263 (s : State) : Out := lengthSymbol 9 0 s

/-- LEN_264 (R268). -/
def execLen264 (s : State) : Out := lengthSymbol 10 0 s

/-- LEN_265 (R269). -/
def execLen265 (s : State) : Out := lengthSymbol 11 1 s

/-- LEN_266 (R270). -/
def execLen266 (s : State) : Out := lengthSymbol 13 1 s

/-- LEN_267 (R271). -/
def execLen267 (s : State) : Out := lengthSymbol 15 1 s

/-- LEN_268 (R272). -/
def execLen268 (s : State) : Out := lengthSymbol 17 1 s

/-- LEN_269 (R273). -/
def execLen269 (s : State) : Out := lengthSymbol 19 2 s

/-- LEN_270 (R274). -/
def execLen270 (s : State) : Out := lengthSymbol 23 2 s

/-- LEN_271 (R275). -/
def execLen271 (s : State) : Out := lengthSymbol 27 2 s

/-- LEN_272 (R276). -/
def execLen272 (s : State) : Out := lengthSymbol 31 2 s

/-- LEN_273 (R277). -/
def execLen273 (s : State) : Out := lengthSymbol 35 3 s

/-- LEN_274 (R278). -/
def execLen274 (s : State) : Out := lengthSymbol 43 3 s

/-- LEN_275 (R279). -/
def execLen275 (s : State) : Out := lengthSymbol 51 3 s

/-- LEN_276 (R280). -/
def execLen276 (s : State) : Out := lengthSymbol 59 3 s

/-- LEN_277 (R281). -/
def execLen277 (s : State) : Out := lengthSymbol 67 4 s

/-- LEN_278 (R282). -/
def execLen278 (s : State) : Out := lengthSymbol 83 4 s

/-- LEN_279 (R283). -/
def execLen279 (s : State) : Out := lengthSymbol 99 4 s

/-- LEN_280 (R284). -/
def execLen280 (s : State) : Out := lengthSymbol 115 4 s

/-- LEN_281 (R285). -/
def execLen281 (s : State) : Out := lengthSymbol 131 5 s

/-- LEN_282 (R286). -/
def execLen282 (s : State) : Out := lengthSymbol 163 5 s

/-- LEN_283 (R287). -/
def execLen283 (s : State) : Out := lengthSymbol 195 5 s

/-- LEN_284 (R288). -/
def execLen284 (s : State) : Out := lengthSymbol 227 5 s

/-- LEN_285 (R289). -/
def execLen285 (s : State) : Out := lengthSymbol 258 0 s

/-- Symbol 286 is no length (R257). -/
def execLenInvalid286 (s : State) : Out := raiseErr .lenCode s

/-- Symbol 287 is no length (R257). -/
def execLenInvalid287 (s : State) : Out := raiseErr .lenCode s

end Sys2Proof.Machine
end

