-- ==== Sys2Proof/Machine/Distances.lean ====
section
/-!
DEFINITION. The meanings of the distance symbols (spec/44_inflate_symbols.md R254 to R260, R290 to
R319): the distance, its two checks, and the copy.
-/

namespace Sys2Proof.Machine

/-- The checks and the copy that end a match (R254): a distance beyond the data (R259), then a match
longer than the window (R260), then `Copy` (R256). -/
def copyMatch (s : State) : Out :=
  if s.window.hist.toNat < s.temps.mdist.toNat then raiseErr .distTooFar s
  else if s.window.size < s.temps.mlen.toNat then raiseErr .windowOverrun s
  else
    .next ((s.setWindow (s.window.copy s.temps.mlen.toNat s.temps.mdist.toNat)).setTemps
      { s.temps with lenPend := false })

/-- R255: `mdist <- DBASE + ReadBits(DEXT)`, then the rest of R254. -/
def distSymbol (base ext : Nat) (s : State) : Out :=
  s.withBits ext fun x s => copyMatch (s.setTemps { s.temps with mdist := distanceOf base x })

/-- DIST_0 (R290). -/
def execDist0 (s : State) : Out := distSymbol 1 0 s

/-- DIST_1 (R291). -/
def execDist1 (s : State) : Out := distSymbol 2 0 s

/-- DIST_2 (R292). -/
def execDist2 (s : State) : Out := distSymbol 3 0 s

/-- DIST_3 (R293). -/
def execDist3 (s : State) : Out := distSymbol 4 0 s

/-- DIST_4 (R294). -/
def execDist4 (s : State) : Out := distSymbol 5 1 s

/-- DIST_5 (R295). -/
def execDist5 (s : State) : Out := distSymbol 7 1 s

/-- DIST_6 (R296). -/
def execDist6 (s : State) : Out := distSymbol 9 2 s

/-- DIST_7 (R297). -/
def execDist7 (s : State) : Out := distSymbol 13 2 s

/-- DIST_8 (R298). -/
def execDist8 (s : State) : Out := distSymbol 17 3 s

/-- DIST_9 (R299). -/
def execDist9 (s : State) : Out := distSymbol 25 3 s

/-- DIST_10 (R300). -/
def execDist10 (s : State) : Out := distSymbol 33 4 s

/-- DIST_11 (R301). -/
def execDist11 (s : State) : Out := distSymbol 49 4 s

/-- DIST_12 (R302). -/
def execDist12 (s : State) : Out := distSymbol 65 5 s

/-- DIST_13 (R303). -/
def execDist13 (s : State) : Out := distSymbol 97 5 s

/-- DIST_14 (R304). -/
def execDist14 (s : State) : Out := distSymbol 129 6 s

/-- DIST_15 (R305). -/
def execDist15 (s : State) : Out := distSymbol 193 6 s

/-- DIST_16 (R306). -/
def execDist16 (s : State) : Out := distSymbol 257 7 s

/-- DIST_17 (R307). -/
def execDist17 (s : State) : Out := distSymbol 385 7 s

/-- DIST_18 (R308). -/
def execDist18 (s : State) : Out := distSymbol 513 8 s

/-- DIST_19 (R309). -/
def execDist19 (s : State) : Out := distSymbol 769 8 s

/-- DIST_20 (R310). -/
def execDist20 (s : State) : Out := distSymbol 1025 9 s

/-- DIST_21 (R311). -/
def execDist21 (s : State) : Out := distSymbol 1537 9 s

/-- DIST_22 (R312). -/
def execDist22 (s : State) : Out := distSymbol 2049 10 s

/-- DIST_23 (R313). -/
def execDist23 (s : State) : Out := distSymbol 3073 10 s

/-- DIST_24 (R314). -/
def execDist24 (s : State) : Out := distSymbol 4097 11 s

/-- DIST_25 (R315). -/
def execDist25 (s : State) : Out := distSymbol 6145 11 s

/-- DIST_26 (R316). -/
def execDist26 (s : State) : Out := distSymbol 8193 12 s

/-- DIST_27 (R317). -/
def execDist27 (s : State) : Out := distSymbol 12289 12 s

/-- DIST_28 (R318). -/
def execDist28 (s : State) : Out := distSymbol 16385 13 s

/-- DIST_29 (R319). -/
def execDist29 (s : State) : Out := distSymbol 24577 13 s

/-- Symbol 30 is no distance (R258). -/
def execDistInvalid30 (s : State) : Out := raiseErr .distCode s

/-- Symbol 31 is no distance (R258). -/
def execDistInvalid31 (s : State) : Out := raiseErr .distCode s

end Sys2Proof.Machine
end

