-- ==== Sys2Proof/Machine/Filters.lean ====
section
/-!
DEFINITION. The meanings of the filter types (spec/45_defilter.md R333 to R343): the row in `cur` is
corrected in place, delivered, and becomes `prev`. The end of R146 is here: after the filter element
of a row the ROW command has ended.
-/

namespace Sys2Proof.Machine

/-- A predictor: from left, above and upper left. -/
abbrev Predictor := Byte → Byte → Byte → Byte

/-- R334: nothing is predicted. -/
def predictNone : Predictor := fun _ _ _ => 0

/-- R335: left. -/
def predictSub : Predictor := fun a _ _ => a

/-- R336: above. -/
def predictUp : Predictor := fun _ b _ => b

/-- R337: half the sum of left and above; the sum does not wrap. -/
def predictAvg : Predictor := fun a b _ => BitVec.ofNat 8 ((a.toNat + b.toNat) / 2)

/-- R338: of left, above and upper left, the one nearest to a + b - c; ties in this order. Unbounded
integers: no intermediate wraps (R343). -/
def predictPaeth : Predictor := fun a b c =>
  let p : Int := (a.toNat : Int) + b.toNat - c.toNat
  let pa := (p - a.toNat).natAbs
  let pb := (p - b.toNat).natAbs
  let pc := (p - c.toNat).natAbs
  if pa ≤ pb ∧ pa ≤ pc then a else if pb ≤ pc then b else c

/-- The byte `stride` positions to the left of offset `x` of a row, 0 where there is none (R333). -/
def leftOf (m : Memory) (stride x : Nat) : Byte := if stride ≤ x then m.read (x - stride) else 0

/-- `Defilter()` from offset `x` on, for `n` bytes, in increasing order (R340): the left neighbour is
the byte already corrected. -/
def defilter (predict : Predictor) (stride : Nat) (prev : Memory) : Nat → Nat → Memory → Memory
  | _, 0, cur => cur
  | x, n + 1, cur =>
    let p := predict (leftOf cur stride x) (prev.read x) (leftOf prev stride x)
    defilter predict stride prev (x + 1) n (cur.write x (cur.read x + p))

/-- `cur` after the whole row has been corrected. -/
def Scan.corrected (predict : Predictor) (x : Scan) : Memory :=
  defilter predict x.stride.toNat x.prev 0 x.rowbytes.toNat x.cur

/-- Whether a row of `rowbytes` bytes lies in the row buffers, which have 2040 cells (R26, log 17). -/
def Scan.fits (x : Scan) : Bool := decide (x.rowbytes.toNat ≤ Config.rowbytesMax)

/-- The end of ROW (R146): correct the row in place, deliver it, swap the buffers (R341). -/
def deliverRow (predict : Predictor) (s : State) : Out :=
  if s.scan.fits then
    let cur := s.scan.corrected predict
    .next ((s.setScan (s.scan.setCur cur).swap).respond (some (cur.readAll 0 s.scan.rowbytes.toNat)))
  else .fault .noSuchCell

/-- F_NONE (R334). -/
def execFNone (s : State) : Out := deliverRow predictNone s

/-- F_SUB (R335). -/
def execFSub (s : State) : Out := deliverRow predictSub s

/-- F_UP (R336). -/
def execFUp (s : State) : Out := deliverRow predictUp s

/-- F_AVG (R337). -/
def execFAvg (s : State) : Out := deliverRow predictAvg s

/-- F_PAETH (R338). -/
def execFPaeth (s : State) : Out := deliverRow predictPaeth s

/-- F_INVALID (R339): the error comes after the whole row has been pulled and before any byte is
corrected; no row is delivered and the buffers are not swapped. -/
def execFInvalid (_ : Byte) (s : State) : Out := raiseErr .filterType s

end Sys2Proof.Machine
end

