-- ==== Sys2Proof/Machine/Fetch.lean ====
section
/-!
DEFINITION. What a step does next (spec/43_inflate_blocks.md R200, spec/45_defilter.md R330,
spec/40_host_commands.md R140): it takes the next command of the host, or reads the next element of
the running command, or does one of the steps that read no element. Also `place`, which puts an
encoded element where the machine will read it next.
-/

namespace Sys2Proof.Machine

/-- An element to carry out, with the state after its bits were read; or a step without one. -/
inductive Fetched where
  | instr (i : Instr) (s : State)
  | done (o : Out)

/-- Decodes what has been read. A literal/length symbol above 287 and a distance symbol above 31 fall
under the same `else` as the invalid symbols (R251, R254); a code-length symbol above 18 has no case
(R215, log 17). -/
def decodeAt (e : Element) (s : State) : Fetched :=
  match decode e with
  | .ok i => .instr i s
  | .error .litLenSymbol => .done (raiseErr .lenCode s)
  | .error .distSymbol => .done (raiseErr .distCode s)
  | .error .clSymbol => .done (.refused .noSuchSymbol)
  | .error .wordTooWide => .done (.refused .noSuchSymbol)

/-- Reads the word of an element of the given format, or takes the error the read raises. -/
def fetchWord (f : Format) (e : Eff Reader Nat) (s : State) : Fetched :=
  match e with
  | .ok w r => decodeAt { fmt := f, word := w } (s.setReader r)
  | .raise c r => .done (raiseErr c (s.setReader r))

/-- `ReadBytes(n)` as a word. -/
def Reader.readWord (n : Nat) (r : Reader) : Eff Reader Nat :=
  (r.readBytes n).bind fun bs r' => .ok (wordOfBytes bs) r'

/-- `Match(T)` as a word: the symbol. -/
def Reader.readSymbol (t : List HuffEntry) (r : Reader) : Eff Reader Nat :=
  (r.matchSymbol t).bind fun v r' => .ok v.toNat r'

/-- `BlockEnd` (R222): consumes and produces nothing. -/
def stepBlockEnd (s : State) : Out := .next (s.setInflate s.inflate.afterBlock)

/-- `StreamEnd` (R223): a step can only be a request for bytes the stream does not have. -/
def stepStreamEnd (s : State) : Out := raiseErr .streamEnd s

/-- The next literal/length symbol, kept in `sym` (R34, R251). -/
def fetchLitLen (s : State) : Fetched :=
  match s.reader.matchSymbol s.tables.lit with
  | .ok v r => decodeAt { fmt := .litLen, word := v.toNat } ((s.setReader r).setTemps { s.temps with sym := v })
  | .raise c r => .done (raiseErr c (s.setReader r))

/-- The next element of the inflate machine, by `istate` (R200). -/
def fetchInflate (s : State) : Fetched :=
  match s.inflate.istate with
  | .begin =>
    if s.inflate.hdrDone then fetchWord .bhdr (s.reader.readBits 3) s
    else fetchWord .zhdr (s.reader.readWord 2) s
  | .stored =>
    if s.inflate.storedHdr then fetchWord .raw (s.reader.readWord 1) s
    else fetchWord .storedHdr (s.reader.alignByte.readWord 4) s
  | .fixed => .instr .fixed s
  | .dynamic =>
    if s.dyn.hdrRead then
      if s.dyn.idx.toNat < s.dyn.total then fetchWord .clSym (s.reader.readSymbol s.tables.cl) s
      else .done (finishDyn s)
    else fetchWord .dynHdr (s.reader.readBits 14) s
  | .huffman =>
    if s.temps.lenPend then fetchWord .dist (s.reader.readSymbol s.tables.dist) s
    else fetchLitLen s
  | .blockEnd => .done (stepBlockEnd s)
  | .streamEnd => .done (stepStreamEnd s)

/-- One turn of `Pull`: the oldest unread byte joins the bytes pulled (R330). -/
def pullByte (d : List Byte) (s : State) : Out :=
  .next ((s.setWindow s.window.drop).setPort { s.port with cmd := .row (d ++ [s.window.front]) })

/-- The scan registers once the row has been pulled: `ftype` is its first byte, `cur` holds the rest
(R146, R332). -/
def Scan.load (f : Byte) (d : List Byte) (x : Scan) : Scan :=
  { x.setCur (x.cur.writeAll 0 d) with ftype := f }

/-- The whole row has been pulled: its first byte is the filter element (R332). -/
def fetchFilter (d : List Byte) (s : State) : Fetched :=
  match d with
  | [] => .done (.fault .noSuchCell)
  | f :: bytes =>
    if s.scan.fits then decodeAt { fmt := .filt, word := f.toNat } (s.setScan (s.scan.load f bytes))
    else .done (.fault .noSuchCell)

/-- What the machine does next. Waiting without a command, it keeps its state (R385, R390). A running
ROW pulls until it has `rowbytes + 1` bytes, running the inflate machine only when no byte is unread
(R330). -/
def fetch (s : State) : Fetched :=
  match s.port.cmd with
  | .waiting =>
    match s.port.cmds with
    | [] => .done (.next s)
    | q :: qs => .instr (decodeCommand q.code q.ops) (s.setPort { s.port with cmds := qs })
  | .finish => fetchWord .ztrl (s.reader.readWord 4) s
  | .row d =>
    if s.scan.rowbytes.toNat < d.length then fetchFilter d s
    else if s.window.unread = 0 then fetchInflate s
    else .done (pullByte d s)

/-! ## Putting an element where the machine reads it next -/

/-- `n` bytes of a word, the least significant first. -/
def bytesOfWord : Nat → Nat → List Byte
  | 0, _ => []
  | n + 1, w => BitVec.ofNat 8 w :: bytesOfWord n (w / 2 ^ 8)

/-- A reader at a byte boundary whose source answers with the given bytes and then zeros, all in one
chunk. -/
def Reader.serving (bytes : List Byte) (r : Reader) : Reader :=
  { r with
    bitbuf := 0
    bitcnt := 0
    chunkRem := BitVec.ofNat 32 (bytes.length + 16)
    src := { r.src with bytes := (bytes ++ List.replicate 16 0).map some } }

/-- A table in which the one code, the bit 0, means the given symbol. -/
def oneCodeTable (w : Nat) : List HuffEntry := [codeEntry 1 0 w]

/-- The state set up so that the next step reads the given element and carries it out (log 4): a
session is open and a pass announced; a command is the next the host issues; any other element is the
next the running ROW (or FINISH) reads, its bits followed by zeros in the stream. -/
def place (e : Element) (s : State) : State :=
  let t := (s.setSession { s.session with sstate := .active }).setScan { s.scan with passValid := true }
  let row := (t.setPort { t.port with cmd := .row [] }).setWindow { t.window with unread := 0 }
  match e.fmt with
  | .hostCmd =>
    t.setPort { t.port with cmd := .waiting, cmds := { code := BitVec.ofNat 3 e.word, ops := e.ops } :: t.port.cmds }
  | .zhdr =>
    (row.setReader (row.reader.serving (bytesOfWord 2 e.word))).setInflate
      { row.inflate with istate := .begin, hdrDone := false }
  | .bhdr =>
    (row.setReader (row.reader.serving (bytesOfWord 1 e.word))).setInflate
      { row.inflate with istate := .begin, hdrDone := true }
  | .storedHdr =>
    (row.setReader (row.reader.serving (bytesOfWord 4 e.word))).setInflate
      { row.inflate with istate := .stored, storedHdr := false }
  | .raw =>
    (row.setReader (row.reader.serving (bytesOfWord 1 e.word))).setInflate
      { row.inflate with istate := .stored, storedHdr := true, storedRem := 1 }
  | .fixed => row.setInflate { row.inflate with istate := .fixed }
  | .dynHdr =>
    ((row.setReader (row.reader.serving (bytesOfWord 2 e.word))).setInflate
      { row.inflate with istate := .dynamic }).setDyn { row.dyn with hdrRead := false }
  | .clSym =>
    (((row.setReader (row.reader.serving [])).setInflate { row.inflate with istate := .dynamic }).setDyn
      { row.dyn with hlit := 257, hdist := 1, idx := 0, hdrRead := true }).setTables
      { row.tables with clTab := oneCodeTable e.word, clN := 1 }
  | .litLen =>
    (((row.setReader (row.reader.serving [])).setInflate { row.inflate with istate := .huffman }).setTemps
      { row.temps with lenPend := false }).setTables { row.tables with litTab := oneCodeTable e.word, litN := 1 }
  | .dist =>
    (((row.setReader (row.reader.serving [])).setInflate { row.inflate with istate := .huffman }).setTemps
      { row.temps with lenPend := true }).setTables { row.tables with distTab := oneCodeTable e.word, distN := 1 }
  | .filt =>
    (row.setScan { row.scan with rowbytes := 1 }).setPort
      { row.port with cmd := .row [BitVec.ofNat 8 e.word, 0] }
  | .ztrl => (t.setReader (t.reader.serving (bytesOfWord 4 e.word))).setPort { t.port with cmd := .finish }

end Sys2Proof.Machine
end

