-- ==== Sys2Proof/Machine/Step.lean ====
section
/-!
DEFINITION. One step of the machine: read the next element and carry it out. A command of the host
runs over several steps, without any other command between them (log 1).
-/

namespace Sys2Proof.Machine

/-- One step. -/
def step (s : State) : Host.Outcome State Fault Refusal :=
  match fetch s with
  | .instr i s' => exec i s'
  | .done o => o

/-- The state in which the next step reads and runs the element of a bare table word (log 4). -/
def State.withFetchWord (s : State) (nbits w : Nat) : State := place (tableElement nbits w) s

end Sys2Proof.Machine
end

