-- ==== Sys2Proof/Machine/Assemble.lean ====
section
/-!
DEFINITION. The stream notation of spec/30_encoding.md R118 and R119, as data: lines that encode to
bits in stream order, packed into bytes least significant bit first. It is how a stream is written
for the machine; no step uses it.
-/

namespace Sys2Proof.Machine

/-- `BITS v n`: the number v in n bits, bit 0 first (R76, R118). -/
def bitsOf : Nat → Nat → List Bool
  | 0, _ => []
  | n + 1, v => (v % 2 == 1) :: bitsOf n (v / 2)

/-- `CODE c n`: the n-bit code c, most significant bit first (R77, R118). -/
def codeBits (n c : Nat) : List Bool := (bitsOf n c).reverse

/-- The number whose bits, bit 0 first, are given. -/
def numberOf : List Bool → Nat
  | [] => 0
  | b :: bs => b.toNat + 2 * numberOf bs

/-- Bits packed into `n` bytes, least significant bit first, zero bits where there are no more. -/
def packBytes : Nat → List Bool → List Byte
  | 0, _ => []
  | n + 1, bs => BitVec.ofNat 8 (numberOf (bs.take 8)) :: packBytes n (bs.drop 8)

/-- Bits packed into as many bytes as they need, with zero padding (R118). -/
def packBits (bs : List Bool) : List Byte := packBytes ((bs.length + 7) / 8) bs

/-- The zero bits up to the next byte boundary after `k` bits. -/
def padding (k : Nat) : List Bool := List.replicate ((8 - k % 8) % 8) false

/-- The code of a symbol in a table, in stream order: a stored pattern is already reversed (R118, R184). -/
def codeOf (t : List HuffEntry) (sym : Nat) : Option (List Bool) :=
  (t.find? fun e => e.sym.toNat == sym).map fun e => bitsOf e.len.toNat e.bits.toNat

/-- `LBASE` and `LEXT` of the length symbols 257 to 285, in order (R110). -/
def lengthRows : List (Nat × Nat) :=
  [(3, 0), (4, 0), (5, 0), (6, 0), (7, 0), (8, 0), (9, 0), (10, 0), (11, 1), (13, 1), (15, 1), (17, 1),
   (19, 2), (23, 2), (27, 2), (31, 2), (35, 3), (43, 3), (51, 3), (59, 3), (67, 4), (83, 4), (99, 4), (115, 4),
   (131, 5), (163, 5), (195, 5), (227, 5), (258, 0)]

/-- `DBASE` and `DEXT` of the distance symbols 0 to 29, in order (R111). -/
def distanceRows : List (Nat × Nat) :=
  [(1, 0), (2, 0), (3, 0), (4, 0), (5, 1), (7, 1), (9, 2), (13, 2), (17, 3), (25, 3), (33, 4), (49, 4),
   (65, 5), (97, 5), (129, 6), (193, 6), (257, 7), (385, 7), (513, 8), (769, 8), (1025, 9), (1537, 9),
   (2049, 10), (3073, 10), (4097, 11), (6145, 11), (8193, 12), (12289, 12), (16385, 13), (24577, 13)]

/-- The index of the last row whose base is at most `v`: how many bases are, less one (R119). -/
def lastRow (rows : List (Nat × Nat)) (v : Nat) : Nat := rows.countP (fun p => decide (p.1 ≤ v)) - 1

/-- `MATCH len=…`: the largest length symbol with `LBASE ≤ len`, except that 258 uses 285, and its
extra bits (R119). -/
def matchLength (len : Nat) : Nat × Nat :=
  let k := lastRow lengthRows len
  (257 + k, len - (lengthRows.getD k (0, 0)).1)

/-- `MATCH dist=…`: the largest distance symbol with `DBASE ≤ dist`, and its extra bits (R119). -/
def matchDistance (dist : Nat) : Nat × Nat :=
  let k := lastRow distanceRows dist
  (k, dist - (distanceRows.getD k (0, 0)).1)

/-- The lines of the notation (R118). -/
inductive Line where
  | zlib (cinfo cm fdict flevel : Nat) (fcheck : Option Nat)
  | block (final : Bool) (type : Nat)
  | storedHdr (len : Nat) (nlen : Option Nat)
  | raw (bytes : List Byte)
  | dyn (hlit hdist hclen : Nat) (cl : List Nat)
  | clLen (n : Nat)
  | clRep (x : Nat)
  | clZeroS (x : Nat)
  | clZeroL (x : Nat)
  | lit (b : Nat)
  | eob
  | len (sym extra : Nat)
  | dist (sym extra : Nat)
  | bits (v n : Nat)
  | code (c n : Nat)
  | adler (bytes : List Byte)
deriving DecidableEq, Repr

/-- The extra-field width of a symbol in R110 or R111; 0 for the symbols without a row there (286, 287, 30, 31). -/
def extraWidth (rows : List (Nat × Nat)) (k : Nat) : Nat := (rows.getD k (0, 0)).2

/-- Every number of a line is in the range R118 gives it, or, where R118 gives none, fits the field of the
line's own rule (R103, R106, R109 to R111, R114): an extra field its width, `BITS v n` and `CODE c n` their n
bits. The `cl` list of a DYN line holds `hclen` lengths, an ADLER line 4 bytes. LEN takes the symbols 257 to
287 and DIST 0 to 31. -/
def Line.wf : Line → Bool
  | .zlib cinfo cm fdict flevel fcheck =>
    decide (cinfo < 16 ∧ cm < 16 ∧ fdict < 2 ∧ flevel < 4) && fcheck.all (fun x => decide (x < 32))
  | .block _ type => decide (type < 4)
  | .storedHdr n nlen => decide (n < 2 ^ 16) && nlen.all (fun x => decide (x < 2 ^ 16))
  | .raw _ => true
  | .dyn hlit hdist hclen cl =>
    decide (257 ≤ hlit ∧ hlit ≤ 288 ∧ 1 ≤ hdist ∧ hdist ≤ 32 ∧ 4 ≤ hclen ∧ hclen ≤ 19 ∧ cl.length = hclen) &&
      cl.all (fun x => decide (x < 8))
  | .clLen n => decide (n < 16)
  | .clRep x => decide (3 ≤ x ∧ x ≤ 6)
  | .clZeroS x => decide (3 ≤ x ∧ x ≤ 10)
  | .clZeroL x => decide (11 ≤ x ∧ x ≤ 138)
  | .lit b => decide (b < 256)
  | .eob => true
  | .len sym extra => decide (257 ≤ sym ∧ sym < 288 ∧ extra < 2 ^ extraWidth lengthRows (sym - 257))
  | .dist sym extra => decide (sym < 32 ∧ extra < 2 ^ extraWidth distanceRows sym)
  | .bits v n => decide (v < 2 ^ n)
  | .code c n => decide (c < 2 ^ n)
  | .adler bytes => decide (bytes.length = 4)

/-- What the assembler carries from line to line: the bits so far, the tables in force, and the code
lengths of a dynamic header that is still open, with their number. -/
structure Asm where
  out : List Bool
  lit : List HuffEntry
  dist : List HuffEntry
  cl : List HuffEntry
  hlit : Nat
  lens : List Nat
  total : Nat
deriving DecidableEq, Repr

/-- An assembler before its first line. -/
def Asm.start : Asm := { out := [], lit := [], dist := [], cl := [], hlit := 0, lens := [], total := 0 }

/-- The table in force after lines that give these code lengths (R118). Of an over-subscribed set R187 leaves
the codes unspecified and forbids inventing them. DESIGN CHOICE (log 18): such a set gives no symbol a code,
so a later line that names one encodes to nothing. -/
def notationTable (ls : List Nat) : List HuffEntry := (build ls).getD []

/-- Appends bits. -/
def Asm.emit (bs : List Bool) (a : Asm) : Asm := { a with out := a.out ++ bs }

/-- Appends a symbol's code in a table and an extra field; nothing if the table has no such code. -/
def Asm.symbol (t : List HuffEntry) (sym ext v : Nat) (a : Asm) : Option Asm :=
  (codeOf t sym).map fun bs => a.emit (bs ++ bitsOf ext v)

/-- Records coded lengths; once the header has all of them the two tables are in force (R221), which for an
over-subscribed set hold no code, and lengths beyond the total are dropped (DESIGN CHOICE, log 18). -/
def Asm.record (vs : List Nat) (a : Asm) : Asm :=
  let ls := a.lens ++ vs
  if ls.length < a.total then { a with lens := ls }
  else { a with lens := []
                lit := notationTable (ls.take a.hlit)
                dist := notationTable ((ls.drop a.hlit).take (a.total - a.hlit)) }

/-- The bits of FCHECK that make CMF·256 + FLG a multiple of 31 (R118). -/
def fcheckOf (cmf flg : Nat) : Nat := (31 - (cmf * 256 + flg) % 31) % 31

/-- The bits of a line whose numbers are in their ranges (R118); nothing where the line names a symbol without
a code in the table in force, as after an over-subscribed set. A CL_REP before any length repeats 0, and a BLOCK
line of another type than 1 leaves the tables as they are (DESIGN CHOICE, log 18). -/
def Asm.write (a : Asm) : Line → Option Asm
  | .zlib cinfo cm fdict flevel fcheck =>
    let cmf := cm + 16 * cinfo
    let flg := 32 * fdict + 64 * flevel
    some (a.emit (bitsOf 8 cmf ++ bitsOf 8 (flg + fcheck.getD (fcheckOf cmf flg))))
  | .block final type =>
    let b := a.emit (bitsOf 1 final.toNat ++ bitsOf 2 type)
    some (if type = 1 then { b with lit := notationTable fixedLitLens, dist := notationTable fixedDistLens } else b)
  | .storedHdr len nlen =>
    some (a.emit (padding a.out.length ++ bitsOf 16 len ++ bitsOf 16 (nlen.getD (2 ^ 16 - 1 - len))))
  | .raw bytes => some (a.emit (bytes.flatMap fun b => bitsOf 8 b.toNat))
  | .dyn hlit hdist hclen cl =>
    let b := a.emit (bitsOf 5 (hlit - 257) ++ bitsOf 5 (hdist - 1) ++ bitsOf 4 (hclen - 4) ++ cl.flatMap (bitsOf 3))
    some { b with cl := notationTable ((clLensOf cl).map BitVec.toNat), hlit := hlit, lens := [], total := hlit + hdist }
  | .clLen n => (a.symbol a.cl n 0 0).map (Asm.record [n])
  | .clRep x => (a.symbol a.cl 16 2 (x - 3)).map (Asm.record (List.replicate x (a.lens.getLastD 0)))
  | .clZeroS x => (a.symbol a.cl 17 3 (x - 3)).map (Asm.record (List.replicate x 0))
  | .clZeroL x => (a.symbol a.cl 18 7 (x - 11)).map (Asm.record (List.replicate x 0))
  | .lit b => a.symbol a.lit b 0 0
  | .eob => a.symbol a.lit 256 0 0
  | .len sym extra => a.symbol a.lit sym (extraWidth lengthRows (sym - 257)) extra
  | .dist sym extra => a.symbol a.dist sym (extraWidth distanceRows sym) extra
  | .bits v n => some (a.emit (bitsOf n v))
  | .code c n => some (a.emit (codeBits n c))
  | .adler bytes => some (a.emit (padding a.out.length ++ bytes.flatMap fun b => bitsOf 8 b.toNat))

/-- Encodes one line (R118). R118 gives no bits to a line with a number outside its range, or with a list of
another length than the line says. DESIGN CHOICE (log 18): such a line encodes to nothing. -/
def Asm.line (a : Asm) (l : Line) : Option Asm := if l.wf then a.write l else none

/-- Encodes lines one after another. -/
def Asm.lines : Asm → List Line → Option Asm
  | a, [] => some a
  | a, l :: ls => (a.line l).bind fun b => Asm.lines b ls

/-- The bytes of a stream written in the notation; nothing if a line is outside R118's ranges or names a symbol
the table in force has no code for (DESIGN CHOICE, log 18). -/
def assemble (ls : List Line) : Option (List Byte) := (Asm.start.lines ls).map fun a => packBits a.out

/-- `MATCH len=… dist=…` (R119). DESIGN CHOICE (log 18): a length above 258 or a distance above 32768 gives an
extra field that does not fit, so that `assemble` answers nothing, and a length below 3 or a distance of 0 is
written as 3 or 1. -/
def Line.pair (len dist : Nat) : List Line :=
  [.len (matchLength len).1 (matchLength len).2, .dist (matchDistance dist).1 (matchDistance dist).2]

/-- `STORED final=… b0 b1 …` (R119). Of more than 65535 bytes the length does not fit, and `assemble` answers
nothing (DESIGN CHOICE, log 18). -/
def Line.storedBlock (final : Bool) (bytes : List Byte) : List Line :=
  [.block final 0, .storedHdr bytes.length none, .raw bytes]

end Sys2Proof.Machine
end

