-- ==== Sys2Proof/Safety.lean ====
section
/-!
DEFINITION. What counts as a sound state and a safe run, in the terms the statements use: the
invariants the spec states (spec/10_state.md R29, spec/41_bitstream_reader.md R168) and the ranges it
gives (R38; spec/93_implementation_defined.md U11), and the host's side of the protocol
(spec/40_host_commands.md R141, R152; spec/70_reset_and_hazards.md R413).
-/

namespace Sys2Proof.Machine

/-! ## The reader -/

/-- Between two operations at most 7 bits are buffered, and no bit above them is set (R168, R23). -/
def Reader.Tidy (r : Reader) : Prop := r.bitcnt.toNat ≤ 7 ∧ r.bitbuf.toNat < 2 ^ r.bitcnt.toNat

/-- The bytes the source still answers with before its first failure. -/
def answeredBytes : List (Option Byte) → List Byte
  | some b :: as => b :: answeredBytes as
  | _ => []

/-- The bits of a byte in stream order (R10, R75). -/
def bitsOfByte (b : Byte) : List Bool := bitsOf 8 b.toNat

/-- The payload bits still to be consumed, in stream order: those buffered (R23), then those of the
bytes the source still answers with. -/
def Reader.streamBits (r : Reader) : List Bool :=
  bitsOf r.bitcnt.toNat r.bitbuf.toNat ++ (answeredBytes r.src.bytes).flatMap bitsOfByte

/-- How many payload bits are left. -/
def bitsLeft (r : Reader) : Nat := r.streamBits.length

/-- The current chunk still holds every byte that the next `n` bits need, so no hop is made for them. -/
def Reader.WithinChunk (n : Nat) (r : Reader) : Prop := n ≤ r.bitcnt.toNat + 8 * r.chunkRem.toNat

/-! ## The window -/

/-- R29, with the ranges of the cursors and of `wlog` (R27, R28). -/
structure Window.Sound (w : Window) : Prop where
  wlog_ge : 8 ≤ w.wlog.toNat
  rd_lt : w.rd.toNat < w.size
  ring : (w.rd.toNat + w.unread.toNat) % w.size = w.wr.toNat
  unread_le_hist : w.unread.toNat ≤ w.hist.toNat
  hist_le_size : w.hist.toNat ≤ w.size
  unread_le_match : w.unread.toNat ≤ Config.matchMax

/-- The window is sound; before the zlib header it is empty and the machine is in `Begin`; and when a
distance symbol is awaited the length before it is a legal one. -/
structure State.WindowInv (s : State) : Prop where
  sound : s.window.Sound
  fresh : s.inflate.hdrDone = false →
    s.inflate.istate = .begin ∧ s.window.wr = 0 ∧ s.window.rd = 0 ∧ s.window.unread = 0 ∧ s.window.hist = 0
  pending : s.temps.lenPend = true →
    s.inflate.istate = .huffman ∧ 3 ≤ s.temps.mlen.toNat ∧ s.temps.mlen.toNat ≤ Config.matchMax

/-! ## Memories -/

/-- The three byte memories are in canonical form. -/
def State.MemoryInv (s : State) : Prop :=
  s.window.mem.wf = true ∧ s.scan.bufA.wf = true ∧ s.scan.bufB.wf = true

/-- No cell is listed that the memory does not have. -/
def Memory.Within (m : Memory) (size : Nat) : Prop := ∀ c ∈ m, c.1 < size

/-- Only cells that exist are listed (R26, R27). -/
def State.CellsInv (s : State) : Prop :=
  s.window.mem.Within Config.winMax ∧ s.scan.bufA.Within Config.rowbytesMax ∧ s.scan.bufB.Within Config.rowbytesMax

/-! ## Ranges -/

/-- A table memory holds at most `cap` entries, the table in force is part of it, and every stored
entry has a code length of at least 1 and a symbol of its alphabet (R32, R180). -/
structure TableInv (cap : Nat) (t : List HuffEntry) (n : Nat) : Prop where
  count_le : n ≤ t.length
  length_le : t.length ≤ cap
  entry : ∀ e ∈ t, 1 ≤ e.len.toNat ∧ e.sym.toNat < cap

/-- The ranges of R38 and R33. -/
structure State.RangeInv (s : State) : Prop where
  stride_ge : 1 ≤ s.scan.stride.toNat
  stride_le : s.scan.stride.toNat ≤ Config.strideMax
  rowbytes_ge : 1 ≤ s.scan.rowbytes.toNat
  rowbytes_le : s.scan.rowbytes.toNat ≤ Config.rowbytesMax
  lit : TableInv Config.nlitMax s.tables.litTab s.tables.litN.toNat
  dist : TableInv Config.ndistMax s.tables.distTab s.tables.distN.toNat
  cl : TableInv Config.ncl s.tables.clTab s.tables.clN.toNat
  lens_length : s.dyn.lens.length = Config.nlensMax
  clLens_length : s.dyn.clLens.length = Config.ncl
  hlit_ge : 257 ≤ s.dyn.hlit.toNat
  hlit_le : s.dyn.hlit.toNat ≤ 288
  hdist_ge : 1 ≤ s.dyn.hdist.toNat
  hdist_le : s.dyn.hdist.toNat ≤ 32
  hclen_ge : 4 ≤ s.dyn.hclen.toNat
  hclen_le : s.dyn.hclen.toNat ≤ 19
  idx_le : s.dyn.idx.toNat ≤ Config.nlensMax

/-! ## The session and the command running -/

/-- A running command is a command of an active session, a running ROW has pulled no more than its
row; `result` is 0x00 unless the session has failed, and then it is the code of a cause that can be
raised (R22, R141, R360, R377). -/
structure State.CommandInv (s : State) : Prop where
  active : s.port.cmd ≠ .waiting → s.session.sstate = .active
  pulled : ∀ d, s.port.cmd = .row d → d.length ≤ s.scan.rowbytes.toNat + 1
  ok : s.session.sstate ≠ .failed → s.session.result = 0x00
  latched : s.session.sstate = .failed → ∃ c : ErrCode, c ≠ .noMem ∧ s.session.result = c.code

/-- Every invariant above. -/
structure State.Inv (s : State) : Prop where
  reader : s.reader.Tidy
  window : s.WindowInv
  memory : s.MemoryInv
  cells : s.CellsInv
  range : s.RangeInv
  command : s.CommandInv

/-! ## The host's side -/

/-- A sequence of commands that keeps the protocol (R141, R142, R144, R413), told by the commands
alone: whether a session is open, and whether a pass has been announced in it. -/
def protocolOk : Bool → Bool → List HostReq → Bool
  | _, _, [] => true
  | opened, pass, q :: qs =>
    match q.code.toNat with
    | 1 => decide (1 ≤ q.ops.stride0.toNat) && decide (q.ops.stride0.toNat ≤ Config.strideMax) && protocolOk true false qs
    | 2 => opened && decide (1 ≤ q.ops.rowbytes0.toNat) && decide (q.ops.rowbytes0.toNat ≤ Config.rowbytesMax)
             && protocolOk true true qs
    | 3 => opened && pass && protocolOk true true qs
    | 4 => opened && protocolOk false false qs
    | 5 => protocolOk false false qs
    | _ => false

/-- The commands still to come keep the protocol, from the session the machine is in. In a failed
session the commands of the protocol are answered with the latched code (R141, R384). -/
def State.HostKeepsProtocol (s : State) : Prop :=
  ∃ opened pass : Bool,
    protocolOk opened pass s.port.cmds = true ∧
    (opened = true →
      s.session.sstate = .failed ∨
      (s.session.sstate = .active ∧ s.port.cmd ≠ .finish ∧ (pass = true → s.scan.passValid = true)))

/-- One pass: its row length and its number of rows. -/
def passCommands (p : BitVec 11 × Nat) : List HostReq :=
  { code := 2, ops := ⟨0, 0, p.1⟩ } :: List.replicate p.2 { code := 3, ops := .none }

/-- The commands of one session in the order of R413: START, for each pass PASS_BEGIN and its rows,
FINISH. -/
def sessionCommands (chunkRem0 : BitVec 32) (stride0 : BitVec 4) (passes : List (BitVec 11 × Nat)) : List HostReq :=
  { code := 1, ops := ⟨chunkRem0, stride0, 0⟩ } :: (passes.flatMap passCommands ++ [{ code := 4, ops := .none }])

/-- The stride the host owes for a pixel of so many bits (R152, R331). -/
def strideOwed (bitsPerPixel : Nat) : Nat := max 1 ((bitsPerPixel + 7) / 8)

/-- The row length the host owes for a pass of so many pixels (R152). -/
def rowbytesOwed (passWidth bitsPerPixel : Nat) : Nat := (passWidth * bitsPerPixel + 7) / 8

/-! ## What the machine reads next -/

/-- A running ROW wants more bytes and the window is drained, so the inflate machine runs (R330). -/
def State.Pulling (s : State) : Prop :=
  s.window.unread = 0 ∧ ∃ d, s.port.cmd = .row d ∧ d.length ≤ s.scan.rowbytes.toNat

/-- The element format the machine is at (R200): a command when it waits, the trailer in a FINISH, the
filter element once a row has been pulled, else what `istate` says. -/
def State.Expects (s : State) : Format → Prop
  | .hostCmd => s.port.cmd = .waiting
  | .zhdr => s.Pulling ∧ s.inflate.istate = .begin ∧ s.inflate.hdrDone = false
  | .bhdr => s.Pulling ∧ s.inflate.istate = .begin ∧ s.inflate.hdrDone = true
  | .storedHdr => s.Pulling ∧ s.inflate.istate = .stored ∧ s.inflate.storedHdr = false
  | .raw => s.Pulling ∧ s.inflate.istate = .stored ∧ s.inflate.storedHdr = true
  | .fixed => s.Pulling ∧ s.inflate.istate = .fixed
  | .dynHdr => s.Pulling ∧ s.inflate.istate = .dynamic ∧ s.dyn.hdrRead = false
  | .clSym => s.Pulling ∧ s.inflate.istate = .dynamic ∧ s.dyn.hdrRead = true ∧ s.dyn.idx.toNat < s.dyn.total
  | .litLen => s.Pulling ∧ s.inflate.istate = .huffman ∧ s.temps.lenPend = false
  | .dist => s.Pulling ∧ s.inflate.istate = .huffman ∧ s.temps.lenPend = true
  | .filt => ∃ d, s.port.cmd = .row d ∧ s.scan.rowbytes.toNat < d.length
  | .ztrl => s.port.cmd = .finish

/-- The next step takes a byte of the window into the running row (R330). -/
def State.PullsByte (s : State) : Prop :=
  s.window.unread ≠ 0 ∧ ∃ d, s.port.cmd = .row d ∧ d.length ≤ s.scan.rowbytes.toNat

/-- The length array of a dynamic header is complete, and the next step builds the two tables (R221). -/
def State.HeaderComplete (s : State) : Prop :=
  s.Pulling ∧ s.inflate.istate = .dynamic ∧ s.dyn.hdrRead = true ∧ s.dyn.total ≤ s.dyn.idx.toNat

/-- The next step carries out a START. -/
def State.TakesStart (s : State) : Prop := ∃ c st u, fetch s = .instr (.start c st) u

/-- The next step carries out a PASS_BEGIN. -/
def State.TakesPassBegin (s : State) : Prop := ∃ n u, fetch s = .instr (.passBegin n) u

/-- The next step carries out an ABORT. -/
def State.TakesAbort (s : State) : Prop := ∃ u, fetch s = .instr .abort u

/-! ## Runs -/

/-- A step that goes on. -/
def State.GoesOn (s : State) : Prop := ∃ t, step s = .next t

/-- A safe run of `n` steps: none of them stops. -/
def State.SafeFor (s : State) (n : Nat) : Prop := ∃ t, Sys2Proof.core.run n s = .next t

/-! ## The legality table (R141) -/

/-- What the table says of a command in a state. -/
inductive Verdict where
  | run | latched | refused
deriving DecidableEq, Repr

/-- The table of R141, by command code. -/
def verdict (code : Nat) (st : SState) (passValid : Bool) : Verdict :=
  match code, st with
  | 1, _ => .run
  | 5, _ => .run
  | 2, .active => .run
  | 3, .active => if passValid then .run else .refused
  | 4, .active => .run
  | 2, .failed => .latched
  | 3, .failed => .latched
  | 4, .failed => .latched
  | _, _ => .refused

/-! ## Errors -/

/-- `t` is what an error with the given code leaves of the session and of the host's side of `s` (R380). -/
def State.FailedWith (s : State) (code : BitVec 8) (t : State) : Prop :=
  t.session = { sstate := .failed, result := code } ∧
  t.port = { cmd := .waiting, cmds := s.port.cmds,
             resps := s.port.resps ++ [{ result := code, sstate := .failed, row := none }] }

/-! ## The state graph (R211) -/

/-- The edges of the inflate machine's state graph. -/
def stateEdges : List (IState × IState) :=
  [(.begin, .stored), (.begin, .fixed), (.begin, .dynamic), (.stored, .stored), (.stored, .blockEnd),
   (.fixed, .huffman), (.dynamic, .huffman), (.huffman, .huffman), (.huffman, .blockEnd),
   (.blockEnd, .begin), (.blockEnd, .streamEnd)]

/-! ## Huffman codes -/

/-- A table that decodes (R180, R185, R186): lengths of at least 1, patterns within their lengths, sorted
by length, and no entry's code the beginning of a later one's. -/
structure CodeTable (t : List HuffEntry) : Prop where
  len_pos : ∀ e ∈ t, 1 ≤ e.len.toNat
  bits_lt : ∀ e ∈ t, e.bits.toNat < 2 ^ e.len.toNat
  sorted : t.Pairwise fun x y => x.len.toNat ≤ y.len.toNat
  free : t.Pairwise fun x y => y.bits.toNat % 2 ^ x.len.toNat ≠ x.bits.toNat

/-- The bits of an entry's code, in stream order (R184). -/
def HuffEntry.code (e : HuffEntry) : List Bool := bitsOf e.len.toNat e.bits.toNat

/-! ## Filters (R334 to R338) -/

/-- `Predict(ftype, a, b, c)` for the five legal filter types, as a number. -/
def predictByType (ftype : Nat) (a b c : Byte) : Nat :=
  match ftype with
  | 0 => 0
  | 1 => a.toNat
  | 2 => b.toNat
  | 3 => (a.toNat + b.toNat) / 2
  | _ =>
    let pa := ((b.toNat : Int) - c.toNat).natAbs
    let pb := ((a.toNat : Int) - c.toNat).natAbs
    let pc := ((a.toNat : Int) + b.toNat - 2 * c.toNat).natAbs
    if pa ≤ pb ∧ pa ≤ pc then a.toNat else if pb ≤ pc then b.toNat else c.toNat

/-- `row` is the reconstruction of the filtered bytes `filt` above the row `prev` (R333, R340). -/
def Reconstructs (ftype stride : Nat) (filt row : List Byte) (prev : Nat → Byte) : Prop :=
  row.length = filt.length ∧
  ∀ x < row.length,
    (row.getD x 0).toNat =
      ((filt.getD x 0).toNat +
        predictByType ftype (if stride ≤ x then row.getD (x - stride) 0 else 0) (prev x)
          (if stride ≤ x then prev (x - stride) else 0)) % 256

/-! ## States that differ in what must not matter -/

/-- A state without its chunk boundaries: the chunk lengths still to come, the bytes left in the current
chunk, and the first chunk's length in the STARTs still to come (R167). -/
def State.forgetChunks (s : State) : State :=
  { s with
    reader := { s.reader with chunkRem := 0, src := { s.reader.src with hops := [] } }
    port := { s.port with cmds := s.port.cmds.map fun q => { q with ops := { q.ops with chunkRem0 := 0 } } } }

/-- Two windows that agree in everything but the cells no byte of this session stands in: those more
than `hist` behind the write cursor (R28, R417). -/
def Window.Alike (w v : Window) : Prop :=
  v = { w with mem := v.mem } ∧ ∀ k, 1 ≤ k → k ≤ w.hist.toNat → v.mem.read (w.behind k) = w.mem.read (w.behind k)

end Sys2Proof.Machine
end

