-- ==== Sys2Proof/Certificates/Slice0/Obligations.lean ====
section
/-!
DEFINITION. The statements about the machine, in the order of OBLIGATIONS.json. Each docstring names the
rules it states and says where it rests on a choice of the model.
-/

open Sys2Proof Sys2Proof.Machine

/-- Decoding what the encoder writes gives the instruction back, for every instruction and all its operands. -/
def Obligations.DecodeEncodeAgree : Prop :=
  ∀ i : Instr, i.wf = true → decode (encode i) = .ok i

/-- No bit of a decoded word is dropped, and exactly the words that are no element of their format are rejected (R106, R109). -/
def Obligations.DecodedWordIsTheElementsWord : Prop :=
  (∀ (e : Element) (i : Instr), decode e = .ok i → (encode i).fmt = e.fmt ∧ (encode i).word = e.word) ∧
  (∀ e : Element, (∃ d, decode e = .error d) ↔
    (2 ^ e.fmt.width ≤ e.word ∨ (e.fmt = .clSym ∧ 19 ≤ e.word) ∨ (e.fmt = .litLen ∧ 288 ≤ e.word)))

/-- A few words of every format, bit for bit from the tables of spec/30_encoding.md. -/
def Obligations.WrittenOutWordsDecode : Prop :=
  decode ⟨.zhdr, 0x78 + 256 * 0x9C, .none⟩ = .ok (.zlib 8 7 28 false 2) ∧
  decode ⟨.zhdr, 0x08 + 256 * 0x1D, .none⟩ = .ok (.zlib 8 0 29 false 0) ∧
  decode ⟨.zhdr, 0x78 + 256 * 0xBB, .none⟩ = .ok (.zlib 8 7 27 true 2) ∧
  decode ⟨.bhdr, 0b011, .none⟩ = .ok (.blockFixed true) ∧
  decode ⟨.bhdr, 0b100, .none⟩ = .ok (.blockDynamic false) ∧
  decode ⟨.bhdr, 0b111, .none⟩ = .ok (.blockReserved true) ∧
  decode ⟨.storedHdr, 0x0E + 256 * 0x00 + 65536 * 0xF1 + 16777216 * 0xFF, .none⟩ = .ok (.storedHdr 14 0xFFF1) ∧
  decode ⟨.dynHdr, 1 + 32 * 2 + 1024 * 3, .none⟩ = .ok (.dyn 1 2 3) ∧
  decode ⟨.clSym, 8, .none⟩ = .ok (.clLen 8) ∧
  decode ⟨.clSym, 16, .none⟩ = .ok .clRep ∧
  decode ⟨.litLen, 97, .none⟩ = .ok (.lit 0x61) ∧
  decode ⟨.litLen, 256, .none⟩ = .ok .eob ∧
  decode ⟨.litLen, 265, .none⟩ = .ok .len265 ∧
  decode ⟨.litLen, 285, .none⟩ = .ok .len285 ∧
  decode ⟨.litLen, 286, .none⟩ = .ok .lenInvalid286 ∧
  decode ⟨.dist, 0, .none⟩ = .ok .dist0 ∧
  decode ⟨.dist, 29, .none⟩ = .ok .dist29 ∧
  decode ⟨.dist, 30, .none⟩ = .ok .distInvalid30 ∧
  decode ⟨.filt, 4, .none⟩ = .ok .fPaeth ∧
  decode ⟨.filt, 5, .none⟩ = .ok (.fInvalid 5) ∧
  decode ⟨.hostCmd, 1, ⟨25, 3, 0⟩⟩ = .ok (.start 25 3) ∧
  decode ⟨.hostCmd, 6, .none⟩ = .ok .cmdReserved6

/-- R140, R385, R390: the host's next command runs; without one the state is constant. The queue of commands is the model's (log 2). -/
def Obligations.NextCommandRuns : Prop :=
  ∀ s : State, s.port.cmd = .waiting →
    (s.port.cmds = [] → step s = .next s) ∧
    ∀ (q : HostReq) (qs : List HostReq), s.port.cmds = q :: qs →
      decode ⟨.hostCmd, q.code.toNat, q.ops⟩ = .ok (decodeCommand q.code q.ops) ∧
      step s = exec (decodeCommand q.code q.ops) { s with port := { s.port with cmds := qs } }

/-- R200: the element is chosen by the state, read and carried out, or its read's error is taken (R189, R361, R362). The stored header's clauses say what R165 aligns, apart from the model's `alignByte`. That one element is one step, that a header is one read, and the two flags inside `Expects` that say how far a header or a match has come, are the model's (log 1, log 12). -/
def Obligations.StreamElementRuns : Prop :=
  (∀ (s : State) (i : Instr),
    (∀ (cmf flg : Byte) (r : Reader), s.Expects .zhdr → s.reader.readBytes 2 = .ok [cmf, flg] r →
      decode ⟨.zhdr, cmf.toNat + 256 * flg.toNat, .none⟩ = .ok i → step s = exec i { s with reader := r }) ∧
    (∀ (h : Nat) (r : Reader), s.Expects .bhdr → s.reader.readBits 3 = .ok h r →
      decode ⟨.bhdr, h, .none⟩ = .ok i → step s = exec i { s with reader := r }) ∧
    (∀ (b₀ b₁ b₂ b₃ : Byte) (r : Reader), s.Expects .storedHdr →
      Reader.readBytes 4 { s.reader with bitbuf := 0, bitcnt := 0 } = .ok [b₀, b₁, b₂, b₃] r →
      decode ⟨.storedHdr, (b₀.toNat + 256 * b₁.toNat) + 65536 * (b₂.toNat + 256 * b₃.toNat), .none⟩ = .ok i →
      step s = exec i { s with reader := r }) ∧
    (∀ (b : Byte) (r : Reader), s.Expects .raw → s.reader.readBytes 1 = .ok [b] r →
      decode ⟨.raw, b.toNat, .none⟩ = .ok i → step s = exec i { s with reader := r }) ∧
    (s.Expects .fixed → step s = exec .fixed s) ∧
    (∀ (w : Nat) (r : Reader), s.Expects .dynHdr → s.reader.readBits 14 = .ok w r →
      decode ⟨.dynHdr, w, .none⟩ = .ok i → step s = exec i { s with reader := r }) ∧
    (∀ (v : BitVec 9) (r : Reader), s.Expects .clSym → s.reader.matchSymbol s.tables.cl = .ok v r →
      decode ⟨.clSym, v.toNat, .none⟩ = .ok i → step s = exec i { s with reader := r }) ∧
    (∀ (v : BitVec 9) (r : Reader), s.Expects .litLen → s.reader.matchSymbol s.tables.lit = .ok v r →
      decode ⟨.litLen, v.toNat, .none⟩ = .ok i →
      step s = exec i { s with reader := r, temps := { s.temps with sym := v } }) ∧
    (∀ (v : BitVec 9) (r : Reader), s.Expects .dist → s.reader.matchSymbol s.tables.dist = .ok v r →
      decode ⟨.dist, v.toNat, .none⟩ = .ok i → step s = exec i { s with reader := r }) ∧
    (∀ (b₀ b₁ b₂ b₃ : Byte) (r : Reader), s.Expects .ztrl → s.reader.readBytes 4 = .ok [b₀, b₁, b₂, b₃] r →
      decode ⟨.ztrl, b₀.toNat + 256 * b₁.toNat + 65536 * b₂.toNat + 16777216 * b₃.toNat, .none⟩ = .ok i →
      step s = exec i { s with reader := r })) ∧
  ∀ (s : State) (c : ErrCode) (r : Reader),
    (((s.Expects .zhdr ∧ s.reader.readBytes 2 = .raise c r) ∨
      (s.Expects .bhdr ∧ s.reader.readBits 3 = .raise c r) ∨
      (s.Expects .storedHdr ∧ Reader.readBytes 4 { s.reader with bitbuf := 0, bitcnt := 0 } = .raise c r) ∨
      (s.Expects .raw ∧ s.reader.readBytes 1 = .raise c r) ∨
      (s.Expects .dynHdr ∧ s.reader.readBits 14 = .raise c r) ∨
      (s.Expects .ztrl ∧ s.reader.readBytes 4 = .raise c r)) →
      (c = .io ∨ c = .ioChunk) ∧ ∃ t, step s = .next t ∧ s.FailedWith c.code t) ∧
    (((s.Expects .clSym ∧ s.reader.matchSymbol s.tables.cl = .raise c r) ∨
      (s.Expects .litLen ∧ s.reader.matchSymbol s.tables.lit = .raise c r) ∨
      (s.Expects .dist ∧ s.reader.matchSymbol s.tables.dist = .raise c r)) →
      (c = .io ∨ c = .ioChunk ∨ c = .noMatch) ∧ ∃ t, step s = .next t ∧ s.FailedWith c.code t)

/-- R146, R332: `ftype <- d[0]`, `cur[i] <- d[i+1]`, then the filter element. That the bytes pulled stand in `port.cmd` until then is the model's (log 1). -/
def Obligations.FilterElementRuns : Prop :=
  ∀ (s : State) (f : Byte) (bytes : List Byte) (i : Instr), s.port.cmd = .row (f :: bytes) →
    bytes.length = s.scan.rowbytes.toNat → s.scan.rowbytes.toNat ≤ 2040 → s.scan.cur.wf = true →
    decode ⟨.filt, f.toNat, .none⟩ = .ok i →
    ∃ x : Scan, step s = exec i { s with scan := x } ∧ x.ftype = f ∧
      (∀ k, x.cur.read k = if k < s.scan.rowbytes.toNat then bytes.getD k 0 else s.scan.cur.read k) ∧
      x.prev = s.scan.prev ∧ x.stride = s.scan.stride ∧ x.rowbytes = s.scan.rowbytes ∧
      x.passValid = s.scan.passValid ∧ x.curSel = s.scan.curSel

/-- How an element is placed is the model's (log 4); that it is then read from the stream is the reading of R200 and R188. -/
def Obligations.PlacedElementIsRead : Prop :=
  ∀ (i : Instr) (s : State), i.wf = true →
    ∃ t, fetch (place (encode i) s) = .instr i t ∧ step (place (encode i) s) = exec i t ∧
      t.session.sstate = .active ∧ t.Expects (encode i).fmt

/-- R142, whole. The clauses on `hdrRead` and `lenPend` are not the rule's: they are the model's own flags, and that START puts them back is its choice (log 1). Nor are the clauses that `rowbytes`, `ftype`, `wlog`, the table entries, the header temporaries and those of R34 keep what they held: R41 leaves them unspecified after START and keeping them is the model's choice (log 19). -/
def Obligations.StartOpensASession : Prop :=
  ∀ (s : State) (c : BitVec 32) (st : BitVec 4),
    (1 ≤ st.toNat ∧ st.toNat ≤ 8 →
      ∃ t, exec (.start c st) s = .next t ∧
        t.session = { sstate := .active, result := 0x00 } ∧
        t.reader = { s.reader with chunkRem := c, bitbuf := 0, bitcnt := 0 } ∧
        t.scan = { s.scan with stride := st, passValid := false, curSel := false } ∧
        t.window = { s.window with wr := 0, rd := 0, unread := 0, hist := 0 } ∧
        t.inflate = { istate := .begin, hdrDone := false, bfinal := false, storedHdr := false, storedRem := 0 } ∧
        t.tables = { s.tables with litN := 0, distN := 0, clN := 0 } ∧
        t.dyn = { s.dyn with hdrRead := false } ∧ t.temps = { s.temps with lenPend := false } ∧
        t.port = { cmd := .waiting, cmds := s.port.cmds,
                   resps := s.port.resps ++ [{ result := 0x00, sstate := .active, row := none }] }) ∧
    (¬(1 ≤ st.toNat ∧ st.toNat ≤ 8) → exec (.start c st) s = .refused .operandRange)

/-- R144, whole, in a session that is active without an error. -/
def Obligations.PassBeginZeroesThePreviousRow : Prop :=
  ∀ (s : State) (n : BitVec 11), s.session = { sstate := .active, result := 0x00 } → s.scan.prev.wf = true →
    (1 ≤ n.toNat ∧ n.toNat ≤ 2040 →
      ∃ t, exec (.passBegin n) s = .next t ∧
        (∀ a, t.scan.prev.read a = if a < n.toNat then 0 else s.scan.prev.read a) ∧
        t.scan.rowbytes = n ∧ t.scan.passValid = true ∧
        t.scan.cur = s.scan.cur ∧ t.scan.curSel = s.scan.curSel ∧ t.scan.stride = s.scan.stride ∧
        t.scan.ftype = s.scan.ftype ∧
        t = { s with
          scan := t.scan
          port := { cmd := .waiting, cmds := s.port.cmds,
                    resps := s.port.resps ++ [{ result := 0x00, sstate := .active, row := none }] } }) ∧
    (¬(1 ≤ n.toNat ∧ n.toNat ≤ 2040) → exec (.passBegin n) s = .refused .operandRange)

/-- R146 and R148 begin here; the bytes are pulled and read in the steps that follow (log 1). R114: no value of the trailer is illegal. That the trailer changes nothing but `sstate` and the host's side is no rule: after FINISH the spec leaves that state unspecified and keeping it is the model's choice (log 7). -/
def Obligations.RowFinishAndTrailer : Prop :=
  (∀ s : State, s.session.sstate = .active →
    (s.scan.passValid = true → exec .row s = .next { s with port := { s.port with cmd := .row [] } }) ∧
    (s.scan.passValid = false → exec .row s = .refused .protocol) ∧
    exec .finish s = .next { s with port := { s.port with cmd := .finish } }) ∧
  ∀ (s : State) (a : BitVec 32), exec (.ztrl a) s = .next { s with
    session := { s.session with sstate := .done }
    port := { s.port with
      cmd := .waiting
      resps := s.port.resps ++ [{ result := s.session.result, sstate := .done, row := none }] } }

/-- R148, whole: from the command to its response. That it takes two steps is the model's (log 1). R148 gives `sstate`, `result` and what is read; of every other register after FINISH the spec leaves that state unspecified and keeping it is the model's choice (log 7). -/
def Obligations.FinishReadsTheTrailerAndEnds : Prop :=
  ∀ (s : State) (q : HostReq) (qs : List HostReq), s.session = { sstate := .active, result := 0x00 } →
    s.port.cmd = .waiting → s.port.cmds = q :: qs → q.code = 4 →
    (∀ (t : List Byte) (r : Reader), s.reader.readBytes 4 = .ok t r →
      Sys2Proof.core.run 2 s = .next { s with
        session := { sstate := .done, result := 0x00 }
        reader := r
        port := { cmd := .waiting, cmds := qs,
                  resps := s.port.resps ++ [{ result := 0x00, sstate := .done, row := none }] } }) ∧
    (∀ (c : ErrCode) (r : Reader), s.reader.readBytes 4 = .raise c r → (c = .io ∨ c = .ioChunk) ∧
      ∃ u, Sys2Proof.core.run 2 s = .next u ∧
        ({ s with port := { s.port with cmds := qs } } : State).FailedWith c.code u)

/-- R150. Every other register is unspecified afterwards, so nothing is said of it (log 7). -/
def Obligations.AbortDiscardsTheSession : Prop :=
  ∀ s : State, ∃ t, exec .abort s = .next t ∧ t.session = { sstate := .idle, result := 0x00 } ∧
    t.port = { cmd := .waiting, cmds := s.port.cmds,
               resps := s.port.resps ++ [{ result := 0x00, sstate := .idle, row := none }] }

/-- R141, whole. `verdict` is the table; what a carried-out command does is in the statements of its own rule. -/
def Obligations.CommandsKeepTheLegalityTable : Prop :=
  ∀ (s : State) (q : HostReq), (decodeCommand q.code q.ops).wf = true →
    match verdict q.code.toNat s.session.sstate s.scan.passValid with
    | .run => ∃ t, exec (decodeCommand q.code q.ops) s = .next t ∧ t.session.sstate ≠ .failed
    | .latched =>
      exec (decodeCommand q.code q.ops) s = .next { s with
        port := { s.port with
          cmd := .waiting
          resps := s.port.resps ++ [{ result := s.session.result, sstate := .failed, row := none }] } }
    | .refused => ∃ why, exec (decodeCommand q.code q.ops) s = .refused why ∧ (why = .protocol ∨ why = .reservedCommand)

/-- R141: the stop is the rule's own. -/
def Obligations.ReservedCodesAreRefused : Prop :=
  ∀ (s : State) (o : CmdOperands),
    exec .cmdReserved0 s = .refused .reservedCommand ∧ exec .cmdReserved6 s = .refused .reservedCommand ∧
    exec .cmdReserved7 s = .refused .reservedCommand ∧
    decodeCommand 0 o = .cmdReserved0 ∧ decodeCommand 6 o = .cmdReserved6 ∧ decodeCommand 7 o = .cmdReserved7

/-- R153. The invariant rules out states in which a running command stands beside an error. -/
def Obligations.ResponsesCarryResultAndState : Prop :=
  ∀ s t : State, s.Inv → step s = .next t →
    (t.port.resps = s.port.resps ∨
      ∃ row, t.port.resps = s.port.resps ++ [{ result := t.session.result, sstate := t.session.sstate, row := row }] ∧
        t.port.cmd = .waiting ∧
        (row ≠ none ↔ (∃ d, s.port.cmd = .row d) ∧ t.session.result = 0x00) ∧
        ∀ bytes, row = some bytes → bytes.length = s.scan.rowbytes.toNat)

/-- R140: one command at a time, each answered before the next. The queue, the responses as a list and the steps of a command are the model's (log 1, log 2). -/
def Obligations.OneCommandAtATime : Prop :=
  ∀ s t : State, step s = .next t →
    (s.port.cmd ≠ .waiting → t.port.cmds = s.port.cmds ∧
      (t.port.cmd = .waiting → t.port.resps.length = s.port.resps.length + 1) ∧
      (t.port.cmd ≠ .waiting → t.port.resps = s.port.resps)) ∧
    (s.port.cmd = .waiting → t.port.cmds = s.port.cmds.tail ∧
      (s.port.cmds ≠ [] → t.port.cmd = .waiting → t.port.resps.length = s.port.resps.length + 1))

/-- R384: the first error is sticky. That the dead state is kept, not changed, is R141's 'no state changes'. That a PASS_BEGIN whose operand is outside its range is answered in FAILED too, and not refused, is the model's choice to check the session state before the operand (log 9). -/
def Obligations.FailedSessionIsSticky : Prop :=
  (∀ (s : State) (qs rest : List HostReq), s.session.sstate = .failed → s.port.cmd = .waiting →
    s.port.cmds = qs ++ rest → (∀ q ∈ qs, q.code = 2 ∨ q.code = 3 ∨ q.code = 4) →
    Sys2Proof.core.run qs.length s = .next { s with
      port := { cmd := .waiting, cmds := rest,
                resps := s.port.resps ++
                  List.replicate qs.length { result := s.session.result, sstate := .failed, row := none } } }) ∧
  (∀ (s : State) (c : BitVec 32) (st : BitVec 4), s.session.sstate = .failed → 1 ≤ st.toNat → st.toNat ≤ 8 →
    (∃ t, exec .abort s = .next t ∧ t.session.sstate = .idle) ∧
    ∃ t, exec (.start c st) s = .next t ∧ t.session.sstate = .active)

/-- R163, with the bit order of R75 and R76. `streamBits` lists the bits buffered and then those of the bytes still answered. -/
def Obligations.ReadBitsTakesTheNextBits : Prop :=
  ∀ (r : Reader) (n : Nat), r.Tidy →
    r.readBits 0 = .ok 0 r ∧
    (∀ (v : Nat) (t : Reader), r.readBits n = .ok v t →
      n ≤ r.streamBits.length ∧ v = numberOf (r.streamBits.take n) ∧ t.streamBits = r.streamBits.drop n ∧
      t.Tidy ∧ t.mv = r.mv ∧ t.mhave = r.mhave) ∧
    (∀ (c : ErrCode) (t : Reader), r.readBits n = .raise c t → c = .io ∨ c = .ioChunk) ∧
    (n ≤ r.streamBits.length → r.WithinChunk n → ∃ v t, r.readBits n = .ok v t)

/-- R164: byte reads bypass the bit buffer. -/
def Obligations.ReadBytesBypassesTheBitBuffer : Prop :=
  ∀ (r : Reader) (n : Nat),
    (∀ (bs : List Byte) (t : Reader), r.readBytes n = .ok bs t →
      bs.length = n ∧ r.src.bytes = bs.map some ++ t.src.bytes ∧ t.bitbuf = r.bitbuf ∧ t.bitcnt = r.bitcnt ∧
      t.mv = r.mv ∧ t.mhave = r.mhave) ∧
    (∀ (c : ErrCode) (t : Reader), r.readBytes n = .raise c t →
      (c = .io ∨ c = .ioChunk) ∧ t.bitbuf = r.bitbuf ∧ t.bitcnt = r.bitcnt) ∧
    (∀ (bs : List Byte) (rest : List (Option Byte)), r.src.bytes = bs.map some ++ rest → bs.length = n →
      n ≤ r.chunkRem.toNat → ∃ t, r.readBytes n = .ok bs t ∧ t.src.bytes = rest ∧ t.src.hops = r.src.hops ∧
        t.chunkRem.toNat = r.chunkRem.toNat - n)

/-- R162, with the answers of R161 and R166 as lists (log 3). -/
def Obligations.FetchByteHopsOverEmptyChunks : Prop :=
  ∀ r : Reader,
    (∀ (b : Byte) (bs : List (Option Byte)), r.chunkRem ≠ 0 → r.src.bytes = some b :: bs →
      r.fetchByte = .ok b { r with chunkRem := r.chunkRem - 1, src := { r.src with bytes := bs } }) ∧
    (r.chunkRem ≠ 0 → (∀ b bs, r.src.bytes ≠ some b :: bs) → ∃ t, r.fetchByte = .raise .io t) ∧
    (∀ (k : Nat) (n : BitVec 32) (hs : List (Option (BitVec 32))), r.chunkRem = 0 → n ≠ 0 →
      r.src.hops = List.replicate k (some 0) ++ some n :: hs →
      (∀ (b : Byte) (bs : List (Option Byte)), r.src.bytes = some b :: bs →
        r.fetchByte = .ok b { r with chunkRem := n - 1, src := { bytes := bs, hops := hs } }) ∧
      ((∀ b bs, r.src.bytes ≠ some b :: bs) → ∃ t, r.fetchByte = .raise .io t)) ∧
    (∀ (k : Nat) (hs : List (Option (BitVec 32))), r.chunkRem = 0 →
      (r.src.hops = List.replicate k (some 0) ∨ r.src.hops = List.replicate k (some 0) ++ none :: hs) →
      ∃ t, r.fetchByte = .raise .ioChunk t ∧ t.src.bytes = r.src.bytes)

/-- R167, one step at a time; the rule marks it as derived. After an error, FINISH or ABORT it also compares what the session leaves: the spec leaves that state unspecified and keeping it is the model's choice (log 7), and so it is of what R41 leaves unspecified after START (log 19). -/
def Obligations.ChunkSplittingIsTransparent : Prop :=
  ∀ s u s' u' : State, s.forgetChunks = u.forgetChunks → step s = .next s' → step u = .next u' →
    s'.session.result ≠ 0x11 → u'.session.result ≠ 0x11 → s'.forgetChunks = u'.forgetChunks

/-- R186 (CFB's property); the rule marks it as derived from R182 to R184. -/
def Obligations.BuildIsPrefixFree : Prop :=
  ∀ ls : List Nat, ls.length ≤ 288 → (∀ b ∈ ls, b ≤ 15) → kraftSum ls ≤ 2 ^ 15 →
    build ls = some (buildTable ls) ∧ CodeTable (buildTable ls) ∧
    (buildTable ls).length = ls.countP (· ≠ 0) ∧
    ∀ (k : Nat) (hk : k < ls.length), ls[k] ≠ 0 →
      ((buildTable ls).filter fun e => e.sym.toNat == k).map (fun e => e.len.toNat) = [ls[k]]

/-- R185. -/
def Obligations.TablesAreSorted : Prop :=
  ∀ ls : List Nat,
    (buildTable ls).Perm (assignCodes ls 0 ((List.range 16).map (firstCode ls))) ∧
    (buildTable ls).Pairwise fun x y =>
      x.len.toNat < y.len.toNat ∨ (x.len.toNat = y.len.toNat ∧ x.bits.toNat ≤ y.bits.toNat)

/-- R188 in its equivalent form for a prefix-free table, R189, and the empty table of R190. -/
def Obligations.MatchDecodesTheNextCode : Prop :=
  ∀ (t : List HuffEntry) (r : Reader), CodeTable t → r.Tidy →
    (∀ e ∈ t, e.code <+: r.streamBits → r.WithinChunk e.len.toNat →
      ∃ u, r.matchSymbol t = .ok e.sym u ∧ u.Tidy ∧ u.streamBits = r.streamBits.drop e.len.toNat) ∧
    ((∀ e ∈ t, ¬e.code <+: r.streamBits) →
      (∀ e ∈ t, e.len.toNat ≤ r.streamBits.length ∧ r.WithinChunk e.len.toNat) →
      ∃ u, r.matchSymbol t = .raise .noMatch u) ∧
    r.matchSymbol [] = .raise .noMatch { r with mv := 0, mhave := 0 }

/-- R202 from the checks on (the two bytes are read by the step), R203, and the order of R382. -/
def Obligations.ZlibHeaderIsChecked : Prop :=
  ∀ (s : State) (cm cinfo : BitVec 4) (fcheck : BitVec 5) (fdict : Bool) (flevel : BitVec 2),
    (cm = 8 → cinfo.toNat ≤ 7 → fdict = false →
      ∃ t, exec (.zlib cm cinfo fcheck fdict flevel) s = .next t ∧ t.window.wlog.toNat = cinfo.toNat + 8 ∧
        t.window.size = 2 ^ (cinfo.toNat + 8) ∧
        t = { s with window := { s.window with wlog := t.window.wlog }, inflate := { s.inflate with hdrDone := true } }) ∧
    (cm ≠ 8 → ∃ t, exec (.zlib cm cinfo fcheck fdict flevel) s = .next t ∧ s.FailedWith 0x30 t) ∧
    (cm = 8 → 7 < cinfo.toNat → ∃ t, exec (.zlib cm cinfo fcheck fdict flevel) s = .next t ∧ s.FailedWith 0x31 t) ∧
    (cm = 8 → cinfo.toNat ≤ 7 → fdict = true →
      ∃ t, exec (.zlib cm cinfo fcheck fdict flevel) s = .next t ∧ s.FailedWith 0x32 t)

/-- R205 and R209. The clause on `hdrRead` is the model's own: its flag that the dynamic header is still to be read (log 1). What holds after E_BLOCK_TYPE is said of the moment of the raise: the spec leaves that state unspecified and keeping it is the model's choice (log 7). -/
def Obligations.BlockHeaderDispatches : Prop :=
  ∀ (s : State) (f : Bool),
    exec (.blockStored f) s =
      .next { s with inflate := { s.inflate with bfinal := f, storedHdr := false, istate := .stored } } ∧
    exec (.blockFixed f) s = .next { s with inflate := { s.inflate with bfinal := f, istate := .fixed } } ∧
    exec (.blockDynamic f) s =
      .next { s with inflate := { s.inflate with bfinal := f, istate := .dynamic }
                     dyn := { s.dyn with hdrRead := false } } ∧
    ∃ t, exec (.blockReserved f) s = .next t ∧ s.FailedWith 0x33 t ∧ t.inflate = { s.inflate with bfinal := f } ∧
      t = { s with session := t.session, port := t.port, inflate := t.inflate }

/-- R206 from the check on; the alignment and the four bytes are read by the step. That nothing else changes with E_STORED_LEN is said of the moment of the raise: the spec leaves that state unspecified and keeping it is the model's choice (log 7). -/
def Obligations.StoredHeaderIsChecked : Prop :=
  ∀ (s : State) (len nlen : BitVec 16),
    (len = ~~~nlen → exec (.storedHdr len nlen) s = .next { s with
      inflate := { s.inflate with
        storedRem := len
        storedHdr := true
        istate := if len = 0 then .blockEnd else s.inflate.istate } }) ∧
    (len ≠ ~~~nlen → ∃ t, exec (.storedHdr len nlen) s = .next t ∧ s.FailedWith 0x34 t ∧
      t = { s with session := t.session, port := t.port })

/-- R207 from `Put` on (the byte is read by the step), with R250. -/
def Obligations.RawByteEntersTheWindow : Prop :=
  ∀ (s : State) (b : Byte), s.window.mem.wf = true → 0 < s.inflate.storedRem.toNat →
    ∃ t, exec (.raw b) s = .next t ∧
      (∀ a, t.window.mem.read a = if a = s.window.wr.toNat then b else s.window.mem.read a) ∧
      t.window.wr.toNat = (s.window.wr.toNat + 1) % s.window.size ∧ t.window.unread = s.window.unread + 1 ∧
      t.window.hist = (if s.window.hist.toNat < s.window.size then s.window.hist + 1 else s.window.hist) ∧
      t.window.rd = s.window.rd ∧ t.window.wlog = s.window.wlog ∧
      t.inflate.storedRem.toNat = s.inflate.storedRem.toNat - 1 ∧
      t.inflate.istate = (if s.inflate.storedRem = 1 then .blockEnd else s.inflate.istate) ∧
      t = { s with window := t.window
                   inflate := { s.inflate with storedRem := t.inflate.storedRem, istate := t.inflate.istate } }

/-- R208 with the code tables of R107 and R108. Cells at and above a count are no part of a table (R32). -/
def Obligations.FixedBlockBuildsTheFixedTables : Prop :=
  ∀ s : State, ∃ t, exec .fixed s = .next t ∧
    t.tables.litN = 288 ∧ t.tables.distN = 32 ∧ t.tables.lit.length = 288 ∧ t.tables.dist.length = 32 ∧
    (∀ k < 144, codeOf t.tables.lit k = some (codeBits 8 (0x30 + k))) ∧
    (∀ k, 144 ≤ k → k < 256 → codeOf t.tables.lit k = some (codeBits 9 (0x190 + (k - 144)))) ∧
    (∀ k, 256 ≤ k → k < 280 → codeOf t.tables.lit k = some (codeBits 7 (k - 256))) ∧
    (∀ k, 280 ≤ k → k < 288 → codeOf t.tables.lit k = some (codeBits 8 (0xC0 + (k - 280)))) ∧
    (∀ k < 32, codeOf t.tables.dist k = some (codeBits 5 k)) ∧
    t.tables.clTab = s.tables.clTab ∧ t.tables.clN = s.tables.clN ∧
    t = { s with tables := t.tables, inflate := { s.inflate with istate := .huffman } }

/-- R212 to R214 and R187 (log 8). `hdrRead` is the model's flag that the header has been read (log 1). -/
def Obligations.DynamicHeaderStartsTheLengthArray : Prop :=
  ∀ (s : State) (hlit hdist : BitVec 5) (hclen : BitVec 4),
    (∀ (vs : List Nat) (r : Reader), s.reader.readLens (hclen.toNat + 4) = .ok vs r →
      ∃ cl : List (BitVec 3), cl.length = 19 ∧
        (∀ k < 19, (cl.getD ([16, 17, 18, 0, 8, 7, 9, 6, 10, 5, 11, 4, 12, 3, 13, 2, 14, 1, 15].getD k 0) 0).toNat =
          if k < hclen.toNat + 4 then vs.getD k 0 else 0) ∧
        (kraftSum (cl.map BitVec.toNat) ≤ 2 ^ 15 →
          ∃ t, exec (.dyn hlit hdist hclen) s = .next t ∧
            t.dyn.hlit.toNat = hlit.toNat + 257 ∧ t.dyn.hdist.toNat = hdist.toNat + 1 ∧
            t.dyn.hclen.toNat = hclen.toNat + 4 ∧ t.dyn.clLens = cl ∧ t.dyn.idx = 0 ∧ t.dyn.lens = s.dyn.lens ∧
            t.tables.cl = buildTable (cl.map BitVec.toNat) ∧
            t.tables.litTab = s.tables.litTab ∧ t.tables.litN = s.tables.litN ∧
            t.tables.distTab = s.tables.distTab ∧ t.tables.distN = s.tables.distN ∧
            t.dyn.hdrRead = true ∧ t = { s with reader := r, dyn := t.dyn, tables := t.tables }) ∧
        (2 ^ 15 < kraftSum (cl.map BitVec.toNat) → exec (.dyn hlit hdist hclen) s = .refused .overSubscribed)) ∧
    (∀ (c : ErrCode) (r : Reader), s.reader.readLens (hclen.toNat + 4) = .raise c r →
      ∃ t, exec (.dyn hlit hdist hclen) s = .next t ∧ s.FailedWith c.code t)

/-- R216; the loop guard gives idx below total, at most 320. -/
def Obligations.CodedLengthIsStored : Prop :=
  ∀ (s : State) (n : BitVec 4), s.dyn.lens.length = 320 → s.dyn.idx.toNat < 320 →
    ∃ t, exec (.clLen n) s = .next t ∧
      (∀ j, t.dyn.lens.getD j 0 = if j = s.dyn.idx.toNat then n else s.dyn.lens.getD j 0) ∧
      t.dyn.lens.length = 320 ∧ t.dyn.idx.toNat = s.dyn.idx.toNat + 1 ∧
      t = { s with dyn := { s.dyn with lens := t.dyn.lens, idx := t.dyn.idx } }

/-- R217, whole; `total` is at most 320 (R33). That all else is unchanged with E_REPEAT_FIRST, and the length array with E_LENS_OVERFLOW, is said of the moment of the raise: the spec leaves that state unspecified and keeping it is the model's choice (log 7). -/
def Obligations.RepeatCopiesThePreviousLength : Prop :=
  ∀ s : State, s.dyn.lens.length = 320 → s.dyn.total ≤ 320 →
    (s.dyn.idx = 0 → ∃ t, exec .clRep s = .next t ∧ s.FailedWith 0x38 t ∧
      t = { s with session := t.session, port := t.port }) ∧
    (∀ (x : Nat) (r : Reader), s.dyn.idx ≠ 0 → s.reader.readBits 2 = .ok x r →
      (s.dyn.total < s.dyn.idx.toNat + (3 + x) → ∃ t, exec .clRep s = .next t ∧ s.FailedWith 0x39 t ∧
        t.dyn = s.dyn) ∧
      (s.dyn.idx.toNat + (3 + x) ≤ s.dyn.total → ∃ t, exec .clRep s = .next t ∧
        (∀ j, t.dyn.lens.getD j 0 =
          if s.dyn.idx.toNat ≤ j ∧ j < s.dyn.idx.toNat + (3 + x) then s.dyn.lens.getD (s.dyn.idx.toNat - 1) 0
          else s.dyn.lens.getD j 0) ∧
        t.dyn.idx.toNat = s.dyn.idx.toNat + (3 + x) ∧
        t = { s with reader := r, dyn := { s.dyn with lens := t.dyn.lens, idx := t.dyn.idx } })) ∧
    (∀ (c : ErrCode) (r : Reader), s.dyn.idx ≠ 0 → s.reader.readBits 2 = .raise c r →
      ∃ t, exec .clRep s = .next t ∧ s.FailedWith c.code t)

/-- R218 and R219, whole; `total` is at most 320 (R33). That the length array is unchanged with E_LENS_OVERFLOW is said of the moment of the raise: the spec leaves that state unspecified and keeping it is the model's choice (log 7). -/
def Obligations.ZeroRunsFillWithZero : Prop :=
  ∀ s : State, s.dyn.lens.length = 320 → s.dyn.total ≤ 320 →
    ∀ p ∈ ([(.clZeroS, 3, 3), (.clZeroL, 7, 11)] : List (Instr × Nat × Nat)),
      (∀ (x : Nat) (r : Reader), s.reader.readBits p.2.1 = .ok x r →
        (s.dyn.total < s.dyn.idx.toNat + (p.2.2 + x) → ∃ t, exec p.1 s = .next t ∧ s.FailedWith 0x39 t ∧
          t.dyn = s.dyn) ∧
        (s.dyn.idx.toNat + (p.2.2 + x) ≤ s.dyn.total → ∃ t, exec p.1 s = .next t ∧
          (∀ j, t.dyn.lens.getD j 0 =
            if s.dyn.idx.toNat ≤ j ∧ j < s.dyn.idx.toNat + (p.2.2 + x) then 0 else s.dyn.lens.getD j 0) ∧
          t.dyn.idx.toNat = s.dyn.idx.toNat + (p.2.2 + x) ∧
          t = { s with reader := r, dyn := { s.dyn with lens := t.dyn.lens, idx := t.dyn.idx } })) ∧
      (∀ (c : ErrCode) (r : Reader), s.reader.readBits p.2.1 = .raise c r →
        ∃ t, exec p.1 s = .next t ∧ s.FailedWith c.code t)

/-- R221, and R187 for the sets the spec asks a model to refuse (log 8). That the tables are built in a step of their own, and the flag `hdrRead` in the hypothesis and in the conclusion, are the model's (log 1). -/
def Obligations.DynamicHeaderEndsWithTwoTables : Prop :=
  ∀ (s : State) (d : List Byte), s.port.cmd = .row d → d.length ≤ s.scan.rowbytes.toNat → s.window.unread = 0 →
    s.inflate.istate = .dynamic → s.dyn.hdrRead = true → s.dyn.total ≤ s.dyn.idx.toNat →
    s.dyn.hlit.toNat ≤ 288 → s.dyn.hdist.toNat ≤ 32 →
    let lits := (s.dyn.lens.take s.dyn.hlit.toNat).map BitVec.toNat
    let dists := ((s.dyn.lens.drop s.dyn.hlit.toNat).take s.dyn.hdist.toNat).map BitVec.toNat
    (kraftSum lits ≤ 2 ^ 15 → kraftSum dists ≤ 2 ^ 15 →
      ∃ t, step s = .next t ∧ t.tables.lit = buildTable lits ∧ t.tables.dist = buildTable dists ∧
        t.inflate = { s.inflate with istate := .huffman } ∧ t.tables.clTab = s.tables.clTab ∧
        t.tables.clN = s.tables.clN ∧
        t = { s with tables := t.tables, inflate := t.inflate, dyn := { s.dyn with hdrRead := false } }) ∧
    (2 ^ 15 < kraftSum lits ∨ 2 ^ 15 < kraftSum dists → step s = .refused .overSubscribed)

/-- R222 and R223. That a step past the end raises an error, and its code 0x3A, are the spec's own choice (R223): a model may equally refuse, and the spec asks that no claim about the software rest on that code. -/
def Obligations.BlockEndAndStreamEnd : Prop :=
  ∀ (s : State) (d : List Byte), s.port.cmd = .row d → d.length ≤ s.scan.rowbytes.toNat → s.window.unread = 0 →
    (s.inflate.istate = .blockEnd → step s = .next { s with
      inflate := { s.inflate with istate := if s.inflate.bfinal then .streamEnd else .begin } }) ∧
    (s.inflate.istate = .streamEnd → ∃ t, step s = .next t ∧ s.FailedWith 0x3A t)

/-- R211's table of edges; its `when` column is in the statements of the rules it names. That `istate` stays as it was through ABORT, an error and FINISH is the model's choice (log 7). -/
def Obligations.InflateStateFollowsItsGraph : Prop :=
  ∀ s t : State, step s = .next t →
    t.inflate.istate = s.inflate.istate ∨
    (s.Pulling ∧ (s.inflate.istate, t.inflate.istate) ∈ stateEdges) ∨
    (s.port.cmd = .waiting ∧ t.inflate.istate = .begin ∧ s.TakesStart)

/-- R252 (with `Put`, R250) and R253. -/
def Obligations.LiteralAndEndOfBlock : Prop :=
  ∀ s : State,
    (∀ b : Byte, s.window.mem.wf = true →
      ∃ t, exec (.lit b) s = .next t ∧
        (∀ a, t.window.mem.read a = if a = s.window.wr.toNat then b else s.window.mem.read a) ∧
        t.window.wr.toNat = (s.window.wr.toNat + 1) % s.window.size ∧ t.window.unread = s.window.unread + 1 ∧
        t.window.hist = (if s.window.hist.toNat < s.window.size then s.window.hist + 1 else s.window.hist) ∧
        t.window.rd = s.window.rd ∧ t.window.wlog = s.window.wlog ∧ t = { s with window := t.window }) ∧
    exec .eob s = .next { s with inflate := { s.inflate with istate := .blockEnd } }

/-- R110's table, row by row, as R261 to R289 repeat it. The clause on `lenPend` is the model's own: its flag that the distance comes next (log 1). -/
def Obligations.LengthSymbolsSetTheLength : Prop :=
  ∀ p ∈ ([(.len257, 3, 0), (.len258, 4, 0), (.len259, 5, 0), (.len260, 6, 0), (.len261, 7, 0),
      (.len262, 8, 0), (.len263, 9, 0), (.len264, 10, 0), (.len265, 11, 1), (.len266, 13, 1),
      (.len267, 15, 1), (.len268, 17, 1), (.len269, 19, 2), (.len270, 23, 2), (.len271, 27, 2),
      (.len272, 31, 2), (.len273, 35, 3), (.len274, 43, 3), (.len275, 51, 3), (.len276, 59, 3),
      (.len277, 67, 4), (.len278, 83, 4), (.len279, 99, 4), (.len280, 115, 4), (.len281, 131, 5),
      (.len282, 163, 5), (.len283, 195, 5), (.len284, 227, 5), (.len285, 258, 0)] : List (Instr × Nat × Nat)),
    ∀ s : State,
      (∀ (x : Nat) (r : Reader), s.reader.readBits p.2.2 = .ok x r →
        ∃ t, exec p.1 s = .next t ∧ t.temps.mlen.toNat = p.2.1 + x ∧ 3 ≤ t.temps.mlen.toNat ∧
          t.temps.mlen.toNat ≤ 258 ∧
          t = { s with reader := r, temps := { s.temps with mlen := t.temps.mlen, lenPend := true } }) ∧
      (∀ (c : ErrCode) (r : Reader), s.reader.readBits p.2.2 = .raise c r →
        ∃ t, exec p.1 s = .next t ∧ s.FailedWith c.code t)

/-- R111's table, row by row, as R290 to R319 repeat it, with the copy of R256. That the window is drained is R330's; `lenPend` is the model's flag (log 1). -/
def Obligations.DistanceSymbolsCopyTheMatch : Prop :=
  ∀ p ∈ ([(.dist0, 1, 0), (.dist1, 2, 0), (.dist2, 3, 0), (.dist3, 4, 0), (.dist4, 5, 1), (.dist5, 7, 1),
      (.dist6, 9, 2), (.dist7, 13, 2), (.dist8, 17, 3), (.dist9, 25, 3), (.dist10, 33, 4),
      (.dist11, 49, 4), (.dist12, 65, 5), (.dist13, 97, 5), (.dist14, 129, 6), (.dist15, 193, 6),
      (.dist16, 257, 7), (.dist17, 385, 7), (.dist18, 513, 8), (.dist19, 769, 8), (.dist20, 1025, 9),
      (.dist21, 1537, 9), (.dist22, 2049, 10), (.dist23, 3073, 10), (.dist24, 4097, 11),
      (.dist25, 6145, 11), (.dist26, 8193, 12), (.dist27, 12289, 12), (.dist28, 16385, 13),
      (.dist29, 24577, 13)] : List (Instr × Nat × Nat)),
    ∀ (s : State) (x : Nat) (r : Reader), s.reader.readBits p.2.2 = .ok x r →
      s.window.mem.wf = true → s.window.wr.toNat < s.window.size → s.window.hist.toNat ≤ s.window.size →
      s.window.unread = 0 → p.2.1 + x ≤ s.window.hist.toNat → s.temps.mlen.toNat ≤ s.window.size →
      ∃ t, exec p.1 s = .next t ∧ t.temps.mdist.toNat = p.2.1 + x ∧ 1 ≤ t.temps.mdist.toNat ∧
        t.temps.mdist.toNat ≤ 32768 ∧
        (∀ k < s.temps.mlen.toNat,
          t.window.mem.read ((s.window.wr.toNat + k) % s.window.size) =
            if k < p.2.1 + x then
              s.window.mem.read ((s.window.wr.toNat + k + (s.window.size - (p.2.1 + x))) % s.window.size)
            else t.window.mem.read ((s.window.wr.toNat + (k - (p.2.1 + x))) % s.window.size)) ∧
        (∀ a, (∀ k < s.temps.mlen.toNat, a ≠ (s.window.wr.toNat + k) % s.window.size) →
          t.window.mem.read a = s.window.mem.read a) ∧
        t.window.wr.toNat = (s.window.wr.toNat + s.temps.mlen.toNat) % s.window.size ∧
        t.window.unread.toNat = s.temps.mlen.toNat ∧
        t.window.hist.toNat = min (s.window.hist.toNat + s.temps.mlen.toNat) s.window.size ∧
        t.window.rd = s.window.rd ∧ t.window.wlog = s.window.wlog ∧
        t = { s with reader := r, window := t.window,
                     temps := { s.temps with mdist := t.temps.mdist, lenPend := false } }

/-- R257 to R260 in the order of R382. What the window, the reader and the rest hold is said of the moment of the raise: the spec leaves that state unspecified and keeping it is the model's choice (log 7). The spec asks that no claim about the software rest on the codes 0x3B and 0x3C. -/
def Obligations.MatchErrorsInOrder : Prop :=
  (∀ (s : State) (i : Instr), i = .lenInvalid286 ∨ i = .lenInvalid287 →
    ∃ t, exec i s = .next t ∧ s.FailedWith 0x36 t ∧ t = { s with session := t.session, port := t.port }) ∧
  (∀ (s : State) (i : Instr), i = .distInvalid30 ∨ i = .distInvalid31 →
    ∃ t, exec i s = .next t ∧ s.FailedWith 0x37 t ∧ t = { s with session := t.session, port := t.port }) ∧
  ∀ p ∈ ([(.dist0, 1, 0), (.dist1, 2, 0), (.dist2, 3, 0), (.dist3, 4, 0), (.dist4, 5, 1), (.dist5, 7, 1),
      (.dist6, 9, 2), (.dist7, 13, 2), (.dist8, 17, 3), (.dist9, 25, 3), (.dist10, 33, 4),
      (.dist11, 49, 4), (.dist12, 65, 5), (.dist13, 97, 5), (.dist14, 129, 6), (.dist15, 193, 6),
      (.dist16, 257, 7), (.dist17, 385, 7), (.dist18, 513, 8), (.dist19, 769, 8), (.dist20, 1025, 9),
      (.dist21, 1537, 9), (.dist22, 2049, 10), (.dist23, 3073, 10), (.dist24, 4097, 11),
      (.dist25, 6145, 11), (.dist26, 8193, 12), (.dist27, 12289, 12), (.dist28, 16385, 13),
      (.dist29, 24577, 13)] : List (Instr × Nat × Nat)),
    ∀ s : State,
      (∀ (c : ErrCode) (r : Reader), s.reader.readBits p.2.2 = .raise c r →
        ∃ t, exec p.1 s = .next t ∧ s.FailedWith c.code t ∧ t.window = s.window) ∧
      (∀ (x : Nat) (r : Reader), s.reader.readBits p.2.2 = .ok x r →
        (s.window.hist.toNat < p.2.1 + x →
          ∃ t, exec p.1 s = .next t ∧ s.FailedWith 0x3C t ∧ t.window = s.window ∧ t.reader = r) ∧
        (p.2.1 + x ≤ s.window.hist.toNat → s.window.size < s.temps.mlen.toNat →
          ∃ t, exec p.1 s = .next t ∧ s.FailedWith 0x3B t ∧ t.window = s.window ∧ t.reader = r))

/-- R254, whole. That it takes two steps, and the flag `lenPend` between and after them, are the model's (log 1). What `copy` does is in the statement of R256. The spec asks that no claim about the software rest on the codes 0x3B and 0x3C. -/
def Obligations.LengthThenDistanceIsOneMatch : Prop :=
  ∀ (s : State) (v : BitVec 9) (lb le x : Nat) (r₁ r₂ : Reader), s.Expects .litLen →
    s.reader.matchSymbol s.tables.lit = .ok v r₁ → 257 ≤ v.toNat → lengthRows[v.toNat - 257]? = some (lb, le) →
    (∀ c, r₁.readBits le = .raise c r₂ → ∃ t, step s = .next t ∧ s.FailedWith c.code t) ∧
    (r₁.readBits le = .ok x r₂ →
      (∀ c r₃, r₂.matchSymbol s.tables.dist = .raise c r₃ →
        ∃ t, Sys2Proof.core.run 2 s = .next t ∧ s.FailedWith c.code t) ∧
      (∀ (d : BitVec 9) r₃, r₂.matchSymbol s.tables.dist = .ok d r₃ →
        (30 ≤ d.toNat → ∃ t, Sys2Proof.core.run 2 s = .next t ∧ s.FailedWith 0x37 t) ∧
        (∀ (db de y : Nat) r₄, distanceRows[d.toNat]? = some (db, de) →
          (∀ c, r₃.readBits de = .raise c r₄ → ∃ t, Sys2Proof.core.run 2 s = .next t ∧ s.FailedWith c.code t) ∧
          (r₃.readBits de = .ok y r₄ →
            (s.window.hist.toNat < db + y → ∃ t, Sys2Proof.core.run 2 s = .next t ∧ s.FailedWith 0x3C t) ∧
            (db + y ≤ s.window.hist.toNat → s.window.size < lb + x →
              ∃ t, Sys2Proof.core.run 2 s = .next t ∧ s.FailedWith 0x3B t) ∧
            (db + y ≤ s.window.hist.toNat → lb + x ≤ s.window.size →
              Sys2Proof.core.run 2 s = .next { s with
                reader := r₄
                window := s.window.copy (lb + x) (db + y)
                temps := { sym := v, mlen := BitVec.ofNat 9 (lb + x), mdist := BitVec.ofNat 16 (db + y),
                           lenPend := false } })))))

/-- One turn of R330's loop that takes a byte; the turns that run the machine are the stream elements. That a turn is a step and the bytes pulled stand in `port.cmd` is the model's (log 1). -/
def Obligations.PullTakesTheOldestByte : Prop :=
  ∀ (s : State) (d : List Byte), s.port.cmd = .row d → d.length ≤ s.scan.rowbytes.toNat → s.window.unread ≠ 0 →
    ∃ t, step s = .next t ∧ t.port = { s.port with cmd := .row (d ++ [s.window.mem.read s.window.rd.toNat]) } ∧
      t.window.rd.toNat = (s.window.rd.toNat + 1) % s.window.size ∧
      t.window.unread.toNat = s.window.unread.toNat - 1 ∧
      t = { s with port := t.port, window := { s.window with rd := t.window.rd, unread := t.window.unread } }

/-- R333 to R338, R340, and the swap of R341. `Reconstructs` and `predictByType` say the rules' formulas apart from the meanings. -/
def Obligations.FilterTypesReconstructTheRow : Prop :=
  ∀ p ∈ ([(.fNone, 0), (.fSub, 1), (.fUp, 2), (.fAvg, 3), (.fPaeth, 4)] : List (Instr × Nat)),
    ∀ s : State, s.scan.cur.wf = true → 1 ≤ s.scan.stride.toNat → s.scan.rowbytes.toNat ≤ 2040 →
      ∃ (t : State) (row : List Byte), exec p.1 s = .next t ∧
        Reconstructs p.2 s.scan.stride.toNat
          ((List.range s.scan.rowbytes.toNat).map fun x => s.scan.cur.read x) row (fun x => s.scan.prev.read x) ∧
        (∀ x, t.scan.prev.read x = if x < s.scan.rowbytes.toNat then row.getD x 0 else s.scan.cur.read x) ∧
        t.scan.cur = s.scan.prev ∧ t.scan.curSel = !s.scan.curSel ∧ t.scan.stride = s.scan.stride ∧
        t.scan.rowbytes = s.scan.rowbytes ∧ t.scan.passValid = s.scan.passValid ∧ t.scan.ftype = s.scan.ftype ∧
        t = { s with
          scan := t.scan
          port := { s.port with
            cmd := .waiting
            resps := s.port.resps ++
              [{ result := s.session.result, sstate := s.session.sstate, row := some row }] } }

/-- R339; the spec chose this error and asks that no claim about the software rest on its code. That all else, and `prev` and `cur`, stay after E_FILTER_TYPE is said of the moment of the raise: the spec leaves that state unspecified and keeping it is the model's choice (log 7). That the whole row stands in `port.cmd` is the model's (log 1). -/
def Obligations.InvalidFilterTypeFails : Prop :=
  (∀ (s : State) (f : Byte),
    ∃ t, exec (.fInvalid f) s = .next t ∧ s.FailedWith 0x20 t ∧ t = { s with session := t.session, port := t.port }) ∧
  ∀ (s : State) (f : Byte) (bytes : List Byte), 5 ≤ f.toNat → s.port.cmd = .row (f :: bytes) →
    bytes.length = s.scan.rowbytes.toNat → s.scan.rowbytes.toNat ≤ 2040 → s.scan.cur.wf = true →
    ∃ t, step s = .next t ∧ s.FailedWith 0x20 t ∧ t.scan.prev = s.scan.prev ∧ t.scan.curSel = s.scan.curSel ∧
      ∀ k < s.scan.rowbytes.toNat, t.scan.cur.read k = bytes.getD k 0

/-- R146 over all its steps, for a row that needs no inflate step; the number of steps is the model's (log 1). -/
def Obligations.RowFromSurplus : Prop :=
  ∀ s : State, s.Inv → s.port.cmd = .row [] → s.scan.rowbytes.toNat + 1 ≤ s.window.unread.toNat →
    (s.window.mem.read s.window.rd.toNat).toNat ≤ 4 →
    ∃ (t : State) (row : List Byte), Sys2Proof.core.run (s.scan.rowbytes.toNat + 2) s = .next t ∧
      Reconstructs (s.window.mem.read s.window.rd.toNat).toNat s.scan.stride.toNat
        ((List.range s.scan.rowbytes.toNat).map fun x =>
          s.window.mem.read ((s.window.rd.toNat + 1 + x) % s.window.size))
        row (fun x => s.scan.prev.read x) ∧
      t.port = { cmd := .waiting, cmds := s.port.cmds,
                 resps := s.port.resps ++ [{ result := 0x00, sstate := .active, row := some row }] } ∧
      t.scan.ftype = s.window.mem.read s.window.rd.toNat ∧
      (∀ x < s.scan.rowbytes.toNat, t.scan.prev.read x = row.getD x 0) ∧ t.scan.cur = s.scan.prev ∧
      t.window.rd.toNat = (s.window.rd.toNat + (s.scan.rowbytes.toNat + 1)) % s.window.size ∧
      t.window.unread.toNat = s.window.unread.toNat - (s.scan.rowbytes.toNat + 1) ∧
      t = { s with scan := t.scan, port := t.port,
                   window := { s.window with rd := t.window.rd, unread := t.window.unread } }

/-- R380 and the code column of R360, whose numbers are the spec's own choice. The spec asks that no claim about the software rest on the codes 0x20, 0x3A, 0x3B and 0x3C. The rest of the state is dead, so nothing is said of it (log 7). -/
def Obligations.RaiseEndsTheCommand : Prop :=
  (∀ (s : State) (c : ErrCode), ∃ t, raiseErr c s = .next t ∧ s.FailedWith c.code t) ∧
  ErrCode.code .io = 0x10 ∧ ErrCode.code .ioChunk = 0x11 ∧ ErrCode.code .filterType = 0x20 ∧
  ErrCode.code .zlibMethod = 0x30 ∧ ErrCode.code .zlibWindow = 0x31 ∧ ErrCode.code .zlibFdict = 0x32 ∧
  ErrCode.code .blockType = 0x33 ∧ ErrCode.code .storedLen = 0x34 ∧ ErrCode.code .noMatch = 0x35 ∧
  ErrCode.code .lenCode = 0x36 ∧ ErrCode.code .distCode = 0x37 ∧ ErrCode.code .repeatFirst = 0x38 ∧
  ErrCode.code .lensOverflow = 0x39 ∧ ErrCode.code .streamEnd = 0x3A ∧ ErrCode.code .windowOverrun = 0x3B ∧
  ErrCode.code .distTooFar = 0x3C ∧ ErrCode.code .noMem = 0x40

/-- R392, which the spec marks as derived. That a PASS_BEGIN in FAILED is answered whatever its operand is the model's choice (log 9). -/
def Obligations.CommandsReturnOnlyTheirCodes : Prop :=
  ∀ (s t : State) (p : Response), s.Inv → step s = .next t → t.port.resps = s.port.resps ++ [p] →
    (s.port.cmd = .waiting → p.result = 0x00 ∨
      (s.session.sstate = .failed ∧ p.result = s.session.result ∧
        ∃ q qs, s.port.cmds = q :: qs ∧ (q.code = 2 ∨ q.code = 3 ∨ q.code = 4))) ∧
    (s.port.cmd = .finish → p.result = 0x00 ∨ p.result = 0x10 ∨ p.result = 0x11) ∧
    (∀ d, s.port.cmd = .row d →
      (p.result = 0x00 ∨ ∃ c : ErrCode, c ≠ .noMem ∧ p.result = c.code) ∧
      (p.result = 0x30 ∨ p.result = 0x31 ∨ p.result = 0x32 → s.inflate.hdrDone = false))

/-- R410: the three values it gives and the commands it allows. Every other reset value is the model's (log 5, log 6) and is not claimed here. -/
def Obligations.ResetState : Prop :=
  State.reset.session = { sstate := .idle, result := 0x00 } ∧ State.reset.scan.passValid = false ∧
  State.reset.port.cmd = .waiting ∧
  (∀ (c : BitVec 32) (st : BitVec 4), 1 ≤ st.toNat → st.toNat ≤ 8 → ∃ t, exec (.start c st) State.reset = .next t) ∧
  (∃ t, exec .abort State.reset = .next t) ∧
  (∀ n : BitVec 11, exec (.passBegin n) State.reset = .refused .protocol) ∧
  exec .row State.reset = .refused .protocol ∧ exec .finish State.reset = .refused .protocol

/-- Where R41 gives no value this rests on the model's reset values (log 5, log 6). -/
def Obligations.ResetSatisfiesTheInvariant : Prop :=
  State.reset.Inv

/-- R168, which the spec marks as derived. That it holds through ABORT, an error and FINISH too rests on the model's choice to keep the registers (log 7). -/
def Obligations.StepKeepsTheReaderTidy : Prop :=
  ∀ s t : State, s.reader.Tidy → step s = .next t → t.reader.Tidy

/-- R29, at every step and not only between commands. That it holds through ABORT, an error and FINISH too rests on the model's choice to keep the registers (log 7), and through START on its choice to keep what R41 leaves unspecified there (log 19). The two side conditions of `WindowInv` are proved with it. -/
def Obligations.StepKeepsTheWindowSound : Prop :=
  ∀ s t : State, s.WindowInv → step s = .next t → t.WindowInv

/-- The canonical form is the model's (log 6); the cells are those of R26 and R27. That it holds through ABORT, an error and FINISH too rests on the model's choice to keep the registers (log 7). -/
def Obligations.StepKeepsMemoriesAndCells : Prop :=
  ∀ s t : State, s.Inv → step s = .next t → t.MemoryInv ∧ t.CellsInv

/-- R38's column of legal values, R33, and the first-error rule of R22. That it holds through ABORT, an error and FINISH too rests on the model's choice to keep the registers (log 7), and through START on its choice to keep what R41 leaves unspecified there (log 19). -/
def Obligations.StepKeepsRangesAndSession : Prop :=
  ∀ s t : State, s.Inv → step s = .next t → t.RangeInv ∧ t.CommandInv

/-- Everything else runs: no ordinary data ends a run (log 8, log 9, log 17). -/
def Obligations.OnlyTheHostAndOverSubscriptionStopTheMachine : Prop :=
  ∀ s : State, s.Inv →
    (∃ t, step s = .next t) ∨
    (s.port.cmd = .waiting ∧
      (step s = .refused .protocol ∨ step s = .refused .reservedCommand ∨ step s = .refused .operandRange)) ∨
    (s.port.cmd ≠ .waiting ∧ step s = .refused .overSubscribed)

/-- R413's order of commands is one that keeps the protocol. -/
def Obligations.AHostThatKeepsTheProtocolIsNeverRefused : Prop :=
  (∀ s : State, s.Inv → s.HostKeepsProtocol →
    (∃ t, step s = .next t ∧ t.HostKeepsProtocol) ∨ step s = .refused .overSubscribed) ∧
  (∀ (s : State) (c : BitVec 32) (st : BitVec 4) (passes : List (BitVec 11 × Nat)), 1 ≤ st.toNat → st.toNat ≤ 8 →
    (∀ p ∈ passes, 1 ≤ p.1.toNat ∧ p.1.toNat ≤ 2040) →
    s.port.cmds = sessionCommands c st passes → s.HostKeepsProtocol)

/-- R430's argument (every step consumes, produces, raises or moves along the graph), which the spec marks as derived; the bound counts the model's steps (log 1). -/
def Obligations.EveryCommandEnds : Prop :=
  ∀ s : State, s.Inv → s.port.cmd ≠ .waiting →
    ∃ n ≤ 2 * bitsLeft s.reader + s.scan.rowbytes.toNat + 8,
      (∃ t, Sys2Proof.core.run n s = .next t ∧ t.port.cmd = .waiting) ∨
      Sys2Proof.core.run n s = .refused .overSubscribed

/-- R36: no rule moves backward. The answers as lists are the model's (log 3), and so is the building of a dynamic header's tables as a step of its own (log 1). -/
def Obligations.SourceOnlyMovesForward : Prop :=
  ∀ s t : State, step s = .next t →
    (∃ k, t.reader.src.bytes = s.reader.src.bytes.drop k) ∧ (∃ k, t.reader.src.hops = s.reader.src.hops.drop k) ∧
    (s.port.cmd = .waiting ∨ (s.window.unread ≠ 0 ∧ s.port.cmd ≠ .finish) ∨
      s.Expects .filt ∨ s.HeaderComplete ∨
      (s.Pulling ∧ (s.inflate.istate = .fixed ∨ s.inflate.istate = .blockEnd ∨ s.inflate.istate = .streamEnd)) →
      t.reader.src = s.reader.src)

/-- R38's column of writers, with START's `cur_sel <- 0` and `stored_hdr <- 0`, `stored_rem <- 0` from R142, and the memories of R26, R27 and R32. That a register stays as it was through ABORT, an error and FINISH is the model's choice (log 7), and so is that `rowbytes`, `ftype`, `wlog` and the table entries stay through START (log 19). -/
def Obligations.RegistersHaveTheirWriters : Prop :=
  ∀ s t : State, step s = .next t →
    (t.session.sstate ≠ s.session.sstate →
      t.session.sstate = .failed ∨ (s.port.cmd = .finish ∧ t.session.sstate = .done) ∨ s.TakesStart ∨ s.TakesAbort) ∧
    (t.session.result ≠ s.session.result → t.session.sstate = .failed ∨ s.TakesStart ∨ s.TakesAbort) ∧
    (t.reader.chunkRem ≠ s.reader.chunkRem →
      s.TakesStart ∨ ((s.Pulling ∨ s.port.cmd = .finish) ∧ t.reader.src ≠ s.reader.src)) ∧
    (t.reader.bitbuf ≠ s.reader.bitbuf ∨ t.reader.bitcnt ≠ s.reader.bitcnt →
      s.TakesStart ∨ s.Expects .bhdr ∨ s.Expects .storedHdr ∨ s.Expects .dynHdr ∨ s.Expects .clSym ∨
        s.Expects .litLen ∨ s.Expects .dist) ∧
    (t.scan.stride ≠ s.scan.stride → s.TakesStart) ∧
    (t.scan.rowbytes ≠ s.scan.rowbytes → s.TakesPassBegin) ∧
    (t.scan.passValid ≠ s.scan.passValid → s.TakesStart ∨ s.TakesPassBegin) ∧
    (t.scan.ftype ≠ s.scan.ftype → s.Expects .filt) ∧
    (t.scan.bufA ≠ s.scan.bufA ∨ t.scan.bufB ≠ s.scan.bufB → s.Expects .filt ∨ s.TakesPassBegin) ∧
    (t.scan.curSel ≠ s.scan.curSel → s.Expects .filt ∨ s.TakesStart) ∧
    (t.inflate.istate ≠ s.inflate.istate → s.Pulling ∨ s.TakesStart) ∧
    (t.inflate.hdrDone ≠ s.inflate.hdrDone → s.Expects .zhdr ∨ s.TakesStart) ∧
    (t.inflate.bfinal ≠ s.inflate.bfinal → s.Expects .bhdr ∨ s.TakesStart) ∧
    (t.inflate.storedHdr ≠ s.inflate.storedHdr → s.Expects .bhdr ∨ s.Expects .storedHdr ∨ s.TakesStart) ∧
    (t.inflate.storedRem ≠ s.inflate.storedRem → s.Expects .storedHdr ∨ s.Expects .raw ∨ s.TakesStart) ∧
    (t.window.wlog ≠ s.window.wlog → s.Expects .zhdr) ∧
    (t.window.mem ≠ s.window.mem → s.Expects .raw ∨ s.Expects .litLen ∨ s.Expects .dist) ∧
    (t.window.wr ≠ s.window.wr ∨ t.window.hist ≠ s.window.hist →
      s.Expects .raw ∨ s.Expects .litLen ∨ s.Expects .dist ∨ s.TakesStart) ∧
    (t.window.rd ≠ s.window.rd → s.PullsByte ∨ s.TakesStart) ∧
    (t.window.unread ≠ s.window.unread →
      s.PullsByte ∨ s.Expects .raw ∨ s.Expects .litLen ∨ s.Expects .dist ∨ s.TakesStart) ∧
    (t.tables.litTab ≠ s.tables.litTab ∨ t.tables.distTab ≠ s.tables.distTab → s.Expects .fixed ∨ s.HeaderComplete) ∧
    (t.tables.litN ≠ s.tables.litN ∨ t.tables.distN ≠ s.tables.distN →
      s.Expects .fixed ∨ s.HeaderComplete ∨ s.TakesStart) ∧
    (t.tables.clTab ≠ s.tables.clTab → s.Expects .dynHdr) ∧
    (t.tables.clN ≠ s.tables.clN → s.Expects .dynHdr ∨ s.TakesStart)

/-- R417: no rule can read them. So no result rests on what a window cell holds at reset (log 6). After an error, FINISH or ABORT it also compares what the session leaves: the spec leaves that state unspecified and keeping it is the model's choice (log 7), and so it is of what R41 leaves unspecified after START (log 19). -/
def Obligations.StaleWindowCellsHaveNoEffect : Prop :=
  ∀ s u s' : State, s.Inv → u = { s with window := u.window } → s.window.Alike u.window → u.window.mem.wf = true →
    step s = .next s' →
    ∃ u', step u = .next u' ∧ u' = { s' with window := u'.window } ∧ s'.window.Alike u'.window

/-- R119, whose notation no step uses. -/
def Obligations.MatchNotationNamesTheMatch : Prop :=
  (∀ len, 3 ≤ len → len ≤ 258 → ∃ b e, lengthRows[(matchLength len).1 - 257]? = some (b, e) ∧
    257 ≤ (matchLength len).1 ∧ b + (matchLength len).2 = len ∧ (matchLength len).2 < 2 ^ e) ∧
  (matchLength 258).1 = 285 ∧
  (∀ dist, 1 ≤ dist → dist ≤ 32768 → ∃ b e, distanceRows[(matchDistance dist).1]? = some (b, e) ∧
    b + (matchDistance dist).2 = dist ∧ (matchDistance dist).2 < 2 ^ e ∧
    ∀ k b' e', distanceRows[k]? = some (b', e') → b' ≤ dist → k ≤ (matchDistance dist).1)
end

