-- ==== Sys2Proof/Laws/Huffman.lean ====
section
/-!
SUPPORT. The Huffman table builder: how many entries a table has, what its entries are, its order,
and that a table is stored in range.
-/

namespace Sys2Proof.Machine

/-! ## Sorting (R185) -/

theorem insertEntry_perm (e : HuffEntry) (es : List HuffEntry) : (insertEntry e es).Perm (e :: es) := by
  induction es with
  | nil => exact .refl _
  | cons x xs ih =>
    unfold insertEntry
    split
    · exact .refl _
    · exact (ih.cons x).trans (.swap e x xs)

theorem sortEntries_perm (es : List HuffEntry) : (sortEntries es).Perm es := by
  induction es with
  | nil => exact .refl _
  | cons e es ih => exact (insertEntry_perm e _).trans (ih.cons e)

theorem mem_sortEntries {e : HuffEntry} {es : List HuffEntry} : e ∈ sortEntries es ↔ e ∈ es :=
  (sortEntries_perm es).mem_iff

@[simp] theorem length_sortEntries (es : List HuffEntry) : (sortEntries es).length = es.length :=
  (sortEntries_perm es).length_eq

theorem HuffEntry.le_iff (x y : HuffEntry) :
    x.le y = true ↔ x.len.toNat < y.len.toNat ∨ (x.len.toNat = y.len.toNat ∧ x.bits.toNat ≤ y.bits.toNat) := by
  simp [HuffEntry.le, BitVec.toNat_inj]

theorem HuffEntry.le_total {x y : HuffEntry} (h : ¬ x.le y = true) : y.le x = true := by
  rw [HuffEntry.le_iff] at *
  omega

theorem HuffEntry.le_trans {x y z : HuffEntry} (h : x.le y = true) (g : y.le z = true) : x.le z = true := by
  rw [HuffEntry.le_iff] at *
  omega

/-! ## Assignment (R184) -/

/-- A table entry built from a length, a code and a symbol. -/
theorem codeEntry_len {b c k : Nat} (h : b ≤ 15) : (codeEntry b c k).len.toNat = b := by
  simp [codeEntry]
  omega

theorem codeEntry_sym {b c k : Nat} (h : k < 512) : (codeEntry b c k).sym.toNat = k := by
  simp [codeEntry]
  omega

/-- There is one entry for each symbol of non-zero length. -/
theorem length_assignCodes (ls : List Nat) (sym : Nat) (next : List Nat) :
    (assignCodes ls sym next).length = ls.countP (· ≠ 0) := by
  induction ls generalizing sym next with
  | nil => rfl
  | cons b ls ih =>
    unfold assignCodes
    split
    · rename_i h
      rw [ih, List.countP_cons_of_neg (by simp [h])]
    · rename_i h
      rw [List.length_cons, ih, List.countP_cons_of_pos (by simpa using h)]

/-- Where an entry comes from. -/
theorem mem_assignCodes {e : HuffEntry} {ls : List Nat} {sym : Nat} {next : List Nat} (h : e ∈ assignCodes ls sym next) :
    ∃ k c, ∃ hk : k < ls.length, ls[k] ≠ 0 ∧ e = codeEntry ls[k] c (sym + k) := by
  induction ls generalizing sym next with
  | nil => simp [assignCodes] at h
  | cons b ls ih =>
    unfold assignCodes at h
    split at h
    · obtain ⟨k, c, hk, hb, he⟩ := ih h
      exact ⟨k + 1, c, by simpa using hk, by simpa using hb, by rw [he]; simp [Nat.add_assoc, Nat.add_comm 1 k]⟩
    · rename_i hb
      rcases List.mem_cons.1 h with rfl | h
      · exact ⟨0, _, by simp, by simpa using hb, rfl⟩
      · obtain ⟨k, c, hk, hb, he⟩ := ih h
        exact ⟨k + 1, c, by simpa using hk, by simpa using hb, by rw [he]; simp [Nat.add_assoc, Nat.add_comm 1 k]⟩

theorem length_buildTable (ls : List Nat) : (buildTable ls).length = ls.countP (· ≠ 0) := by
  rw [buildTable, length_sortEntries, length_assignCodes]

theorem length_buildTable_le (ls : List Nat) : (buildTable ls).length ≤ ls.length := by
  rw [length_buildTable]
  exact List.countP_le_length

/-- The entries of a table have a length of 1 to 15 and a symbol of the alphabet (R32, R180). -/
theorem mem_buildTable {e : HuffEntry} {ls : List Nat} (hl : ls.length ≤ 512) (hb : ∀ b ∈ ls, b ≤ 15)
    (h : e ∈ buildTable ls) : 1 ≤ e.len.toNat ∧ e.sym.toNat < ls.length := by
  obtain ⟨k, c, hk, h0, rfl⟩ := mem_assignCodes (mem_sortEntries.1 h)
  rw [codeEntry_len (hb _ (List.getElem_mem hk)), codeEntry_sym (by omega)]
  omega

theorem build_some {ls : List Nat} {t : List HuffEntry} (h : build ls = some t) :
    t = buildTable ls ∧ kraftSum ls ≤ 2 ^ Config.maxBits := by
  unfold build at h
  split at h
  · cases h
  · rename_i hk
    cases h
    exact ⟨rfl, by omega⟩

/-! ## Storing (R32, R74) -/

theorem take_storeTable (t old : List HuffEntry) : (storeTable t old).take t.length = t := by
  simp [storeTable]

theorem mem_storeTable {t old : List HuffEntry} {e : HuffEntry} (h : e ∈ storeTable t old) : e ∈ t ∨ e ∈ old := by
  rcases List.mem_append.1 h with h | h
  · exact .inl h
  · exact .inr (List.mem_of_mem_drop h)

/-- A table built from at most `cap` lengths is stored in range. -/
theorem TableInv.store {cap n : Nat} {old : List HuffEntry} {ls : List Nat} (h : TableInv cap old n)
    (hcap : cap ≤ 512) (hl : ls.length ≤ cap) (hb : ∀ b ∈ ls, b ≤ 15) :
    TableInv cap (storeTable (buildTable ls) old) (buildTable ls).length := by
  have hlen := length_buildTable_le ls
  refine ⟨?_, ?_, ?_⟩
  · simp [storeTable]
  · have := h.length_le
    simp only [storeTable, List.length_append, List.length_drop]
    omega
  · intro e he
    rcases mem_storeTable he with he | he
    · have := mem_buildTable (by omega) hb he
      omega
    · exact h.entry e he

theorem Tables.lit_setLit {t : List HuffEntry} (x : Tables) (h : t.length < 512) : (x.setLit t).lit = t := by
  simp only [Tables.lit, Tables.setLit, BitVec.toNat_ofNat]
  rw [Nat.mod_eq_of_lt h]
  exact take_storeTable t _

theorem Tables.dist_setDist {t : List HuffEntry} (x : Tables) (h : t.length < 64) : (x.setDist t).dist = t := by
  simp only [Tables.dist, Tables.setDist, BitVec.toNat_ofNat]
  rw [Nat.mod_eq_of_lt h]
  exact take_storeTable t _

theorem Tables.cl_setCl {t : List HuffEntry} (x : Tables) (h : t.length < 32) : (x.setCl t).cl = t := by
  simp only [Tables.cl, Tables.setCl, BitVec.toNat_ofNat]
  rw [Nat.mod_eq_of_lt h]
  exact take_storeTable t _

end Sys2Proof.Machine
end

