-- ==== Sys2Proof/Laws/Memory.lean ====
section
/-!
SUPPORT. Byte memories: what a read gives after a write, that every operation keeps the canonical
form, and that memories in that form with equal reads are equal.
-/

namespace Sys2Proof.Machine

@[simp] theorem Memory.read_nil (a : Nat) : Memory.read [] a = Config.unlistedByte := rfl

theorem Memory.read_listed (b : Nat) (v : Byte) (m : Memory) (a : Nat) :
    Memory.read ((b, v) :: m) a = if b = a then v else Memory.read m a := rfl

/-- The canonical form, one cell at a time. -/
theorem Memory.wf_cell (a : Nat) (v : Byte) (m : Memory) :
    Memory.wf ((a, v) :: m) = true ↔ v ≠ Config.unlistedByte ∧ (∀ c ∈ m, a < c.1) ∧ Memory.wf m = true := by
  induction m generalizing a v with
  | nil => simp [Memory.wf]
  | cons c m ih =>
    obtain ⟨b, w⟩ := c
    have hd : Memory.wf ((a, v) :: (b, w) :: m) = true ↔
        v ≠ Config.unlistedByte ∧ a < b ∧ Memory.wf ((b, w) :: m) = true := by
      simp [Memory.wf, and_assoc]
    rw [hd]
    constructor
    · rintro ⟨hv, hab, hw⟩
      refine ⟨hv, ?_, hw⟩
      intro c hc
      rcases List.mem_cons.1 hc with rfl | hc
      · exact hab
      · exact lt_trans hab (((ih b w).1 hw).2.1 c hc)
    · rintro ⟨hv, hlt, hw⟩
      exact ⟨hv, hlt _ (List.mem_cons_self ..), hw⟩

/-- A cell below every listed one is not listed. -/
theorem Memory.read_below (m : Memory) (a : Nat) (h : ∀ c ∈ m, a < c.1) : m.read a = Config.unlistedByte := by
  induction m with
  | nil => rfl
  | cons c m ih =>
    obtain ⟨b, w⟩ := c
    have hb : a < b := h _ (List.mem_cons_self ..)
    rw [Memory.read_listed, if_neg (by omega)]
    exact ih fun c hc => h c (List.mem_cons_of_mem _ hc)

theorem Memory.mem_cons {a : Nat} {v : Byte} {m : Memory} {c : Host.Cell} (h : c ∈ Memory.cons a v m) :
    c = (a, v) ∨ c ∈ m := by
  unfold Memory.cons at h
  split at h
  · exact .inr h
  · simpa using h

theorem Memory.wf_cons {a : Nat} {v : Byte} {m : Memory} (hm : m.wf = true) (h : ∀ c ∈ m, a < c.1) :
    (Memory.cons a v m).wf = true := by
  unfold Memory.cons
  split
  · exact hm
  · rename_i hv
    exact (Memory.wf_cell a v m).2 ⟨hv, h, hm⟩

theorem Memory.read_cons_same {a : Nat} {v : Byte} {m : Memory} (h : ∀ c ∈ m, a < c.1) :
    (Memory.cons a v m).read a = v := by
  unfold Memory.cons
  split
  · rename_i hv
    rw [hv, Memory.read_below m a h]
  · simp [Memory.read_listed]

theorem Memory.read_cons_other {a b : Nat} {v : Byte} {m : Memory} (h : b ≠ a) :
    (Memory.cons a v m).read b = m.read b := by
  unfold Memory.cons
  split
  · rfl
  · rw [Memory.read_listed, if_neg (Ne.symm h)]

/-- A cell of the written memory is the written one or an old one. -/
theorem Memory.mem_write {m : Memory} {a : Nat} {v : Byte} {c : Host.Cell} (h : c ∈ m.write a v) :
    c = (a, v) ∨ c ∈ m := by
  induction m with
  | nil => exact Memory.mem_cons h
  | cons d m ih =>
    obtain ⟨b, w⟩ := d
    unfold Memory.write at h
    split at h
    · exact Memory.mem_cons h
    · split at h
      · rcases Memory.mem_cons h with h | h
        · exact .inl h
        · exact .inr (List.mem_cons_of_mem _ h)
      · rcases List.mem_cons.1 h with h | h
        · exact .inr (h ▸ List.mem_cons_self ..)
        · rcases ih h with h | h
          · exact .inl h
          · exact .inr (List.mem_cons_of_mem _ h)

/-- A write keeps the canonical form. -/
theorem Memory.wf_write {m : Memory} (a : Nat) (v : Byte) (hm : m.wf = true) : (m.write a v).wf = true := by
  induction m with
  | nil => exact Memory.wf_cons rfl (by simp)
  | cons d m ih =>
    obtain ⟨b, w⟩ := d
    have hd := (Memory.wf_cell b w m).1 hm
    unfold Memory.write
    split
    · rename_i hab
      refine Memory.wf_cons hm fun c hc => ?_
      rcases List.mem_cons.1 hc with rfl | hc
      · exact hab
      · exact lt_trans hab (hd.2.1 c hc)
    · split
      · rename_i hab
        subst hab
        exact Memory.wf_cons hd.2.2 hd.2.1
      · rename_i h₁ h₂
        refine (Memory.wf_cell b w _).2 ⟨hd.1, fun c hc => ?_, ih hd.2.2⟩
        rcases Memory.mem_write hc with rfl | hc
        · show b < a
          omega
        · exact hd.2.1 c hc

/-- A read after a write to the same cell. -/
theorem Memory.read_write_same {m : Memory} (a : Nat) (v : Byte) (hm : m.wf = true) : (m.write a v).read a = v := by
  induction m with
  | nil => exact Memory.read_cons_same (by simp)
  | cons d m ih =>
    obtain ⟨b, w⟩ := d
    have hd := (Memory.wf_cell b w m).1 hm
    unfold Memory.write
    split
    · rename_i hab
      refine Memory.read_cons_same fun c hc => ?_
      rcases List.mem_cons.1 hc with rfl | hc
      · exact hab
      · exact lt_trans hab (hd.2.1 c hc)
    · split
      · rename_i hab
        subst hab
        exact Memory.read_cons_same hd.2.1
      · rename_i h₁ h₂
        rw [Memory.read_listed, if_neg (Ne.symm h₂)]
        exact ih hd.2.2

/-- A write leaves every other cell alone. -/
theorem Memory.read_write_other {m : Memory} {a b : Nat} (v : Byte) (h : b ≠ a) : (m.write a v).read b = m.read b := by
  induction m with
  | nil => exact Memory.read_cons_other h
  | cons d m ih =>
    obtain ⟨c, w⟩ := d
    unfold Memory.write
    split
    · exact Memory.read_cons_other h
    · split
      · rename_i hac
        subst hac
        rw [Memory.read_cons_other h, Memory.read_listed, if_neg (Ne.symm h)]
      · rw [Memory.read_listed, Memory.read_listed, ih]

theorem Memory.read_write {m : Memory} (a b : Nat) (v : Byte) (hm : m.wf = true) :
    (m.write a v).read b = if b = a then v else m.read b := by
  split
  · rename_i h
    rw [h]
    exact Memory.read_write_same a v hm
  · exact Memory.read_write_other v ‹_›

theorem Memory.wf_writeAll {m : Memory} (a : Nat) (vs : List Byte) (hm : m.wf = true) :
    (m.writeAll a vs).wf = true := by
  induction vs generalizing m a with
  | nil => exact hm
  | cons v vs ih => exact ih (a + 1) (Memory.wf_write a v hm)

/-- What a read gives after consecutive cells were written. -/
theorem Memory.read_writeAll {m : Memory} (a b : Nat) (vs : List Byte) (hm : m.wf = true) :
    (m.writeAll a vs).read b = if a ≤ b ∧ b < a + vs.length then vs.getD (b - a) 0 else m.read b := by
  induction vs generalizing m a with
  | nil =>
    rw [if_neg (by simp)]
    rfl
  | cons v vs ih =>
    rw [Memory.writeAll, ih (a + 1) (Memory.wf_write a v hm), Memory.read_write a b v hm]
    by_cases h₁ : b = a
    · subst h₁
      rw [if_neg (by omega), if_pos rfl, if_pos (by simp)]
      simp
    · by_cases h₂ : a + 1 ≤ b ∧ b < a + 1 + vs.length
      · rw [if_pos h₂, if_pos (by simp; omega)]
        obtain ⟨k, rfl⟩ : ∃ k, b = a + 1 + k := ⟨b - (a + 1), by omega⟩
        have e : a + 1 + k - a = k + 1 := by omega
        rw [e]
        simp
      · rw [if_neg h₂, if_neg h₁, if_neg (by simp; omega)]

@[simp] theorem Memory.length_readAll (m : Memory) (a n : Nat) : (m.readAll a n).length = n := by
  induction n generalizing a with
  | zero => rfl
  | succ n ih => simp [Memory.readAll, ih]

theorem Memory.getElem_readAll (m : Memory) (a n k : Nat) (h : k < (m.readAll a n).length) :
    (m.readAll a n)[k] = m.read (a + k) := by
  induction n generalizing a k with
  | zero => simp at h
  | succ n ih =>
    cases k with
    | zero => rfl
    | succ k =>
      simp only [Memory.readAll, List.getElem_cons_succ]
      rw [ih]
      congr 1
      omega

/-- Memories in canonical form with equal reads are equal data. -/
theorem Memory.eq_of_read {m n : Memory} (hm : m.wf = true) (hn : n.wf = true) (h : ∀ a, m.read a = n.read a) :
    m = n := by
  induction m generalizing n with
  | nil =>
    cases n with
    | nil => rfl
    | cons d n =>
      obtain ⟨b, w⟩ := d
      have hd := (Memory.wf_cell b w n).1 hn
      have := h b
      rw [Memory.read_listed, if_pos rfl, Memory.read_nil] at this
      exact absurd this.symm hd.1
  | cons d m ih =>
    obtain ⟨a, v⟩ := d
    have hd := (Memory.wf_cell a v m).1 hm
    cases n with
    | nil =>
      have := h a
      rw [Memory.read_listed, if_pos rfl, Memory.read_nil] at this
      exact absurd this hd.1
    | cons e n =>
      obtain ⟨b, w⟩ := e
      have he := (Memory.wf_cell b w n).1 hn
      have hab : a = b := by
        rcases Nat.lt_trichotomy a b with hlt | heq | hlt
        · have := h a
          rw [Memory.read_listed, if_pos rfl, Memory.read_below ((b, w) :: n) a] at this
          · exact absurd this hd.1
          · intro c hc
            rcases List.mem_cons.1 hc with rfl | hc
            · exact hlt
            · exact lt_trans hlt (he.2.1 c hc)
        · exact heq
        · have := h b
          rw [Memory.read_listed b w n, if_pos rfl, Memory.read_below ((a, v) :: m) b] at this
          · exact absurd this.symm he.1
          · intro c hc
            rcases List.mem_cons.1 hc with rfl | hc
            · exact hlt
            · exact lt_trans hlt (hd.2.1 c hc)
      subst hab
      have hv : v = w := by simpa [Memory.read_listed] using h a
      subst hv
      congr 1
      refine ih hd.2.2 he.2.2 fun c => ?_
      by_cases hc : c = a
      · subst hc
        rw [Memory.read_below m c hd.2.1, Memory.read_below n c he.2.1]
      · simpa [Memory.read_listed, Ne.symm hc] using h c

theorem Memory.within_nil (n : Nat) : Memory.Within [] n := fun _ h => absurd h (by simp)

theorem Memory.within_write {m : Memory} {n a : Nat} (v : Byte) (h : m.Within n) (ha : a < n) :
    (m.write a v).Within n := by
  intro c hc
  rcases Memory.mem_write hc with rfl | hc
  · exact ha
  · exact h c hc

theorem Memory.within_writeAll {m : Memory} {n a : Nat} (vs : List Byte) (h : m.Within n) (ha : a + vs.length ≤ n) :
    (m.writeAll a vs).Within n := by
  induction vs generalizing m a with
  | nil => exact h
  | cons v vs ih =>
    simp only [List.length_cons] at ha
    exact ih (Memory.within_write v h (by omega)) (by omega)

/-- After reset no memory lists anything, which is the canonical form. -/
theorem State.reset_memory_wf : State.reset.MemoryInv := ⟨rfl, rfl, rfl⟩

end Sys2Proof.Machine
end

