-- ==== Sys2Proof/Laws/Reader.lean ====
section
/-!
SUPPORT. The bit-stream reader: what each of its operations does when it succeeds, what it leaves
alone, and that it only moves forward.
-/

namespace Sys2Proof.Machine

/-! ## Sequences that may raise -/

/-- The part of the state at the end of an operation, reached or raised. -/
def Eff.out {σ α : Type} : Eff σ α → σ
  | .ok _ s => s
  | .raise _ s => s

@[simp] theorem Eff.out_ok {σ α : Type} (a : α) (s : σ) : (Eff.ok a s).out = s := rfl
@[simp] theorem Eff.out_raise {σ α : Type} (c : ErrCode) (s : σ) : (Eff.raise c s : Eff σ α).out = s := rfl
@[simp] theorem Eff.bind_ok {σ α β : Type} (a : α) (s : σ) (k : α → σ → Eff σ β) : (Eff.ok a s).bind k = k a s := rfl
@[simp] theorem Eff.bind_raise {σ α β : Type} (c : ErrCode) (s : σ) (k : α → σ → Eff σ β) :
    (Eff.raise c s : Eff σ α).bind k = .raise c s := rfl

/-- A sequence that succeeds is two successes. -/
theorem Eff.bind_eq_ok {σ α β : Type} {e : Eff σ α} {k : α → σ → Eff σ β} {b : β} {t : σ} (h : e.bind k = .ok b t) :
    ∃ a s, e = .ok a s ∧ k a s = .ok b t := by
  cases e with
  | ok a s => exact ⟨a, s, rfl, h⟩
  | raise c s => cases h

/-- A sequence that raises does so in its first or in its second part. -/
theorem Eff.bind_eq_raise {σ α β : Type} {e : Eff σ α} {k : α → σ → Eff σ β} {c : ErrCode} {t : σ}
    (h : e.bind k = .raise c t) : e = .raise c t ∨ ∃ a s, e = .ok a s ∧ k a s = .raise c t := by
  cases e with
  | ok a s => exact .inr ⟨a, s, rfl, h⟩
  | raise d s =>
    left
    simpa using h

/-- A relation between start and end that composes is kept by a sequence. -/
theorem Eff.out_bind {σ α β : Type} (R : σ → σ → Prop) (trans : ∀ a b c, R a b → R b c → R a c) {s : σ} {e : Eff σ α}
    {k : α → σ → Eff σ β} (he : R s e.out) (hk : ∀ a t, R t (k a t).out) : R s (e.bind k).out := by
  cases e with
  | ok a t => exact trans _ _ _ he (hk a t)
  | raise c t => exact he

/-! ## Bits as lists -/

@[simp] theorem length_bitsOf (n v : Nat) : (bitsOf n v).length = n := by
  induction n generalizing v with
  | zero => rfl
  | succ n ih => simp [bitsOf, ih]

/-- A number below 2^n is the number of its n bits. -/
theorem numberOf_bitsOf (n v : Nat) : numberOf (bitsOf n v) = v % 2 ^ n := by
  induction n generalizing v with
  | zero => simp [bitsOf, numberOf, Nat.mod_one]
  | succ n ih =>
    rw [bitsOf, numberOf, ih, Nat.pow_succ, Nat.mul_comm (2 ^ n) 2, Nat.mod_mul]
    rcases Nat.mod_two_eq_zero_or_one v with h | h <;> simp [h]

theorem numberOf_lt (bs : List Bool) : numberOf bs < 2 ^ bs.length := by
  induction bs with
  | nil => simp [numberOf]
  | cons b bs ih => cases b <;> simp [numberOf, Nat.pow_succ] <;> omega

theorem bitsOf_numberOf (bs : List Bool) : bitsOf bs.length (numberOf bs) = bs := by
  induction bs with
  | nil => rfl
  | cons b bs ih =>
    simp only [List.length_cons, numberOf, bitsOf]
    have h₁ : (b.toNat + 2 * numberOf bs) / 2 = numberOf bs := by
      cases b
      · simp
      · simp
        omega
    have h₂ : ((b.toNat + 2 * numberOf bs) % 2 == 1) = b := by cases b <;> simp
    rw [h₁, h₂, ih]

/-! ## The answers of the source -/

@[simp] theorem answeredBytes_nil : answeredBytes [] = [] := rfl
@[simp] theorem answeredBytes_some (b : Byte) (as : List (Option Byte)) :
    answeredBytes (some b :: as) = b :: answeredBytes as := rfl
@[simp] theorem answeredBytes_none (as : List (Option Byte)) : answeredBytes (none :: as) = [] := rfl

/-- How a reader may move: the answers are used up from the front, and if it is tidy it stays so. -/
structure Reader.Moves (r t : Reader) : Prop where
  bytes : t.src.bytes <:+ r.src.bytes
  hops : t.src.hops <:+ r.src.hops
  tidy : r.Tidy → t.Tidy

theorem Reader.Moves.refl (r : Reader) : r.Moves r := ⟨List.suffix_rfl, List.suffix_rfl, id⟩

theorem Reader.Moves.trans (r t u : Reader) (h : r.Moves t) (g : t.Moves u) : r.Moves u :=
  ⟨g.bytes.trans h.bytes, g.hops.trans h.hops, fun x => g.tidy (h.tidy x)⟩

/-- Moving without touching the buffered bits or the accumulator. -/
structure Reader.Fetches (r t : Reader) : Prop where
  bytes : t.src.bytes <:+ r.src.bytes
  hops : t.src.hops <:+ r.src.hops
  bitbuf : t.bitbuf = r.bitbuf
  bitcnt : t.bitcnt = r.bitcnt
  mv : t.mv = r.mv
  mhave : t.mhave = r.mhave

theorem Reader.Fetches.refl (r : Reader) : r.Fetches r := ⟨List.suffix_rfl, List.suffix_rfl, rfl, rfl, rfl, rfl⟩

theorem Reader.Fetches.trans (r t u : Reader) (h : r.Fetches t) (g : t.Fetches u) : r.Fetches u :=
  ⟨g.bytes.trans h.bytes, g.hops.trans h.hops, g.bitbuf.trans h.bitbuf, g.bitcnt.trans h.bitcnt, g.mv.trans h.mv,
    g.mhave.trans h.mhave⟩

theorem Reader.Fetches.moves {r t : Reader} (h : r.Fetches t) : r.Moves t :=
  ⟨h.bytes, h.hops, fun x => by unfold Reader.Tidy; rw [h.bitbuf, h.bitcnt]; exact x⟩

theorem Reader.fetches_hop (r : Reader) (hs : List (Option (BitVec 32))) (h : hs <:+ r.src.hops) :
    r.Fetches (r.hop hs).out := by
  induction hs with
  | nil => exact ⟨List.suffix_rfl, List.nil_suffix, rfl, rfl, rfl, rfl⟩
  | cons a hs ih =>
    have hs' : hs <:+ r.src.hops := (List.suffix_cons a hs).trans h
    cases a with
    | none => exact ⟨List.suffix_rfl, hs', rfl, rfl, rfl, rfl⟩
    | some n =>
      unfold Reader.hop
      split
      · exact ih hs'
      · exact ⟨List.suffix_rfl, hs', rfl, rfl, rfl, rfl⟩

theorem Reader.fetches_srcByte (r : Reader) : r.Fetches r.srcByte.out := by
  unfold Reader.srcByte
  split
  · exact .refl r
  · rename_i bs h
    exact ⟨by rw [h]; exact List.suffix_cons .., List.suffix_rfl, rfl, rfl, rfl, rfl⟩
  · rename_i b bs h
    exact ⟨by rw [h]; exact List.suffix_cons .., List.suffix_rfl, rfl, rfl, rfl, rfl⟩

theorem Reader.fetches_fetchByte (r : Reader) : r.Fetches r.fetchByte.out := by
  unfold Reader.fetchByte
  split
  · exact Eff.out_bind Reader.Fetches Reader.Fetches.trans (r.fetches_hop _ List.suffix_rfl) fun _ t => t.fetches_srcByte
  · exact r.fetches_srcByte

/-- A hop that succeeds leaves the bytes of the source alone. -/
theorem Reader.hop_ok_bytes {r t : Reader} {hs : List (Option (BitVec 32))} {u : Unit} (h : r.hop hs = .ok u t) :
    t.src.bytes = r.src.bytes := by
  induction hs with
  | nil => cases h
  | cons a hs ih =>
    cases a with
    | none => cases h
    | some n =>
      unfold Reader.hop at h
      split at h
      · exact ih h
      · cases h
        rfl

theorem Reader.srcByte_ok {r t : Reader} {b : Byte} (h : r.srcByte = .ok b t) :
    r.src.bytes = some b :: t.src.bytes ∧ t.chunkRem = r.chunkRem - 1 := by
  unfold Reader.srcByte at h
  split at h
  · cases h
  · cases h
  · rename_i e
    cases h
    exact ⟨e, rfl⟩

/-- A byte fetched is the next answer of the source (R161, R162). -/
theorem Reader.fetchByte_ok {r t : Reader} {b : Byte} (h : r.fetchByte = .ok b t) :
    r.src.bytes = some b :: t.src.bytes := by
  unfold Reader.fetchByte at h
  split at h
  · obtain ⟨_, u, hu, h⟩ := Eff.bind_eq_ok h
    rw [← Reader.hop_ok_bytes hu]
    exact (Reader.srcByte_ok h).1
  · exact (Reader.srcByte_ok h).1

/-- Only the two I/O causes come out of a fetch (R361, R362). -/
theorem Reader.hop_raise {r t : Reader} {hs : List (Option (BitVec 32))} {c : ErrCode} (h : r.hop hs = .raise c t) :
    c = .ioChunk := by
  induction hs with
  | nil => cases h; rfl
  | cons a hs ih =>
    cases a with
    | none => cases h; rfl
    | some n =>
      unfold Reader.hop at h
      split at h
      · exact ih h
      · cases h

theorem Reader.srcByte_raise {r t : Reader} {c : ErrCode} (h : r.srcByte = .raise c t) : c = .io := by
  unfold Reader.srcByte at h
  split at h <;> cases h <;> rfl

theorem Reader.fetchByte_raise {r t : Reader} {c : ErrCode} (h : r.fetchByte = .raise c t) : c = .io ∨ c = .ioChunk := by
  unfold Reader.fetchByte at h
  split at h
  · rcases Eff.bind_eq_raise h with h | ⟨_, _, _, h⟩
    · exact .inr (Reader.hop_raise h)
    · exact .inl (Reader.srcByte_raise h)
  · exact .inl (Reader.srcByte_raise h)

/-- With a byte left in the chunk and one answered, the fetch succeeds. -/
theorem Reader.fetchByte_in_chunk {r : Reader} {b : Byte} {bs : List (Option Byte)} (hc : r.chunkRem ≠ 0)
    (hb : r.src.bytes = some b :: bs) :
    r.fetchByte = .ok b { r with chunkRem := r.chunkRem - 1, src := { r.src with bytes := bs } } := by
  rw [Reader.fetchByte, if_neg hc, Reader.srcByte, hb]

/-! ## One bit -/

/-- Taking a buffered bit keeps the reader tidy, even from a byte just fetched. -/
theorem Reader.shiftBit_spec {r : Reader} (hc : 1 ≤ r.bitcnt.toNat) (hc8 : r.bitcnt.toNat ≤ 8)
    (hb : r.bitbuf.toNat < 2 ^ r.bitcnt.toNat) :
    ∃ b t, r.shiftBit = .ok b t ∧ t.Tidy ∧ r.streamBits = b :: t.streamBits ∧ t.mv = r.mv ∧ t.mhave = r.mhave ∧
      t.src = r.src ∧ t.chunkRem = r.chunkRem ∧ t.bitcnt.toNat = r.bitcnt.toNat - 1 := by
  have e₁ : (r.bitcnt - 1).toNat = r.bitcnt.toNat - 1 := by bv_omega
  have e₂ : (r.bitbuf >>> 1).toNat = r.bitbuf.toNat / 2 := by
    simp [BitVec.toNat_ushiftRight, Nat.shiftRight_eq_div_pow]
  refine ⟨_, _, rfl, ⟨?_, ?_⟩, ?_, rfl, rfl, rfl, rfl, e₁⟩
  · show (r.bitcnt - 1).toNat ≤ 7
    omega
  · show (r.bitbuf >>> 1).toNat < 2 ^ (r.bitcnt - 1).toNat
    rw [e₁, e₂]
    obtain ⟨k, hk⟩ : ∃ k, r.bitcnt.toNat = k + 1 := ⟨r.bitcnt.toNat - 1, by omega⟩
    rw [hk] at hb ⊢
    rw [Nat.pow_succ] at hb
    simp only [Nat.add_sub_cancel]
    omega
  · unfold Reader.streamBits
    show bitsOf r.bitcnt.toNat r.bitbuf.toNat ++ _ = _ :: (bitsOf (r.bitcnt - 1).toNat (r.bitbuf >>> 1).toNat ++ _)
    rw [e₁, e₂]
    obtain ⟨k, hk⟩ : ∃ k, r.bitcnt.toNat = k + 1 := ⟨r.bitcnt.toNat - 1, by omega⟩
    rw [hk]
    simp only [Nat.add_sub_cancel, bitsOf, List.cons_append, List.cons.injEq, and_true]
    rw [BitVec.getLsbD, Nat.testBit_zero]
    by_cases h : r.bitbuf.toNat % 2 = 1 <;> simp [h]

/-- The eight bits of a byte just fetched stand in the buffer. -/
theorem Reader.streamBits_of_fetched {r t : Reader} {b : Byte} (hc : r.bitcnt = 0) (hr : r.src.bytes = some b :: t.src.bytes) :
    r.streamBits = ({ t with bitbuf := b, bitcnt := 8 } : Reader).streamBits := by
  unfold Reader.streamBits
  rw [hr, hc]
  simp [bitsOf, bitsOfByte]

/-- One bit read: it is the next of the stream (R75, R163). -/
theorem Reader.readBit_ok {r t : Reader} {b : Bool} (hr : r.Tidy) (h : r.readBit = .ok b t) :
    t.Tidy ∧ r.streamBits = b :: t.streamBits ∧ t.mv = r.mv ∧ t.mhave = r.mhave := by
  unfold Reader.readBit at h
  split at h
  · rename_i hc
    obtain ⟨a, u, hu, h⟩ := Eff.bind_eq_ok h
    have hf := r.fetches_fetchByte
    rw [hu] at hf
    have hb := Reader.fetchByte_ok hu
    obtain ⟨b', t', h', ht, hs, hm, hh, _⟩ :=
      Reader.shiftBit_spec (r := { u with bitbuf := a, bitcnt := 8 }) (by simp) (by simp) (by simpa using a.isLt)
    rw [h'] at h
    cases h
    exact ⟨ht, by rw [Reader.streamBits_of_fetched hc hb, hs], by rw [hm]; exact hf.mv, by rw [hh]; exact hf.mhave⟩
  · rename_i hc
    have hc1 : 1 ≤ r.bitcnt.toNat := by
      rcases Nat.eq_zero_or_pos r.bitcnt.toNat with h0 | h0
      · exact absurd (BitVec.eq_of_toNat_eq (by simpa using h0)) hc
      · exact h0
    obtain ⟨b', t', h', ht, hs, hm, hh, _⟩ := Reader.shiftBit_spec hc1 (by have := hr.1; omega) hr.2
    rw [h'] at h
    cases h
    exact ⟨ht, hs, hm, hh⟩

theorem Reader.moves_shiftBit {r : Reader} (hr : r.Tidy) (hc : r.bitcnt ≠ 0) : r.Moves r.shiftBit.out := by
  refine ⟨List.suffix_rfl, List.suffix_rfl, fun _ => ?_⟩
  have hc1 : 1 ≤ r.bitcnt.toNat := by
    rcases Nat.eq_zero_or_pos r.bitcnt.toNat with h0 | h0
    · exact absurd (BitVec.eq_of_toNat_eq (by simpa using h0)) hc
    · exact h0
  obtain ⟨b', t', h', ht, _⟩ := Reader.shiftBit_spec hc1 (by have := hr.1; omega) hr.2
  rw [h']
  exact ht

theorem Reader.moves_readBit (r : Reader) : r.Moves r.readBit.out := by
  unfold Reader.readBit
  split
  · have hf := r.fetches_fetchByte
    cases hu : r.fetchByte with
    | raise c u =>
      rw [hu] at hf
      exact hf.moves
    | ok a u =>
      rw [hu] at hf
      refine ⟨hf.bytes, hf.hops, fun _ => ?_⟩
      obtain ⟨b', t', h', ht, _⟩ :=
        Reader.shiftBit_spec (r := { u with bitbuf := a, bitcnt := 8 }) (by simp) (by simp) (by simpa using a.isLt)
      rw [Eff.bind_ok, h']
      exact ht
  · rename_i hc
    refine ⟨List.suffix_rfl, List.suffix_rfl, fun hr => ?_⟩
    exact (Reader.moves_shiftBit hr hc).tidy hr

/-- The bit comes from the buffer, or from a byte of the current chunk that the source answers. -/
theorem Reader.readBit_total {r : Reader} (hr : r.Tidy) (hn : 1 ≤ bitsLeft r) (hc : r.WithinChunk 1) :
    ∃ b t, r.readBit = .ok b t ∧ ∀ n, r.WithinChunk (n + 1) → t.WithinChunk n := by
  by_cases h0 : r.bitcnt = 0
  · have hcr : r.chunkRem ≠ 0 := by
      intro h
      unfold Reader.WithinChunk at hc
      rw [h0, h] at hc
      simp at hc
    cases hb : r.src.bytes with
    | nil => simp [bitsLeft, Reader.streamBits, h0, hb, bitsOf] at hn
    | cons a bs =>
      cases a with
      | none => simp [bitsLeft, Reader.streamBits, h0, hb, bitsOf] at hn
      | some a =>
        have hf := Reader.fetchByte_in_chunk hcr hb
        obtain ⟨b', t', h', _, _, _, _, _, hcr', hcnt⟩ := Reader.shiftBit_spec
          (r := { r with bitbuf := a, bitcnt := 8, chunkRem := r.chunkRem - 1, src := { r.src with bytes := bs } })
          (by simp) (by simp) (by simpa using a.isLt)
        refine ⟨b', t', ?_, ?_⟩
        · rw [Reader.readBit, if_pos h0, hf, Eff.bind_ok]
          exact h'
        · intro n hn'
          unfold Reader.WithinChunk at hn' ⊢
          rw [hcr', hcnt]
          rw [h0] at hn'
          have : 1 ≤ r.chunkRem.toNat := by
            rcases Nat.eq_zero_or_pos r.chunkRem.toNat with h0 | h0
            · exact absurd (BitVec.eq_of_toNat_eq (by simpa using h0)) hcr
            · exact h0
          have e : (r.chunkRem - 1).toNat = r.chunkRem.toNat - 1 := by bv_omega
          simp only [e]
          simp at hn' ⊢
          omega
  · have hc1 : 1 ≤ r.bitcnt.toNat := by
      rcases Nat.eq_zero_or_pos r.bitcnt.toNat with h | h
      · exact absurd (BitVec.eq_of_toNat_eq (by simpa using h)) h0
      · exact h
    obtain ⟨b', t', h', _, _, _, _, _, hcr', hcnt⟩ := Reader.shiftBit_spec hc1 (by have := hr.1; omega) hr.2
    refine ⟨b', t', by rw [Reader.readBit, if_neg h0, h'], fun n hn' => ?_⟩
    unfold Reader.WithinChunk at hn' ⊢
    rw [hcr', hcnt]
    omega

/-! ## Many bits, many bytes -/

theorem Reader.moves_readBits (n : Nat) (r : Reader) : r.Moves (r.readBits n).out := by
  induction n generalizing r with
  | zero => exact .refl r
  | succ n ih =>
    refine Eff.out_bind Reader.Moves Reader.Moves.trans r.moves_readBit fun b t => ?_
    exact Eff.out_bind Reader.Moves Reader.Moves.trans (ih t) fun v u => .refl u

theorem Reader.readBits_raise {n : Nat} {r t : Reader} {c : ErrCode} (h : r.readBits n = .raise c t) :
    c = .io ∨ c = .ioChunk := by
  induction n generalizing r with
  | zero => cases h
  | succ n ih =>
    rcases Eff.bind_eq_raise h with h | ⟨b, u, _, h⟩
    · unfold Reader.readBit at h
      split at h
      · rcases Eff.bind_eq_raise h with h | ⟨_, _, _, h⟩
        · exact Reader.fetchByte_raise h
        · cases h
      · cases h
    · rcases Eff.bind_eq_raise h with h | ⟨_, _, _, h⟩
      · exact ih h
      · cases h

theorem Reader.readBits_lt {n : Nat} {r t : Reader} {v : Nat} (h : r.readBits n = .ok v t) : v < 2 ^ n := by
  induction n generalizing r t v with
  | zero => cases h; simp
  | succ n ih =>
    obtain ⟨b, u, _, h⟩ := Eff.bind_eq_ok h
    obtain ⟨w, x, hw, h⟩ := Eff.bind_eq_ok h
    cases h
    have := ih hw
    cases b <;> simp [Nat.pow_succ] <;> omega

theorem Reader.fetches_readBytes (n : Nat) (r : Reader) : r.Fetches (r.readBytes n).out := by
  induction n generalizing r with
  | zero => exact .refl r
  | succ n ih =>
    refine Eff.out_bind Reader.Fetches Reader.Fetches.trans r.fetches_fetchByte fun b t => ?_
    exact Eff.out_bind Reader.Fetches Reader.Fetches.trans (ih t) fun v u => .refl u

theorem Reader.readBytes_raise {n : Nat} {r t : Reader} {c : ErrCode} (h : r.readBytes n = .raise c t) :
    c = .io ∨ c = .ioChunk := by
  induction n generalizing r with
  | zero => cases h
  | succ n ih =>
    rcases Eff.bind_eq_raise h with h | ⟨b, u, _, h⟩
    · exact Reader.fetchByte_raise h
    · rcases Eff.bind_eq_raise h with h | ⟨_, _, _, h⟩
      · exact ih h
      · cases h

theorem Reader.readBytes_length {n : Nat} {r t : Reader} {bs : List Byte} (h : r.readBytes n = .ok bs t) :
    bs.length = n := by
  induction n generalizing r t bs with
  | zero => cases h; rfl
  | succ n ih =>
    obtain ⟨b, u, _, h⟩ := Eff.bind_eq_ok h
    obtain ⟨w, x, hw, h⟩ := Eff.bind_eq_ok h
    cases h
    simp [ih hw]

theorem wordOfBytes_lt (bs : List Byte) : wordOfBytes bs < 2 ^ (8 * bs.length) := by
  induction bs with
  | nil => simp [wordOfBytes]
  | cons b bs ih =>
    have hb := b.isLt
    have e : 2 ^ (8 * (b :: bs).length) = 2 ^ 8 * 2 ^ (8 * bs.length) := by
      rw [← Nat.pow_add, List.length_cons, Nat.mul_add, Nat.mul_one, Nat.add_comm]
    rw [e, wordOfBytes]
    have : 2 ^ 8 * wordOfBytes bs + 2 ^ 8 ≤ 2 ^ 8 * 2 ^ (8 * bs.length) := by
      rw [← Nat.mul_succ]
      exact Nat.mul_le_mul_left _ ih
    omega

theorem Reader.moves_alignByte (r : Reader) : r.Moves r.alignByte :=
  ⟨List.suffix_rfl, List.suffix_rfl, fun _ => ⟨by simp [Reader.alignByte], by simp [Reader.alignByte]⟩⟩

theorem Reader.moves_readWord (n : Nat) (r : Reader) : r.Moves (r.readWord n).out :=
  Eff.out_bind Reader.Moves Reader.Moves.trans (r.fetches_readBytes n).moves fun _ t => .refl t

theorem Reader.moves_readLens (n : Nat) (r : Reader) : r.Moves (r.readLens n).out := by
  induction n generalizing r with
  | zero => exact .refl r
  | succ n ih =>
    refine Eff.out_bind Reader.Moves Reader.Moves.trans (r.moves_readBits 3) fun b t => ?_
    exact Eff.out_bind Reader.Moves Reader.Moves.trans (ih t) fun v u => .refl u

/-! ## Match -/

theorem Reader.moves_accumulate (k : Nat) (r : Reader) : r.Moves (r.accumulate k).out := by
  induction k generalizing r with
  | zero => exact .refl r
  | succ k ih =>
    refine Eff.out_bind Reader.Moves Reader.Moves.trans r.moves_readBit fun b t => ?_
    let t' : Reader := { t with mv := t.mv ||| (BitVec.ofNat 15 b.toNat <<< t.mhave.toNat), mhave := t.mhave + 1 }
    exact Reader.Moves.trans t t' _ ⟨List.suffix_rfl, List.suffix_rfl, fun h => h⟩ (ih t')

theorem Reader.moves_scanTable (es : List HuffEntry) (r : Reader) : r.Moves (r.scanTable es).out := by
  induction es generalizing r with
  | nil => exact .refl r
  | cons e es ih =>
    refine Eff.out_bind Reader.Moves Reader.Moves.trans (r.moves_accumulate _) fun _ t => ?_
    split
    · exact .refl t
    · exact ih t

theorem Reader.moves_matchSymbol (es : List HuffEntry) (r : Reader) : r.Moves (r.matchSymbol es).out :=
  Reader.Moves.trans r { r with mv := 0, mhave := 0 } _ ⟨List.suffix_rfl, List.suffix_rfl, fun h => h⟩
    (Reader.moves_scanTable es _)

theorem Reader.moves_readSymbol (es : List HuffEntry) (r : Reader) : r.Moves (r.readSymbol es).out :=
  Eff.out_bind Reader.Moves Reader.Moves.trans (r.moves_matchSymbol es) fun _ t => .refl t

/-- A matched symbol is the symbol of an entry of the table (R188). -/
theorem Reader.scanTable_ok {es : List HuffEntry} {r t : Reader} {v : BitVec 9} (h : r.scanTable es = .ok v t) :
    ∃ e ∈ es, e.sym = v := by
  induction es generalizing r with
  | nil => cases h
  | cons e es ih =>
    obtain ⟨_, u, _, h⟩ := Eff.bind_eq_ok h
    split at h
    · cases h
      exact ⟨e, List.mem_cons_self .., rfl⟩
    · obtain ⟨x, hx, hv⟩ := ih h
      exact ⟨x, List.mem_cons_of_mem _ hx, hv⟩

theorem Reader.matchSymbol_ok {es : List HuffEntry} {r t : Reader} {v : BitVec 9} (h : r.matchSymbol es = .ok v t) :
    ∃ e ∈ es, e.sym = v := Reader.scanTable_ok h

/-- What a match may raise (R188, R189). -/
theorem Reader.accumulate_raise {k : Nat} {r t : Reader} {c : ErrCode} (h : r.accumulate k = .raise c t) :
    c = .io ∨ c = .ioChunk := by
  induction k generalizing r with
  | zero => cases h
  | succ k ih =>
    rcases Eff.bind_eq_raise h with h | ⟨b, u, _, h⟩
    · have : r.readBits 1 = .raise c t := by
        show r.readBit.bind _ = _
        rw [h]
        rfl
      exact Reader.readBits_raise this
    · exact ih h

theorem Reader.scanTable_raise {es : List HuffEntry} {r t : Reader} {c : ErrCode} (h : r.scanTable es = .raise c t) :
    c = .io ∨ c = .ioChunk ∨ c = .noMatch := by
  induction es generalizing r with
  | nil => cases h; exact .inr (.inr rfl)
  | cons e es ih =>
    rcases Eff.bind_eq_raise h with h | ⟨_, u, _, h⟩
    · rcases Reader.accumulate_raise h with h | h
      · exact .inl h
      · exact .inr (.inl h)
    · split at h
      · cases h
      · exact ih h

theorem Reader.matchSymbol_raise {es : List HuffEntry} {r t : Reader} {c : ErrCode} (h : r.matchSymbol es = .raise c t) :
    c = .io ∨ c = .ioChunk ∨ c = .noMatch := Reader.scanTable_raise h

end Sys2Proof.Machine
end

