-- ==== Sys2Proof/Laws/State.lean ====
section
/-!
SUPPORT. The updates of one part of the state: what every part is after each of them. All by
unfolding a record update, so that no later proof unfolds one.
-/

namespace Sys2Proof.Machine

/-! ### `State.setSession` -/

@[simp] theorem State.setSession_session (s : State) (x : Session) : (s.setSession x).session = x := rfl
@[simp] theorem State.setSession_reader (s : State) (x : Session) : (s.setSession x).reader = s.reader := rfl
@[simp] theorem State.setSession_scan (s : State) (x : Session) : (s.setSession x).scan = s.scan := rfl
@[simp] theorem State.setSession_window (s : State) (x : Session) : (s.setSession x).window = s.window := rfl
@[simp] theorem State.setSession_inflate (s : State) (x : Session) : (s.setSession x).inflate = s.inflate := rfl
@[simp] theorem State.setSession_tables (s : State) (x : Session) : (s.setSession x).tables = s.tables := rfl
@[simp] theorem State.setSession_dyn (s : State) (x : Session) : (s.setSession x).dyn = s.dyn := rfl
@[simp] theorem State.setSession_temps (s : State) (x : Session) : (s.setSession x).temps = s.temps := rfl
@[simp] theorem State.setSession_port (s : State) (x : Session) : (s.setSession x).port = s.port := rfl
@[simp] theorem State.setSession_setSession (s : State) (x y : Session) : (s.setSession x).setSession y = s.setSession y := rfl
@[simp] theorem State.setSession_same (s : State) : s.setSession s.session = s := rfl

/-! ### `State.setReader` -/

@[simp] theorem State.setReader_session (s : State) (x : Reader) : (s.setReader x).session = s.session := rfl
@[simp] theorem State.setReader_reader (s : State) (x : Reader) : (s.setReader x).reader = x := rfl
@[simp] theorem State.setReader_scan (s : State) (x : Reader) : (s.setReader x).scan = s.scan := rfl
@[simp] theorem State.setReader_window (s : State) (x : Reader) : (s.setReader x).window = s.window := rfl
@[simp] theorem State.setReader_inflate (s : State) (x : Reader) : (s.setReader x).inflate = s.inflate := rfl
@[simp] theorem State.setReader_tables (s : State) (x : Reader) : (s.setReader x).tables = s.tables := rfl
@[simp] theorem State.setReader_dyn (s : State) (x : Reader) : (s.setReader x).dyn = s.dyn := rfl
@[simp] theorem State.setReader_temps (s : State) (x : Reader) : (s.setReader x).temps = s.temps := rfl
@[simp] theorem State.setReader_port (s : State) (x : Reader) : (s.setReader x).port = s.port := rfl
@[simp] theorem State.setReader_setReader (s : State) (x y : Reader) : (s.setReader x).setReader y = s.setReader y := rfl
@[simp] theorem State.setReader_same (s : State) : s.setReader s.reader = s := rfl

/-! ### `State.setScan` -/

@[simp] theorem State.setScan_session (s : State) (x : Scan) : (s.setScan x).session = s.session := rfl
@[simp] theorem State.setScan_reader (s : State) (x : Scan) : (s.setScan x).reader = s.reader := rfl
@[simp] theorem State.setScan_scan (s : State) (x : Scan) : (s.setScan x).scan = x := rfl
@[simp] theorem State.setScan_window (s : State) (x : Scan) : (s.setScan x).window = s.window := rfl
@[simp] theorem State.setScan_inflate (s : State) (x : Scan) : (s.setScan x).inflate = s.inflate := rfl
@[simp] theorem State.setScan_tables (s : State) (x : Scan) : (s.setScan x).tables = s.tables := rfl
@[simp] theorem State.setScan_dyn (s : State) (x : Scan) : (s.setScan x).dyn = s.dyn := rfl
@[simp] theorem State.setScan_temps (s : State) (x : Scan) : (s.setScan x).temps = s.temps := rfl
@[simp] theorem State.setScan_port (s : State) (x : Scan) : (s.setScan x).port = s.port := rfl
@[simp] theorem State.setScan_setScan (s : State) (x y : Scan) : (s.setScan x).setScan y = s.setScan y := rfl
@[simp] theorem State.setScan_same (s : State) : s.setScan s.scan = s := rfl

/-! ### `State.setWindow` -/

@[simp] theorem State.setWindow_session (s : State) (x : Window) : (s.setWindow x).session = s.session := rfl
@[simp] theorem State.setWindow_reader (s : State) (x : Window) : (s.setWindow x).reader = s.reader := rfl
@[simp] theorem State.setWindow_scan (s : State) (x : Window) : (s.setWindow x).scan = s.scan := rfl
@[simp] theorem State.setWindow_window (s : State) (x : Window) : (s.setWindow x).window = x := rfl
@[simp] theorem State.setWindow_inflate (s : State) (x : Window) : (s.setWindow x).inflate = s.inflate := rfl
@[simp] theorem State.setWindow_tables (s : State) (x : Window) : (s.setWindow x).tables = s.tables := rfl
@[simp] theorem State.setWindow_dyn (s : State) (x : Window) : (s.setWindow x).dyn = s.dyn := rfl
@[simp] theorem State.setWindow_temps (s : State) (x : Window) : (s.setWindow x).temps = s.temps := rfl
@[simp] theorem State.setWindow_port (s : State) (x : Window) : (s.setWindow x).port = s.port := rfl
@[simp] theorem State.setWindow_setWindow (s : State) (x y : Window) : (s.setWindow x).setWindow y = s.setWindow y := rfl
@[simp] theorem State.setWindow_same (s : State) : s.setWindow s.window = s := rfl

/-! ### `State.setInflate` -/

@[simp] theorem State.setInflate_session (s : State) (x : Inflate) : (s.setInflate x).session = s.session := rfl
@[simp] theorem State.setInflate_reader (s : State) (x : Inflate) : (s.setInflate x).reader = s.reader := rfl
@[simp] theorem State.setInflate_scan (s : State) (x : Inflate) : (s.setInflate x).scan = s.scan := rfl
@[simp] theorem State.setInflate_window (s : State) (x : Inflate) : (s.setInflate x).window = s.window := rfl
@[simp] theorem State.setInflate_inflate (s : State) (x : Inflate) : (s.setInflate x).inflate = x := rfl
@[simp] theorem State.setInflate_tables (s : State) (x : Inflate) : (s.setInflate x).tables = s.tables := rfl
@[simp] theorem State.setInflate_dyn (s : State) (x : Inflate) : (s.setInflate x).dyn = s.dyn := rfl
@[simp] theorem State.setInflate_temps (s : State) (x : Inflate) : (s.setInflate x).temps = s.temps := rfl
@[simp] theorem State.setInflate_port (s : State) (x : Inflate) : (s.setInflate x).port = s.port := rfl
@[simp] theorem State.setInflate_setInflate (s : State) (x y : Inflate) : (s.setInflate x).setInflate y = s.setInflate y := rfl
@[simp] theorem State.setInflate_same (s : State) : s.setInflate s.inflate = s := rfl

/-! ### `State.setTables` -/

@[simp] theorem State.setTables_session (s : State) (x : Tables) : (s.setTables x).session = s.session := rfl
@[simp] theorem State.setTables_reader (s : State) (x : Tables) : (s.setTables x).reader = s.reader := rfl
@[simp] theorem State.setTables_scan (s : State) (x : Tables) : (s.setTables x).scan = s.scan := rfl
@[simp] theorem State.setTables_window (s : State) (x : Tables) : (s.setTables x).window = s.window := rfl
@[simp] theorem State.setTables_inflate (s : State) (x : Tables) : (s.setTables x).inflate = s.inflate := rfl
@[simp] theorem State.setTables_tables (s : State) (x : Tables) : (s.setTables x).tables = x := rfl
@[simp] theorem State.setTables_dyn (s : State) (x : Tables) : (s.setTables x).dyn = s.dyn := rfl
@[simp] theorem State.setTables_temps (s : State) (x : Tables) : (s.setTables x).temps = s.temps := rfl
@[simp] theorem State.setTables_port (s : State) (x : Tables) : (s.setTables x).port = s.port := rfl
@[simp] theorem State.setTables_setTables (s : State) (x y : Tables) : (s.setTables x).setTables y = s.setTables y := rfl
@[simp] theorem State.setTables_same (s : State) : s.setTables s.tables = s := rfl

/-! ### `State.setDyn` -/

@[simp] theorem State.setDyn_session (s : State) (x : Dyn) : (s.setDyn x).session = s.session := rfl
@[simp] theorem State.setDyn_reader (s : State) (x : Dyn) : (s.setDyn x).reader = s.reader := rfl
@[simp] theorem State.setDyn_scan (s : State) (x : Dyn) : (s.setDyn x).scan = s.scan := rfl
@[simp] theorem State.setDyn_window (s : State) (x : Dyn) : (s.setDyn x).window = s.window := rfl
@[simp] theorem State.setDyn_inflate (s : State) (x : Dyn) : (s.setDyn x).inflate = s.inflate := rfl
@[simp] theorem State.setDyn_tables (s : State) (x : Dyn) : (s.setDyn x).tables = s.tables := rfl
@[simp] theorem State.setDyn_dyn (s : State) (x : Dyn) : (s.setDyn x).dyn = x := rfl
@[simp] theorem State.setDyn_temps (s : State) (x : Dyn) : (s.setDyn x).temps = s.temps := rfl
@[simp] theorem State.setDyn_port (s : State) (x : Dyn) : (s.setDyn x).port = s.port := rfl
@[simp] theorem State.setDyn_setDyn (s : State) (x y : Dyn) : (s.setDyn x).setDyn y = s.setDyn y := rfl
@[simp] theorem State.setDyn_same (s : State) : s.setDyn s.dyn = s := rfl

/-! ### `State.setTemps` -/

@[simp] theorem State.setTemps_session (s : State) (x : Temps) : (s.setTemps x).session = s.session := rfl
@[simp] theorem State.setTemps_reader (s : State) (x : Temps) : (s.setTemps x).reader = s.reader := rfl
@[simp] theorem State.setTemps_scan (s : State) (x : Temps) : (s.setTemps x).scan = s.scan := rfl
@[simp] theorem State.setTemps_window (s : State) (x : Temps) : (s.setTemps x).window = s.window := rfl
@[simp] theorem State.setTemps_inflate (s : State) (x : Temps) : (s.setTemps x).inflate = s.inflate := rfl
@[simp] theorem State.setTemps_tables (s : State) (x : Temps) : (s.setTemps x).tables = s.tables := rfl
@[simp] theorem State.setTemps_dyn (s : State) (x : Temps) : (s.setTemps x).dyn = s.dyn := rfl
@[simp] theorem State.setTemps_temps (s : State) (x : Temps) : (s.setTemps x).temps = x := rfl
@[simp] theorem State.setTemps_port (s : State) (x : Temps) : (s.setTemps x).port = s.port := rfl
@[simp] theorem State.setTemps_setTemps (s : State) (x y : Temps) : (s.setTemps x).setTemps y = s.setTemps y := rfl
@[simp] theorem State.setTemps_same (s : State) : s.setTemps s.temps = s := rfl

/-! ### `State.setPort` -/

@[simp] theorem State.setPort_session (s : State) (x : Port) : (s.setPort x).session = s.session := rfl
@[simp] theorem State.setPort_reader (s : State) (x : Port) : (s.setPort x).reader = s.reader := rfl
@[simp] theorem State.setPort_scan (s : State) (x : Port) : (s.setPort x).scan = s.scan := rfl
@[simp] theorem State.setPort_window (s : State) (x : Port) : (s.setPort x).window = s.window := rfl
@[simp] theorem State.setPort_inflate (s : State) (x : Port) : (s.setPort x).inflate = s.inflate := rfl
@[simp] theorem State.setPort_tables (s : State) (x : Port) : (s.setPort x).tables = s.tables := rfl
@[simp] theorem State.setPort_dyn (s : State) (x : Port) : (s.setPort x).dyn = s.dyn := rfl
@[simp] theorem State.setPort_temps (s : State) (x : Port) : (s.setPort x).temps = s.temps := rfl
@[simp] theorem State.setPort_port (s : State) (x : Port) : (s.setPort x).port = x := rfl
@[simp] theorem State.setPort_setPort (s : State) (x y : Port) : (s.setPort x).setPort y = s.setPort y := rfl
@[simp] theorem State.setPort_same (s : State) : s.setPort s.port = s := rfl

/-! ### A response -/

@[simp] theorem State.respond_session (row : Option (List Byte)) (s : State) : (s.respond row).session = s.session := rfl
@[simp] theorem State.respond_reader (row : Option (List Byte)) (s : State) : (s.respond row).reader = s.reader := rfl
@[simp] theorem State.respond_scan (row : Option (List Byte)) (s : State) : (s.respond row).scan = s.scan := rfl
@[simp] theorem State.respond_window (row : Option (List Byte)) (s : State) : (s.respond row).window = s.window := rfl
@[simp] theorem State.respond_inflate (row : Option (List Byte)) (s : State) : (s.respond row).inflate = s.inflate := rfl
@[simp] theorem State.respond_tables (row : Option (List Byte)) (s : State) : (s.respond row).tables = s.tables := rfl
@[simp] theorem State.respond_dyn (row : Option (List Byte)) (s : State) : (s.respond row).dyn = s.dyn := rfl
@[simp] theorem State.respond_temps (row : Option (List Byte)) (s : State) : (s.respond row).temps = s.temps := rfl
@[simp] theorem State.respond_cmd (row : Option (List Byte)) (s : State) : (s.respond row).port.cmd = .waiting := rfl
@[simp] theorem State.respond_cmds (row : Option (List Byte)) (s : State) : (s.respond row).port.cmds = s.port.cmds := rfl
@[simp] theorem State.respond_resps (row : Option (List Byte)) (s : State) :
    (s.respond row).port.resps =
      s.port.resps ++ [{ result := s.session.result, sstate := s.session.sstate, row := row }] := rfl

/-! ### An error -/

@[simp] theorem State.raise_reader (c : ErrCode) (s : State) : (s.raise c).reader = s.reader := rfl
@[simp] theorem State.raise_scan (c : ErrCode) (s : State) : (s.raise c).scan = s.scan := rfl
@[simp] theorem State.raise_window (c : ErrCode) (s : State) : (s.raise c).window = s.window := rfl
@[simp] theorem State.raise_inflate (c : ErrCode) (s : State) : (s.raise c).inflate = s.inflate := rfl
@[simp] theorem State.raise_tables (c : ErrCode) (s : State) : (s.raise c).tables = s.tables := rfl
@[simp] theorem State.raise_dyn (c : ErrCode) (s : State) : (s.raise c).dyn = s.dyn := rfl
@[simp] theorem State.raise_temps (c : ErrCode) (s : State) : (s.raise c).temps = s.temps := rfl
@[simp] theorem State.raise_session (c : ErrCode) (s : State) :
    (s.raise c).session = { sstate := .failed, result := c.code } := rfl
@[simp] theorem State.raise_cmd (c : ErrCode) (s : State) : (s.raise c).port.cmd = .waiting := rfl
@[simp] theorem State.raise_cmds (c : ErrCode) (s : State) : (s.raise c).port.cmds = s.port.cmds := rfl
@[simp] theorem State.raise_resps (c : ErrCode) (s : State) :
    (s.raise c).port.resps = s.port.resps ++ [{ result := c.code, sstate := .failed, row := none }] := rfl

/-- Two states with equal parts are equal. -/
theorem State.ext_parts {s t : State} (h₁ : s.session = t.session) (h₂ : s.reader = t.reader) (h₃ : s.scan = t.scan)
    (h₄ : s.window = t.window) (h₅ : s.inflate = t.inflate) (h₆ : s.tables = t.tables) (h₇ : s.dyn = t.dyn)
    (h₈ : s.temps = t.temps) (h₉ : s.port = t.port) : s = t := by
  cases s; cases t; simp_all

end Sys2Proof.Machine
end

