-- ==== Sys2Proof/Laws/Outcome.lean ====
section
/-!
SUPPORT. The shared operations of the meanings, once each: everything one can do when it answers a next
state, and when it stops.
-/

namespace Sys2Proof.Machine

/-! ## Reading inside a meaning -/

theorem State.andThen_next {α : Type} {s t : State} {e : Eff Reader α} {k : α → State → Out}
    (h : s.andThen e k = .next t) :
    (∃ a r, e = .ok a r ∧ k a (s.setReader r) = .next t) ∨ ∃ c r, e = .raise c r ∧ t = (s.setReader r).raise c := by
  cases e with
  | ok a r => exact .inl ⟨a, r, rfl, h⟩
  | raise c r => exact .inr ⟨c, r, rfl, (Host.Outcome.next.inj h).symm⟩

theorem State.andThen_fault {α : Type} {s : State} {f : Fault} {e : Eff Reader α} {k : α → State → Out}
    (h : s.andThen e k = .fault f) : ∃ a r, e = .ok a r ∧ k a (s.setReader r) = .fault f := by
  cases e with
  | ok a r => exact ⟨a, r, rfl, h⟩
  | raise c r => cases h

theorem State.andThen_refused {α : Type} {s : State} {f : Refusal} {e : Eff Reader α} {k : α → State → Out}
    (h : s.andThen e k = .refused f) : ∃ a r, e = .ok a r ∧ k a (s.setReader r) = .refused f := by
  cases e with
  | ok a r => exact ⟨a, r, rfl, h⟩
  | raise c r => cases h

/-! ## Legality (R141) -/

theorem State.ifLegal_next {s t : State} {k : State → Out} (h : s.ifLegal k = .next t) :
    (s.session.sstate = .active ∧ k s = .next t) ∨ (s.session.sstate = .failed ∧ t = s.respond none) := by
  unfold State.ifLegal at h
  split at h
  · exact .inl ⟨‹_›, h⟩
  · exact .inr ⟨‹_›, (Host.Outcome.next.inj h).symm⟩
  · cases h
  · cases h

theorem State.ifLegal_active {s : State} {k : State → Out} (h : s.session.sstate = .active) : s.ifLegal k = k s := by
  rw [State.ifLegal, h]

/-! ## Tables -/

theorem loadTables_next {lits dists : List Nat} {s t : State} (h : loadTables lits dists s = .next t) :
    t = (s.setTables ((s.tables.setLit (buildTable lits)).setDist (buildTable dists))).setInflate
        (s.inflate.goto .huffman) ∧
      kraftSum lits ≤ 2 ^ Config.maxBits ∧ kraftSum dists ≤ 2 ^ Config.maxBits := by
  unfold loadTables build at h
  split at h
  · cases h
  · rename_i tl hl
    split at hl
    · cases hl
    · cases hl
      split at h
      · cases h
      · rename_i td hd
        split at hd
        · cases hd
        · cases hd
          exact ⟨(Host.Outcome.next.inj h).symm, by omega, by omega⟩

theorem loadTables_valid {lits dists : List Nat} (s : State) (hl : kraftSum lits ≤ 2 ^ Config.maxBits)
    (hd : kraftSum dists ≤ 2 ^ Config.maxBits) :
    loadTables lits dists s =
      .next ((s.setTables ((s.tables.setLit (buildTable lits)).setDist (buildTable dists))).setInflate
        (s.inflate.goto .huffman)) := by
  rw [loadTables, build, if_neg (by omega), build, if_neg (by omega)]

theorem loadTables_stops {lits dists : List Nat} {s : State} {f : Refusal} (h : loadTables lits dists s = .refused f) :
    f = .overSubscribed := by
  unfold loadTables at h
  split at h
  · cases h; rfl
  · split at h
    · cases h; rfl
    · cases h

theorem loadTables_ne_fault {lits dists : List Nat} {s : State} {f : Fault} : loadTables lits dists s ≠ .fault f := by
  intro h
  unfold loadTables at h
  split at h
  · cases h
  · split at h <;> cases h

/-! ## The length array -/

theorem storeLens_next {r : Nat} {v : BitVec 4} {s t : State} (h : storeLens r v s = .next t) :
    s.dyn.idx.toNat + r ≤ Config.nlensMax ∧ t = s.setDyn (s.dyn.fill r v) := by
  unfold storeLens at h
  split at h
  · cases h
  · exact ⟨by omega, (Host.Outcome.next.inj h).symm⟩

theorem repeatLens_next {r : Nat} {v : BitVec 4} {s t : State} (h : repeatLens r v s = .next t) :
    (s.dyn.total < s.dyn.idx.toNat + r ∧ t = s.raise .lensOverflow) ∨
      (s.dyn.idx.toNat + r ≤ s.dyn.total ∧ s.dyn.idx.toNat + r ≤ Config.nlensMax ∧ t = s.setDyn (s.dyn.fill r v)) := by
  unfold repeatLens at h
  split at h
  · exact .inl ⟨‹_›, (Host.Outcome.next.inj h).symm⟩
  · have := storeLens_next h
    exact .inr ⟨by omega, this.1, this.2⟩

theorem repeatLens_fits {r : Nat} {v : BitVec 4} {s : State} (h : s.dyn.idx.toNat + r ≤ s.dyn.total)
    (ht : s.dyn.total ≤ Config.nlensMax) : repeatLens r v s = .next (s.setDyn (s.dyn.fill r v)) := by
  rw [repeatLens, if_neg (by omega), storeLens, if_neg (by omega)]

@[simp] theorem Dyn.fill_hlit (r : Nat) (v : BitVec 4) (d : Dyn) : (d.fill r v).hlit = d.hlit := rfl
@[simp] theorem Dyn.fill_hdist (r : Nat) (v : BitVec 4) (d : Dyn) : (d.fill r v).hdist = d.hdist := rfl
@[simp] theorem Dyn.fill_hclen (r : Nat) (v : BitVec 4) (d : Dyn) : (d.fill r v).hclen = d.hclen := rfl
@[simp] theorem Dyn.fill_clLens (r : Nat) (v : BitVec 4) (d : Dyn) : (d.fill r v).clLens = d.clLens := rfl
@[simp] theorem Dyn.fill_hdrRead (r : Nat) (v : BitVec 4) (d : Dyn) : (d.fill r v).hdrRead = d.hdrRead := rfl
@[simp] theorem Dyn.fill_total (r : Nat) (v : BitVec 4) (d : Dyn) : (d.fill r v).total = d.total := rfl

theorem Dyn.fill_idx {r : Nat} {v : BitVec 4} {d : Dyn} (h : d.idx.toNat + r < 512) :
    (d.fill r v).idx.toNat = d.idx.toNat + r := by
  simp only [Dyn.fill, BitVec.toNat_ofNat]
  exact Nat.mod_eq_of_lt h

/-- A run that ends within the array keeps its number of cells. -/
theorem Dyn.fill_length {r : Nat} {v : BitVec 4} {d : Dyn} (h : d.idx.toNat + r ≤ d.lens.length) :
    (d.fill r v).lens.length = d.lens.length := by
  simp only [Dyn.fill, List.length_append, List.length_take, List.length_replicate, List.length_drop]
  omega

/-- The cells after a run: the run's from `idx` on, the others as before (R216 to R219). -/
theorem Dyn.fill_getD {r j : Nat} {v : BitVec 4} {d : Dyn} (h : d.idx.toNat + r ≤ d.lens.length) :
    (d.fill r v).lens.getD j 0 = if d.idx.toNat ≤ j ∧ j < d.idx.toNat + r then v else d.lens.getD j 0 := by
  simp only [Dyn.fill, List.getD_eq_getElem?_getD, List.append_assoc]
  by_cases h₁ : j < d.idx.toNat
  · rw [if_neg (by omega), List.getElem?_append_left (by simp; omega), List.getElem?_take_of_lt h₁]
  · rw [List.getElem?_append_right (by simp; omega)]
    simp only [List.length_take]
    rw [Nat.min_eq_left (by omega)]
    by_cases h₂ : j < d.idx.toNat + r
    · rw [if_pos (by omega), List.getElem?_append_left (by simp; omega), List.getElem?_replicate, if_pos (by omega)]
      rfl
    · rw [if_neg (by omega), List.getElem?_append_right (by simp; omega), List.getElem?_drop, List.length_replicate]
      congr 2
      omega

/-! ## Matches -/

theorem lengthSymbol_next {base ext : Nat} {s t : State} (h : lengthSymbol base ext s = .next t) :
    (∃ x r, s.reader.readBits ext = .ok x r ∧
      t = (s.setReader r).setTemps { s.temps with mlen := lengthOf base x, lenPend := true }) ∨
    ∃ c r, s.reader.readBits ext = .raise c r ∧ t = (s.setReader r).raise c := by
  unfold lengthSymbol State.withBits at h
  rcases State.andThen_next h with ⟨x, r, he, h⟩ | h
  · exact .inl ⟨x, r, he, (Host.Outcome.next.inj h).symm⟩
  · exact .inr h

theorem copyMatch_next {s t : State} (h : copyMatch s = .next t) :
    (s.window.hist.toNat < s.temps.mdist.toNat ∧ t = s.raise .distTooFar) ∨
    (s.temps.mdist.toNat ≤ s.window.hist.toNat ∧ s.window.size < s.temps.mlen.toNat ∧ t = s.raise .windowOverrun) ∨
    (s.temps.mdist.toNat ≤ s.window.hist.toNat ∧ s.temps.mlen.toNat ≤ s.window.size ∧
      t = (s.setWindow (s.window.copy s.temps.mlen.toNat s.temps.mdist.toNat)).setTemps { s.temps with lenPend := false }) := by
  unfold copyMatch at h
  split at h
  · exact .inl ⟨‹_›, (Host.Outcome.next.inj h).symm⟩
  · split at h
    · exact .inr (.inl ⟨by omega, ‹_›, (Host.Outcome.next.inj h).symm⟩)
    · exact .inr (.inr ⟨by omega, by omega, (Host.Outcome.next.inj h).symm⟩)

theorem copyMatch_goes_on (s : State) : ∃ t, copyMatch s = .next t := by
  unfold copyMatch
  split
  · exact ⟨_, rfl⟩
  · split <;> exact ⟨_, rfl⟩

theorem distSymbol_next {base ext : Nat} {s t : State} (h : distSymbol base ext s = .next t) :
    (∃ x r, s.reader.readBits ext = .ok x r ∧
      copyMatch ((s.setReader r).setTemps { s.temps with mdist := distanceOf base x }) = .next t) ∨
    ∃ c r, s.reader.readBits ext = .raise c r ∧ t = (s.setReader r).raise c := by
  unfold distSymbol State.withBits at h
  exact State.andThen_next h

theorem lengthOf_toNat {base x : Nat} (h : base + x < 512) : (lengthOf base x).toNat = base + x := by
  simp only [lengthOf, BitVec.toNat_ofNat]
  exact Nat.mod_eq_of_lt h

theorem distanceOf_toNat {base x : Nat} (h : base + x < 65536) : (distanceOf base x).toNat = base + x := by
  simp only [distanceOf, BitVec.toNat_ofNat]
  exact Nat.mod_eq_of_lt h

/-! ## Rows -/

theorem deliverRow_next {p : Predictor} {s t : State} (h : deliverRow p s = .next t) :
    s.scan.rowbytes.toNat ≤ Config.rowbytesMax ∧
      t = (s.setScan (s.scan.setCur (s.scan.corrected p)).swap).respond
        (some ((s.scan.corrected p).readAll 0 s.scan.rowbytes.toNat)) := by
  unfold deliverRow at h
  split at h
  · rename_i hf
    exact ⟨by simpa [Scan.fits] using hf, (Host.Outcome.next.inj h).symm⟩
  · cases h

theorem deliverRow_fits (p : Predictor) {s : State} (h : s.scan.rowbytes.toNat ≤ Config.rowbytesMax) :
    deliverRow p s = .next ((s.setScan (s.scan.setCur (s.scan.corrected p)).swap).respond
        (some ((s.scan.corrected p).readAll 0 s.scan.rowbytes.toNat))) := by
  rw [deliverRow, if_pos (by simpa [Scan.fits] using h)]

@[simp] theorem Scan.cur_setCur (m : Memory) (x : Scan) : (x.setCur m).cur = m := by
  unfold Scan.cur Scan.setCur
  cases x.curSel <;> rfl

@[simp] theorem Scan.prev_setCur (m : Memory) (x : Scan) : (x.setCur m).prev = x.prev := by
  unfold Scan.prev Scan.setCur
  cases x.curSel <;> rfl

@[simp] theorem Scan.cur_setPrev (m : Memory) (x : Scan) : (x.setPrev m).cur = x.cur := by
  unfold Scan.cur Scan.setPrev
  cases x.curSel <;> rfl

@[simp] theorem Scan.prev_setPrev (m : Memory) (x : Scan) : (x.setPrev m).prev = m := by
  unfold Scan.prev Scan.setPrev
  cases x.curSel <;> rfl

@[simp] theorem Scan.cur_swap (x : Scan) : x.swap.cur = x.prev := by
  unfold Scan.cur Scan.prev Scan.swap
  cases x.curSel <;> rfl

@[simp] theorem Scan.prev_swap (x : Scan) : x.swap.prev = x.cur := by
  unfold Scan.cur Scan.prev Scan.swap
  cases x.curSel <;> rfl

@[simp] theorem Scan.setCur_stride (m : Memory) (x : Scan) : (x.setCur m).stride = x.stride := by
  unfold Scan.setCur; split <;> rfl
@[simp] theorem Scan.setCur_rowbytes (m : Memory) (x : Scan) : (x.setCur m).rowbytes = x.rowbytes := by
  unfold Scan.setCur; split <;> rfl
@[simp] theorem Scan.setCur_passValid (m : Memory) (x : Scan) : (x.setCur m).passValid = x.passValid := by
  unfold Scan.setCur; split <;> rfl
@[simp] theorem Scan.setCur_ftype (m : Memory) (x : Scan) : (x.setCur m).ftype = x.ftype := by
  unfold Scan.setCur; split <;> rfl
@[simp] theorem Scan.setCur_curSel (m : Memory) (x : Scan) : (x.setCur m).curSel = x.curSel := by
  unfold Scan.setCur; split <;> rfl
@[simp] theorem Scan.setPrev_stride (m : Memory) (x : Scan) : (x.setPrev m).stride = x.stride := by
  unfold Scan.setPrev; split <;> rfl
@[simp] theorem Scan.setPrev_ftype (m : Memory) (x : Scan) : (x.setPrev m).ftype = x.ftype := by
  unfold Scan.setPrev; split <;> rfl
@[simp] theorem Scan.setPrev_curSel (m : Memory) (x : Scan) : (x.setPrev m).curSel = x.curSel := by
  unfold Scan.setPrev; split <;> rfl
@[simp] theorem Scan.setPrev_rowbytes (m : Memory) (x : Scan) : (x.setPrev m).rowbytes = x.rowbytes := by
  unfold Scan.setPrev; split <;> rfl
@[simp] theorem Scan.setPrev_passValid (m : Memory) (x : Scan) : (x.setPrev m).passValid = x.passValid := by
  unfold Scan.setPrev; split <;> rfl

/-- `bufA` and `bufB` are `cur` and `prev` in the order `cur_sel` says (R26). -/
theorem Scan.buffers (P : Memory → Prop) (x : Scan) : (P x.bufA ∧ P x.bufB) ↔ (P x.cur ∧ P x.prev) := by
  unfold Scan.cur Scan.prev
  cases x.curSel <;> simp [And.comm]

end Sys2Proof.Machine
end

