-- ==== Sys2Proof/Laws/PerInstr.lean ====
section
/-!
SUPPORT. Laws of every element as syntax, one lemma for each constructor (LAWS.json): the word the encoder
writes has no bit above the width of its format.
-/

namespace Sys2Proof.Laws.EncodedWord

/-- The encoded word fits its format. -/
def Statement (i : Instr) : Prop := (encode i).word < 2 ^ (encode i).fmt.width

theorem start (chunkRem0 : BitVec 32) (stride0 : BitVec 4) : Statement (.start chunkRem0 stride0) := by
  show _ < _
  simp [encode, Format.width]

theorem passBegin (rowbytes0 : BitVec 11) : Statement (.passBegin rowbytes0) := by
  show _ < _
  simp [encode, Format.width]

theorem row : Statement .row := by unfold Statement; decide

theorem finish : Statement .finish := by unfold Statement; decide

theorem abort : Statement .abort := by unfold Statement; decide

theorem cmdReserved0 : Statement .cmdReserved0 := by unfold Statement; decide

theorem cmdReserved6 : Statement .cmdReserved6 := by unfold Statement; decide

theorem cmdReserved7 : Statement .cmdReserved7 := by unfold Statement; decide

theorem zlib (cm : BitVec 4) (cinfo : BitVec 4) (fcheck : BitVec 5) (fdict : Bool) (flevel : BitVec 2) : Statement (.zlib cm cinfo fcheck fdict flevel) := by
  have h0 := cm.isLt
  have h1 := cinfo.isLt
  have h2 := fcheck.isLt
  have h3 := fdict.toNat_le
  have h4 := flevel.isLt
  show _ < _
  simp only [encode, Format.width]
  omega

theorem blockStored (bfinal : Bool) : Statement (.blockStored bfinal) := by
  have h0 := bfinal.toNat_le
  show _ < _
  simp only [encode, Format.width]
  omega

theorem blockFixed (bfinal : Bool) : Statement (.blockFixed bfinal) := by
  have h0 := bfinal.toNat_le
  show _ < _
  simp only [encode, Format.width]
  omega

theorem blockDynamic (bfinal : Bool) : Statement (.blockDynamic bfinal) := by
  have h0 := bfinal.toNat_le
  show _ < _
  simp only [encode, Format.width]
  omega

theorem blockReserved (bfinal : Bool) : Statement (.blockReserved bfinal) := by
  have h0 := bfinal.toNat_le
  show _ < _
  simp only [encode, Format.width]
  omega

theorem storedHdr (len : BitVec 16) (nlen : BitVec 16) : Statement (.storedHdr len nlen) := by
  have h0 := len.isLt
  have h1 := nlen.isLt
  show _ < _
  simp only [encode, Format.width]
  omega

theorem raw (b : Byte) : Statement (.raw b) := by
  have h0 := b.isLt
  show _ < _
  simp only [encode, Format.width]
  omega

theorem fixed : Statement .fixed := by unfold Statement; decide

theorem dyn (hlit : BitVec 5) (hdist : BitVec 5) (hclen : BitVec 4) : Statement (.dyn hlit hdist hclen) := by
  have h0 := hlit.isLt
  have h1 := hdist.isLt
  have h2 := hclen.isLt
  show _ < _
  simp only [encode, Format.width]
  omega

theorem clLen (n : BitVec 4) : Statement (.clLen n) := by
  have h0 := n.isLt
  show _ < _
  simp only [encode, Format.width]
  omega

theorem clRep : Statement .clRep := by unfold Statement; decide

theorem clZeroS : Statement .clZeroS := by unfold Statement; decide

theorem clZeroL : Statement .clZeroL := by unfold Statement; decide

theorem lit (b : Byte) : Statement (.lit b) := by
  have h0 := b.isLt
  show _ < _
  simp only [encode, Format.width]
  omega

theorem eob : Statement .eob := by unfold Statement; decide

theorem len257 : Statement .len257 := by unfold Statement; decide

theorem len258 : Statement .len258 := by unfold Statement; decide

theorem len259 : Statement .len259 := by unfold Statement; decide

theorem len260 : Statement .len260 := by unfold Statement; decide

theorem len261 : Statement .len261 := by unfold Statement; decide

theorem len262 : Statement .len262 := by unfold Statement; decide

theorem len263 : Statement .len263 := by unfold Statement; decide

theorem len264 : Statement .len264 := by unfold Statement; decide

theorem len265 : Statement .len265 := by unfold Statement; decide

theorem len266 : Statement .len266 := by unfold Statement; decide

theorem len267 : Statement .len267 := by unfold Statement; decide

theorem len268 : Statement .len268 := by unfold Statement; decide

theorem len269 : Statement .len269 := by unfold Statement; decide

theorem len270 : Statement .len270 := by unfold Statement; decide

theorem len271 : Statement .len271 := by unfold Statement; decide

theorem len272 : Statement .len272 := by unfold Statement; decide

theorem len273 : Statement .len273 := by unfold Statement; decide

theorem len274 : Statement .len274 := by unfold Statement; decide

theorem len275 : Statement .len275 := by unfold Statement; decide

theorem len276 : Statement .len276 := by unfold Statement; decide

theorem len277 : Statement .len277 := by unfold Statement; decide

theorem len278 : Statement .len278 := by unfold Statement; decide

theorem len279 : Statement .len279 := by unfold Statement; decide

theorem len280 : Statement .len280 := by unfold Statement; decide

theorem len281 : Statement .len281 := by unfold Statement; decide

theorem len282 : Statement .len282 := by unfold Statement; decide

theorem len283 : Statement .len283 := by unfold Statement; decide

theorem len284 : Statement .len284 := by unfold Statement; decide

theorem len285 : Statement .len285 := by unfold Statement; decide

theorem lenInvalid286 : Statement .lenInvalid286 := by unfold Statement; decide

theorem lenInvalid287 : Statement .lenInvalid287 := by unfold Statement; decide

theorem dist0 : Statement .dist0 := by unfold Statement; decide

theorem dist1 : Statement .dist1 := by unfold Statement; decide

theorem dist2 : Statement .dist2 := by unfold Statement; decide

theorem dist3 : Statement .dist3 := by unfold Statement; decide

theorem dist4 : Statement .dist4 := by unfold Statement; decide

theorem dist5 : Statement .dist5 := by unfold Statement; decide

theorem dist6 : Statement .dist6 := by unfold Statement; decide

theorem dist7 : Statement .dist7 := by unfold Statement; decide

theorem dist8 : Statement .dist8 := by unfold Statement; decide

theorem dist9 : Statement .dist9 := by unfold Statement; decide

theorem dist10 : Statement .dist10 := by unfold Statement; decide

theorem dist11 : Statement .dist11 := by unfold Statement; decide

theorem dist12 : Statement .dist12 := by unfold Statement; decide

theorem dist13 : Statement .dist13 := by unfold Statement; decide

theorem dist14 : Statement .dist14 := by unfold Statement; decide

theorem dist15 : Statement .dist15 := by unfold Statement; decide

theorem dist16 : Statement .dist16 := by unfold Statement; decide

theorem dist17 : Statement .dist17 := by unfold Statement; decide

theorem dist18 : Statement .dist18 := by unfold Statement; decide

theorem dist19 : Statement .dist19 := by unfold Statement; decide

theorem dist20 : Statement .dist20 := by unfold Statement; decide

theorem dist21 : Statement .dist21 := by unfold Statement; decide

theorem dist22 : Statement .dist22 := by unfold Statement; decide

theorem dist23 : Statement .dist23 := by unfold Statement; decide

theorem dist24 : Statement .dist24 := by unfold Statement; decide

theorem dist25 : Statement .dist25 := by unfold Statement; decide

theorem dist26 : Statement .dist26 := by unfold Statement; decide

theorem dist27 : Statement .dist27 := by unfold Statement; decide

theorem dist28 : Statement .dist28 := by unfold Statement; decide

theorem dist29 : Statement .dist29 := by unfold Statement; decide

theorem distInvalid30 : Statement .distInvalid30 := by unfold Statement; decide

theorem distInvalid31 : Statement .distInvalid31 := by unfold Statement; decide

theorem fNone : Statement .fNone := by unfold Statement; decide

theorem fSub : Statement .fSub := by unfold Statement; decide

theorem fUp : Statement .fUp := by unfold Statement; decide

theorem fAvg : Statement .fAvg := by unfold Statement; decide

theorem fPaeth : Statement .fPaeth := by unfold Statement; decide

theorem fInvalid (t : Byte) : Statement (.fInvalid t) := by
  have h0 := t.isLt
  show _ < _
  simp only [encode, Format.width]
  omega

theorem ztrl (a : BitVec 32) : Statement (.ztrl a) := by
  have h0 := a.isLt
  show _ < _
  simp only [encode, Format.width]
  omega

end Sys2Proof.Laws.EncodedWord
end

