-- ==== Sys2Proof/Laws/Scan.lean ====
section
/-!
SUPPORT. The row buffers and the defilter: canonical form, the cells they use, and the recurrence the
corrected row satisfies (R340).
-/

namespace Sys2Proof.Machine

/-! ## Defilter -/

theorem defilter_wf (p : Predictor) (stride : Nat) (prev : Memory) (x n : Nat) {cur : Memory} (h : cur.wf = true) :
    (defilter p stride prev x n cur).wf = true := by
  induction n generalizing x cur with
  | zero => exact h
  | succ n ih => exact ih (x + 1) (Memory.wf_write _ _ h)

theorem defilter_within (p : Predictor) (stride : Nat) (prev : Memory) (x n : Nat) {cur : Memory} {m : Nat}
    (h : cur.Within m) (hm : x + n ≤ m) : (defilter p stride prev x n cur).Within m := by
  induction n generalizing x cur with
  | zero => exact h
  | succ n ih => exact ih (x + 1) (Memory.within_write _ h (by omega)) (by omega)

/-- A cell the defilter does not reach keeps what it held. -/
theorem defilter_read_other (p : Predictor) (stride : Nat) (prev : Memory) (x n a : Nat) (cur : Memory)
    (h : a < x ∨ x + n ≤ a) : (defilter p stride prev x n cur).read a = cur.read a := by
  induction n generalizing x cur with
  | zero => rfl
  | succ n ih =>
    show (defilter p stride prev (x + 1) n _).read a = _
    rw [ih (x + 1) _ (by omega), Memory.read_write_other _ (by omega)]

/-- R340: each corrected byte is the filtered one plus what the predictor makes of the corrected byte to
the left and of the row above. -/
theorem defilter_read (p : Predictor) (stride : Nat) (prev : Memory) (x n a : Nat) {cur : Memory} (hw : cur.wf = true)
    (hs : 1 ≤ stride) (h₁ : x ≤ a) (h₂ : a < x + n) :
    (defilter p stride prev x n cur).read a =
      cur.read a + p (leftOf (defilter p stride prev x n cur) stride a) (prev.read a) (leftOf prev stride a) := by
  induction n generalizing x cur with
  | zero => omega
  | succ n ih =>
    let v := cur.read x + p (leftOf cur stride x) (prev.read x) (leftOf prev stride x)
    show (defilter p stride prev (x + 1) n (cur.write x v)).read a = cur.read a +
      p (leftOf (defilter p stride prev (x + 1) n (cur.write x v)) stride a) (prev.read a) (leftOf prev stride a)
    rcases Nat.eq_or_lt_of_le h₁ with h | h
    · subst h
      rw [defilter_read_other p stride prev (x + 1) n x _ (by omega), Memory.read_write_same _ _ hw]
      have : leftOf (defilter p stride prev (x + 1) n (cur.write x v)) stride x = leftOf cur stride x := by
        unfold leftOf
        split
        · rw [defilter_read_other p stride prev (x + 1) n _ _ (by omega), Memory.read_write_other _ (by omega)]
        · rfl
      rw [this]
    · rw [ih (x + 1) (Memory.wf_write _ _ hw) (by omega) (by omega), Memory.read_write_other _ (by omega)]

/-! ## The scan registers -/

theorem Scan.setCur_buffers (P : Memory → Prop) {m : Memory} {x : Scan} (h : P x.bufA ∧ P x.bufB) (hm : P m) :
    P (x.setCur m).bufA ∧ P (x.setCur m).bufB := by
  unfold Scan.setCur
  split
  · exact ⟨h.1, hm⟩
  · exact ⟨hm, h.2⟩

theorem Scan.setPrev_buffers (P : Memory → Prop) {m : Memory} {x : Scan} (h : P x.bufA ∧ P x.bufB) (hm : P m) :
    P (x.setPrev m).bufA ∧ P (x.setPrev m).bufB := by
  unfold Scan.setPrev
  split
  · exact ⟨hm, h.2⟩
  · exact ⟨h.1, hm⟩

@[simp] theorem Scan.load_stride (f : Byte) (d : List Byte) (x : Scan) : (x.load f d).stride = x.stride :=
  Scan.setCur_stride _ _
@[simp] theorem Scan.load_passValid (f : Byte) (d : List Byte) (x : Scan) : (x.load f d).passValid = x.passValid :=
  Scan.setCur_passValid _ _
@[simp] theorem Scan.load_curSel (f : Byte) (d : List Byte) (x : Scan) : (x.load f d).curSel = x.curSel :=
  Scan.setCur_curSel _ _
@[simp] theorem Scan.load_ftype (f : Byte) (d : List Byte) (x : Scan) : (x.load f d).ftype = f := rfl
@[simp] theorem Scan.load_cur (f : Byte) (d : List Byte) (x : Scan) : (x.load f d).cur = x.cur.writeAll 0 d :=
  Scan.cur_setCur _ _
@[simp] theorem Scan.load_prev (f : Byte) (d : List Byte) (x : Scan) : (x.load f d).prev = x.prev :=
  Scan.prev_setCur _ _
@[simp] theorem Scan.beginPass_cur (n : BitVec 11) (x : Scan) : (x.beginPass n).cur = x.cur := Scan.cur_setPrev _ _
@[simp] theorem Scan.beginPass_prev (n : BitVec 11) (x : Scan) :
    (x.beginPass n).prev = x.prev.writeAll 0 (List.replicate n.toNat 0) := Scan.prev_setPrev _ _
@[simp] theorem Scan.beginPass_stride (n : BitVec 11) (x : Scan) : (x.beginPass n).stride = x.stride :=
  Scan.setPrev_stride _ _
@[simp] theorem Scan.beginPass_ftype (n : BitVec 11) (x : Scan) : (x.beginPass n).ftype = x.ftype :=
  Scan.setPrev_ftype _ _
@[simp] theorem Scan.beginPass_curSel (n : BitVec 11) (x : Scan) : (x.beginPass n).curSel = x.curSel :=
  Scan.setPrev_curSel _ _
@[simp] theorem Scan.beginPass_rowbytes (n : BitVec 11) (x : Scan) : (x.beginPass n).rowbytes = n := rfl
@[simp] theorem Scan.beginPass_passValid (n : BitVec 11) (x : Scan) : (x.beginPass n).passValid = true := rfl

end Sys2Proof.Machine
end

