-- ==== Sys2Proof/Laws/Shapes.lean ====
section
/-!
SUPPORT. The instructions of one shape: the 29 length symbols, the 30 distance symbols and the five
filter types, each family as one operation with parameters, so that a proof over all instructions
has one case for each shape.
-/

namespace Sys2Proof.Machine

/-- Base and number of extra bits of a length symbol, as its meaning has them. -/
def lengthParams : Instr → Option (Nat × Nat)
  | .len257 => some (3, 0)
  | .len258 => some (4, 0)
  | .len259 => some (5, 0)
  | .len260 => some (6, 0)
  | .len261 => some (7, 0)
  | .len262 => some (8, 0)
  | .len263 => some (9, 0)
  | .len264 => some (10, 0)
  | .len265 => some (11, 1)
  | .len266 => some (13, 1)
  | .len267 => some (15, 1)
  | .len268 => some (17, 1)
  | .len269 => some (19, 2)
  | .len270 => some (23, 2)
  | .len271 => some (27, 2)
  | .len272 => some (31, 2)
  | .len273 => some (35, 3)
  | .len274 => some (43, 3)
  | .len275 => some (51, 3)
  | .len276 => some (59, 3)
  | .len277 => some (67, 4)
  | .len278 => some (83, 4)
  | .len279 => some (99, 4)
  | .len280 => some (115, 4)
  | .len281 => some (131, 5)
  | .len282 => some (163, 5)
  | .len283 => some (195, 5)
  | .len284 => some (227, 5)
  | .len285 => some (258, 0)
  | _ => none

/-- Base and number of extra bits of a distance symbol, as its meaning has them. -/
def distanceParams : Instr → Option (Nat × Nat)
  | .dist0 => some (1, 0)
  | .dist1 => some (2, 0)
  | .dist2 => some (3, 0)
  | .dist3 => some (4, 0)
  | .dist4 => some (5, 1)
  | .dist5 => some (7, 1)
  | .dist6 => some (9, 2)
  | .dist7 => some (13, 2)
  | .dist8 => some (17, 3)
  | .dist9 => some (25, 3)
  | .dist10 => some (33, 4)
  | .dist11 => some (49, 4)
  | .dist12 => some (65, 5)
  | .dist13 => some (97, 5)
  | .dist14 => some (129, 6)
  | .dist15 => some (193, 6)
  | .dist16 => some (257, 7)
  | .dist17 => some (385, 7)
  | .dist18 => some (513, 8)
  | .dist19 => some (769, 8)
  | .dist20 => some (1025, 9)
  | .dist21 => some (1537, 9)
  | .dist22 => some (2049, 10)
  | .dist23 => some (3073, 10)
  | .dist24 => some (4097, 11)
  | .dist25 => some (6145, 11)
  | .dist26 => some (8193, 12)
  | .dist27 => some (12289, 12)
  | .dist28 => some (16385, 13)
  | .dist29 => some (24577, 13)
  | _ => none

/-- The predictor of a filter type, as its meaning has it. -/
def predictorOf : Instr → Option Predictor
  | .fNone => some predictNone
  | .fSub => some predictSub
  | .fUp => some predictUp
  | .fAvg => some predictAvg
  | .fPaeth => some predictPaeth
  | _ => none

theorem exec_lengthParams {i : Instr} {base ext : Nat} (s : State) (h : lengthParams i = some (base, ext)) :
    exec i s = lengthSymbol base ext s ∧ (encode i).fmt = .litLen ∧ 3 ≤ base ∧ base + 2 ^ ext ≤ 259 := by
  cases i <;> simp only [lengthParams, Option.some.injEq, Prod.mk.injEq, reduceCtorEq] at h <;>
    obtain ⟨rfl, rfl⟩ := h <;> exact ⟨rfl, rfl, by decide, by decide⟩

theorem exec_distanceParams {i : Instr} {base ext : Nat} (s : State) (h : distanceParams i = some (base, ext)) :
    exec i s = distSymbol base ext s ∧ (encode i).fmt = .dist ∧ 1 ≤ base ∧ base + 2 ^ ext ≤ 32769 := by
  cases i <;> simp only [distanceParams, Option.some.injEq, Prod.mk.injEq, reduceCtorEq] at h <;>
    obtain ⟨rfl, rfl⟩ := h <;> exact ⟨rfl, rfl, by decide, by decide⟩

theorem exec_predictorOf {i : Instr} {p : Predictor} (s : State) (h : predictorOf i = some p) :
    exec i s = deliverRow p s ∧ (encode i).fmt = .filt := by
  cases i <;> simp only [predictorOf, Option.some.injEq, reduceCtorEq] at h <;> subst h <;> exact ⟨rfl, rfl⟩

/-- The instructions by shape, each with what it answers. -/
inductive Shape (s : State) (o : Out) : Instr → Prop where
  | start (c st) (h : execStart c st s = o) : Shape s o (.start c st)
  | passBegin (n) (h : execPassBegin n s = o) : Shape s o (.passBegin n)
  | row (h : execRow s = o) : Shape s o .row
  | finish (h : execFinish s = o) : Shape s o .finish
  | abort (h : execAbort s = o) : Shape s o .abort
  | reserved (i) (h : .refused .reservedCommand = o) (hi : i = .cmdReserved0 ∨ i = .cmdReserved6 ∨ i = .cmdReserved7) :
      Shape s o i
  | zlib (a b c d e) (h : execZlib a b c d e s = o) : Shape s o (.zlib a b c d e)
  | blockStored (f) (h : execBlockStored f s = o) : Shape s o (.blockStored f)
  | blockFixed (f) (h : execBlockFixed f s = o) : Shape s o (.blockFixed f)
  | blockDynamic (f) (h : execBlockDynamic f s = o) : Shape s o (.blockDynamic f)
  | blockReserved (f) (h : execBlockReserved f s = o) : Shape s o (.blockReserved f)
  | storedHdr (a b) (h : execStoredHdr a b s = o) : Shape s o (.storedHdr a b)
  | raw (b) (h : execRaw b s = o) : Shape s o (.raw b)
  | fixed (h : execFixed s = o) : Shape s o .fixed
  | dyn (a b c) (h : execDyn a b c s = o) : Shape s o (.dyn a b c)
  | clLen (n) (h : execClLen n s = o) : Shape s o (.clLen n)
  | clRep (h : execClRep s = o) : Shape s o .clRep
  | clZeroS (h : execClZeroS s = o) : Shape s o .clZeroS
  | clZeroL (h : execClZeroL s = o) : Shape s o .clZeroL
  | lit (b) (h : execLit b s = o) : Shape s o (.lit b)
  | eob (h : execEob s = o) : Shape s o .eob
  | length (i base ext) (h : lengthSymbol base ext s = o) (hi : lengthParams i = some (base, ext)) : Shape s o i
  | lenInvalid (i) (h : raiseErr .lenCode s = o) (hi : i = .lenInvalid286 ∨ i = .lenInvalid287) : Shape s o i
  | distance (i base ext) (h : distSymbol base ext s = o) (hi : distanceParams i = some (base, ext)) : Shape s o i
  | distInvalid (i) (h : raiseErr .distCode s = o) (hi : i = .distInvalid30 ∨ i = .distInvalid31) : Shape s o i
  | filter (i p) (h : deliverRow p s = o) (hi : predictorOf i = some p) : Shape s o i
  | fInvalid (t) (h : execFInvalid t s = o) : Shape s o (.fInvalid t)
  | ztrl (a) (h : execZtrl a s = o) : Shape s o (.ztrl a)

/-- Every instruction has its shape. -/
theorem shape (i : Instr) (s : State) : Shape s (exec i s) i := by
  cases i
  case start c st => exact .start c st rfl
  case passBegin n => exact .passBegin n rfl
  case row => exact .row rfl
  case finish => exact .finish rfl
  case abort => exact .abort rfl
  case cmdReserved0 => exact .reserved _ rfl (.inl rfl)
  case cmdReserved6 => exact .reserved _ rfl (.inr (.inl rfl))
  case cmdReserved7 => exact .reserved _ rfl (.inr (.inr rfl))
  case zlib a b c d e => exact .zlib a b c d e rfl
  case blockStored f => exact .blockStored f rfl
  case blockFixed f => exact .blockFixed f rfl
  case blockDynamic f => exact .blockDynamic f rfl
  case blockReserved f => exact .blockReserved f rfl
  case storedHdr a b => exact .storedHdr a b rfl
  case raw b => exact .raw b rfl
  case fixed => exact .fixed rfl
  case dyn a b c => exact .dyn a b c rfl
  case clLen n => exact .clLen n rfl
  case clRep => exact .clRep rfl
  case clZeroS => exact .clZeroS rfl
  case clZeroL => exact .clZeroL rfl
  case lit b => exact .lit b rfl
  case eob => exact .eob rfl
  case lenInvalid286 => exact .lenInvalid _ rfl (.inl rfl)
  case lenInvalid287 => exact .lenInvalid _ rfl (.inr rfl)
  case distInvalid30 => exact .distInvalid _ rfl (.inl rfl)
  case distInvalid31 => exact .distInvalid _ rfl (.inr rfl)
  case fInvalid t => exact .fInvalid t rfl
  case ztrl a => exact .ztrl a rfl
  case fNone => exact .filter _ _ rfl rfl
  case fSub => exact .filter _ _ rfl rfl
  case fUp => exact .filter _ _ rfl rfl
  case fAvg => exact .filter _ _ rfl rfl
  case fPaeth => exact .filter _ _ rfl rfl
  all_goals first
    | exact .length _ _ _ rfl rfl
    | exact .distance _ _ _ rfl rfl

/-- The shape of an instruction that answers `o`; clear the hypothesis before taking the shape apart. -/
theorem exec_shape {i : Instr} {s : State} {o : Out} (h : exec i s = o) : Shape s o i := h ▸ shape i s

end Sys2Proof.Machine
end

