-- ==== Sys2Proof/Laws/Window.lean ====
section
/-!
SUPPORT. The sliding window: what `Put` and `Copy` do to its cursors, counts and cells, and that the
ring they use is the one of R72.
-/

namespace Sys2Proof.Machine

theorem Window.size_pos (w : Window) : 0 < w.size := Nat.two_pow_pos _

theorem Window.size_le (w : Window) : w.size ≤ Config.winMax := by
  have h : w.wlog.toNat ≤ 15 := by have := w.wlog.isLt; omega
  exact Nat.pow_le_pow_right (by decide) h

theorem Window.ahead_lt (w : Window) (k : Nat) : w.ahead k < w.size := Nat.mod_lt _ w.size_pos

theorem Window.behind_lt (w : Window) (d : Nat) : w.behind d < w.size := by
  unfold Window.behind
  have h : (0 : Int) < (w.size : Int) := by exact_mod_cast w.size_pos
  have h₁ := Int.emod_nonneg ((w.wr.toNat : Int) - (d : Int)) (ne_of_gt h)
  have h₂ := Int.emod_lt_of_pos ((w.wr.toNat : Int) - (d : Int)) h
  omega

/-! ## Put -/

@[simp] theorem Window.put_wlog (b : Byte) (w : Window) : (w.put b).wlog = w.wlog := rfl
@[simp] theorem Window.put_rd (b : Byte) (w : Window) : (w.put b).rd = w.rd := rfl
@[simp] theorem Window.put_size (b : Byte) (w : Window) : (w.put b).size = w.size := rfl
@[simp] theorem Window.put_mem (b : Byte) (w : Window) : (w.put b).mem = w.mem.write w.wr.toNat b := rfl
@[simp] theorem Window.put_unread (b : Byte) (w : Window) : (w.put b).unread = w.unread + 1 := rfl
@[simp] theorem Window.put_hist (b : Byte) (w : Window) :
    (w.put b).hist = if w.hist.toNat < w.size then w.hist + 1 else w.hist := rfl

@[simp] theorem Window.put_wr (b : Byte) (w : Window) : (w.put b).wr.toNat = (w.wr.toNat + 1) % w.size := by
  show (BitVec.ofNat 15 (w.ahead 1)).toNat = _
  rw [BitVec.toNat_ofNat]
  have h := lt_of_lt_of_le (w.ahead_lt 1) w.size_le
  exact Nat.mod_eq_of_lt h

/-- `hist` counts up to the size of the ring (R28). -/
theorem Window.put_hist_toNat (b : Byte) {w : Window} (h : w.hist.toNat ≤ w.size) :
    (w.put b).hist.toNat = min (w.hist.toNat + 1) w.size := by
  rw [Window.put_hist]
  have hs : w.size ≤ 32768 := w.size_le
  split
  · have : (w.hist + 1).toNat = w.hist.toNat + 1 := by bv_omega
    omega
  · omega

/-! ## Copy -/

@[simp] theorem Window.copy_wlog (n d : Nat) (w : Window) : (w.copy n d).wlog = w.wlog := by
  induction n generalizing w with
  | zero => rfl
  | succ n ih => exact ih _

@[simp] theorem Window.copy_rd (n d : Nat) (w : Window) : (w.copy n d).rd = w.rd := by
  induction n generalizing w with
  | zero => rfl
  | succ n ih => exact ih _

@[simp] theorem Window.copy_size (n d : Nat) (w : Window) : (w.copy n d).size = w.size := by
  unfold Window.size
  rw [Window.copy_wlog]

/-- The last byte of a copy. -/
theorem Window.copy_last (n d : Nat) (w : Window) :
    w.copy (n + 1) d = (w.copy n d).put ((w.copy n d).mem.read ((w.copy n d).behind d)) := by
  induction n generalizing w with
  | zero => rfl
  | succ n ih => exact ih _

theorem Window.copy_wf {n d : Nat} {w : Window} (h : w.mem.wf = true) : (w.copy n d).mem.wf = true := by
  induction n generalizing w with
  | zero => exact h
  | succ n ih => exact ih (Memory.wf_write _ _ h)

theorem Window.copy_within {n d : Nat} {w : Window} (h : w.mem.Within Config.winMax) :
    (w.copy n d).mem.Within Config.winMax := by
  induction n generalizing w with
  | zero => exact h
  | succ n ih => exact ih (Memory.within_write _ h w.wr.isLt)

theorem Window.copy_wr {n d : Nat} {w : Window} (h : w.wr.toNat < w.size) :
    (w.copy n d).wr.toNat = (w.wr.toNat + n) % w.size := by
  induction n with
  | zero => exact (Nat.mod_eq_of_lt h).symm
  | succ n ih => rw [Window.copy_last, Window.put_wr, ih, Window.copy_size, Nat.mod_add_mod]; rfl

theorem Window.copy_unread {n d : Nat} {w : Window} (h : w.unread.toNat + n < 512) :
    (w.copy n d).unread.toNat = w.unread.toNat + n := by
  induction n with
  | zero => rfl
  | succ n ih =>
    rw [Window.copy_last, Window.put_unread]
    have := ih (by omega)
    bv_omega

theorem Window.copy_hist {n d : Nat} {w : Window} (h : w.hist.toNat ≤ w.size) :
    (w.copy n d).hist.toNat = min (w.hist.toNat + n) w.size := by
  induction n with
  | zero => exact (Nat.min_eq_left h).symm
  | succ n ih =>
    rw [Window.copy_last, Window.put_hist_toNat _ (by rw [ih, Window.copy_size]; exact Nat.min_le_right _ _), ih,
      Window.copy_size]
    omega

/-- Cells no copied byte is written to keep what they held. -/
theorem Window.copy_read_other {n d a : Nat} {w : Window} (hw : w.wr.toNat < w.size)
    (h : ∀ k < n, a ≠ (w.wr.toNat + k) % w.size) : (w.copy n d).mem.read a = w.mem.read a := by
  induction n with
  | zero => rfl
  | succ n ih =>
    rw [Window.copy_last, Window.put_mem, Memory.read_write_other, ih fun k hk => h k (by omega)]
    rw [Window.copy_wr hw]
    exact h n (by omega)

/-- Once written, a byte of a copy no longer than the ring stays. -/
theorem Window.copy_read_kept {n m d k : Nat} {w : Window} (hw : w.wr.toNat < w.size) (hkm : k < m) (hmn : m ≤ n)
    (hn : n ≤ w.size) :
    (w.copy n d).mem.read ((w.wr.toNat + k) % w.size) = (w.copy m d).mem.read ((w.wr.toNat + k) % w.size) := by
  induction n with
  | zero => omega
  | succ n ih =>
    rcases Nat.lt_or_ge n m with h | h
    · have : m = n + 1 := by omega
      rw [this]
    · rw [Window.copy_last, Window.put_mem, Memory.read_write_other, ih h (by omega)]
      rw [Window.copy_wr hw]
      intro e
      have := Nat.ModEq.add_left_cancel' w.wr.toNat (show w.wr.toNat + k ≡ w.wr.toNat + n [MOD w.size] from e)
      have := Nat.ModEq.eq_of_lt_of_lt this (by omega) (by omega)
      omega

/-- The source cell of byte `k` of a copy: `d` cells behind where the byte goes. -/
theorem Window.copy_behind {n d k : Nat} {w : Window} (hw : w.wr.toNat < w.size) (hd : d ≤ w.size) :
    (w.copy k n).behind d = (w.wr.toNat + k + (w.size - d)) % w.size := by
  unfold Window.behind
  rw [Window.copy_wr hw, Window.copy_size]
  have e : (((w.wr.toNat + k) % w.size : Nat) : Int) - (d : Int) ≡ ((w.wr.toNat + k + (w.size - d) : Nat) : Int) [ZMOD (w.size : Int)] := by
    push_cast [Nat.cast_sub hd]
    have h₁ : ((w.wr.toNat : Int) + (k : Int)) % (w.size : Int) ≡ (w.wr.toNat : Int) + k [ZMOD (w.size : Int)] :=
      Int.mod_modEq _ _
    have h₂ := h₁.sub_right (d : Int)
    refine h₂.trans ?_
    have : (w.wr.toNat : Int) + k + ((w.size : Int) - d) = (w.wr.toNat : Int) + k - d + w.size := by ring
    rw [this]
    exact (Int.add_modEq_right ..).symm
  rw [e]
  exact_mod_cast Int.toNat_natCast _

/-- `Copy` (R256): byte `k` goes to the cell `k` ahead of the write cursor; the first `d` bytes come from
the `d` cells behind it, every later one is the byte `d` earlier in the copy itself. -/
theorem Window.copy_read {n d k : Nat} {w : Window} (hf : w.mem.wf = true) (hw : w.wr.toNat < w.size) (hd₁ : 1 ≤ d)
    (hd : d ≤ w.size) (hn : n ≤ w.size) (hk : k < n) :
    (w.copy n d).mem.read ((w.wr.toNat + k) % w.size) =
      if k < d then w.mem.read ((w.wr.toNat + k + (w.size - d)) % w.size)
      else (w.copy n d).mem.read ((w.wr.toNat + (k - d)) % w.size) := by
  rw [Window.copy_read_kept hw (Nat.lt_succ_self k) hk hn]
  rw [Window.copy_last, Window.put_mem, Window.copy_wr hw, Memory.read_write_same _ _ (Window.copy_wf hf),
    Window.copy_behind hw hd]
  split
  · rename_i h
    refine Window.copy_read_other hw fun j hj e => ?_
    have e' : w.wr.toNat + k + (w.size - d) ≡ w.wr.toNat + j [MOD w.size] := e
    rw [Nat.add_assoc] at e'
    have := Nat.ModEq.add_left_cancel' w.wr.toNat e'
    have := Nat.ModEq.eq_of_lt_of_lt this (by omega) (by omega)
    omega
  · rename_i h
    have e : (w.wr.toNat + k + (w.size - d)) % w.size = (w.wr.toNat + (k - d)) % w.size := by
      have : w.wr.toNat + k + (w.size - d) = w.wr.toNat + (k - d) + w.size := by omega
      rw [this, Nat.add_mod_right]
    rw [e]
    exact (Window.copy_read_kept hw (by omega) (by omega) hn).symm

/-! ## Drop -/

@[simp] theorem Window.drop_mem (w : Window) : w.drop.mem = w.mem := rfl
@[simp] theorem Window.drop_wlog (w : Window) : w.drop.wlog = w.wlog := rfl
@[simp] theorem Window.drop_wr (w : Window) : w.drop.wr = w.wr := rfl
@[simp] theorem Window.drop_hist (w : Window) : w.drop.hist = w.hist := rfl
@[simp] theorem Window.drop_size (w : Window) : w.drop.size = w.size := rfl
@[simp] theorem Window.drop_unread (w : Window) : w.drop.unread = w.unread - 1 := rfl

@[simp] theorem Window.drop_rd (w : Window) : w.drop.rd.toNat = (w.rd.toNat + 1) % w.size := by
  show (BitVec.ofNat 15 ((w.rd.toNat + 1) % w.size)).toNat = _
  rw [BitVec.toNat_ofNat]
  exact Nat.mod_eq_of_lt (lt_of_lt_of_le (Nat.mod_lt _ w.size_pos) w.size_le)

/-! ## Soundness -/

theorem Window.Sound.wr_lt {w : Window} (h : w.Sound) : w.wr.toNat < w.size := by
  rw [← h.ring]
  exact Nat.mod_lt _ w.size_pos

/-- Pulling a byte keeps the window sound (R29, R330). -/
theorem Window.Sound.drop {w : Window} (h : w.Sound) (hu : w.unread ≠ 0) : w.drop.Sound := by
  have h1 : 1 ≤ w.unread.toNat := by
    rcases Nat.eq_zero_or_pos w.unread.toNat with h0 | h0
    · exact absurd (BitVec.eq_of_toNat_eq (by simpa using h0)) hu
    · exact h0
  have e : (w.unread - 1).toNat = w.unread.toNat - 1 := by bv_omega
  refine ⟨h.wlog_ge, ?_, ?_, ?_, h.hist_le_size, ?_⟩
  · rw [Window.drop_rd]
    exact Nat.mod_lt _ w.size_pos
  · rw [Window.drop_rd, Window.drop_unread, Window.drop_wr, Window.drop_size, e, Nat.mod_add_mod]
    rw [show w.rd.toNat + 1 + (w.unread.toNat - 1) = w.rd.toNat + w.unread.toNat by omega]
    exact h.ring
  · rw [Window.drop_unread, Window.drop_hist, e]
    have := h.unread_le_hist
    omega
  · rw [Window.drop_unread, e]
    have := h.unread_le_match
    omega

/-- `n` bytes appended to a drained window keep it sound, as long as they fit in the ring and in a
match (R29, R250, R260). -/
theorem Window.Sound.copy {w : Window} (h : w.Sound) (hu : w.unread = 0) (n d : Nat) (hn : n ≤ w.size)
    (hm : n ≤ Config.matchMax) : (w.copy n d).Sound := by
  have hm' : n ≤ 258 := hm
  have h0 : w.unread.toNat = 0 := by rw [hu]; rfl
  have hun : (w.copy n d).unread.toNat = n := by
    rw [Window.copy_unread (by omega)]
    omega
  have hring := h.ring
  rw [h0, Nat.add_zero, Nat.mod_eq_of_lt h.rd_lt] at hring
  refine ⟨?_, ?_, ?_, ?_, ?_, ?_⟩
  · rw [Window.copy_wlog]
    exact h.wlog_ge
  · rw [Window.copy_rd, Window.copy_size]
    exact h.rd_lt
  · rw [Window.copy_rd, Window.copy_size, Window.copy_wr h.wr_lt, hun, hring]
  · rw [hun, Window.copy_hist h.hist_le_size]
    omega
  · rw [Window.copy_hist h.hist_le_size, Window.copy_size]
    omega
  · rw [hun]
    exact hm

/-- One byte appended to a drained window keeps it sound. -/
theorem Window.Sound.put {w : Window} (h : w.Sound) (hu : w.unread = 0) (b : Byte) : (w.put b).Sound := by
  have h0 : w.unread.toNat = 0 := by rw [hu]; rfl
  have hun : (w.put b).unread.toNat = 1 := by
    rw [Window.put_unread, hu]
    rfl
  have hring := h.ring
  rw [h0, Nat.add_zero, Nat.mod_eq_of_lt h.rd_lt] at hring
  have hs := w.size_pos
  refine ⟨h.wlog_ge, h.rd_lt, ?_, ?_, ?_, ?_⟩
  · rw [hun, Window.put_rd, Window.put_size, Window.put_wr, hring]
  · rw [hun, Window.put_hist_toNat b h.hist_le_size]
    omega
  · rw [Window.put_hist_toNat b h.hist_le_size, Window.put_size]
    omega
  · rw [hun]
    decide

end Sys2Proof.Machine
end

