-- ==== Sys2Proof/Laws/Step.lean ====
section
/-!
SUPPORT. One step, taken apart once: which element is read in which state and what reading it changes,
what a step without an element does, and that a step is one or the other.
-/

namespace Sys2Proof.Machine

/-! ## The format of a decoded element -/

theorem decodeRow_ok {rows : List Instr} {k : Nat} {e : DecodeError} {i : Instr} (h : decodeRow rows k e = .ok i) :
    i ∈ rows := by
  unfold decodeRow at h
  split at h
  · rename_i j hj
    cases h
    exact List.mem_of_getElem? hj
  · cases h

theorem fmt_of_clRows : ∀ i ∈ clRows, (encode i).fmt = .clSym := by decide
theorem fmt_of_litLenRows : ∀ i ∈ litLenRows, (encode i).fmt = .litLen := by decide
theorem fmt_of_distRows : ∀ i ∈ distRows, (encode i).fmt = .dist := by decide

theorem fmt_decodeCommand (c : BitVec 3) (o : CmdOperands) : (encode (decodeCommand c o)).fmt = .hostCmd := by
  unfold decodeCommand
  split <;> rfl

theorem fmt_decodeBlock (w : Nat) : (encode (decodeBlock w)).fmt = .bhdr := by
  unfold decodeBlock
  split <;> rfl

theorem fmt_decodeFilter (w : Nat) : (encode (decodeFilter w)).fmt = .filt := by
  unfold decodeFilter
  split <;> rfl

/-- An element decodes to an instruction of its own format. -/
theorem decode_fmt {e : Element} {i : Instr} (h : decode e = .ok i) : (encode i).fmt = e.fmt := by
  unfold decode at h
  split at h
  · split at h <;> cases h
  · split at h
    · rename_i hf; cases h; rw [hf]; exact fmt_decodeCommand _ _
    · rename_i hf; cases h; rw [hf]; rfl
    · rename_i hf; cases h; rw [hf]; exact fmt_decodeBlock _
    · rename_i hf; cases h; rw [hf]; rfl
    · rename_i hf; cases h; rw [hf]; rfl
    · rename_i hf; cases h; rw [hf]; rfl
    · rename_i hf; cases h; rw [hf]; rfl
    · rename_i hf
      rw [hf]
      split at h
      · cases h; rfl
      · exact fmt_of_clRows _ (decodeRow_ok h)
    · rename_i hf
      rw [hf]
      split at h
      · cases h; rfl
      · exact fmt_of_litLenRows _ (decodeRow_ok h)
    · rename_i hf
      rw [hf]
      exact fmt_of_distRows _ (decodeRow_ok h)
    · rename_i hf; cases h; rw [hf]; exact fmt_decodeFilter _
    · rename_i hf; cases h; rw [hf]; rfl

/-! ## Reading an element -/

theorem decodeAt_instr {e : Element} {s t : State} {i : Instr} (h : decodeAt e s = .instr i t) :
    decode e = .ok i ∧ t = s := by
  unfold decodeAt at h
  split at h
  · cases h; exact ⟨‹_›, rfl⟩
  all_goals cases h

/-- What decoding answers when it reads no instruction. -/
theorem decodeAt_done {e : Element} {s : State} {o : Out} (h : decodeAt e s = .done o) :
    ∃ d, decode e = .error d ∧
      ((d = .litLenSymbol ∧ o = raiseErr .lenCode s) ∨ (d = .distSymbol ∧ o = raiseErr .distCode s) ∨
        ((d = .clSymbol ∨ d = .wordTooWide) ∧ o = .refused .noSuchSymbol)) := by
  unfold decodeAt at h
  split at h
  · cases h
  · cases h; exact ⟨_, ‹_›, .inl ⟨rfl, rfl⟩⟩
  · cases h; exact ⟨_, ‹_›, .inr (.inl ⟨rfl, rfl⟩)⟩
  · cases h; exact ⟨_, ‹_›, .inr (.inr ⟨.inl rfl, rfl⟩)⟩
  · cases h; exact ⟨_, ‹_›, .inr (.inr ⟨.inr rfl, rfl⟩)⟩

theorem fetchWord_instr {f : Format} {e : Eff Reader Nat} {s t : State} {i : Instr} (h : fetchWord f e s = .instr i t) :
    ∃ w r, e = .ok w r ∧ decode { fmt := f, word := w } = .ok i ∧ t = s.setReader r := by
  cases e with
  | ok w r => exact ⟨w, r, rfl, decodeAt_instr h⟩
  | raise c r => cases h

/-- What reading an element of a word answers when it reads no instruction. -/
theorem fetchWord_done {f : Format} {e : Eff Reader Nat} {s : State} {o : Out} (h : fetchWord f e s = .done o) :
    (∃ c r, e = .raise c r ∧ o = raiseErr c (s.setReader r)) ∨
      ∃ w r, e = .ok w r ∧ decodeAt { fmt := f, word := w } (s.setReader r) = .done o := by
  cases e with
  | ok w r => exact .inr ⟨w, r, rfl, h⟩
  | raise c r =>
    left
    refine ⟨c, r, rfl, ?_⟩
    exact (Fetched.done.inj h).symm

/-- What reading an element changes: the reader moves; `sym` and `cmds` may change, and `cur` and `ftype`
are loaded before a filter element. Nothing else does. -/
structure State.ReadsTo (s t : State) : Prop where
  reader : s.reader.Moves t.reader
  session : t.session = s.session
  window : t.window = s.window
  inflate : t.inflate = s.inflate
  tables : t.tables = s.tables
  dyn : t.dyn = s.dyn
  mlen : t.temps.mlen = s.temps.mlen
  mdist : t.temps.mdist = s.temps.mdist
  lenPend : t.temps.lenPend = s.temps.lenPend
  cmd : t.port.cmd = s.port.cmd
  resps : t.port.resps = s.port.resps
  scan : t.scan = s.scan ∨
    ∃ f bytes, s.port.cmd = .row (f :: bytes) ∧ s.scan.rowbytes.toNat < (f :: bytes).length ∧
      s.scan.rowbytes.toNat ≤ Config.rowbytesMax ∧ t.scan = s.scan.load f bytes

theorem State.readsTo_setReader (s : State) {r : Reader} (h : s.reader.Moves r) : s.ReadsTo (s.setReader r) :=
  ⟨h, rfl, rfl, rfl, rfl, rfl, rfl, rfl, rfl, rfl, rfl, .inl rfl⟩

theorem fetchWord_readsTo {f : Format} {e : Eff Reader Nat} {s t : State} {i : Instr} (hm : s.reader.Moves e.out)
    (h : fetchWord f e s = .instr i t) : (encode i).fmt = f ∧ s.ReadsTo t := by
  obtain ⟨w, r, rfl, hd, rfl⟩ := fetchWord_instr h
  exact ⟨decode_fmt hd, s.readsTo_setReader hm⟩

theorem Scan.load_rowbytes (f : Byte) (d : List Byte) (x : Scan) : (x.load f d).rowbytes = x.rowbytes :=
  Scan.setCur_rowbytes _ _

/-- The element of the inflate machine. -/
theorem fetchInflate_instr {s t : State} {i : Instr} (hp : s.Pulling) (h : fetchInflate s = .instr i t) :
    s.Expects (encode i).fmt ∧ s.ReadsTo t ∧ t.scan = s.scan ∧ t.port = s.port := by
  unfold fetchInflate at h
  split at h
  · rename_i hi
    split at h
    · rename_i hd
      obtain ⟨hf, hr⟩ := fetchWord_readsTo (s.reader.moves_readBits 3) h
      obtain ⟨w, r, _, _, rfl⟩ := fetchWord_instr h
      rw [hf]
      exact ⟨⟨hp, hi, hd⟩, hr, rfl, rfl⟩
    · rename_i hd
      obtain ⟨hf, hr⟩ := fetchWord_readsTo (s.reader.moves_readWord 2) h
      obtain ⟨w, r, _, _, rfl⟩ := fetchWord_instr h
      rw [hf]
      exact ⟨⟨hp, hi, by simpa using hd⟩, hr, rfl, rfl⟩
  · rename_i hi
    split at h
    · rename_i hd
      obtain ⟨hf, hr⟩ := fetchWord_readsTo (s.reader.moves_readWord 1) h
      obtain ⟨w, r, _, _, rfl⟩ := fetchWord_instr h
      rw [hf]
      exact ⟨⟨hp, hi, hd⟩, hr, rfl, rfl⟩
    · rename_i hd
      obtain ⟨hf, hr⟩ := fetchWord_readsTo
        (Reader.Moves.trans _ _ _ s.reader.moves_alignByte (s.reader.alignByte.moves_readWord 4)) h
      obtain ⟨w, r, _, _, rfl⟩ := fetchWord_instr h
      rw [hf]
      exact ⟨⟨hp, hi, by simpa using hd⟩, hr, rfl, rfl⟩
  · rename_i hi
    cases h
    exact ⟨⟨hp, hi⟩, s.readsTo_setReader (.refl _), rfl, rfl⟩
  · rename_i hi
    split at h
    · rename_i hd
      split at h
      · rename_i ht
        obtain ⟨hf, hr⟩ := fetchWord_readsTo (s.reader.moves_readSymbol _) h
        obtain ⟨w, r, _, _, rfl⟩ := fetchWord_instr h
        rw [hf]
        exact ⟨⟨hp, hi, hd, ht⟩, hr, rfl, rfl⟩
      · cases h
    · rename_i hd
      obtain ⟨hf, hr⟩ := fetchWord_readsTo (s.reader.moves_readBits 14) h
      obtain ⟨w, r, _, _, rfl⟩ := fetchWord_instr h
      rw [hf]
      exact ⟨⟨hp, hi, by simpa using hd⟩, hr, rfl, rfl⟩
  · rename_i hi
    split at h
    · rename_i hd
      obtain ⟨hf, hr⟩ := fetchWord_readsTo (s.reader.moves_readSymbol _) h
      obtain ⟨w, r, _, _, rfl⟩ := fetchWord_instr h
      rw [hf]
      exact ⟨⟨hp, hi, hd⟩, hr, rfl, rfl⟩
    · rename_i hd
      unfold fetchLitLen at h
      have hm := s.reader.moves_matchSymbol s.tables.lit
      split at h
      · rename_i v r he
        rw [he] at hm
        obtain ⟨hde, rfl⟩ := decodeAt_instr h
        rw [decode_fmt hde]
        exact ⟨⟨hp, hi, by simpa using hd⟩,
          ⟨hm, rfl, rfl, rfl, rfl, rfl, rfl, rfl, rfl, rfl, rfl, .inl rfl⟩, rfl, rfl⟩
      · cases h
  · cases h
  · cases h

/-- Which element is read in which state, and what reading it changes. -/
theorem fetch_instr {s t : State} {i : Instr} (h : fetch s = .instr i t) : s.Expects (encode i).fmt ∧ s.ReadsTo t := by
  unfold fetch at h
  split at h
  · rename_i hw
    split at h
    · cases h
    · cases h
      rw [fmt_decodeCommand]
      exact ⟨hw, ⟨.refl _, rfl, rfl, rfl, rfl, rfl, rfl, rfl, rfl, rfl, rfl, .inl rfl⟩⟩
  · rename_i hw
    obtain ⟨hf, hr⟩ := fetchWord_readsTo (s.reader.moves_readWord 4) h
    rw [hf]
    exact ⟨hw, hr⟩
  · rename_i d hw
    split at h
    · rename_i hd
      unfold fetchFilter at h
      split at h
      · cases h
      · rename_i f bytes
        split at h
        · rename_i hfit
          obtain ⟨hde, rfl⟩ := decodeAt_instr h
          rw [decode_fmt hde]
          exact ⟨⟨_, hw, hd⟩, ⟨.refl _, rfl, rfl, rfl, rfl, rfl, rfl, rfl, rfl, rfl, rfl,
            .inr ⟨f, bytes, hw, hd, by simpa [Scan.fits] using hfit, rfl⟩⟩⟩
        · cases h
    · rename_i hd
      split at h
      · rename_i hu
        have := fetchInflate_instr ⟨hu, d, hw, by omega⟩ h
        exact ⟨this.1, this.2.1⟩
      · cases h

/-- The state in which the element is carried out expects it too. -/
theorem fetch_expects {s t : State} {i : Instr} (h : fetch s = .instr i t) : t.Expects (encode i).fmt := by
  obtain ⟨he, hr⟩ := fetch_instr h
  have hrow : t.scan.rowbytes = s.scan.rowbytes := by
    rcases hr.scan with e | ⟨f, d, _, _, _, e⟩
    · rw [e]
    · rw [e, Scan.load_rowbytes]
  have hp : s.Pulling → t.Pulling := by
    rintro ⟨hu, d, hc, hl⟩
    exact ⟨by rw [hr.window]; exact hu, d, by rw [hr.cmd]; exact hc, by rw [hrow]; exact hl⟩
  revert he
  generalize (encode i).fmt = f
  cases f <;> simp only [State.Expects, hr.cmd, hr.inflate, hr.dyn, hr.lenPend, hrow, imp_self] <;>
    first
    | exact fun ⟨h₁, h₂⟩ => ⟨hp h₁, h₂⟩

/-- A step that carries out no element: what it may be. -/
inductive Bare (s : State) (o : Out) : Prop where
  | idle (hc : s.port.cmd = .waiting) (hq : s.port.cmds = []) (h : o = .next s)
  | pull (d : List Byte) (hc : s.port.cmd = .row d) (hd : d.length ≤ s.scan.rowbytes.toNat) (hu : s.window.unread ≠ 0)
      (h : o = pullByte d s)
  | tables (hp : s.Pulling) (hi : s.inflate.istate = .dynamic) (hd : s.dyn.hdrRead = true)
      (ht : s.dyn.total ≤ s.dyn.idx.toNat) (h : o = finishDyn s)
  | blockEnd (hp : s.Pulling) (hi : s.inflate.istate = .blockEnd) (h : o = stepBlockEnd s)
  | streamEnd (hp : s.Pulling) (hi : s.inflate.istate = .streamEnd) (h : o = stepStreamEnd s)
  | readError (c : ErrCode) (r : Reader) (hr : s.reader.Moves r) (hc : s.Pulling ∨ s.port.cmd = .finish)
      (he : c = .io ∨ c = .ioChunk ∨ (c = .noMatch ∧ s.Pulling)) (h : o = raiseErr c (s.setReader r))
  | litLenSymbol (hp : s.Pulling) (hi : s.inflate.istate = .huffman) (v : BitVec 9) (r : Reader) (hr : s.reader.Moves r)
      (he : ∃ e ∈ s.tables.lit, e.sym = v) (hv : 288 ≤ v.toNat)
      (h : o = raiseErr .lenCode ((s.setReader r).setTemps { s.temps with sym := v }))
  | distSymbol (hp : s.Pulling) (hi : s.inflate.istate = .huffman) (v : BitVec 9) (r : Reader) (hr : s.reader.Moves r)
      (he : ∃ e ∈ s.tables.dist, e.sym = v) (hv : 32 ≤ v.toNat) (h : o = raiseErr .distCode (s.setReader r))
  | clSymbol (hp : s.Pulling) (v : BitVec 9) (he : ∃ e ∈ s.tables.cl, e.sym = v) (hv : 19 ≤ v.toNat)
      (h : o = .refused .noSuchSymbol)
  | noCell (hc : ∃ d, s.port.cmd = .row d) (hr : Config.rowbytesMax < s.scan.rowbytes.toNat) (h : o = .fault .noSuchCell)

/-! ### Words that are no element -/

theorem decode_wide {f : Format} {w : Nat} {d : DecodeError} (hw : w < 2 ^ f.width)
    (hf : f ≠ .clSym ∧ f ≠ .litLen ∧ f ≠ .dist) : decode { fmt := f, word := w } ≠ .error d := by
  intro h
  unfold decode at h
  rw [if_neg (by simpa using hw)] at h
  cases f <;> simp at h hf

theorem decode_clSym_error {w : Nat} {d : DecodeError} (h : decode { fmt := .clSym, word := w } = .error d) :
    d = .clSymbol ∧ 19 ≤ w := by
  unfold decode at h
  split at h
  · rename_i hw
    cases h
    have : 2 ^ 5 ≤ w := hw
    exact ⟨rfl, by omega⟩
  · dsimp only at h
    split at h
    · cases h
    · unfold decodeRow at h
      split at h
      · cases h
      · rename_i hn
        cases h
        have : clRows.length ≤ w - 16 := List.getElem?_eq_none_iff.1 hn
        have e : clRows.length = 3 := rfl
        exact ⟨rfl, by omega⟩

theorem decode_litLen_error {w : Nat} {d : DecodeError} (h : decode { fmt := .litLen, word := w } = .error d) :
    d = .litLenSymbol ∧ 288 ≤ w := by
  unfold decode at h
  split at h
  · rename_i hw
    cases h
    have : 2 ^ 9 ≤ w := hw
    exact ⟨rfl, by omega⟩
  · dsimp only at h
    split at h
    · cases h
    · unfold decodeRow at h
      split at h
      · cases h
      · rename_i hn
        cases h
        have : litLenRows.length ≤ w - 256 := List.getElem?_eq_none_iff.1 hn
        have e : litLenRows.length = 32 := rfl
        exact ⟨rfl, by omega⟩

theorem decode_dist_error {w : Nat} {d : DecodeError} (h : decode { fmt := .dist, word := w } = .error d) :
    d = .distSymbol ∧ 32 ≤ w := by
  unfold decode at h
  split at h
  · rename_i hw
    cases h
    exact ⟨rfl, hw⟩
  · dsimp only at h
    unfold decodeRow at h
    split at h
    · cases h
    · rename_i hn
      cases h
      have : distRows.length ≤ w := List.getElem?_eq_none_iff.1 hn
      exact ⟨rfl, this⟩

/-! ### Words read from the stream fit their formats -/

theorem Reader.readWord_lt {n w : Nat} {r t : Reader} (h : r.readWord n = .ok w t) : w < 2 ^ (8 * n) := by
  obtain ⟨bs, u, hu, h⟩ := Eff.bind_eq_ok h
  cases h
  rw [← Reader.readBytes_length hu]
  exact wordOfBytes_lt bs

theorem Reader.readWord_raise {n : Nat} {r t : Reader} {c : ErrCode} (h : r.readWord n = .raise c t) :
    c = .io ∨ c = .ioChunk := by
  rcases Eff.bind_eq_raise h with h | ⟨_, _, _, h⟩
  · exact Reader.readBytes_raise h
  · cases h

theorem Reader.readSymbol_ok {t : List HuffEntry} {r u : Reader} {w : Nat} (h : r.readSymbol t = .ok w u) :
    ∃ v : BitVec 9, r.matchSymbol t = .ok v u ∧ w = v.toNat := by
  obtain ⟨v, x, hv, h⟩ := Eff.bind_eq_ok h
  cases h
  exact ⟨v, hv, rfl⟩

theorem Reader.readSymbol_raise {t : List HuffEntry} {r u : Reader} {c : ErrCode} (h : r.readSymbol t = .raise c u) :
    c = .io ∨ c = .ioChunk ∨ c = .noMatch := by
  rcases Eff.bind_eq_raise h with h | ⟨_, _, _, h⟩
  · exact Reader.matchSymbol_raise h
  · cases h

/-- A word of a fixed format that is no instruction can only be a failed read. -/
theorem fetchWord_fixed {f : Format} {e : Eff Reader Nat} {s : State} {o : Out} (hm : s.reader.Moves e.out)
    (hf : f ≠ .clSym ∧ f ≠ .litLen ∧ f ≠ .dist) (hw : ∀ w r, e = .ok w r → w < 2 ^ f.width)
    (hr : ∀ c r, e = .raise c r → c = .io ∨ c = .ioChunk) (hp : s.Pulling ∨ s.port.cmd = .finish)
    (h : fetchWord f e s = .done o) : Bare s o := by
  rcases fetchWord_done h with ⟨c, r, rfl, ho⟩ | ⟨w, r, rfl, ho⟩
  · exact .readError c r hm hp ((hr c r rfl).imp id .inl) ho
  · obtain ⟨d, hd, _⟩ := decodeAt_done ho
    exact absurd hd (decode_wide (hw w r rfl) hf)

theorem fetchInflate_done {s : State} {o : Out} (hp : s.Pulling) (h : fetchInflate s = .done o) : Bare s o := by
  unfold fetchInflate at h
  split at h
  · split at h
    · exact fetchWord_fixed (s.reader.moves_readBits 3) (by decide) (fun w r => Reader.readBits_lt)
        (fun c r => Reader.readBits_raise) (.inl hp) h
    · exact fetchWord_fixed (s.reader.moves_readWord 2) (by decide) (fun w r => Reader.readWord_lt)
        (fun c r => Reader.readWord_raise) (.inl hp) h
  · split at h
    · exact fetchWord_fixed (s.reader.moves_readWord 1) (by decide) (fun w r => Reader.readWord_lt)
        (fun c r => Reader.readWord_raise) (.inl hp) h
    · exact fetchWord_fixed
        (Reader.Moves.trans _ _ _ s.reader.moves_alignByte (s.reader.alignByte.moves_readWord 4)) (by decide)
        (fun w r => Reader.readWord_lt) (fun c r => Reader.readWord_raise) (.inl hp) h
  · cases h
  · rename_i hi
    split at h
    · rename_i hd
      split at h
      · have hm := s.reader.moves_readSymbol s.tables.cl
        rcases fetchWord_done h with ⟨c, r, he, h⟩ | ⟨w, r, he, h⟩
        · rw [he] at hm
          refine .readError c r hm (.inl hp) ?_ h
          rcases Reader.readSymbol_raise he with h | h | h
          · exact .inl h
          · exact .inr (.inl h)
          · exact .inr (.inr ⟨h, hp⟩)
        · obtain ⟨v, hv, rfl⟩ := Reader.readSymbol_ok he
          obtain ⟨d, hd, hcase⟩ := decodeAt_done h
          obtain ⟨rfl, hge⟩ := decode_clSym_error hd
          rcases hcase with ⟨h, _⟩ | ⟨h, _⟩ | ⟨_, h⟩
          · cases h
          · cases h
          · exact .clSymbol hp v (Reader.matchSymbol_ok hv) hge h
      · rename_i ht
        exact .tables hp hi hd (by omega) (Fetched.done.inj h).symm
    · exact fetchWord_fixed (s.reader.moves_readBits 14) (by decide) (fun w r => Reader.readBits_lt)
        (fun c r => Reader.readBits_raise) (.inl hp) h
  · rename_i hi
    split at h
    · have hm := s.reader.moves_readSymbol s.tables.dist
      rcases fetchWord_done h with ⟨c, r, he, h⟩ | ⟨w, r, he, h⟩
      · rw [he] at hm
        refine .readError c r hm (.inl hp) ?_ h
        rcases Reader.readSymbol_raise he with h | h | h
        · exact .inl h
        · exact .inr (.inl h)
        · exact .inr (.inr ⟨h, hp⟩)
      · rw [he] at hm
        obtain ⟨v, hv, rfl⟩ := Reader.readSymbol_ok he
        obtain ⟨d, hd, hcase⟩ := decodeAt_done h
        obtain ⟨rfl, hge⟩ := decode_dist_error hd
        rcases hcase with ⟨h, _⟩ | ⟨_, h⟩ | ⟨h, _⟩
        · cases h
        · exact .distSymbol hp hi v r hm (Reader.matchSymbol_ok hv) hge h
        · rcases h with h | h <;> cases h
    · unfold fetchLitLen at h
      have hm := s.reader.moves_matchSymbol s.tables.lit
      split at h
      · rename_i v r he
        rw [he] at hm
        obtain ⟨d, hd, hcase⟩ := decodeAt_done h
        obtain ⟨rfl, hge⟩ := decode_litLen_error hd
        rcases hcase with ⟨_, h⟩ | ⟨h, _⟩ | ⟨h, _⟩
        · exact .litLenSymbol hp hi v r hm (Reader.matchSymbol_ok he) hge h
        · cases h
        · rcases h with h | h <;> cases h
      · rename_i c r he
        rw [he] at hm
        refine .readError c r hm (.inl hp) ?_ (Fetched.done.inj h).symm
        rcases Reader.matchSymbol_raise he with h | h | h
        · exact .inl h
        · exact .inr (.inl h)
        · exact .inr (.inr ⟨h, hp⟩)
  · exact .blockEnd hp ‹_› (Fetched.done.inj h).symm
  · exact .streamEnd hp ‹_› (Fetched.done.inj h).symm

/-- What a step without an element may be. -/
theorem fetch_done {s : State} {o : Out} (h : fetch s = .done o) : Bare s o := by
  unfold fetch at h
  split at h
  · rename_i hw
    split at h
    · rename_i hq
      exact .idle hw hq (Fetched.done.inj h).symm
    · cases h
  · rename_i hw
    exact fetchWord_fixed (s.reader.moves_readWord 4) (by decide) (fun w r => Reader.readWord_lt)
      (fun c r => Reader.readWord_raise) (.inr hw) h
  · rename_i d hw
    split at h
    · rename_i hd
      unfold fetchFilter at h
      split at h
      · simp at hd
      · rename_i f bytes
        split at h
        · obtain ⟨d, hde, _⟩ := decodeAt_done h
          exact absurd hde (decode_wide f.isLt (by decide))
        · rename_i hfit
          exact .noCell ⟨_, hw⟩ (by simpa [Scan.fits] using hfit) (Fetched.done.inj h).symm
    · rename_i hd
      split at h
      · rename_i hu
        exact fetchInflate_done ⟨hu, d, hw, by omega⟩ h
      · rename_i hu
        exact .pull d hw (by omega) hu (Fetched.done.inj h).symm

/-- A step carries out an element, or is one of the bare steps. -/
theorem step_cases (s : State) :
    (∃ i t, fetch s = .instr i t ∧ step s = exec i t) ∨ Bare s (step s) := by
  unfold step
  cases h : fetch s with
  | instr i t => exact .inl ⟨i, t, rfl, rfl⟩
  | done o => exact .inr (fetch_done h)

/-- A step that reads an element carries it out. -/
theorem step_of_fetch {s t : State} {i : Instr} (h : fetch s = .instr i t) : step s = exec i t := by
  rw [step, h]

/-- A step without an element answers what that step does. -/
theorem step_of_done {s : State} {o : Out} (h : fetch s = .done o) : step s = o := by
  simp only [step, h]

/-- Where the window is drained, the inflate machine says what is next (R330). -/
theorem fetch_of_pulling {s : State} (h : s.Pulling) : fetch s = fetchInflate s := by
  obtain ⟨hu, d, hd, hl⟩ := h
  simp [fetch, hd, hu, Nat.not_lt.2 hl]

/-- What taking an error leaves of the session and of the host's side (R380). -/
theorem State.raise_failedWith (s : State) (c : ErrCode) : s.FailedWith c.code (s.raise c) := ⟨rfl, rfl⟩

/-- A read that fails ends the command with its error (R380, R382). -/
theorem fetchWord_raise {f : Format} {e : Eff Reader Nat} {s : State} {c : ErrCode} {r : Reader} (h : e = .raise c r) :
    fetchWord f e s = .done (.next ((s.setReader r).raise c)) := by
  subst h
  rfl

/-- A START, a PASS_BEGIN and an ABORT are taken by a waiting machine only. -/
theorem State.TakesStart.waiting {s : State} (h : s.TakesStart) : s.port.cmd = .waiting :=
  let ⟨_, _, _, hf⟩ := h
  (fetch_instr hf).1

theorem State.TakesPassBegin.waiting {s : State} (h : s.TakesPassBegin) : s.port.cmd = .waiting :=
  let ⟨_, _, hf⟩ := h
  (fetch_instr hf).1

theorem State.TakesAbort.waiting {s : State} (h : s.TakesAbort) : s.port.cmd = .waiting :=
  let ⟨_, hf⟩ := h
  (fetch_instr hf).1

end Sys2Proof.Machine
end

