-- ==== Sys2Proof/Tests/Slice0.lean ====
section
/-!
SUPPORT. The model's own tests. Expected results are those of spec/95_test_vectors.md (its V and P
numbers stand in the docstrings), of the opcode table, or worked out by hand from the rule named. The last
part holds, for each statement with hypotheses, states that meet them.
-/

namespace Sys2Proof.Tests

open Sys2Proof Sys2Proof.Machine

/-! ## Small states -/

/-- A reader at a byte boundary whose source answers with the given bytes, in one chunk. -/
def rdr (bytes : List Byte) : Reader :=
  { bitbuf := 0, bitcnt := 0, chunkRem := BitVec.ofNat 32 bytes.length, mv := 0, mhave := 0,
    src := { bytes := bytes.map some, hops := [] } }

/-- A reader with nothing in the chunk and no chunk after it. -/
def dry : Reader := rdr []

/-- An open session, a pass of rows of two bytes announced, no command running, one queued. -/
def opened (q : HostReq) : State :=
  { State.reset with
    session := { sstate := .active, result := 0x00 }
    scan := { State.reset.scan with rowbytes := 2, passValid := true }
    port := { cmd := .waiting, cmds := [q], resps := [] } }

/-- The same session in a ROW that has pulled nothing, its window of 32768 cells empty. -/
def inRow (st : IState) (r : Reader) : State :=
  { State.reset with
    session := { sstate := .active, result := 0x00 }
    reader := r
    scan := { State.reset.scan with rowbytes := 2, passValid := true }
    window := { State.reset.window with wlog := 15 }
    inflate := { State.reset.inflate with istate := st, hdrDone := true }
    port := { cmd := .row [], cmds := [], resps := [] } }

/-- In a ROW before the zlib header. -/
def atHeader (r : Reader) : State :=
  { inRow .begin r with inflate := State.reset.inflate }

/-- A window of `2 ^ wlog` cells that holds the given bytes from cell 0 on, all of them taken. -/
def filled (wlog : BitVec 4) (bytes : List Byte) : Window :=
  { mem := Memory.writeAll [] 0 bytes, wlog := wlog, wr := BitVec.ofNat 15 bytes.length,
    rd := BitVec.ofNat 15 bytes.length, unread := 0, hist := BitVec.ofNat 16 bytes.length }

/-- A match of the given length whose distance comes next, over the given window. -/
def matching (w : Window) (len : BitVec 9) (r : Reader) : State :=
  { inRow .huffman r with window := w, temps := { State.reset.temps with mlen := len, lenPend := true } }

/-- A row of the given filtered bytes in `bufA`, the row above it in `bufB`. -/
def rowState (stride : BitVec 4) (filt above : List Byte) : State :=
  { inRow .huffman dry with
    scan := { stride := stride, rowbytes := BitVec.ofNat 11 filt.length, passValid := true, ftype := 0,
              bufA := Memory.writeAll [] 0 filt, bufB := Memory.writeAll [] 0 above, curSel := false } }

/-- A dynamic header with `idx` lengths stored, of `hlit` + `hdist`. -/
def inDyn (hlit : BitVec 9) (hdist : BitVec 6) (idx : BitVec 9) (lens : List (BitVec 4)) (r : Reader) : State :=
  { inRow .dynamic r with
    dyn := { State.reset.dyn with
      lens := lens ++ List.replicate (320 - lens.length) 0, hlit := hlit, hdist := hdist, idx := idx, hdrRead := true } }

/-- A failed session with one command queued. -/
def failed (q : HostReq) : State :=
  { opened q with session := { sstate := .failed, result := 0x34 } }

/-- The answer is a next state with the property. -/
def gives (o : Out) (p : State → Bool) : Bool :=
  match o with
  | .next t => p t
  | .fault _ => false
  | .refused _ => false

/-- The answer is a next state in which the session has failed with the code and the command has ended. -/
def fails (o : Out) (code : BitVec 8) : Bool :=
  gives o fun t => decide (t.session = { sstate := .failed, result := code } ∧ t.port.cmd = .waiting)

/-- The answer is the refusal. -/
def refuses (o : Out) (r : Refusal) : Bool :=
  match o with
  | .refused r' => decide (r' = r)
  | .next _ => false
  | .fault _ => false

/-- The answer delivers the row. -/
def delivers (o : Out) (row : List Byte) : Bool :=
  gives o fun t => decide (t.port.resps = [{ result := 0x00, sstate := .active, row := some row }])

/-! ## Well-formedness: what the check refuses -/

theorem test_wf_start_stride : (Instr.start 0 0).wf = false ∧ (Instr.start 0 9).wf = false ∧
    (Instr.start 0 1).wf = true ∧ (Instr.start 0xFFFFFFFF 8).wf = true := by decide
theorem test_wf_pass_begin_rowbytes : (Instr.passBegin 0).wf = false ∧ (Instr.passBegin 2041).wf = false ∧
    (Instr.passBegin 1).wf = true ∧ (Instr.passBegin 2040).wf = true := by decide
theorem test_wf_invalid_filter_type : (Instr.fInvalid 4).wf = false ∧ (Instr.fInvalid 5).wf = true := by decide

/-! ## Decoding: words written out from the encodings -/

/-- The words of R116, bit by bit as the encoding column of the opcode table writes them. -/
theorem test_decode_host_commands :
    decode ⟨.hostCmd, 0b001, ⟨25, 3, 6⟩⟩ = .ok (.start 25 3) ∧
    decode ⟨.hostCmd, 0b010, ⟨25, 3, 6⟩⟩ = .ok (.passBegin 6) ∧
    decode ⟨.hostCmd, 0b011, .none⟩ = .ok .row ∧
    decode ⟨.hostCmd, 0b100, .none⟩ = .ok .finish ∧
    decode ⟨.hostCmd, 0b101, .none⟩ = .ok .abort ∧
    decode ⟨.hostCmd, 0b000, .none⟩ = .ok .cmdReserved0 ∧
    decode ⟨.hostCmd, 0b110, .none⟩ = .ok .cmdReserved6 ∧
    decode ⟨.hostCmd, 0b111, .none⟩ = .ok .cmdReserved7 := by decide

/-- The words of R101: the header 78 9C, bit by bit as the encoding column of the opcode table writes them. -/
theorem test_decode_zlib_header :
    decode ⟨.zhdr, 0b1001110001111000, .none⟩ = .ok (.zlib 8 7 28 false 2) := by decide

/-- The words of R102, bit by bit as the encoding column of the opcode table writes them. -/
theorem test_decode_block_headers :
    decode ⟨.bhdr, 0b001, .none⟩ = .ok (.blockStored true) ∧
    decode ⟨.bhdr, 0b011, .none⟩ = .ok (.blockFixed true) ∧
    decode ⟨.bhdr, 0b101, .none⟩ = .ok (.blockDynamic true) ∧
    decode ⟨.bhdr, 0b111, .none⟩ = .ok (.blockReserved true) := by decide

/-- The words of R103: LEN 14, NLEN FFF1, bit by bit as the encoding column of the opcode table writes them. -/
theorem test_decode_stored_header :
    decode ⟨.storedHdr, 0b11111111111100010000000000001110, .none⟩ = .ok (.storedHdr 14 0xFFF1) := by decide

/-- The words of R103, bit by bit as the encoding column of the opcode table writes them. -/
theorem test_decode_raw_byte :
    decode ⟨.raw, 0b10100101, .none⟩ = .ok (.raw 0xA5) := by decide

/-- The words of R208: no bits, bit by bit as the encoding column of the opcode table writes them. -/
theorem test_decode_fixed :
    decode ⟨.fixed, 0, .none⟩ = .ok .fixed := by decide

/-- The words of R104: the header of program P3, bit by bit as the encoding column of the opcode table writes them. -/
theorem test_decode_dynamic_header :
    decode ⟨.dynHdr, 0b11100010000010, .none⟩ = .ok (.dyn 2 4 14) := by decide

/-- The words of R106, bit by bit as the encoding column of the opcode table writes them. -/
theorem test_decode_code_length_symbols :
    decode ⟨.clSym, 0b01101, .none⟩ = .ok (.clLen 13) ∧
    decode ⟨.clSym, 0b10000, .none⟩ = .ok .clRep ∧
    decode ⟨.clSym, 0b10001, .none⟩ = .ok .clZeroS ∧
    decode ⟨.clSym, 0b10010, .none⟩ = .ok .clZeroL := by decide

/-- The words of R109, bit by bit as the encoding column of the opcode table writes them. -/
theorem test_decode_literal_length_symbols_1 :
    decode ⟨.litLen, 0b001100001, .none⟩ = .ok (.lit 0x61) ∧
    decode ⟨.litLen, 0b100000000, .none⟩ = .ok .eob ∧
    decode ⟨.litLen, 0b100000001, .none⟩ = .ok .len257 ∧
    decode ⟨.litLen, 0b100000010, .none⟩ = .ok .len258 ∧
    decode ⟨.litLen, 0b100000011, .none⟩ = .ok .len259 ∧
    decode ⟨.litLen, 0b100000100, .none⟩ = .ok .len260 ∧
    decode ⟨.litLen, 0b100000101, .none⟩ = .ok .len261 ∧
    decode ⟨.litLen, 0b100000110, .none⟩ = .ok .len262 ∧
    decode ⟨.litLen, 0b100000111, .none⟩ = .ok .len263 ∧
    decode ⟨.litLen, 0b100001000, .none⟩ = .ok .len264 ∧
    decode ⟨.litLen, 0b100001001, .none⟩ = .ok .len265 := by decide

/-- More words of R109. -/
theorem test_decode_literal_length_symbols_2 :
    decode ⟨.litLen, 0b100001010, .none⟩ = .ok .len266 ∧
    decode ⟨.litLen, 0b100001011, .none⟩ = .ok .len267 ∧
    decode ⟨.litLen, 0b100001100, .none⟩ = .ok .len268 ∧
    decode ⟨.litLen, 0b100001101, .none⟩ = .ok .len269 ∧
    decode ⟨.litLen, 0b100001110, .none⟩ = .ok .len270 ∧
    decode ⟨.litLen, 0b100001111, .none⟩ = .ok .len271 ∧
    decode ⟨.litLen, 0b100010000, .none⟩ = .ok .len272 ∧
    decode ⟨.litLen, 0b100010001, .none⟩ = .ok .len273 ∧
    decode ⟨.litLen, 0b100010010, .none⟩ = .ok .len274 ∧
    decode ⟨.litLen, 0b100010011, .none⟩ = .ok .len275 ∧
    decode ⟨.litLen, 0b100010100, .none⟩ = .ok .len276 := by decide

/-- More words of R109. -/
theorem test_decode_literal_length_symbols_3 :
    decode ⟨.litLen, 0b100010101, .none⟩ = .ok .len277 ∧
    decode ⟨.litLen, 0b100010110, .none⟩ = .ok .len278 ∧
    decode ⟨.litLen, 0b100010111, .none⟩ = .ok .len279 ∧
    decode ⟨.litLen, 0b100011000, .none⟩ = .ok .len280 ∧
    decode ⟨.litLen, 0b100011001, .none⟩ = .ok .len281 ∧
    decode ⟨.litLen, 0b100011010, .none⟩ = .ok .len282 ∧
    decode ⟨.litLen, 0b100011011, .none⟩ = .ok .len283 ∧
    decode ⟨.litLen, 0b100011100, .none⟩ = .ok .len284 ∧
    decode ⟨.litLen, 0b100011101, .none⟩ = .ok .len285 ∧
    decode ⟨.litLen, 0b100011110, .none⟩ = .ok .lenInvalid286 ∧
    decode ⟨.litLen, 0b100011111, .none⟩ = .ok .lenInvalid287 := by decide

/-- The words of R111, bit by bit as the encoding column of the opcode table writes them. -/
theorem test_decode_distance_symbols_1 :
    decode ⟨.dist, 0b00000, .none⟩ = .ok .dist0 ∧
    decode ⟨.dist, 0b00001, .none⟩ = .ok .dist1 ∧
    decode ⟨.dist, 0b00010, .none⟩ = .ok .dist2 ∧
    decode ⟨.dist, 0b00011, .none⟩ = .ok .dist3 ∧
    decode ⟨.dist, 0b00100, .none⟩ = .ok .dist4 ∧
    decode ⟨.dist, 0b00101, .none⟩ = .ok .dist5 ∧
    decode ⟨.dist, 0b00110, .none⟩ = .ok .dist6 ∧
    decode ⟨.dist, 0b00111, .none⟩ = .ok .dist7 ∧
    decode ⟨.dist, 0b01000, .none⟩ = .ok .dist8 ∧
    decode ⟨.dist, 0b01001, .none⟩ = .ok .dist9 ∧
    decode ⟨.dist, 0b01010, .none⟩ = .ok .dist10 := by decide

/-- More words of R111. -/
theorem test_decode_distance_symbols_2 :
    decode ⟨.dist, 0b01011, .none⟩ = .ok .dist11 ∧
    decode ⟨.dist, 0b01100, .none⟩ = .ok .dist12 ∧
    decode ⟨.dist, 0b01101, .none⟩ = .ok .dist13 ∧
    decode ⟨.dist, 0b01110, .none⟩ = .ok .dist14 ∧
    decode ⟨.dist, 0b01111, .none⟩ = .ok .dist15 ∧
    decode ⟨.dist, 0b10000, .none⟩ = .ok .dist16 ∧
    decode ⟨.dist, 0b10001, .none⟩ = .ok .dist17 ∧
    decode ⟨.dist, 0b10010, .none⟩ = .ok .dist18 ∧
    decode ⟨.dist, 0b10011, .none⟩ = .ok .dist19 ∧
    decode ⟨.dist, 0b10100, .none⟩ = .ok .dist20 ∧
    decode ⟨.dist, 0b10101, .none⟩ = .ok .dist21 := by decide

/-- More words of R111. -/
theorem test_decode_distance_symbols_3 :
    decode ⟨.dist, 0b10110, .none⟩ = .ok .dist22 ∧
    decode ⟨.dist, 0b10111, .none⟩ = .ok .dist23 ∧
    decode ⟨.dist, 0b11000, .none⟩ = .ok .dist24 ∧
    decode ⟨.dist, 0b11001, .none⟩ = .ok .dist25 ∧
    decode ⟨.dist, 0b11010, .none⟩ = .ok .dist26 ∧
    decode ⟨.dist, 0b11011, .none⟩ = .ok .dist27 ∧
    decode ⟨.dist, 0b11100, .none⟩ = .ok .dist28 ∧
    decode ⟨.dist, 0b11101, .none⟩ = .ok .dist29 ∧
    decode ⟨.dist, 0b11110, .none⟩ = .ok .distInvalid30 ∧
    decode ⟨.dist, 0b11111, .none⟩ = .ok .distInvalid31 := by decide

/-- The words of R113, bit by bit as the encoding column of the opcode table writes them. -/
theorem test_decode_filter_types :
    decode ⟨.filt, 0b00000000, .none⟩ = .ok .fNone ∧
    decode ⟨.filt, 0b00000001, .none⟩ = .ok .fSub ∧
    decode ⟨.filt, 0b00000010, .none⟩ = .ok .fUp ∧
    decode ⟨.filt, 0b00000011, .none⟩ = .ok .fAvg ∧
    decode ⟨.filt, 0b00000100, .none⟩ = .ok .fPaeth ∧
    decode ⟨.filt, 0b10000101, .none⟩ = .ok (.fInvalid 0x85) := by decide

/-- The words of R114, bit by bit as the encoding column of the opcode table writes them. -/
theorem test_decode_trailer :
    decode ⟨.ztrl, 0b00010100110001100000000000000000, .none⟩ = .ok (.ztrl 0x14C60000) := by decide

/-- Symbols outside their alphabets and words wider than their format are rejected by name (R106, R109, R111). -/
theorem test_decode_rejects :
    decode ⟨.clSym, 19, .none⟩ = .error .clSymbol ∧ decode ⟨.litLen, 288, .none⟩ = .error .litLenSymbol ∧
    decode ⟨.dist, 32, .none⟩ = .error .distSymbol ∧ decode ⟨.raw, 256, .none⟩ = .error .wordTooWide := by decide

/-! ## The reader -/

/-- V41-1, V41-2, V41-4: three fields in sequence over `B5 01 FF 80`. -/
theorem test_read_bits_in_sequence :
    (rdr [0xB5, 0x01, 0xFF, 0x80]).readBits 3 =
      .ok 5 { rdr [0x01, 0xFF, 0x80] with bitbuf := 0x16, bitcnt := 5 } ∧
    Reader.readBits 7 { rdr [0x01, 0xFF, 0x80] with bitbuf := 0x16, bitcnt := 5 } =
      .ok 54 { rdr [0xFF, 0x80] with bitcnt := 6 } ∧
    Reader.readBits 13 { rdr [0xFF, 0x80] with bitcnt := 6 } =
      .ok 8128 { rdr [0x80] with bitbuf := 1, bitcnt := 1 } := by decide

/-- V41-6 and V41-7: byte reads leave the bits alone, and alignment drops them. -/
theorem test_read_bytes_and_align :
    Reader.readBytes 1 { rdr [0xAA, 0xBB] with bitbuf := 0x16, bitcnt := 5 } =
      .ok [0xAA] { rdr [0xBB] with bitbuf := 0x16, bitcnt := 5 } ∧
    Reader.alignByte { rdr [0xBB] with bitbuf := 0x16, bitcnt := 5 } = rdr [0xBB] ∧
    Reader.alignByte (rdr [0xBB]) = rdr [0xBB] := by decide

/-- V41-8: a source that ends inside a chunk, and one that has no further chunk; P1c's empty chunks. -/
theorem test_fetch_byte_failures_and_hops :
    Reader.fetchByte { rdr [] with chunkRem := 1 } = .raise .io { rdr [] with chunkRem := 1 } ∧
    dry.fetchByte = .raise .ioChunk dry ∧
    Reader.fetchByte { rdr [] with src := { bytes := [some 7], hops := [some 0, some 0, some 22] } } =
      .ok 7 { rdr [] with chunkRem := 21 } := by decide

/-! ## Tables -/

/-- V42-1, V42-2, V42-3, V42-9. -/
theorem test_build_small :
    build [0, 0, 1] = some [⟨1, 0, 2⟩] ∧ build [2, 2, 2, 2] = some [⟨2, 0, 0⟩, ⟨2, 1, 2⟩, ⟨2, 2, 1⟩, ⟨2, 3, 3⟩] ∧
    build [1, 2, 3, 3] = some [⟨1, 0, 0⟩, ⟨2, 1, 1⟩, ⟨3, 3, 2⟩, ⟨3, 7, 3⟩] ∧ build [1, 1, 1] = none := by decide

/-- V42-7, and R190's empty table. -/
theorem test_match_symbol :
    (rdr [0x03]).matchSymbol [⟨1, 0, 0⟩, ⟨2, 1, 1⟩, ⟨3, 3, 2⟩, ⟨3, 7, 3⟩] =
      .ok 2 { rdr [] with bitbuf := 0, bitcnt := 5, mv := 3, mhave := 3 } ∧
    (rdr [0x03]).matchSymbol [] = .raise .noMatch (rdr [0x03]) := by decide

/-! ## Commands -/

/-- V40-4. -/
theorem test_start : gives (exec (.start 25 3) (matching (filled 15 [7]) 8 dry)) (fun t =>
    decide (t.session = { sstate := .active, result := 0x00 } ∧ t.reader = { dry with chunkRem := 25 } ∧
      t.scan.stride = 3 ∧ t.scan.passValid = false ∧ t.inflate = State.reset.inflate ∧ t.window.wr = 0 ∧
      t.window.hist = 0 ∧ t.port.cmd = .waiting)) = true := by decide

/-- V40-3. -/
theorem test_start_stride_9 : refuses (exec (.start 25 9) State.reset) .operandRange = true := by decide

/-- V40-5: the row above becomes zero; the stream is left alone. -/
theorem test_pass_begin : gives (exec (.passBegin 1) (rowState 1 [1, 2] [3, 4])) (fun t =>
    decide (t.scan.prev = [(1, 4)] ∧ t.scan.cur = [(0, 1), (1, 2)] ∧ t.scan.rowbytes = 1 ∧ t.inflate.istate = .huffman)) = true := by
  decide

/-- V40-1, V40-7. -/
theorem test_pass_begin_illegal : refuses (exec (.passBegin 6) State.reset) .protocol = true ∧
    fails (exec (.passBegin 6) (failed ⟨2, .none⟩)) 0x34 = true := by decide

/-- V40-2. -/
theorem test_row_without_pass :
    refuses (exec .row { opened ⟨3, .none⟩ with scan := State.reset.scan }) .protocol = true := by decide

/-- V40-7: a failed session answers ROW and FINISH with the latched code, and reads nothing. -/
theorem test_row_finish_latched : fails (step (failed ⟨3, .none⟩)) 0x34 = true ∧
    fails (step (failed ⟨4, .none⟩)) 0x34 = true := by decide

/-- V40-9: FINISH reads the next four bytes, whatever they are. -/
theorem test_finish : gives (step { inRow .stored (rdr [0x00, 0x00, 0x00, 0xFF, 0x01]) with
    port := { cmd := .finish, cmds := [], resps := [] } }) (fun t =>
      decide (t.session.sstate = .done ∧ t.reader = rdr [0x01] ∧
        t.port.resps = [{ result := 0x00, sstate := .done, row := none }])) = true := by decide

/-- V40-7. -/
theorem test_abort : gives (exec .abort (failed ⟨5, .none⟩)) (fun t =>
    decide (t.session = { sstate := .idle, result := 0x00 })) = true := by decide

/-- V40-6. -/
theorem test_reserved_codes :
    refuses (step (opened ⟨0, .none⟩)) .reservedCommand = true ∧
    refuses (step (failed ⟨6, .none⟩)) .reservedCommand = true ∧
    refuses (step { State.reset with port := { cmd := .waiting, cmds := [⟨7, .none⟩], resps := [] } }) .reservedCommand = true := by
  decide

/-! ## Blocks -/

/-- V43-1: `08 1D` accepted, `78 BB` refused for its dictionary. -/
theorem test_zlib_header :
    gives (step (atHeader (rdr [0x08, 0x1D]))) (fun t => decide (t.window.wlog = 8 ∧ t.inflate.hdrDone = true)) = true ∧
    fails (step (atHeader (rdr [0x78, 0xBB]))) 0x32 = true := by decide

/-- V43-1, V60-2: `F7 20` fails on its method, `88 20` on its window. -/
theorem test_zlib_header_order :
    fails (step (atHeader (rdr [0xF7, 0x20]))) 0x30 = true ∧ fails (step (atHeader (rdr [0x88, 0x20]))) 0x31 = true := by decide

/-- V43-2 and the first bytes of P1, P2 and P3. -/
theorem test_block_headers :
    gives (step (inRow .begin (rdr [0x01]))) (fun t => decide (t.inflate.istate = .stored ∧ t.inflate.bfinal = true)) = true ∧
    gives (step (inRow .begin (rdr [0x63]))) (fun t => decide (t.inflate.istate = .fixed ∧ t.inflate.bfinal = true)) = true ∧
    gives (step (inRow .begin (rdr [0x04]))) (fun t => decide (t.inflate.istate = .dynamic ∧ t.inflate.bfinal = false)) = true := by
  decide

/-- P5c. -/
theorem test_block_reserved : fails (step (inRow .begin (rdr [0x07]))) 0x33 = true ∧
    gives (step (inRow .begin (rdr [0x07]))) (fun t => decide (t.inflate.bfinal = true ∧ t.reader.bitcnt = 5)) = true := by decide

/-- V43-3: the padding bits are dropped; a wrong complement fails. -/
theorem test_stored_header :
    gives (step (inRow .stored { rdr [0x0E, 0x00, 0xF1, 0xFF, 0x09] with bitcnt := 5 })) (fun t =>
      decide (t.inflate.storedRem = 14 ∧ t.inflate.istate = .stored ∧ t.reader = rdr [0x09])) = true ∧
    fails (step (inRow .stored (rdr [0x0E, 0x00, 0xF0, 0xFF]))) 0x34 = true := by decide

/-- V43-3: an empty stored block ends at once. -/
theorem test_stored_header_empty :
    gives (step (inRow .stored (rdr [0x00, 0x00, 0xFF, 0xFF]))) (fun t => decide (t.inflate.istate = .blockEnd)) = true := by decide

/-- P1: the last raw byte of a block. -/
theorem test_raw : gives (step { inRow .stored (rdr [0xAA]) with
    inflate := { istate := .stored, hdrDone := true, bfinal := false, storedHdr := true, storedRem := 1 } }) (fun t =>
      decide (t.window.mem = [(0, 0xAA)] ∧ t.window.unread = 1 ∧ t.window.hist = 1 ∧ t.inflate.istate = .blockEnd)) = true := by
  decide

/-- V42-4 and V42-5: the first and the last entries of the fixed tables. -/
theorem test_fixed : gives (step (inRow .fixed dry)) (fun t =>
    decide (t.tables.litN = 288 ∧ t.tables.distN = 32 ∧
      t.tables.lit.take 3 = [⟨7, 0, 256⟩, ⟨7, 4, 272⟩, ⟨7, 8, 264⟩] ∧
      (t.tables.lit.drop 24).take 2 = [⟨8, 1, 80⟩, ⟨8, 2, 16⟩] ∧
      t.tables.lit.drop 286 = [⟨9, 507, 191⟩, ⟨9, 511, 255⟩] ∧
      t.tables.dist.take 3 = [⟨5, 0, 0⟩, ⟨5, 1, 16⟩, ⟨5, 2, 8⟩] ∧ t.inflate.istate = .huffman)) = true := by decide +kernel

/-- P3: the header after its block header bits. -/
theorem test_dyn : gives (step { inRow .dynamic { rdr [0xC4, 0x37, 0x01, 0x00, 0x00, 0x00, 0xC2, 0xB0, 0x03] with
    bitbuf := 2, bitcnt := 5 } with dyn := State.reset.dyn }) (fun t =>
      decide (t.dyn.hlit = 259 ∧ t.dyn.hdist = 5 ∧ t.dyn.hclen = 18 ∧ t.dyn.idx = 0 ∧
        t.tables.cl = [⟨2, 0, 3⟩, ⟨2, 2, 18⟩, ⟨3, 1, 1⟩, ⟨3, 3, 16⟩, ⟨3, 5, 2⟩, ⟨3, 7, 17⟩])) = true := by decide +kernel

/-- P3: `CL_LEN 3` at index 3. -/
theorem test_cl_len : gives (exec (.clLen 3) (inDyn 259 5 3 [] dry)) (fun t =>
    decide (t.dyn.lens.take 5 = [0, 0, 0, 3, 0] ∧ t.dyn.idx = 4 ∧ t.dyn.lens.length = 320)) = true := by decide +kernel

/-- V43-5: extra 0 gives three copies; V43-7: nothing to repeat. -/
theorem test_cl_rep :
    gives (exec .clRep (inDyn 259 5 1 [9] (rdr [0x00]))) (fun t =>
      decide (t.dyn.lens.take 5 = [9, 9, 9, 9, 0] ∧ t.dyn.idx = 4)) = true ∧
    fails (exec .clRep (inDyn 257 1 0 [] (rdr [0x00]))) 0x38 = true := by decide

/-- V43-8. -/
theorem test_cl_rep_past_the_end : fails (exec .clRep (inDyn 257 1 257 [] (rdr [0x00]))) 0x39 = true := by decide

/-- V43-5: extra 7 gives ten zeros. -/
theorem test_cl_zero_s : gives (exec .clZeroS (inDyn 259 5 0 (List.replicate 12 1) (rdr [0x07]))) (fun t =>
    decide (t.dyn.lens.take 12 = [0, 0, 0, 0, 0, 0, 0, 0, 0, 0, 1, 1] ∧ t.dyn.idx = 10)) = true := by decide

/-- V43-5, V43-6: extra 127 gives 138 zeros, and the second such run does not fit. -/
theorem test_cl_zero_l :
    gives (exec .clZeroL (inDyn 257 1 0 [] (rdr [0x7F]))) (fun t => decide (t.dyn.idx = 138)) = true ∧
    fails (exec .clZeroL (inDyn 257 1 138 [] (rdr [0x7F]))) 0x39 = true := by decide +kernel

/-- V43-4 and P5f: the end of a block and of the stream. -/
theorem test_block_end_and_stream_end :
    gives (step (inRow .blockEnd dry)) (fun t => decide (t.inflate.istate = .begin)) = true ∧
    fails (step (inRow .streamEnd dry)) 0x3A = true := by decide

/-! ## Symbols -/

/-- V44-1: a literal joins the window, the counts move. -/
theorem test_lit : gives (exec (.lit 0x90) { inRow .huffman dry with window := filled 8 [5] }) (fun t =>
    decide (t.window.mem = [(0, 5), (1, 0x90)] ∧ t.window.wr = 2 ∧ t.window.unread = 1 ∧ t.window.hist = 2)) = true := by decide

/-- V44-11: the cursor wraps at `W` and the history saturates. -/
theorem test_lit_wraps : gives (exec (.lit 1) { inRow .huffman dry with
    window := { State.reset.window with wlog := 8, wr := 255, rd := 255, hist := 256 } }) (fun t =>
      decide (t.window.mem = [(255, 1)] ∧ t.window.wr = 0 ∧ t.window.hist = 256)) = true := by decide

/-- V44-13. -/
theorem test_eob : gives (exec .eob (inRow .huffman dry)) (fun t => decide (t.inflate.istate = .blockEnd)) = true := by decide

/-- The least and the greatest length of every length symbol: extra bits all 0, and all 1 (R110's ranges). -/
theorem test_length_ranges : ∀ p ∈ ([(.len257, 3, 3), (.len258, 4, 4), (.len259, 5, 5), (.len260, 6, 6),
    (.len261, 7, 7), (.len262, 8, 8), (.len263, 9, 9), (.len264, 10, 10),
    (.len265, 11, 12), (.len266, 13, 14), (.len267, 15, 16), (.len268, 17, 18),
    (.len269, 19, 22), (.len270, 23, 26), (.len271, 27, 30), (.len272, 31, 34),
    (.len273, 35, 42), (.len274, 43, 50), (.len275, 51, 58), (.len276, 59, 66),
    (.len277, 67, 82), (.len278, 83, 98), (.len279, 99, 114), (.len280, 115, 130),
    (.len281, 131, 162), (.len282, 163, 194), (.len283, 195, 226), (.len284, 227, 258),
    (.len285, 258, 258)] : List (Instr × Nat × Nat)),
    gives (exec p.1 (inRow .huffman (rdr [0x00]))) (fun t => decide (t.temps.mlen.toNat = p.2.1)) = true ∧
    gives (exec p.1 (inRow .huffman (rdr [0xFF]))) (fun t => decide (t.temps.mlen.toNat = p.2.2)) = true := by decide

/-- The least and the greatest distance of every distance symbol (R111's ranges). With nothing written
before, each of them fails for its distance, which has been set by then (R259). -/
theorem test_distance_ranges : ∀ p ∈ ([(.dist0, 1, 1), (.dist1, 2, 2), (.dist2, 3, 3), (.dist3, 4, 4),
    (.dist4, 5, 6), (.dist5, 7, 8), (.dist6, 9, 12), (.dist7, 13, 16),
    (.dist8, 17, 24), (.dist9, 25, 32), (.dist10, 33, 48), (.dist11, 49, 64),
    (.dist12, 65, 96), (.dist13, 97, 128), (.dist14, 129, 192), (.dist15, 193, 256),
    (.dist16, 257, 384), (.dist17, 385, 512), (.dist18, 513, 768), (.dist19, 769, 1024),
    (.dist20, 1025, 1536), (.dist21, 1537, 2048), (.dist22, 2049, 3072), (.dist23, 3073, 4096),
    (.dist24, 4097, 6144), (.dist25, 6145, 8192), (.dist26, 8193, 12288), (.dist27, 12289, 16384),
    (.dist28, 16385, 24576), (.dist29, 24577, 32768)] : List (Instr × Nat × Nat)),
    gives (exec p.1 (matching (filled 15 []) 3 (rdr [0x00, 0x00]))) (fun t =>
      decide (t.temps.mdist.toNat = p.2.1 ∧ t.session.result = 0x3C)) = true ∧
    gives (exec p.1 (matching (filled 15 []) 3 (rdr [0xFF, 0xFF]))) (fun t =>
      decide (t.temps.mdist.toNat = p.2.2 ∧ t.session.result = 0x3C)) = true := by decide

/-- V44-9 and V44-10. -/
theorem test_invalid_symbols :
    fails (exec .lenInvalid286 (inRow .huffman dry)) 0x36 = true ∧ fails (exec .lenInvalid287 (inRow .huffman dry)) 0x36 = true ∧
    fails (exec .distInvalid30 (matching (filled 15 [0]) 3 dry)) 0x37 = true ∧
    fails (exec .distInvalid31 (matching (filled 15 [0]) 3 dry)) 0x37 = true := by decide

/-- V44-3: a copy that overlaps itself. -/
theorem test_copy_overlap : gives (exec .dist1 (matching (filled 15 [0x00, 0x61, 0x62]) 5 dry)) (fun t =>
    decide (t.window.mem = [(1, 0x61), (2, 0x62), (3, 0x61), (4, 0x62), (5, 0x61), (6, 0x62), (7, 0x61)] ∧
      t.window.wr = 8 ∧ t.window.unread = 5 ∧ t.window.hist = 8 ∧ t.temps.lenPend = false)) = true := by decide

/-- V44-6, V44-8 and the second half of V60-2: the distance is checked before the length. -/
theorem test_match_errors :
    fails (exec .dist0 (matching (filled 8 [0]) 258 dry)) 0x3B = true ∧
    fails (exec .dist2 (matching (filled 15 [0, 0]) 3 dry)) 0x3C = true ∧
    fails (exec .dist0 (matching (filled 8 []) 258 dry)) 0x3C = true := by decide

/-! ## Filters -/

/-- V45-1, row 1, and P1. -/
theorem test_f_none : delivers (exec .fNone (rowState 1 [0x0A, 0x14, 0x1E] [])) [0x0A, 0x14, 0x1E] = true := by decide

/-- V45-1, row 2, and V45-4. -/
theorem test_f_sub : delivers (exec .fSub (rowState 1 [1, 1, 0xFF] [0x0A, 0x14, 0x1E])) [1, 2, 1] = true ∧
    delivers (exec .fSub (rowState 2 [0xF0, 0x01, 0x20, 0xFF, 0x10, 0x01] [])) [0xF0, 0x01, 0x10, 0x00, 0x20, 0x01] = true := by decide

/-- V45-1, row 3. -/
theorem test_f_up : delivers (exec .fUp (rowState 1 [1, 2, 0x20] [1, 2, 1])) [2, 4, 0x21] = true := by decide

/-- V45-2 and V45-8. -/
theorem test_f_avg : delivers (exec .fAvg (rowState 1 [1, 2] [0xFF, 0xFF])) [0x80, 0xC1] = true ∧
    delivers (exec .fAvg (rowState 1 [0x0A, 0x0A, 0x0A] [])) [0x0A, 0x0F, 0x11] = true := by decide

/-- V45-3 and V45-9. -/
theorem test_f_paeth :
    delivers (exec .fPaeth (rowState 3 [5, 5, 5, 5, 5, 5] [0x32, 0x3C, 0x46, 0x50, 0x5A, 0x64])) [0x37, 0x41, 0x4B, 0x55, 0x5F, 0x69] = true ∧
    delivers (exec .fPaeth (rowState 1 [0xFB, 0x05] [0x0F, 0x14])) [0x0A, 0x14] = true := by decide

/-- V45-10, the rows with a tie, a sign or more than 8 bits. -/
theorem test_paeth_predictor : predictPaeth 1 4 2 = 4 ∧ predictPaeth 4 1 2 = 4 ∧ predictPaeth 255 255 0 = 255 ∧
    predictPaeth 0 0 255 = 0 ∧ predictPaeth 10 20 15 = 15 ∧ predictPaeth 255 0 255 = 0 := by decide

/-- V45-11, P5g. -/
theorem test_f_invalid : fails (step { inRow .blockEnd dry with port := { cmd := .row [5, 0, 0], cmds := [], resps := [] } }) 0x20 = true ∧
    fails (step { inRow .blockEnd dry with port := { cmd := .row [0xFF, 0, 0], cmds := [], resps := [] } }) 0x20 = true := by decide

/-! ## The notation (R118, R119) -/

/-- P2's bytes from its lines, up to the ADLER. -/
theorem test_assemble : assemble
    ([.zlib 7 8 0 2 none, .block true 1, .lit 1] ++ Line.pair 8 1 ++ [.lit 2] ++ Line.pair 8 9 ++ [.eob, .adler [0x00, 0xC6, 0x00, 0x14]]) =
      some [0x78, 0x9C, 0x63, 0x84, 0x01, 0x26, 0x18, 0x03, 0x00, 0x00, 0xC6, 0x00, 0x14] := by decide +kernel

/-- R187: a code-length set whose Kraft sum is 3/2 gives the notation no code, and the escape still writes bits. -/
theorem test_assemble_over_subscribed :
    assemble [.dyn 257 1 4 [1, 1, 1, 0], .clRep 3] = none ∧
    assemble [.dyn 257 1 4 [1, 1, 1, 0], .bits 1 1] ≠ none := by decide +kernel

/-- R118's ranges at their ends: just inside a line encodes, just outside it does not (log 18). -/
theorem test_line_ranges :
    (([.zlib 15 15 1 3 (some 31), .block true 3, .dyn 288 32 4 [7, 0, 0, 0], .clRep 6, .clZeroL 138, .lit 255,
       .len 284 31, .dist 29 8191, .bits 3 2, .adler [0, 0, 0, 0]] : List Line).all Line.wf = true) ∧
    ([.zlib 7 16 0 0 none, .zlib 7 8 2 0 none, .zlib 7 8 0 0 (some 32), .block true 4, .dyn 257 1 5 [1, 1, 1, 0],
      .clLen 16, .clRep 7, .clZeroL 139, .lit 256, .len 284 32, .dist 29 8192, .bits 4 2, .adler [0]] : List Line).all
        (fun l => (Asm.start.line l).isNone) = true := by decide +kernel

/-! ## Witnesses: for each statement with hypotheses, states and operands that meet them -/

/-- The check of a table memory. -/
def tableCheck (cap : Nat) (t : List HuffEntry) (n : Nat) : Bool :=
  decide (n ≤ t.length) && decide (t.length ≤ cap) && t.all fun e => decide (1 ≤ e.len.toNat) && decide (e.sym.toNat < cap)

/-- The codes of the causes that can be raised (R360, R377). -/
def raisable : List ErrCode :=
  [.io, .ioChunk, .filterType, .zlibMethod, .zlibWindow, .zlibFdict, .blockType, .storedLen, .noMatch, .lenCode,
   .distCode, .repeatFirst, .lensOverflow, .streamEnd, .windowOverrun, .distTooFar]

/-- The check of the session and the running command. -/
def commandCheck (s : State) : Bool :=
  (match s.port.cmd with
    | .waiting => true
    | .row d => decide (s.session.sstate = .active) && decide (d.length ≤ s.scan.rowbytes.toNat + 1)
    | .finish => decide (s.session.sstate = .active)) &&
  (if s.session.sstate = .failed then raisable.any fun c => decide (s.session.result = c.code)
    else decide (s.session.result = 0x00))

/-- The check of the window. -/
def windowCheck (s : State) : Bool :=
  let w := s.window
  decide (8 ≤ w.wlog.toNat ∧ w.rd.toNat < w.size ∧ (w.rd.toNat + w.unread.toNat) % w.size = w.wr.toNat ∧
    w.unread.toNat ≤ w.hist.toNat ∧ w.hist.toNat ≤ w.size ∧ w.unread.toNat ≤ Config.matchMax) &&
  (s.inflate.hdrDone || decide (s.inflate.istate = .begin ∧ w.wr = 0 ∧ w.rd = 0 ∧ w.unread = 0 ∧ w.hist = 0)) &&
  (!s.temps.lenPend || decide (s.inflate.istate = .huffman ∧ 3 ≤ s.temps.mlen.toNat ∧ s.temps.mlen.toNat ≤ Config.matchMax))

/-- The check of the ranges. -/
def rangeCheck (s : State) : Bool :=
  decide (1 ≤ s.scan.stride.toNat ∧ s.scan.stride.toNat ≤ Config.strideMax ∧
    1 ≤ s.scan.rowbytes.toNat ∧ s.scan.rowbytes.toNat ≤ Config.rowbytesMax ∧
    s.dyn.lens.length = Config.nlensMax ∧ s.dyn.clLens.length = Config.ncl ∧
    257 ≤ s.dyn.hlit.toNat ∧ s.dyn.hlit.toNat ≤ 288 ∧ 1 ≤ s.dyn.hdist.toNat ∧ s.dyn.hdist.toNat ≤ 32 ∧
    4 ≤ s.dyn.hclen.toNat ∧ s.dyn.hclen.toNat ≤ 19 ∧ s.dyn.idx.toNat ≤ Config.nlensMax) &&
  tableCheck Config.nlitMax s.tables.litTab s.tables.litN.toNat &&
  tableCheck Config.ndistMax s.tables.distTab s.tables.distN.toNat &&
  tableCheck Config.ncl s.tables.clTab s.tables.clN.toNat

/-- The check of the byte memories. -/
def memoryCheck (s : State) : Bool :=
  s.window.mem.wf && s.scan.bufA.wf && s.scan.bufB.wf &&
  s.window.mem.all (fun c => decide (c.1 < Config.winMax)) &&
  s.scan.bufA.all (fun c => decide (c.1 < Config.rowbytesMax)) &&
  s.scan.bufB.all fun c => decide (c.1 < Config.rowbytesMax)

/-- Every invariant, as a check that computes. -/
def invCheck (s : State) : Bool :=
  decide (s.reader.bitcnt.toNat ≤ 7 ∧ s.reader.bitbuf.toNat < 2 ^ s.reader.bitcnt.toNat) &&
  windowCheck s && memoryCheck s && rangeCheck s && commandCheck s

theorem tableInv_of_check {cap : Nat} {t : List HuffEntry} {n : Nat} (h : tableCheck cap t n = true) : TableInv cap t n := by
  simp only [tableCheck, Bool.and_eq_true, decide_eq_true_eq, List.all_eq_true] at h
  exact ⟨h.1.1, h.1.2, h.2⟩

theorem commandInv_of_check {s : State} (h : commandCheck s = true) : s.CommandInv := by
  simp only [commandCheck, Bool.and_eq_true] at h
  obtain ⟨h1, h2⟩ := h
  refine ⟨fun hw => ?_, fun d hd => ?_, fun hn => ?_, fun hf => ?_⟩
  · split at h1
    · contradiction
    · simp only [Bool.and_eq_true, decide_eq_true_eq] at h1; exact h1.1
    · simpa using h1
  · rw [hd] at h1; simp only [Bool.and_eq_true, decide_eq_true_eq] at h1; exact h1.2
  · rw [if_neg hn] at h2; simpa using h2
  · rw [if_pos hf] at h2
    simp only [List.any_eq_true, decide_eq_true_eq] at h2
    obtain ⟨c, hc, he⟩ := h2
    exact ⟨c, by rintro rfl; revert hc; decide, he⟩

theorem inv_of_check {s : State} (h : invCheck s = true) : s.Inv := by
  simp only [invCheck, Bool.and_eq_true, decide_eq_true_eq] at h
  obtain ⟨⟨⟨⟨hr, hw⟩, hm⟩, hg⟩, hc⟩ := h
  refine ⟨hr, ?_, ?_, ?_, ?_, commandInv_of_check hc⟩
  · simp only [windowCheck, Bool.and_eq_true, Bool.or_eq_true, Bool.not_eq_true', decide_eq_true_eq] at hw
    obtain ⟨⟨⟨a, b, c, d, e, f⟩, hf⟩, hp⟩ := hw
    refine ⟨⟨a, b, c, d, e, f⟩, fun h0 => ?_, fun h1 => ?_⟩
    · exact hf.resolve_left (by simp [h0])
    · exact hp.resolve_left (by simp [h1])
  · simp only [memoryCheck, Bool.and_eq_true] at hm
    exact ⟨hm.1.1.1.1.1, hm.1.1.1.1.2, hm.1.1.1.2⟩
  · simp only [memoryCheck, Bool.and_eq_true, List.all_eq_true, decide_eq_true_eq] at hm
    exact ⟨hm.1.1.2, hm.1.2, hm.2⟩
  · simp only [rangeCheck, Bool.and_eq_true, decide_eq_true_eq] at hg
    obtain ⟨⟨⟨⟨a, b, c, d, e, f, g, i, j, k, l, m, n⟩, t1⟩, t2⟩, t3⟩ := hg
    exact ⟨a, b, c, d, tableInv_of_check t1, tableInv_of_check t2, tableInv_of_check t3, e, f, g, i, j, k, l, m, n⟩

/-- A ROW that has pulled nothing, with a whole row of two bytes and its filter byte 1 in the window. -/
def surplus : State :=
  { inRow .huffman dry with
    window := { mem := [(0, 1), (1, 7), (2, 9)], wlog := 15, wr := 3, rd := 0, unread := 3, hist := 3 } }

/-- A FINISH before its trailer. -/
def finishing (r : Reader) : State := { inRow .huffman r with port := { cmd := .finish, cmds := [], resps := [] } }

theorem inv_opened (q : HostReq) : (opened q).Inv :=
  inv_of_check (show invCheck (opened ⟨0, .none⟩) = true by decide +kernel)
theorem inv_failed (q : HostReq) : (failed q).Inv :=
  inv_of_check (show invCheck (failed ⟨0, .none⟩) = true by decide +kernel)
theorem inv_surplus : surplus.Inv := inv_of_check (by decide +kernel)
theorem inv_finishing : (finishing (rdr [1, 2, 3, 4])).Inv := inv_of_check (by decide +kernel)
theorem inv_atHeader : (atHeader (rdr [0x78, 0xBB])).Inv := inv_of_check (by decide +kernel)
theorem inv_blockEnd : (inRow .blockEnd dry).Inv := inv_of_check (by decide +kernel)

theorem witness_DecodeEncodeAgree :
    (Instr.start 0xFFFFFFFF 8).wf = true ∧ (Instr.passBegin 2040).wf = true ∧ (Instr.fInvalid 5).wf = true := by decide

theorem witness_DecodedWordIsTheElementsWord :
    decode ⟨.litLen, 287, .none⟩ = .ok .lenInvalid287 ∧ decode ⟨.litLen, 288, .none⟩ = .error .litLenSymbol := by decide

theorem witness_NextCommandRuns :
    (State.reset.port.cmd = .waiting ∧ State.reset.port.cmds = []) ∧
    ((opened ⟨3, .none⟩).port.cmd = .waiting ∧ (opened ⟨3, .none⟩).port.cmds = [⟨3, .none⟩]) := by decide

theorem pulling_inRow (st : IState) (r : Reader) : (inRow st r).Pulling := ⟨rfl, [], rfl, Nat.zero_le _⟩

theorem witness_StreamElementRuns_zhdr : ∃ r, (atHeader (rdr [0x78, 0x9C])).Expects .zhdr ∧
    (atHeader (rdr [0x78, 0x9C])).reader.readBytes 2 = .ok [0x78, 0x9C] r ∧
    decode ⟨.zhdr, 0x78 + 256 * 0x9C, .none⟩ = .ok (.zlib 8 7 28 false 2) :=
  ⟨_, ⟨⟨rfl, [], rfl, Nat.zero_le _⟩, rfl, rfl⟩, rfl, by decide⟩

theorem witness_StreamElementRuns_bhdr : ∃ r, (inRow .begin (rdr [0x63])).Expects .bhdr ∧
    (inRow .begin (rdr [0x63])).reader.readBits 3 = .ok 3 r ∧ decode ⟨.bhdr, 3, .none⟩ = .ok (.blockFixed true) :=
  ⟨_, ⟨pulling_inRow _ _, rfl, rfl⟩, rfl, by decide⟩

/-- P1's stored header, five bits of the block header's byte still buffered. -/
theorem witness_StreamElementRuns_storedHdr :
    let s := inRow .stored { rdr [0x0E, 0x00, 0xF1, 0xFF] with bitbuf := 0x16, bitcnt := 5 }
    ∃ r, s.Expects .storedHdr ∧
      Reader.readBytes 4 { s.reader with bitbuf := 0, bitcnt := 0 } = .ok [0x0E, 0x00, 0xF1, 0xFF] r ∧
      decode ⟨.storedHdr, (0x0E + 256 * 0x00) + 65536 * (0xF1 + 256 * 0xFF), .none⟩ = .ok (.storedHdr 14 0xFFF1) :=
  ⟨_, ⟨pulling_inRow _ _, rfl, rfl⟩, rfl, by decide⟩

/-- In a stored block with data left. -/
def inStored (r : Reader) : State :=
  { inRow .stored r with
    inflate := { istate := .stored, hdrDone := true, bfinal := false, storedHdr := true, storedRem := 2 } }

theorem witness_StreamElementRuns_raw : ∃ r, (inStored (rdr [0xAA])).Expects .raw ∧
    (inStored (rdr [0xAA])).reader.readBytes 1 = .ok [0xAA] r ∧ decode ⟨.raw, 0xAA, .none⟩ = .ok (.raw 0xAA) :=
  ⟨_, ⟨⟨rfl, [], rfl, Nat.zero_le _⟩, rfl, rfl⟩, rfl, by decide⟩

theorem witness_StreamElementRuns_fixed : (inRow .fixed dry).Expects .fixed := ⟨pulling_inRow _ _, rfl⟩

theorem witness_StreamElementRuns_dynHdr : ∃ r, (inRow .dynamic (rdr [0x41, 0x0C])).Expects .dynHdr ∧
    (inRow .dynamic (rdr [0x41, 0x0C])).reader.readBits 14 = .ok 0xC41 r ∧
    decode ⟨.dynHdr, 0xC41, .none⟩ = .ok (.dyn 1 2 3) :=
  ⟨_, ⟨pulling_inRow _ _, rfl, rfl⟩, rfl, by decide⟩

/-- Every table holds the one code `0`, of the symbol given. -/
def withTables (sym : BitVec 9) (s : State) : State :=
  { s with tables := { litTab := [⟨1, 0, sym⟩], litN := 1, distTab := [⟨1, 0, sym⟩], distN := 1, clTab := [⟨1, 0, sym⟩], clN := 1 } }

theorem witness_StreamElementRuns_clSym : ∃ r, (withTables 16 (inDyn 257 1 257 [] (rdr [0]))).Expects .clSym ∧
    (withTables 16 (inDyn 257 1 257 [] (rdr [0]))).reader.matchSymbol [⟨1, 0, 16⟩] = .ok 16 r ∧
    (withTables 16 (inDyn 257 1 257 [] (rdr [0]))).tables.cl = [⟨1, 0, 16⟩] ∧ decode ⟨.clSym, 16, .none⟩ = .ok .clRep :=
  ⟨_, ⟨⟨rfl, [], rfl, Nat.zero_le _⟩, rfl, rfl, by decide⟩, rfl, rfl, by decide⟩

theorem witness_StreamElementRuns_litLen : ∃ r, (withTables 285 (inRow .huffman (rdr [0]))).Expects .litLen ∧
    (withTables 285 (inRow .huffman (rdr [0]))).reader.matchSymbol
      (withTables 285 (inRow .huffman (rdr [0]))).tables.lit = .ok 285 r ∧
    decode ⟨.litLen, 285, .none⟩ = .ok .len285 :=
  ⟨_, ⟨⟨rfl, [], rfl, Nat.zero_le _⟩, rfl, rfl⟩, rfl, by decide⟩

theorem witness_StreamElementRuns_dist : ∃ r, (withTables 29 (matching (filled 15 [1]) 3 (rdr [0]))).Expects .dist ∧
    (withTables 29 (matching (filled 15 [1]) 3 (rdr [0]))).reader.matchSymbol
      (withTables 29 (matching (filled 15 [1]) 3 (rdr [0]))).tables.dist = .ok 29 r ∧
    decode ⟨.dist, 29, .none⟩ = .ok .dist29 :=
  ⟨_, ⟨⟨rfl, [], rfl, Nat.zero_le _⟩, rfl, rfl⟩, rfl, by decide⟩

theorem witness_StreamElementRuns_ztrl : ∃ r, (finishing (rdr [1, 2, 3, 4])).Expects .ztrl ∧
    (finishing (rdr [1, 2, 3, 4])).reader.readBytes 4 = .ok [1, 2, 3, 4] r ∧
    decode ⟨.ztrl, 1 + 256 * 2 + 65536 * 3 + 16777216 * 4, .none⟩ = .ok (.ztrl 0x04030201) :=
  ⟨_, rfl, rfl, by decide⟩

/-- Each of the reads that can only fail for want of a byte, failing. -/
theorem witness_StreamElementRuns_readFails :
    (∃ r, (atHeader (rdr [0x78])).Expects .zhdr ∧ (atHeader (rdr [0x78])).reader.readBytes 2 = .raise .ioChunk r) ∧
    (∃ r, (inRow .begin dry).Expects .bhdr ∧ (inRow .begin dry).reader.readBits 3 = .raise .ioChunk r) ∧
    (∃ r, (inRow .stored (rdr [0x0E])).Expects .storedHdr ∧
      Reader.readBytes 4 { (inRow .stored (rdr [0x0E])).reader with bitbuf := 0, bitcnt := 0 } = .raise .ioChunk r) ∧
    (∃ r, (inStored { dry with chunkRem := 1 }).Expects .raw ∧
      (inStored { dry with chunkRem := 1 }).reader.readBytes 1 = .raise .io r) ∧
    (∃ r, (inRow .dynamic (rdr [0x41])).Expects .dynHdr ∧ (inRow .dynamic (rdr [0x41])).reader.readBits 14 = .raise .ioChunk r) ∧
    ∃ r, (finishing (rdr [1, 2, 3])).Expects .ztrl ∧ (finishing (rdr [1, 2, 3])).reader.readBytes 4 = .raise .ioChunk r :=
  ⟨⟨_, ⟨⟨rfl, [], rfl, Nat.zero_le _⟩, rfl, rfl⟩, rfl⟩, ⟨_, ⟨pulling_inRow _ _, rfl, rfl⟩, rfl⟩,
    ⟨_, ⟨pulling_inRow _ _, rfl, rfl⟩, rfl⟩, ⟨_, ⟨⟨rfl, [], rfl, Nat.zero_le _⟩, rfl, rfl⟩, rfl⟩,
    ⟨_, ⟨pulling_inRow _ _, rfl, rfl⟩, rfl⟩, _, rfl, rfl⟩

/-- The bit 1 against tables whose one code is the bit 0 (V42-8): no code-length, length or distance symbol. -/
theorem witness_StreamElementRuns_matchFails :
    (let s := withTables 16 (inDyn 257 1 257 [] (rdr [1]))
     ∃ r, s.Expects .clSym ∧ s.reader.matchSymbol s.tables.cl = .raise .noMatch r) ∧
    (let s := withTables 285 (inRow .huffman (rdr [1]))
     ∃ r, s.Expects .litLen ∧ s.reader.matchSymbol s.tables.lit = .raise .noMatch r) ∧
    (let s := withTables 29 (matching (filled 15 [1]) 3 (rdr [1]))
     ∃ r, s.Expects .dist ∧ s.reader.matchSymbol s.tables.dist = .raise .noMatch r) :=
  ⟨⟨_, ⟨⟨rfl, [], rfl, Nat.zero_le _⟩, rfl, rfl, by decide⟩, rfl⟩, ⟨_, ⟨⟨rfl, [], rfl, Nat.zero_le _⟩, rfl, rfl⟩, rfl⟩,
    _, ⟨⟨rfl, [], rfl, Nat.zero_le _⟩, rfl, rfl⟩, rfl⟩

/-- A ROW that has pulled all its bytes, the given filter byte first. -/
def pulled (f : Byte) : State := { inRow .huffman dry with port := { cmd := .row [f, 5, 6], cmds := [], resps := [] } }

theorem witness_FilterElementRuns : (pulled 4).port.cmd = .row (4 :: [5, 6]) ∧
    [(5 : Byte), 6].length = (pulled 4).scan.rowbytes.toNat ∧ (pulled 4).scan.rowbytes.toNat ≤ 2040 ∧
    (pulled 4).scan.cur.wf = true ∧ decode ⟨.filt, 4, .none⟩ = .ok .fPaeth := by decide

theorem witness_PlacedElementIsRead : (Instr.start 0 8).wf = true ∧ Instr.clRep.wf = true ∧ (Instr.fInvalid 255).wf = true := by decide

/-- Both clauses at the ends of the range. -/
theorem witness_StartOpensASession : (1 ≤ (1 : BitVec 4).toNat ∧ (1 : BitVec 4).toNat ≤ 8) ∧
    (1 ≤ (8 : BitVec 4).toNat ∧ (8 : BitVec 4).toNat ≤ 8) ∧ ¬(1 ≤ (0 : BitVec 4).toNat ∧ (0 : BitVec 4).toNat ≤ 8) ∧
    ¬(1 ≤ (9 : BitVec 4).toNat ∧ (9 : BitVec 4).toNat ≤ 8) := by decide

/-- Both clauses at the ends of the range, in a state that meets the premises. -/
theorem witness_PassBeginZeroesThePreviousRow :
    ((rowState 1 [1] [2]).session = { sstate := .active, result := 0x00 } ∧ (rowState 1 [1] [2]).scan.prev.wf = true) ∧
    (1 ≤ (1 : BitVec 11).toNat ∧ (2040 : BitVec 11).toNat ≤ 2040) ∧
    ¬(1 ≤ (0 : BitVec 11).toNat ∧ (0 : BitVec 11).toNat ≤ 2040) ∧
    ¬(1 ≤ (2041 : BitVec 11).toNat ∧ (2041 : BitVec 11).toNat ≤ 2040) := by decide

theorem witness_RowFinishAndTrailer :
    ((opened ⟨3, .none⟩).session.sstate = .active ∧ (opened ⟨3, .none⟩).scan.passValid = true) ∧
    ((withTables 0 { opened ⟨3, .none⟩ with scan := State.reset.scan }).session.sstate = .active ∧
      (withTables 0 { opened ⟨3, .none⟩ with scan := State.reset.scan }).scan.passValid = false) := by decide

theorem witness_FinishReadsTheTrailerAndEnds : (opened ⟨4, .none⟩).session = { sstate := .active, result := 0x00 } ∧
    (opened ⟨4, .none⟩).port.cmd = .waiting ∧ (opened ⟨4, .none⟩).port.cmds = [⟨4, .none⟩] ∧
    (∃ r, (rdr [1, 2, 3, 4]).readBytes 4 = .ok [1, 2, 3, 4] r) ∧ ∃ r, (rdr [1, 2, 3]).readBytes 4 = .raise .ioChunk r :=
  ⟨by decide, by decide, by decide, ⟨_, rfl⟩, _, rfl⟩

/-- The three verdicts: START in a failed session, PASS_BEGIN in a failed one, ROW before any pass. -/
theorem witness_CommandsKeepTheLegalityTable :
    ((decodeCommand 1 ⟨0, 8, 0⟩).wf = true ∧ verdict 1 .failed false = .run) ∧
    ((decodeCommand 2 ⟨0, 0, 2040⟩).wf = true ∧ verdict 2 .failed true = .latched) ∧
    ((decodeCommand 3 .none).wf = true ∧ verdict 3 .active false = .refused ∧ verdict 3 .active true = .run) ∧
    ((decodeCommand 7 .none).wf = true ∧ verdict 7 .active true = .refused) := by decide

/-- A response with a row, one without, and none. -/
theorem witness_ResponsesCarryResultAndState :
    ((pulled 1).Inv ∧ ∃ t, step (pulled 1) = .next t) ∧ ((failed ⟨3, .none⟩).Inv ∧ ∃ t, step (failed ⟨3, .none⟩) = .next t) ∧
    (surplus.Inv ∧ ∃ t, step surplus = .next t) :=
  ⟨⟨inv_of_check (by decide +kernel), _, rfl⟩, ⟨inv_failed _, _, rfl⟩, inv_surplus, _, rfl⟩

/-- A step inside a command that goes on, one that ends it, a command that ends at once, one that starts. -/
theorem witness_OneCommandAtATime :
    (∃ t, step surplus = .next t ∧ surplus.port.cmd ≠ .waiting ∧ t.port.cmd ≠ .waiting) ∧
    (∃ t, step (pulled 1) = .next t ∧ (pulled 1).port.cmd ≠ .waiting ∧ t.port.cmd = .waiting) ∧
    (∃ t, step (opened ⟨5, .none⟩) = .next t ∧ (opened ⟨5, .none⟩).port.cmd = .waiting ∧
      (opened ⟨5, .none⟩).port.cmds ≠ [] ∧ t.port.cmd = .waiting) ∧
    ∃ t, step (opened ⟨3, .none⟩) = .next t ∧ (opened ⟨3, .none⟩).port.cmd = .waiting ∧ t.port.cmd ≠ .waiting :=
  ⟨⟨_, rfl, by decide, nofun⟩, ⟨_, rfl, by decide, rfl⟩, ⟨_, rfl, rfl, by decide, rfl⟩, _, rfl, rfl, nofun⟩

theorem witness_FailedSessionIsSticky :
    let s : State := { failed ⟨2, .none⟩ with port := { cmd := .waiting, cmds := [⟨2, .none⟩, ⟨3, .none⟩, ⟨4, .none⟩, ⟨5, .none⟩], resps := [] } }
    s.session.sstate = .failed ∧ s.port.cmd = .waiting ∧ s.port.cmds = [⟨2, .none⟩, ⟨3, .none⟩, ⟨4, .none⟩] ++ [⟨5, .none⟩] ∧
    (∀ q ∈ ([⟨2, .none⟩, ⟨3, .none⟩, ⟨4, .none⟩] : List HostReq), q.code = 2 ∨ q.code = 3 ∨ q.code = 4) ∧
    1 ≤ (8 : BitVec 4).toNat ∧ (8 : BitVec 4).toNat ≤ 8 := by decide

/-- V41-1 as the reader; a read that succeeds, one that fails, and bits enough for the last clause. -/
theorem witness_ReadBitsTakesTheNextBits :
    let r : Reader := { rdr [0x01] with bitbuf := 0x16, bitcnt := 5 }
    r.Tidy ∧ (∃ t, r.readBits 7 = .ok 54 t) ∧ (∃ t, r.readBits 14 = .raise .ioChunk t) ∧
    13 ≤ r.streamBits.length ∧ r.WithinChunk 13 :=
  ⟨⟨by decide, by decide⟩, ⟨_, rfl⟩, ⟨_, rfl⟩, by decide, show 13 ≤ 5 + 8 * 1 by decide⟩

theorem witness_ReadBytesBypassesTheBitBuffer :
    let r : Reader := { rdr [0xAA, 0xBB] with bitbuf := 0x16, bitcnt := 5 }
    (∃ t, r.readBytes 1 = .ok [0xAA] t) ∧ (∃ t, r.readBytes 3 = .raise .ioChunk t) ∧
    r.src.bytes = [0xAA, 0xBB].map some ++ [] ∧ [(0xAA : Byte), 0xBB].length = 2 ∧ 2 ≤ r.chunkRem.toNat :=
  ⟨⟨_, rfl⟩, ⟨_, rfl⟩, by decide, by decide, by decide⟩

/-- Within a chunk, at its end with empty chunks before the next, and with no chunk left. -/
theorem witness_FetchByteHopsOverEmptyChunks :
    ((rdr [7]).chunkRem ≠ 0 ∧ (rdr [7]).src.bytes = some 7 :: []) ∧
    (({ dry with chunkRem := 1 } : Reader).chunkRem ≠ 0 ∧
      ∀ b bs, ({ dry with chunkRem := 1 } : Reader).src.bytes ≠ some b :: bs) ∧
    (let r : Reader := { dry with src := { bytes := [some 7], hops := [some 0, some 0, some 22] } }
     r.chunkRem = 0 ∧ (22 : BitVec 32) ≠ 0 ∧ r.src.hops = List.replicate 2 (some 0) ++ some 22 :: [] ∧
       r.src.bytes = some 7 :: []) ∧
    (let r : Reader := { dry with src := { bytes := [none], hops := [some 1] } }
     r.chunkRem = 0 ∧ r.src.hops = List.replicate 0 (some 0) ++ some 1 :: [] ∧ ∀ b bs, r.src.bytes ≠ some b :: bs) ∧
    (let r : Reader := { dry with src := { bytes := [], hops := [some 0, none, some 1] } }
     r.chunkRem = 0 ∧ r.src.hops = List.replicate 1 (some 0) ++ none :: [some 1]) := by
  refine ⟨by decide, ⟨by decide, by simp [dry, rdr]⟩, by decide, ⟨by decide, by decide, by simp⟩, by decide⟩

/-- The byte `78` alone in its chunk, and the same two bytes in one chunk. -/
theorem witness_ChunkSplittingIsTransparent :
    let s := atHeader { rdr [0x78, 0x9C] with chunkRem := 1, src := { bytes := [some 0x78, some 0x9C], hops := [some 0, some 1] } }
    let u := atHeader (rdr [0x78, 0x9C])
    s ≠ u ∧ s.forgetChunks = u.forgetChunks ∧ ∃ s' u', step s = .next s' ∧ step u = .next u' ∧
      s'.session.result ≠ 0x11 ∧ u'.session.result ≠ 0x11 :=
  ⟨by decide +kernel, by rfl, _, _, rfl, rfl, by decide, by decide⟩

/-- The incomplete set of V42-1, a complete one, and the largest alphabet. -/
theorem witness_BuildIsPrefixFree : ∀ ls ∈ [[0, 0, 1], [1, 2, 3, 3], fixedLitLens, [0, 15]],
    ls.length ≤ 288 ∧ (∀ b ∈ ls, b ≤ 15) ∧ kraftSum ls ≤ 2 ^ 15 := by decide +kernel

/-- V42-7's table: a code that comes next (both its chunk and its bits suffice), and bits that match none. -/
theorem witness_MatchDecodesTheNextCode :
    CodeTable [⟨1, 0, 0⟩, ⟨2, 1, 1⟩] ∧ (rdr [0x01]).Tidy ∧
    (⟨2, 1, 1⟩ ∈ ([⟨1, 0, 0⟩, ⟨2, 1, 1⟩] : List HuffEntry) ∧ (⟨2, 1, 1⟩ : HuffEntry).code <+: (rdr [0x01]).streamBits ∧
      (rdr [0x01]).WithinChunk 2) ∧
    (∀ e ∈ ([⟨1, 0, 0⟩, ⟨2, 1, 1⟩] : List HuffEntry), ¬e.code <+: (rdr [0x03]).streamBits ∧
      e.len.toNat ≤ (rdr [0x03]).streamBits.length ∧ (rdr [0x03]).WithinChunk e.len.toNat) := by
  refine ⟨⟨by decide, by decide, by decide, by decide⟩, ⟨by decide, by decide⟩, ⟨by decide, by decide, ?_⟩, ?_⟩
  · unfold Reader.WithinChunk; decide
  · unfold Reader.WithinChunk; decide

/-- The four clauses at the ends of CINFO's range. -/
theorem witness_ZlibHeaderIsChecked : (7 : BitVec 4).toNat ≤ 7 ∧ (0 : BitVec 4).toNat ≤ 7 ∧ 7 < (8 : BitVec 4).toNat ∧
    (9 : BitVec 4) ≠ 8 ∧ 7 < (15 : BitVec 4).toNat := by decide

theorem witness_StoredHeaderIsChecked : (14 : BitVec 16) = ~~~0xFFF1 ∧ (0 : BitVec 16) = ~~~0xFFFF ∧ (14 : BitVec 16) ≠ ~~~0xFFF0 := by decide

theorem witness_RawByteEntersTheWindow : (inStored dry).window.mem.wf = true ∧ 0 < (inStored dry).inflate.storedRem.toNat := by decide

/-- Lengths that keep the Kraft bound, lengths that exceed it (four symbols of length 1), and a failing read. -/
theorem witness_DynamicHeaderStartsTheLengthArray :
    (∃ r, (rdr [0x09, 0x02]).readLens ((0 : BitVec 4).toNat + 4) = .ok [1, 1, 0, 1] r) ∧
    (∃ r, (rdr [0x09, 0x00]).readLens ((0 : BitVec 4).toNat + 4) = .ok [1, 1, 0, 0] r) ∧
    kraftSum ((clLensOf [1, 1, 0, 0]).map BitVec.toNat) ≤ 2 ^ 15 ∧ 2 ^ 15 < kraftSum ((clLensOf [1, 1, 0, 1]).map BitVec.toNat) ∧
    ∃ r, (rdr [0x09]).readLens ((0 : BitVec 4).toNat + 4) = .raise .ioChunk r :=
  ⟨⟨_, rfl⟩, ⟨_, rfl⟩, by decide +kernel, by decide +kernel, _, rfl⟩

/-- The first cell and the last. -/
theorem witness_CodedLengthIsStored :
    ((inDyn 257 1 0 [] dry).dyn.lens.length = 320 ∧ (inDyn 257 1 0 [] dry).dyn.idx.toNat < 320) ∧
    ((inDyn 288 32 319 [] dry).dyn.lens.length = 320 ∧ (inDyn 288 32 319 [] dry).dyn.idx.toNat < 320) := by decide +kernel

/-- `idx` 0; a run that ends at the last of 258 lengths, one that ends past it; a read that fails. -/
theorem witness_RepeatCopiesThePreviousLength :
    ((inDyn 257 1 0 [] dry).dyn.lens.length = 320 ∧ (inDyn 257 1 0 [] dry).dyn.total ≤ 320 ∧ (inDyn 257 1 0 [] dry).dyn.idx = 0) ∧
    ((inDyn 257 1 255 [] dry).dyn.lens.length = 320 ∧ (inDyn 257 1 255 [] dry).dyn.idx ≠ 0 ∧
      (inDyn 257 1 255 [] dry).dyn.idx.toNat + (3 + 0) ≤ (inDyn 257 1 255 [] dry).dyn.total ∧
      (inDyn 257 1 255 [] dry).dyn.total < (inDyn 257 1 255 [] dry).dyn.idx.toNat + (3 + 1)) ∧
    (∃ r, (rdr [0]).readBits 2 = .ok 0 r) ∧ (∃ r, (rdr [1]).readBits 2 = .ok 1 r) ∧ ∃ r, dry.readBits 2 = .raise .ioChunk r :=
  ⟨by decide +kernel, by decide +kernel, ⟨_, rfl⟩, ⟨_, rfl⟩, _, rfl⟩

/-- Runs that end at the last of 258 lengths and past it, and a read that fails. -/
theorem witness_ZeroRunsFillWithZero :
    ((inDyn 257 1 255 [] dry).dyn.lens.length = 320 ∧ (inDyn 257 1 255 [] dry).dyn.total ≤ 320 ∧
      (inDyn 257 1 255 [] dry).dyn.idx.toNat + (3 + 0) ≤ (inDyn 257 1 255 [] dry).dyn.total ∧
      (inDyn 257 1 255 [] dry).dyn.total < (inDyn 257 1 255 [] dry).dyn.idx.toNat + (3 + 1)) ∧
    ((inDyn 257 1 120 [] dry).dyn.idx.toNat + (11 + 127) ≤ (inDyn 257 1 120 [] dry).dyn.total ∧
      (inDyn 257 1 121 [] dry).dyn.total < (inDyn 257 1 121 [] dry).dyn.idx.toNat + (11 + 127)) ∧
    (∃ r, (rdr [0]).readBits 3 = .ok 0 r) ∧ (∃ r, (rdr [1]).readBits 3 = .ok 1 r) ∧
    (∃ r, (rdr [0x7F]).readBits 7 = .ok 127 r) ∧ ∃ r, dry.readBits 7 = .raise .ioChunk r :=
  ⟨by decide +kernel, by decide +kernel, ⟨_, rfl⟩, ⟨_, rfl⟩, ⟨_, rfl⟩, _, rfl⟩

/-- The header has ended, with tables that can be built and with an over-subscribed literal set. -/
theorem witness_DynamicHeaderEndsWithTwoTables :
    (let s := inDyn 257 1 258 [1, 1] dry
     s.port.cmd = .row [] ∧ s.window.unread = 0 ∧ s.inflate.istate = .dynamic ∧ s.dyn.hdrRead = true ∧
       s.dyn.total ≤ s.dyn.idx.toNat ∧ s.dyn.hlit.toNat ≤ 288 ∧ s.dyn.hdist.toNat ≤ 32 ∧
       kraftSum ((s.dyn.lens.take s.dyn.hlit.toNat).map BitVec.toNat) ≤ 2 ^ 15 ∧
       kraftSum (((s.dyn.lens.drop s.dyn.hlit.toNat).take s.dyn.hdist.toNat).map BitVec.toNat) ≤ 2 ^ 15) ∧
    (let s := inDyn 257 1 258 [1, 1, 1] dry
     s.port.cmd = .row [] ∧ s.window.unread = 0 ∧ s.inflate.istate = .dynamic ∧ s.dyn.hdrRead = true ∧
       s.dyn.total ≤ s.dyn.idx.toNat ∧ 2 ^ 15 < kraftSum ((s.dyn.lens.take s.dyn.hlit.toNat).map BitVec.toNat)) := by
  decide +kernel

theorem witness_BlockEndAndStreamEnd : (inRow .blockEnd dry).port.cmd = .row [] ∧
    ([] : List Byte).length ≤ (inRow .blockEnd dry).scan.rowbytes.toNat ∧ (inRow .blockEnd dry).window.unread = 0 ∧
    (inRow .blockEnd dry).inflate.istate = .blockEnd ∧ (inRow .streamEnd dry).inflate.istate = .streamEnd := by decide

/-- One step along an edge of the graph, and a START. -/
theorem witness_InflateStateFollowsItsGraph :
    (∃ t, step (inRow .blockEnd dry) = .next t ∧ t.inflate.istate ≠ (inRow .blockEnd dry).inflate.istate) ∧
    ∃ t, step { inRow .blockEnd dry with port := { cmd := .waiting, cmds := [⟨1, ⟨0, 1, 0⟩⟩], resps := [] } } = .next t ∧
      t.inflate.istate = .begin :=
  ⟨⟨_, rfl, by decide⟩, _, rfl, rfl⟩

theorem witness_LiteralAndEndOfBlock : (inRow .huffman dry).window.mem.wf = true := by decide

/-- Extra bits that are read, and bits that are not there. -/
theorem witness_LengthSymbolsSetTheLength :
    (∃ r, (rdr [0xFF]).readBits 5 = .ok 31 r) ∧ (∃ r, dry.readBits 0 = .ok 0 r) ∧ ∃ r, dry.readBits 5 = .raise .ioChunk r :=
  ⟨⟨_, rfl⟩, ⟨_, rfl⟩, _, rfl⟩

/-- A distance equal to the history, a match of the whole window. -/
theorem witness_DistanceSymbolsCopyTheMatch :
    let s := matching (filled 8 [1, 2, 3]) 256 dry
    (∃ r, s.reader.readBits 0 = .ok 0 r) ∧ s.window.mem.wf = true ∧ s.window.wr.toNat < s.window.size ∧
    s.window.hist.toNat ≤ s.window.size ∧ s.window.unread = 0 ∧ 3 + 0 ≤ s.window.hist.toNat ∧ s.temps.mlen.toNat ≤ s.window.size :=
  ⟨⟨_, rfl⟩, by decide, by decide, by decide, by decide, by decide, by decide⟩

/-- A read that fails; a distance one past the history; a match one past the window. -/
theorem witness_MatchErrorsInOrder :
    (∃ r, dry.readBits 1 = .raise .ioChunk r) ∧ (∃ r, dry.readBits 0 = .ok 0 r) ∧
    (matching (filled 15 [0, 0]) 3 dry).window.hist.toNat < 3 + 0 ∧
    (1 + 0 ≤ (matching (filled 8 [0]) 257 dry).window.hist.toNat ∧
      (matching (filled 8 [0]) 257 dry).window.size < (matching (filled 8 [0]) 257 dry).temps.mlen.toNat) :=
  ⟨⟨_, rfl⟩, ⟨_, rfl⟩, by decide, by decide⟩

/-- A length symbol with the one-code tables, its distance symbol and no extra bits: the match that copies. -/
theorem witness_LengthThenDistanceIsOneMatch_copies :
    let s : State := { inRow .huffman (rdr [0x00]) with
      window := filled 8 [9]
      tables := { litTab := [⟨1, 0, 257⟩], litN := 1, distTab := [⟨1, 0, 0⟩], distN := 1, clTab := [], clN := 0 } }
    s.Expects .litLen ∧ ∃ r₁ r₂ r₃ r₄, s.reader.matchSymbol s.tables.lit = .ok 257 r₁ ∧ 257 ≤ (257 : BitVec 9).toNat ∧
      lengthRows[(257 : BitVec 9).toNat - 257]? = some (3, 0) ∧ r₁.readBits 0 = .ok 0 r₂ ∧
      r₂.matchSymbol s.tables.dist = .ok 0 r₃ ∧ distanceRows[(0 : BitVec 9).toNat]? = some (1, 0) ∧
      r₃.readBits 0 = .ok 0 r₄ ∧ 1 + 0 ≤ s.window.hist.toNat ∧ 3 + 0 ≤ s.window.size :=
  ⟨⟨⟨rfl, [], rfl, Nat.zero_le _⟩, rfl, rfl⟩, _, _, _, _, rfl, by decide, rfl, rfl, rfl, rfl, rfl, by decide, by decide⟩

/-- The same with an invalid distance symbol, with a distance too far, and with a match longer than the window. -/
theorem witness_LengthThenDistanceIsOneMatch_fails :
    (∃ r₁ r₂ r₃, (rdr [0x00]).matchSymbol [⟨1, 0, 285⟩] = .ok 285 r₁ ∧ lengthRows[(285 : BitVec 9).toNat - 257]? = some (258, 0) ∧
      r₁.readBits 0 = .ok 0 r₂ ∧ r₂.matchSymbol [⟨1, 0, 30⟩] = .ok 30 r₃ ∧ 30 ≤ (30 : BitVec 9).toNat) ∧
    (filled 8 []).hist.toNat < 1 + 0 ∧ (1 + 0 ≤ (filled 8 [9]).hist.toNat ∧ (filled 8 [9]).size < 258 + 0) ∧
    (∃ r₁ r₂, (rdr [0x00]).matchSymbol [⟨8, 0, 284⟩] = .ok 284 r₁ ∧ r₁.readBits 5 = .raise .ioChunk r₂) ∧
    (∃ r₁ r₂ r₃, (rdr [0x00]).matchSymbol [⟨8, 0, 257⟩] = .ok 257 r₁ ∧ r₁.readBits 0 = .ok 0 r₂ ∧
      r₂.matchSymbol [⟨1, 0, 0⟩] = .raise .ioChunk r₃) ∧
    ∃ r₁ r₂ r₃, (rdr [0x00]).matchSymbol [⟨7, 0, 257⟩] = .ok 257 r₁ ∧ r₁.matchSymbol [⟨1, 0, 4⟩] = .ok 4 r₂ ∧
      distanceRows[(4 : BitVec 9).toNat]? = some (5, 1) ∧ r₂.readBits 1 = .raise .ioChunk r₃ :=
  ⟨⟨_, _, _, rfl, rfl, rfl, rfl, by decide⟩, by decide, by decide, ⟨_, _, rfl, rfl⟩, ⟨_, _, _, rfl, rfl, rfl⟩,
    _, _, _, rfl, rfl, rfl, rfl⟩

theorem witness_PullTakesTheOldestByte : surplus.port.cmd = .row [] ∧ ([] : List Byte).length ≤ surplus.scan.rowbytes.toNat ∧
    surplus.window.unread ≠ 0 := by decide

theorem witness_FilterTypesReconstructTheRow : (rowState 8 [1, 2] [3]).scan.cur.wf = true ∧
    1 ≤ (rowState 8 [1, 2] [3]).scan.stride.toNat ∧ (rowState 8 [1, 2] [3]).scan.rowbytes.toNat ≤ 2040 := by decide

theorem witness_InvalidFilterTypeFails : 5 ≤ (5 : Byte).toNat ∧ (pulled 5).port.cmd = .row (5 :: [5, 6]) ∧
    [(5 : Byte), 6].length = (pulled 5).scan.rowbytes.toNat ∧ (pulled 5).scan.rowbytes.toNat ≤ 2040 ∧
    (pulled 5).scan.cur.wf = true := by decide

theorem witness_RowFromSurplus : surplus.Inv ∧ surplus.port.cmd = .row [] ∧
    surplus.scan.rowbytes.toNat + 1 ≤ surplus.window.unread.toNat ∧
    (surplus.window.mem.read surplus.window.rd.toNat).toNat ≤ 4 :=
  ⟨inv_surplus, by decide, by decide, by decide⟩

/-- A response of a waiting machine with a latched code, of a FINISH and of a ROW before the header. -/
theorem witness_CommandsReturnOnlyTheirCodes :
    ((failed ⟨3, .none⟩).Inv ∧ (failed ⟨3, .none⟩).port.cmd = .waiting ∧ ∃ t p, step (failed ⟨3, .none⟩) = .next t ∧
      t.port.resps = (failed ⟨3, .none⟩).port.resps ++ [p] ∧ p.result = 0x34) ∧
    ((finishing (rdr [1, 2, 3, 4])).Inv ∧ (finishing (rdr [1, 2, 3, 4])).port.cmd = .finish ∧
      ∃ t p, step (finishing (rdr [1, 2, 3, 4])) = .next t ∧ t.port.resps = (finishing (rdr [1, 2, 3, 4])).port.resps ++ [p]) ∧
    ((atHeader (rdr [0x78, 0xBB])).Inv ∧ (atHeader (rdr [0x78, 0xBB])).port.cmd = .row [] ∧
      ∃ t p, step (atHeader (rdr [0x78, 0xBB])) = .next t ∧
        t.port.resps = (atHeader (rdr [0x78, 0xBB])).port.resps ++ [p] ∧ p.result = 0x32) :=
  ⟨⟨inv_failed _, rfl, _, _, rfl, rfl, rfl⟩, ⟨inv_finishing, rfl, _, _, rfl, rfl⟩, inv_atHeader, rfl, _, _, rfl, rfl, rfl⟩

theorem witness_ResetState : 1 ≤ (1 : BitVec 4).toNat ∧ (8 : BitVec 4).toNat ≤ 8 := by decide

/-- Steps that read bits, from a tidy reader. -/
theorem witness_StepKeepsTheReaderTidy : (inRow .begin (rdr [0x63])).reader.Tidy ∧ ∃ t, step (inRow .begin (rdr [0x63])) = .next t :=
  ⟨⟨by decide, by decide⟩, _, rfl⟩

/-- A step that copies a match over a sound window. -/
theorem witness_StepKeepsTheWindowSound : (withTables 0 (matching (filled 15 [1]) 3 (rdr [0]))).WindowInv ∧
    ∃ t, step (withTables 0 (matching (filled 15 [1]) 3 (rdr [0]))) = .next t :=
  ⟨(inv_of_check (by decide +kernel) : (withTables 0 (matching (filled 15 [1]) 3 (rdr [0]))).Inv).window, _, rfl⟩

theorem witness_StepKeepsMemoriesAndCells : (withTables 5 (inRow .huffman (rdr [0]))).Inv ∧
    ∃ t, step (withTables 5 (inRow .huffman (rdr [0]))) = .next t :=
  ⟨inv_of_check (by decide +kernel), _, rfl⟩

theorem witness_StepKeepsRangesAndSession : (atHeader (rdr [0x78, 0xBB])).Inv ∧ ∃ t, step (atHeader (rdr [0x78, 0xBB])) = .next t :=
  ⟨inv_atHeader, _, rfl⟩

/-- The three outcomes, each in a state with the invariant. -/
theorem witness_OnlyTheHostAndOverSubscriptionStopTheMachine :
    (surplus.Inv ∧ ∃ t, step surplus = .next t) ∧
    ((opened ⟨0, .none⟩).Inv ∧ step (opened ⟨0, .none⟩) = .refused .reservedCommand) ∧
    ((inDyn 257 1 258 [1, 1, 1] dry).Inv ∧ refuses (step (inDyn 257 1 258 [1, 1, 1] dry)) .overSubscribed = true) :=
  ⟨⟨inv_surplus, _, rfl⟩, ⟨inv_opened _, rfl⟩, inv_of_check (by decide +kernel), by decide +kernel⟩

theorem witness_AHostThatKeepsTheProtocolIsNeverRefused :
    ((opened ⟨3, .none⟩).Inv ∧ (opened ⟨3, .none⟩).HostKeepsProtocol) ∧
    (1 ≤ (1 : BitVec 4).toNat ∧ (8 : BitVec 4).toNat ≤ 8 ∧
      (∀ p ∈ ([(6, 2), (2040, 1)] : List (BitVec 11 × Nat)), 1 ≤ p.1.toNat ∧ p.1.toNat ≤ 2040)) :=
  ⟨⟨inv_opened _, true, true, by decide, fun _ => .inr ⟨rfl, by decide, fun _ => rfl⟩⟩, by decide⟩

/-- A ROW, and a FINISH whose trailer is missing. -/
theorem witness_EveryCommandEnds : (surplus.Inv ∧ surplus.port.cmd ≠ .waiting) ∧
    ((finishing (rdr [1, 2, 3, 4])).Inv ∧ (finishing (rdr [1, 2, 3, 4])).port.cmd ≠ .waiting) :=
  ⟨⟨inv_surplus, by decide⟩, inv_finishing, by decide⟩

/-- A step that reads, and the five kinds that do not. -/
theorem witness_SourceOnlyMovesForward :
    (∃ t, step (atHeader (rdr [0x78, 0x9C])) = .next t) ∧
    (∃ t, step (opened ⟨3, .none⟩) = .next t ∧ (opened ⟨3, .none⟩).port.cmd = .waiting) ∧
    (∃ t, step surplus = .next t ∧ surplus.window.unread ≠ 0 ∧ surplus.port.cmd ≠ .finish) ∧
    (∃ t, step (pulled 1) = .next t ∧ (pulled 1).Expects .filt) ∧
    ((inDyn 257 1 258 [1, 1] dry).HeaderComplete ∧ gives (step (inDyn 257 1 258 [1, 1] dry)) (fun _ => true) = true) ∧
    ∃ t, step (inRow .blockEnd dry) = .next t ∧ (inRow .blockEnd dry).Pulling ∧ (inRow .blockEnd dry).inflate.istate = .blockEnd :=
  ⟨⟨_, rfl⟩, ⟨_, rfl, rfl⟩, ⟨_, rfl, by decide, by decide⟩, ⟨_, rfl, _, rfl, by decide⟩,
    ⟨⟨⟨rfl, [], rfl, Nat.zero_le _⟩, rfl, rfl, by decide⟩, by decide +kernel⟩, _, rfl, pulling_inRow _ _, rfl⟩

/-- A step of each writer: START, PASS_BEGIN, the filter element, ZLIB, a block header, ABORT, the trailer. -/
theorem witness_RegistersHaveTheirWriters_commands :
    gives (step { opened ⟨1, ⟨7, 8, 0⟩⟩ with inflate := (inStored dry).inflate, window := filled 15 [1] }) (fun t =>
      decide (t.scan.stride ≠ 1 ∧ t.scan.passValid = false ∧ t.inflate.hdrDone = false ∧ t.inflate.storedHdr = false ∧
        t.inflate.storedRem ≠ 2 ∧ t.reader.chunkRem ≠ 0 ∧ t.window.wr ≠ 1 ∧ t.window.hist ≠ 1)) = true ∧
    gives (step { opened ⟨2, ⟨0, 0, 2040⟩⟩ with scan := State.reset.scan }) (fun t =>
      decide (t.scan.rowbytes ≠ 1 ∧ t.scan.passValid = true)) = true ∧
    gives (step (failed ⟨5, .none⟩)) (fun t => decide (t.session.sstate = .idle ∧ t.session.result ≠ 0x34)) = true ∧
    gives (step (finishing (rdr [1, 2, 3, 4]))) (fun t => decide (t.session.sstate = .done ∧ t.reader.chunkRem ≠ 4)) = true ∧
    gives (step (pulled 1)) (fun t => decide (t.scan.ftype ≠ 0 ∧ t.scan.bufA ≠ [] ∧ t.scan.curSel = true)) = true ∧
    gives (step surplus) (fun t => decide (t.window.rd ≠ 0 ∧ t.window.unread ≠ 3)) = true := by decide

/-- And of each stream element that writes a register: headers, raw bytes, symbols, tables. -/
theorem witness_RegistersHaveTheirWriters_elements :
    gives (step (atHeader (rdr [0x08, 0x1D]))) (fun t => decide (t.window.wlog ≠ 15 ∧ t.inflate.hdrDone = true)) = true ∧
    gives (step (inRow .begin (rdr [0x0B]))) (fun t =>
      decide (t.inflate.bfinal = true ∧ t.inflate.istate ≠ .begin ∧ t.reader.bitbuf ≠ 0 ∧ t.reader.bitcnt ≠ 0)) = true ∧
    gives (step (inRow .stored (rdr [0x0E, 0x00, 0xF1, 0xFF]))) (fun t =>
      decide (t.inflate.storedHdr = true ∧ t.inflate.storedRem ≠ 0)) = true ∧
    gives (step (inStored (rdr [0xAA]))) (fun t =>
      decide (t.inflate.storedRem ≠ 2 ∧ t.window.mem ≠ [] ∧ t.window.wr ≠ 0 ∧ t.window.hist ≠ 0 ∧ t.window.unread ≠ 0)) = true ∧
    gives (step (inRow .fixed dry)) (fun t => decide (t.tables.litN ≠ 0 ∧ t.tables.distTab ≠ [])) = true ∧
    gives (step (inDyn 257 1 258 [1, 1] dry)) (fun t => decide (t.tables.litN ≠ 0 ∧ t.tables.litTab ≠ [])) = true ∧
    gives (step (inRow .dynamic (rdr [0x00, 0x40, 0x02, 0x00]))) (fun t => decide (t.tables.clN ≠ 0 ∧ t.tables.clTab ≠ [])) = true := by
  decide +kernel

/-- Two windows that differ in a cell no byte of the session stands in. -/
theorem witness_StaleWindowCellsHaveNoEffect :
    let s := surplus
    let u : State := { surplus with window := { surplus.window with mem := [(0, 1), (1, 7), (2, 9), (32767, 5)] } }
    s.Inv ∧ u = { s with window := u.window } ∧ s.window.Alike u.window ∧ s ≠ u ∧ u.window.mem.wf = true ∧ ∃ t, step s = .next t := by
  refine ⟨inv_surplus, rfl, ⟨rfl, fun k h1 h3 => ?_⟩, by decide +kernel, by decide, _, rfl⟩
  have h3 : k ≤ 3 := h3
  obtain rfl | rfl | rfl : k = 1 ∨ k = 2 ∨ k = 3 := by omega
  all_goals decide +kernel

/-- The ends of both ranges. -/
theorem witness_MatchNotationNamesTheMatch : 3 ≤ 258 ∧ 258 ≤ 258 ∧ 1 ≤ 32768 ∧
    distanceRows[(29 : Nat)]? = some (24577, 13) ∧ 24577 ≤ 32768 := by decide

end Sys2Proof.Tests
end

section
/-!
The reader, once more: how far an element of each format lets it move. An element of whole bytes leaves
the buffered bits alone, and a chunk length is loaded only with an answer of the source (R162 to R165).
-/

namespace Sys2Proof

/-- Formats whose elements are read bit by bit, or that drop the buffered bits (R163, R165). -/
def Format.readsBits : Format → Bool
  | .bhdr | .storedHdr | .dynHdr | .clSym | .litLen | .dist => true
  | .hostCmd | .zhdr | .raw | .fixed | .filt | .ztrl => false

/-- Formats whose elements may ask the source for a byte. -/
def Format.readsSource : Format → Bool
  | .zhdr | .bhdr | .storedHdr | .raw | .dynHdr | .clSym | .litLen | .dist | .ztrl => true
  | .hostCmd | .fixed | .filt => false

theorem Format.readsSource_of_readsBits {f : Format} (h : f.readsBits = true) : f.readsSource = true := by
  revert h
  cases f <;> decide

end Sys2Proof

namespace Sys2Proof.Machine

/-- Only the running command's stream is read from: never by a waiting machine, and in a ROW only to
refill a drained window (R330). -/
theorem State.Expects.reading {s : State} {f : Format} (h : s.Expects f) (hf : f.readsSource = true) :
    s.Pulling ∨ s.port.cmd = .finish := by
  cases f
  case ztrl => exact .inr h
  case hostCmd | fixed | filt => cases hf
  all_goals exact .inl h.1

/-! ## Advancing -/

/-- The answers of the source are used up from the front, and `chunk_rem` changes only with them. -/
structure Reader.Advances (r t : Reader) : Prop where
  bytes : t.src.bytes <:+ r.src.bytes
  hops : t.src.hops <:+ r.src.hops
  chunk : t.src = r.src → t.chunkRem = r.chunkRem

theorem Reader.Advances.refl (r : Reader) : r.Advances r := ⟨List.suffix_rfl, List.suffix_rfl, fun _ => rfl⟩

/-- Two sources used up to each other are the same. -/
theorem Source.eq_of_suffix {a b : Source} (h₁ : a.bytes <:+ b.bytes) (h₂ : b.bytes <:+ a.bytes)
    (h₃ : a.hops <:+ b.hops) (h₄ : b.hops <:+ a.hops) : a = b := by
  have hb := h₁.eq_of_length_le h₂.length_le
  have hh := h₃.eq_of_length_le h₄.length_le
  cases a
  cases b
  exact congrArg₂ Source.mk hb hh

theorem Reader.Advances.trans (r t u : Reader) (h : r.Advances t) (g : t.Advances u) : r.Advances u := by
  refine ⟨g.bytes.trans h.bytes, g.hops.trans h.hops, fun e => ?_⟩
  have ht : t.src = r.src := Source.eq_of_suffix h.bytes (e ▸ g.bytes) h.hops (e ▸ g.hops)
  rw [g.chunk (e.trans ht.symm), h.chunk ht]

/-- The buffered bits and the accumulator may be written freely. -/
theorem Reader.Advances.of_kept {r t : Reader} (hs : t.src = r.src) (hc : t.chunkRem = r.chunkRem) : r.Advances t :=
  ⟨hs ▸ List.suffix_rfl, hs ▸ List.suffix_rfl, fun _ => hc⟩

/-- A hop either fails, and leaves `chunk_rem` alone, or uses up the answer it loads. -/
theorem Reader.advances_hop {r : Reader} {hs : List (Option (BitVec 32))} (h : hs <:+ r.src.hops) :
    r.Advances (r.hop hs).out := by
  have hf := r.fetches_hop hs h
  refine ⟨hf.bytes, hf.hops, fun e => ?_⟩
  clear hf
  induction hs with
  | nil => rfl
  | cons a hs ih =>
    have ht : hs <:+ r.src.hops := (List.suffix_cons a hs).trans h
    cases a with
    | none => rfl
    | some n =>
      unfold Reader.hop at e ⊢
      split at e
      · rw [if_pos ‹_›]
        exact ih ht e
      · have hl := h.length_le
        have hl' : hs.length = r.src.hops.length := congrArg (fun x => x.hops.length) e
        simp only [List.length_cons] at hl
        omega

theorem Reader.advances_srcByte (r : Reader) : r.Advances r.srcByte.out := by
  have hf := r.fetches_srcByte
  refine ⟨hf.bytes, hf.hops, fun e => ?_⟩
  clear hf
  unfold Reader.srcByte at e ⊢
  split at e
  · rfl
  · rfl
  · rename_i b bs hb
    have : bs = r.src.bytes := congrArg Source.bytes e
    rw [hb] at this
    exact absurd this.symm (List.cons_ne_self _ _)

theorem Reader.advances_fetchByte (r : Reader) : r.Advances r.fetchByte.out := by
  unfold Reader.fetchByte
  split
  · exact Eff.out_bind Reader.Advances Reader.Advances.trans (Reader.advances_hop List.suffix_rfl)
      fun _ t => t.advances_srcByte
  · exact r.advances_srcByte

theorem Reader.advances_readBit (r : Reader) : r.Advances r.readBit.out := by
  unfold Reader.readBit
  split
  · exact Eff.out_bind Reader.Advances Reader.Advances.trans r.advances_fetchByte fun _ t => .of_kept rfl rfl
  · exact .of_kept rfl rfl

theorem Reader.advances_readBits (n : Nat) (r : Reader) : r.Advances (r.readBits n).out := by
  induction n generalizing r with
  | zero => exact .refl r
  | succ n ih =>
    refine Eff.out_bind Reader.Advances Reader.Advances.trans r.advances_readBit fun b t => ?_
    exact Eff.out_bind Reader.Advances Reader.Advances.trans (ih t) fun v u => .refl u

theorem Reader.advances_readBytes (n : Nat) (r : Reader) : r.Advances (r.readBytes n).out := by
  induction n generalizing r with
  | zero => exact .refl r
  | succ n ih =>
    refine Eff.out_bind Reader.Advances Reader.Advances.trans r.advances_fetchByte fun b t => ?_
    exact Eff.out_bind Reader.Advances Reader.Advances.trans (ih t) fun v u => .refl u

theorem Reader.advances_readWord (n : Nat) (r : Reader) : r.Advances (r.readWord n).out :=
  Eff.out_bind Reader.Advances Reader.Advances.trans (r.advances_readBytes n) fun _ t => .refl t

theorem Reader.advances_readLens (n : Nat) (r : Reader) : r.Advances (r.readLens n).out := by
  induction n generalizing r with
  | zero => exact .refl r
  | succ n ih =>
    refine Eff.out_bind Reader.Advances Reader.Advances.trans (r.advances_readBits 3) fun b t => ?_
    exact Eff.out_bind Reader.Advances Reader.Advances.trans (ih t) fun v u => .refl u

theorem Reader.advances_accumulate (k : Nat) (r : Reader) : r.Advances (r.accumulate k).out := by
  induction k generalizing r with
  | zero => exact .refl r
  | succ k ih =>
    refine Eff.out_bind Reader.Advances Reader.Advances.trans r.advances_readBit fun b t => ?_
    let t' : Reader := { t with mv := t.mv ||| (BitVec.ofNat 15 b.toNat <<< t.mhave.toNat), mhave := t.mhave + 1 }
    exact Reader.Advances.trans t t' _ (.of_kept rfl rfl) (ih t')

theorem Reader.advances_scanTable (es : List HuffEntry) (r : Reader) : r.Advances (r.scanTable es).out := by
  induction es generalizing r with
  | nil => exact .refl r
  | cons e es ih =>
    refine Eff.out_bind Reader.Advances Reader.Advances.trans (r.advances_accumulate _) fun _ t => ?_
    split
    · exact .refl t
    · exact ih t

theorem Reader.advances_matchSymbol (es : List HuffEntry) (r : Reader) : r.Advances (r.matchSymbol es).out :=
  Reader.Advances.trans r { r with mv := 0, mhave := 0 } _ (.of_kept rfl rfl) (Reader.advances_scanTable es _)

theorem Reader.advances_readSymbol (es : List HuffEntry) (r : Reader) : r.Advances (r.readSymbol es).out :=
  Eff.out_bind Reader.Advances Reader.Advances.trans (r.advances_matchSymbol es) fun _ t => .refl t

/-- A word of whole bytes leaves the buffered bits alone (R164). -/
theorem Reader.fetches_readWord (n : Nat) (r : Reader) : r.Fetches (r.readWord n).out :=
  Eff.out_bind Reader.Fetches Reader.Fetches.trans (r.fetches_readBytes n) fun _ t => .refl t

theorem Reader.readLens_raise {n : Nat} {r t : Reader} {c : ErrCode} (h : r.readLens n = .raise c t) :
    c = .io ∨ c = .ioChunk := by
  induction n generalizing r with
  | zero => cases h
  | succ n ih =>
    rcases Eff.bind_eq_raise h with h | ⟨_, _, _, h⟩
    · exact Reader.readBits_raise h
    · rcases Eff.bind_eq_raise h with h | ⟨_, _, _, h⟩
      · exact ih h
      · cases h

/-! ## Reading as a format does -/

/-- How the reader moves while an element of the format is read and carried out. -/
structure Reader.Reads (f : Format) (r t : Reader) : Prop extends Reader.Advances r t where
  bits : f.readsBits = false → t.bitbuf = r.bitbuf ∧ t.bitcnt = r.bitcnt
  source : f.readsSource = false → t.src = r.src

theorem Reader.Reads.refl (f : Format) (r : Reader) : r.Reads f r := ⟨.refl r, fun _ => ⟨rfl, rfl⟩, fun _ => rfl⟩

theorem Reader.Reads.trans {f : Format} {r t u : Reader} (h : r.Reads f t) (g : t.Reads f u) : r.Reads f u := by
  refine ⟨.trans _ _ _ h.toAdvances g.toAdvances, fun hf => ?_, fun hf => (g.source hf).trans (h.source hf)⟩
  obtain ⟨hb, hc⟩ := h.bits hf
  obtain ⟨gb, gc⟩ := g.bits hf
  exact ⟨gb.trans hb, gc.trans hc⟩

/-- An element read bit by bit may do whatever an advance does. -/
theorem Reader.Advances.reads {f : Format} {r t : Reader} (h : r.Advances t) (hf : f.readsBits = true) : r.Reads f t := by
  refine ⟨h, fun hb => ?_, fun hs => ?_⟩
  · rw [hf] at hb
    cases hb
  · rw [Format.readsSource_of_readsBits hf] at hs
    cases hs

/-- A word of whole bytes. -/
theorem Reader.reads_readWord {f : Format} (n : Nat) (r : Reader) (hf : f.readsSource = true) :
    r.Reads f (r.readWord n).out := by
  refine ⟨r.advances_readWord n, fun _ => ⟨(r.fetches_readWord n).bitbuf, (r.fetches_readWord n).bitcnt⟩, fun hs => ?_⟩
  rw [hf] at hs
  cases hs

/-- What a fetch does to the reader: it moves as the format of the element read lets it, or, where the
step carries out no element, as an expected format does or not at all. -/
def Fetched.ReadsFrom (s : State) : Fetched → Prop
  | .instr i u => s.reader.Reads (encode i).fmt u.reader
  | .done (.next t) => t.reader = s.reader ∨ ∃ f, s.Expects f ∧ s.reader.Reads f t.reader
  | .done (.fault _) => True
  | .done (.refused _) => True

theorem decodeAt_readsFrom {e : Element} {s u : State} (hx : s.Expects e.fmt) (hr : s.reader.Reads e.fmt u.reader) :
    (decodeAt e u).ReadsFrom s := by
  cases h : decodeAt e u with
  | instr i v =>
    obtain ⟨hd, rfl⟩ := decodeAt_instr h
    show s.reader.Reads (encode i).fmt v.reader
    rw [decode_fmt hd]
    exact hr
  | done o =>
    obtain ⟨d, _, ⟨_, rfl⟩ | ⟨_, rfl⟩ | ⟨_, rfl⟩⟩ := decodeAt_done h
    · exact .inr ⟨_, hx, hr⟩
    · exact .inr ⟨_, hx, hr⟩
    · trivial

theorem fetchWord_readsFrom {f : Format} {e : Eff Reader Nat} {s : State} (hx : s.Expects f)
    (hr : s.reader.Reads f e.out) : (fetchWord f e s).ReadsFrom s := by
  cases e with
  | ok w r => exact decodeAt_readsFrom hx hr
  | raise c r => exact .inr ⟨f, hx, hr⟩

theorem fetchInflate_readsFrom {s : State} (hp : s.Pulling) : (fetchInflate s).ReadsFrom s := by
  unfold fetchInflate
  split
  case h_1 hi =>
    split
    case isTrue hd => exact fetchWord_readsFrom ⟨hp, hi, hd⟩ ((s.reader.advances_readBits 3).reads rfl)
    case isFalse hd => exact fetchWord_readsFrom ⟨hp, hi, by simpa using hd⟩ (s.reader.reads_readWord 2 rfl)
  case h_2 hi =>
    split
    case isTrue hd => exact fetchWord_readsFrom ⟨hp, hi, hd⟩ (s.reader.reads_readWord 1 rfl)
    case isFalse hd =>
      have ha : s.reader.Advances s.reader.alignByte := .of_kept rfl rfl
      exact fetchWord_readsFrom ⟨hp, hi, by simpa using hd⟩
        (Reader.Advances.reads (.trans _ _ _ ha (s.reader.alignByte.advances_readWord 4)) rfl)
  case h_3 hi => exact .refl _ _
  case h_4 hi =>
    split
    case isTrue hd =>
      split
      case isTrue ht => exact fetchWord_readsFrom ⟨hp, hi, hd, ht⟩ ((s.reader.advances_readSymbol _).reads rfl)
      case isFalse ht =>
        unfold finishDyn
        cases h : loadTables s.dyn.litLens s.dyn.distLens (s.setDyn { s.dyn with hdrRead := false }) with
        | next t =>
          left
          rw [(loadTables_next h).1]
          rfl
        | fault r => trivial
        | refused r => trivial
    case isFalse hd => exact fetchWord_readsFrom ⟨hp, hi, by simpa using hd⟩ ((s.reader.advances_readBits 14).reads rfl)
  case h_5 hi =>
    split
    case isTrue hd => exact fetchWord_readsFrom ⟨hp, hi, hd⟩ ((s.reader.advances_readSymbol _).reads rfl)
    case isFalse hd =>
      have hx : s.Expects .litLen := ⟨hp, hi, by simpa using hd⟩
      have hm := s.reader.advances_matchSymbol s.tables.lit
      unfold fetchLitLen
      split
      case h_1 v r he =>
        rw [he] at hm
        exact decodeAt_readsFrom hx (hm.reads rfl)
      case h_2 c r he =>
        rw [he] at hm
        exact .inr ⟨_, hx, hm.reads rfl⟩
  case h_6 hi => exact .inl rfl
  case h_7 hi => exact .inl rfl

theorem fetch_readsFrom (s : State) : (fetch s).ReadsFrom s := by
  unfold fetch
  split
  case h_1 hc =>
    split
    · exact .inl rfl
    · exact .refl _ _
  case h_2 hc => exact fetchWord_readsFrom hc (s.reader.reads_readWord 4 rfl)
  case h_3 d hc =>
    split
    case isTrue hd =>
      unfold fetchFilter
      split
      · trivial
      · split
        · exact decodeAt_readsFrom ⟨_, hc, hd⟩ (.refl _ _)
        · trivial
    case isFalse hd =>
      split
      case isTrue hu => exact fetchInflate_readsFrom ⟨hu, d, hc, by omega⟩
      case isFalse hu => exact .inl rfl

end Sys2Proof.Machine
end

section
/-!
One step, inverted: every next state a meaning can answer (`exec_effect`), every next state a step without
an element can answer (`bare_quiet`), and that a step is one or the other (`step_next`). Each statement
about all steps is a case split over these.
-/

namespace Sys2Proof.Machine

/-- What START leaves, before its response (R142). -/
def State.started (c : BitVec 32) (st : BitVec 4) (s : State) : State :=
  { s with
    session := { sstate := .active, result := 0x00 }
    reader := s.reader.started c
    scan := { s.scan with stride := st, passValid := false, curSel := false }
    window := s.window.started
    inflate := Inflate.started
    tables := s.tables.started
    dyn := { s.dyn with hdrRead := false }
    temps := { s.temps with lenPend := false } }

/-- What storing the two real tables leaves (R208, R221). -/
def State.withTables (lits dists : List Nat) (s : State) : State :=
  (s.setTables ((s.tables.setLit (buildTable lits)).setDist (buildTable dists))).setInflate (s.inflate.goto .huffman)

/-- The next states of an element that goes on, by the element. -/
inductive Effect (s : State) : Instr → State → Prop where
  | start (c : BitVec 32) (st : BitVec 4) (hst : 1 ≤ st.toNat ∧ st.toNat ≤ Config.strideMax) :
      Effect s (.start c st) ((s.started c st).respond none)
  | latched (i : Instr) (hi : (encode i).fmt = .hostCmd) (hs : s.session.sstate = .failed) : Effect s i (s.respond none)
  | passBegin (n : BitVec 11) (hn : 1 ≤ n.toNat ∧ n.toNat ≤ Config.rowbytesMax) :
      Effect s (.passBegin n) ((s.setScan (s.scan.beginPass n)).respond none)
  | row (hs : s.session.sstate = .active) : Effect s .row (s.setPort { s.port with cmd := .row [] })
  | finish (hs : s.session.sstate = .active) : Effect s .finish (s.setPort { s.port with cmd := .finish })
  | abort : Effect s .abort ((s.setSession { sstate := .idle, result := 0x00 }).respond none)
  | ztrl (a : BitVec 32) : Effect s (.ztrl a) ((s.setSession { s.session with sstate := .done }).respond none)
  | zlib (a b c d e) (hb : b.toNat ≤ 7) :
      Effect s (.zlib a b c d e) ((s.setWindow { s.window with wlog := wlogOf b }).setInflate s.inflate.headerDone)
  | blockStored (f : Bool) : Effect s (.blockStored f) (s.setInflate (s.inflate.final f).openStored)
  | blockFixed (f : Bool) : Effect s (.blockFixed f) (s.setInflate ((s.inflate.final f).goto .fixed))
  | blockDynamic (f : Bool) :
      Effect s (.blockDynamic f)
        ((s.setInflate ((s.inflate.final f).goto .dynamic)).setDyn { s.dyn with hdrRead := false })
  | blockReserved (f : Bool) : Effect s (.blockReserved f) ((s.setInflate (s.inflate.final f)).raise .blockType)
  | storedHdr (a b : BitVec 16) : Effect s (.storedHdr a b) (s.setInflate (s.inflate.storedLen a))
  | raw (b : Byte) : Effect s (.raw b) ((s.setWindow (s.window.put b)).setInflate s.inflate.storedByte)
  | fixed (ls ds : List Nat) (hl : ls = fixedLitLens) (hd : ds = fixedDistLens) : Effect s .fixed (s.withTables ls ds)
  | dyn (a b c) (vs : List Nat) (r : Reader) (hr : s.reader.Advances r) :
      Effect s (.dyn a b c)
        (((s.setReader r).setDyn { s.dyn.counts a b c with clLens := clLensOf vs, idx := 0, hdrRead := true }).setTables
          (s.tables.setCl (buildTable ((clLensOf vs).map BitVec.toNat))))
  | dynFails (a b c) (r : Reader) (e : ErrCode) (hr : s.reader.Advances r) (he : e ≠ .noMem) :
      Effect s (.dyn a b c) (((s.setDyn (s.dyn.counts a b c)).setReader r).raise e)
  | lengths (i : Instr) (n : Nat) (v : BitVec 4) (r : Reader) (hi : (encode i).fmt = .clSym) (hr : s.reader.Advances r)
      (hn : s.dyn.idx.toNat + n ≤ Config.nlensMax) : Effect s i ((s.setReader r).setDyn (s.dyn.fill n v))
  | lit (b : Byte) : Effect s (.lit b) (s.setWindow (s.window.put b))
  | eob : Effect s .eob (s.setInflate (s.inflate.goto .blockEnd))
  | length (i : Instr) (n : BitVec 9) (r : Reader) (hi : (encode i).fmt = .litLen) (hr : s.reader.Advances r)
      (hn : 3 ≤ n.toNat ∧ n.toNat ≤ Config.matchMax) :
      Effect s i ((s.setReader r).setTemps { s.temps with mlen := n, lenPend := true })
  | copy (i : Instr) (x : BitVec 16) (r : Reader) (hi : (encode i).fmt = .dist) (hr : s.reader.Advances r)
      (hn : s.temps.mlen.toNat ≤ s.window.size) :
      Effect s i (((s.setReader r).setWindow (s.window.copy s.temps.mlen.toNat x.toNat)).setTemps
        { s.temps with mdist := x, lenPend := false })
  | copyFails (i : Instr) (x : BitVec 16) (r : Reader) (e : ErrCode) (hi : (encode i).fmt = .dist)
      (hr : s.reader.Advances r) (he : e ≠ .noMem) :
      Effect s i (((s.setReader r).setTemps { s.temps with mdist := x }).raise e)
  | filter (i : Instr) (p : Predictor) (hi : (encode i).fmt = .filt) (hf : s.scan.rowbytes.toNat ≤ Config.rowbytesMax) :
      Effect s i ((s.setScan (s.scan.setCur (s.scan.corrected p)).swap).respond
        (some ((s.scan.corrected p).readAll 0 s.scan.rowbytes.toNat)))
  | fails (i : Instr) (r : Reader) (e : ErrCode) (hi : (encode i).fmt ≠ .hostCmd)
      (hr : s.reader.Reads (encode i).fmt r) (he : e ≠ .noMem) : Effect s i ((s.setReader r).raise e)

/-! ## The meanings -/

/-- An error that leaves the reader where the element's word ended. -/
theorem Effect.of_raise {s t : State} {i : Instr} {e : ErrCode} (hi : (encode i).fmt ≠ .hostCmd) (he : e ≠ .noMem)
    (h : raiseErr e s = .next t) : Effect s i t := by
  obtain rfl := Host.Outcome.next.inj h
  exact .fails i s.reader e hi (.refl _ _) he

/-- An error of the reader inside a meaning that reads bits. -/
theorem Effect.of_readBits_raise {s : State} {i : Instr} {n : Nat} {r : Reader} {c : ErrCode}
    (hi : (encode i).fmt.readsBits = true) (h : s.reader.readBits n = .raise c r) :
    Effect s i ((s.setReader r).raise c) := by
  have hr := s.reader.advances_readBits n
  rw [h] at hr
  refine .fails i r c (fun e => ?_) (hr.reads hi) ?_
  · rw [e] at hi
    cases hi
  · rcases Reader.readBits_raise h with rfl | rfl <;> decide

theorem Reader.advances_of_readBits {r t : Reader} {n v : Nat} (h : r.readBits n = .ok v t) : r.Advances t := by
  have hr := r.advances_readBits n
  rwa [h] at hr

theorem execStart_next {c : BitVec 32} {st : BitVec 4} {s t : State} (h : execStart c st s = .next t) :
    Effect s (.start c st) t := by
  unfold execStart at h
  split at h
  · cases h
  · obtain rfl := Host.Outcome.next.inj h
    exact .start c st (by omega)

theorem execPassBegin_next {n : BitVec 11} {s t : State} (h : execPassBegin n s = .next t) : Effect s (.passBegin n) t := by
  rcases State.ifLegal_next h with ⟨_, h⟩ | ⟨hs, rfl⟩
  · split at h
    · cases h
    · obtain rfl := Host.Outcome.next.inj h
      exact .passBegin n (by omega)
  · exact .latched _ rfl hs

theorem execRow_next {s t : State} (h : execRow s = .next t) : Effect s .row t := by
  rcases State.ifLegal_next h with ⟨hs, h⟩ | ⟨hs, rfl⟩
  · split at h
    · obtain rfl := Host.Outcome.next.inj h
      exact .row hs
    · cases h
  · exact .latched _ rfl hs

theorem execFinish_next {s t : State} (h : execFinish s = .next t) : Effect s .finish t := by
  rcases State.ifLegal_next h with ⟨hs, h⟩ | ⟨hs, rfl⟩
  · obtain rfl := Host.Outcome.next.inj h
    exact .finish hs
  · exact .latched _ rfl hs

theorem execZlib_next {a b c d e} {s t : State} (h : execZlib a b c d e s = .next t) : Effect s (.zlib a b c d e) t := by
  unfold execZlib at h
  split at h
  · exact .of_raise nofun (by decide) h
  · split at h
    · exact .of_raise nofun (by decide) h
    · split at h
      · exact .of_raise nofun (by decide) h
      · obtain rfl := Host.Outcome.next.inj h
        exact .zlib a b c d e (by omega)

theorem execStoredHdr_next {a b : BitVec 16} {s t : State} (h : execStoredHdr a b s = .next t) :
    Effect s (.storedHdr a b) t := by
  unfold execStoredHdr at h
  split at h
  · exact .of_raise nofun (by decide) h
  · obtain rfl := Host.Outcome.next.inj h
    exact .storedHdr a b

theorem execDyn_next {a b c} {s t : State} (h : execDyn a b c s = .next t) : Effect s (.dyn a b c) t := by
  have hr := s.reader.advances_readLens (hclenOf c).toNat
  rcases State.andThen_next h with ⟨vs, r, he, h⟩ | ⟨e, r, he, rfl⟩
  · rw [he] at hr
    split at h
    · cases h
    · rename_i tl hb
      obtain ⟨rfl, _⟩ := build_some hb
      obtain rfl := Host.Outcome.next.inj h
      exact .dyn a b c vs r hr
  · rw [he] at hr
    exact .dynFails a b c r e hr (by rcases Reader.readLens_raise he with rfl | rfl <;> decide)

theorem repeatLens_effect {i : Instr} {n : Nat} {v : BitVec 4} {r : Reader} {s t : State} (hi : (encode i).fmt = .clSym)
    (hr : s.reader.Advances r) (h : repeatLens n v (s.setReader r) = .next t) : Effect s i t := by
  rcases repeatLens_next h with ⟨_, rfl⟩ | ⟨_, hn, rfl⟩
  · exact .fails i r _ (by rw [hi]; decide) (hr.reads (by rw [hi]; rfl)) (by decide)
  · exact .lengths i n v r hi hr hn

/-- The three repeats have one shape: extra bits, then the run. -/
theorem withBits_repeatLens_next {i : Instr} {k : Nat} {n : Nat → Nat} {v : State → BitVec 4} {s t : State}
    (hi : (encode i).fmt = .clSym) (h : (s.withBits k fun x s => repeatLens (n x) (v s) s) = .next t) : Effect s i t := by
  rcases State.andThen_next h with ⟨x, r, he, h⟩ | ⟨c, r, he, rfl⟩
  · exact repeatLens_effect hi (Reader.advances_of_readBits he) h
  · exact .of_readBits_raise (by rw [hi]; rfl) he

theorem execClRep_next {s t : State} (h : execClRep s = .next t) : Effect s .clRep t := by
  unfold execClRep at h
  split at h
  · exact .of_raise nofun (by decide) h
  · exact withBits_repeatLens_next rfl h

theorem lengthSymbol_effect {i : Instr} {base ext : Nat} {s t : State} (hi : lengthParams i = some (base, ext))
    (h : lengthSymbol base ext s = .next t) : Effect s i t := by
  obtain ⟨_, hf, hge, hle⟩ := exec_lengthParams s hi
  rcases lengthSymbol_next h with ⟨x, r, he, rfl⟩ | ⟨c, r, he, rfl⟩
  · have hx := Reader.readBits_lt he
    refine .length i _ r hf (Reader.advances_of_readBits he) ?_
    have hm : Config.matchMax = 258 := rfl
    rw [lengthOf_toNat (by omega)]
    omega
  · exact .of_readBits_raise (by rw [hf]; rfl) he

theorem distSymbol_effect {i : Instr} {base ext : Nat} {s t : State} (hi : distanceParams i = some (base, ext))
    (h : distSymbol base ext s = .next t) : Effect s i t := by
  obtain ⟨_, hf, _, _⟩ := exec_distanceParams s hi
  rcases distSymbol_next h with ⟨x, r, he, h⟩ | ⟨c, r, he, rfl⟩
  · have hr := Reader.advances_of_readBits he
    rcases copyMatch_next h with ⟨_, rfl⟩ | ⟨_, _, rfl⟩ | ⟨_, hn, rfl⟩
    · exact .copyFails i _ r _ hf hr (by decide)
    · exact .copyFails i _ r _ hf hr (by decide)
    · exact .copy i _ r hf hr hn
  · exact .of_readBits_raise (by rw [hf]; rfl) he

/-- Every next state a meaning can answer. -/
theorem exec_effect {i : Instr} {s t : State} (h : exec i s = .next t) : Effect s i t := by
  have hs := exec_shape h
  clear h
  cases hs with
  | start c st h => exact execStart_next h
  | passBegin n h => exact execPassBegin_next h
  | row h => exact execRow_next h
  | finish h => exact execFinish_next h
  | abort h => cases h; exact .abort
  | reserved _ h => cases h
  | zlib a b c d e h => exact execZlib_next h
  | blockStored f h => cases h; exact .blockStored f
  | blockFixed f h => cases h; exact .blockFixed f
  | blockDynamic f h => cases h; exact .blockDynamic f
  | blockReserved f h => cases h; exact .blockReserved f
  | storedHdr a b h => exact execStoredHdr_next h
  | raw b h => cases h; exact .raw b
  | fixed h => obtain ⟨rfl, _⟩ := loadTables_next h; exact .fixed _ _ rfl rfl
  | dyn a b c h => exact execDyn_next h
  | clLen n h => obtain ⟨hn, rfl⟩ := storeLens_next h; exact .lengths _ 1 n s.reader rfl (.refl _) hn
  | clRep h => exact execClRep_next h
  | clZeroS h => exact withBits_repeatLens_next rfl h
  | clZeroL h => exact withBits_repeatLens_next rfl h
  | lit b h => cases h; exact .lit b
  | eob h => cases h; exact .eob
  | length _ base ext h hi => exact lengthSymbol_effect hi h
  | lenInvalid _ h hi => exact .of_raise (by rcases hi with rfl | rfl <;> decide) (by decide) h
  | distance _ base ext h hi => exact distSymbol_effect hi h
  | distInvalid _ h hi => exact .of_raise (by rcases hi with rfl | rfl <;> decide) (by decide) h
  | filter _ p h hi =>
    obtain ⟨hf, rfl⟩ := deliverRow_next h
    exact .filter _ p (exec_predictorOf s hi).2 hf
  | fInvalid b h => exact .of_raise nofun (by decide) h
  | ztrl a h => cases h; exact .ztrl a

/-! ## Steps without an element -/

/-- The next states of a step that carries out no element. -/
inductive Quiet (s : State) : State → Prop where
  | idle : Quiet s s
  | pull (d : List Byte) (hc : s.port.cmd = .row d) (hd : d.length ≤ s.scan.rowbytes.toNat) (hu : s.window.unread ≠ 0) :
      Quiet s ((s.setWindow s.window.drop).setPort { s.port with cmd := .row (d ++ [s.window.front]) })
  | tables (h : s.HeaderComplete) :
      Quiet s ((s.setDyn { s.dyn with hdrRead := false }).withTables s.dyn.litLens s.dyn.distLens)
  | blockEnd (hp : s.Pulling) (hi : s.inflate.istate = .blockEnd) : Quiet s (s.setInflate s.inflate.afterBlock)
  | fails (u : State) (e : ErrCode) (hu : s.ReadsTo u) (hs : u.scan = s.scan) (he : e ≠ .noMem) : Quiet s (u.raise e)

theorem bare_quiet {s t : State} (h : Bare s (.next t)) : Quiet s t := by
  cases h with
  | idle hc hq h => cases h; exact .idle
  | pull d hc hd hu h => cases h; exact .pull d hc hd hu
  | tables hp hi hd ht h =>
    obtain ⟨rfl, _⟩ := loadTables_next h.symm
    exact .tables ⟨hp, hi, hd, ht⟩
  | blockEnd hp hi h => cases h; exact .blockEnd hp hi
  | streamEnd hp hi h => cases h; exact .fails s _ (s.readsTo_setReader (.refl _)) rfl (by decide)
  | readError c r hr hc he h =>
    cases h
    exact .fails _ c (s.readsTo_setReader hr) rfl (by rcases he with rfl | rfl | ⟨rfl, _⟩ <;> decide)
  | litLenSymbol hp hi v r hr he hv h =>
    cases h
    exact .fails _ _ ⟨hr, rfl, rfl, rfl, rfl, rfl, rfl, rfl, rfl, rfl, rfl, .inl rfl⟩ rfl (by decide)
  | distSymbol hp hi v r hr he hv h => cases h; exact .fails _ _ (s.readsTo_setReader hr) rfl (by decide)
  | clSymbol hp v he hv h => cases h
  | noCell hc hr h => cases h

/-- Every step that goes on: an element read in a state that expects it, with its effect, or a quiet step. -/
theorem step_next {s t : State} (h : step s = .next t) :
    (∃ i u, fetch s = .instr i u ∧ s.Expects (encode i).fmt ∧ s.ReadsTo u ∧ Effect u i t) ∨ Quiet s t := by
  rcases step_cases s with ⟨i, u, hf, he⟩ | hb
  · obtain ⟨hx, hr⟩ := fetch_instr hf
    exact .inl ⟨i, u, hf, hx, hr, exec_effect (he ▸ h)⟩
  · exact .inr (bare_quiet (h ▸ hb))

end Sys2Proof.Machine
end

section
/-!
What one step does to each part of the state (R38): the few changes a part can undergo, each with the
command or element that makes it. The constructor `same` stands for every other step.
-/

namespace Sys2Proof.Machine

/-! ## The reader -/

/-- What a step makes of the reader. -/
inductive ReaderStep (s : State) (x : Reader) : Prop where
  | same (h : x = s.reader)
  | start (hs : s.TakesStart) (h : x.src = s.reader.src)
  | reads (f : Format) (hx : s.Expects f) (h : s.reader.Reads f x)

/-- Carrying out an element moves the reader as its format does; only a START sets it. -/
theorem Effect.reader {s t : State} {i : Instr} (h : Effect s i t) :
    s.reader.Reads (encode i).fmt t.reader ∨ ∃ c st, i = .start c st ∧ t.reader = s.reader.started c := by
  cases h with
  | start c st hst => exact .inr ⟨c, st, rfl, rfl⟩
  | dyn a b c vs r hr => exact .inl (hr.reads rfl)
  | dynFails a b c r e hr he => exact .inl (hr.reads rfl)
  | lengths i n v r hi hr hn => exact .inl (hr.reads (by rw [hi]; rfl))
  | length i n r hi hr hn => exact .inl (hr.reads (by rw [hi]; rfl))
  | copy i x r hi hr hn => exact .inl (hr.reads (by rw [hi]; rfl))
  | copyFails i x r e hi hr he => exact .inl (hr.reads (by rw [hi]; rfl))
  | fails i r e hi hr he => exact .inl hr
  | _ => exact .inl (.refl _ _)

theorem step_reader {s t : State} (h : step s = .next t) : ReaderStep s t.reader := by
  have hr := fetch_readsFrom s
  cases hf : fetch s with
  | instr i u =>
    rw [hf] at hr
    obtain ⟨hx, hu⟩ := fetch_instr hf
    rw [step_of_fetch hf] at h
    rcases (exec_effect h).reader with ht | ⟨c, st, rfl, ht⟩
    · exact .reads _ hx (hr.trans ht)
    · exact .start ⟨c, st, u, hf⟩ ((congrArg Reader.src ht).trans (hr.source rfl))
  | done o =>
    rw [hf] at hr
    obtain rfl := (step_of_done hf).symm.trans h
    rcases hr with ht | ⟨f, hx, ht⟩
    · exact .same ht
    · exact .reads f hx ht

/-! ## The session and the command running -/

/-- What a step makes of `sstate` and `result` (R21, R22). -/
inductive SessionStep (s : State) (x : Session) : Prop where
  | same (h : x = s.session)
  | failed (e : ErrCode) (he : e ≠ .noMem) (h : x = { sstate := .failed, result := e.code })
  | done (hc : s.port.cmd = .finish) (h : x = { s.session with sstate := .done })
  | start (hs : s.TakesStart) (h : x = { sstate := .active, result := 0x00 })
  | abort (hs : s.TakesAbort) (h : x = { sstate := .idle, result := 0x00 })

theorem step_session {s t : State} (h : step s = .next t) : SessionStep s t.session := by
  rcases step_next h with ⟨i, u, hf, hx, hr, he⟩ | hq
  · cases he with
    | start => exact .start ⟨_, _, _, hf⟩ rfl
    | abort => exact .abort ⟨_, hf⟩ rfl
    | ztrl => exact .done hx (by rw [← hr.session]; rfl)
    | blockReserved => exact .failed _ (by decide) rfl
    | dynFails a b c r e hr he => exact .failed e he rfl
    | copyFails i x r e hi hr he => exact .failed e he rfl
    | fails i r e hi hr he => exact .failed e he rfl
    | _ => exact .same hr.session
  · cases hq with
    | fails u e hu hs he => exact .failed e he rfl
    | _ => exact .same rfl

/-- How the command running goes on. -/
inductive CommandStep (s t : State) : Prop where
  | ends (h : t.port.cmd = .waiting)
  | starts (hs : t.session.sstate = .active) (h : t.port.cmd = .row [] ∨ t.port.cmd = .finish)
  | pulls (d : List Byte) (b : Byte) (hc : s.port.cmd = .row d) (hd : d.length ≤ s.scan.rowbytes.toNat)
      (h : t.port.cmd = .row (d ++ [b])) (hs : t.session = s.session) (hr : t.scan.rowbytes = s.scan.rowbytes)
  | goesOn (h : t.port.cmd = s.port.cmd) (hs : t.session = s.session) (hr : t.scan.rowbytes = s.scan.rowbytes)

theorem State.ReadsTo.rowbytes {s u : State} (h : s.ReadsTo u) : u.scan.rowbytes = s.scan.rowbytes := by
  rcases h.scan with e | ⟨f, d, _, _, _, e⟩
  · rw [e]
  · rw [e, Scan.load_rowbytes]

theorem step_command {s t : State} (h : step s = .next t) : CommandStep s t := by
  rcases step_next h with ⟨i, u, hf, hx, hr, he⟩ | hq
  · cases he with
    | row hs => exact .starts hs (.inl rfl)
    | finish hs => exact .starts hs (.inr rfl)
    | start | latched | passBegin | abort | ztrl | filter => exact .ends rfl
    | blockReserved | dynFails | copyFails | fails => exact .ends rfl
    | _ => exact .goesOn hr.cmd hr.session hr.rowbytes
  · cases hq with
    | pull d hc hd hu => exact .pulls d _ hc hd rfl rfl rfl
    | fails => exact .ends rfl
    | _ => exact .goesOn rfl rfl rfl

/-! ## The scan registers -/

@[simp] theorem Scan.swap_stride (x : Scan) : x.swap.stride = x.stride := rfl
@[simp] theorem Scan.swap_rowbytes (x : Scan) : x.swap.rowbytes = x.rowbytes := rfl
@[simp] theorem Scan.swap_passValid (x : Scan) : x.swap.passValid = x.passValid := rfl

/-- What a step makes of the scan registers and the row buffers (R25, R26). -/
inductive ScanStep (s : State) (x : Scan) : Prop where
  | same (h : x = s.scan)
  | start (hs : s.TakesStart) (st : BitVec 4) (hst : 1 ≤ st.toNat ∧ st.toNat ≤ Config.strideMax)
      (h : x = { s.scan with stride := st, passValid := false, curSel := false })
  | beginPass (hs : s.TakesPassBegin) (n : BitVec 11) (hn : 1 ≤ n.toNat ∧ n.toNat ≤ Config.rowbytesMax)
      (h : x = s.scan.beginPass n)
  | load (f : Byte) (d : List Byte) (hc : s.port.cmd = .row (f :: d)) (hd : s.scan.rowbytes.toNat < (f :: d).length)
      (h : x = s.scan.load f d)
  | deliver (f : Byte) (d : List Byte) (hc : s.port.cmd = .row (f :: d)) (hd : s.scan.rowbytes.toNat < (f :: d).length)
      (p : Predictor) (h : x = ((s.scan.load f d).setCur ((s.scan.load f d).corrected p)).swap)

/-- Once a row has been pulled, only a filter element is read. -/
theorem State.Expects.filt_of_pulled {s : State} {f : Format} {d : List Byte} (h : s.Expects f) (hc : s.port.cmd = .row d)
    (hd : s.scan.rowbytes.toNat < d.length) : f = .filt := by
  have hp : ¬ s.Pulling := by
    rintro ⟨_, d', hc', hd'⟩
    rw [hc] at hc'
    cases hc'
    omega
  cases f
  case filt => rfl
  case hostCmd | ztrl => exact absurd (hc.symm.trans h) nofun
  all_goals exact absurd h.1 hp

/-- A filter element is carried out on the row pulled, loaded into `cur`. -/
theorem fetch_filter {s u : State} {i : Instr} (h : fetch s = .instr i u) (hi : (encode i).fmt = .filt) :
    ∃ f d, s.port.cmd = .row (f :: d) ∧ s.scan.rowbytes.toNat < (f :: d).length ∧ u.scan = s.scan.load f d := by
  obtain ⟨d, hc, hd⟩ : s.Expects .filt := hi ▸ (fetch_instr h).1
  have hf : fetch s = fetchFilter d s := by simp [fetch, hc, hd]
  rw [hf] at h
  unfold fetchFilter at h
  split at h
  · cases h
  · rename_i f bytes
    split at h
    · obtain ⟨_, rfl⟩ := decodeAt_instr h
      exact ⟨f, bytes, hc, hd, rfl⟩
    · cases h

/-- Any other element is read without touching the scan registers. -/
theorem fetch_scan {s u : State} {i : Instr} (h : fetch s = .instr i u) (hi : (encode i).fmt ≠ .filt) :
    u.scan = s.scan := by
  obtain ⟨hx, hr⟩ := fetch_instr h
  rcases hr.scan with e | ⟨f, d, hc, hd, _, _⟩
  · exact e
  · exact absurd (hx.filt_of_pulled hc hd) hi

theorem step_scan {s t : State} (h : step s = .next t) : ScanStep s t.scan := by
  rcases step_next h with ⟨i, u, hf, hx, hr, he⟩ | hq
  · by_cases hi : (encode i).fmt = .filt
    · obtain ⟨f, d, hc, hd, hu⟩ := fetch_filter hf hi
      cases he with
      | filter i p _ hb => exact .deliver f d hc hd p (by rw [← hu]; rfl)
      | start | passBegin => cases hi
      | _ => exact .load f d hc hd hu
    · have hu := fetch_scan hf hi
      cases he with
      | start c st hst => exact .start ⟨_, _, _, hf⟩ st hst (by rw [← hu]; rfl)
      | passBegin n hn => exact .beginPass ⟨_, _, hf⟩ n hn (by rw [← hu]; rfl)
      | filter i p hi' => exact absurd hi' hi
      | _ => exact .same hu
  · cases hq with
    | fails u e hu hs => exact .same hs
    | _ => exact .same rfl

/-! ## The window -/

/-- What a step makes of the window (R27, R28). -/
inductive WindowStep (s : State) (x : Window) : Prop where
  | same (h : x = s.window)
  | start (hs : s.TakesStart) (h : x = s.window.started)
  | setSize (hx : s.Expects .zhdr) (n : BitVec 4) (h : x = { s.window with wlog := n })
  | put (hx : s.Expects .raw ∨ s.Expects .litLen) (b : Byte) (h : x = s.window.put b)
  | copy (hx : s.Expects .dist) (n d : Nat) (h : x = s.window.copy n d)
  | drop (hx : s.PullsByte) (h : x = s.window.drop)

theorem step_window {s t : State} (h : step s = .next t) : WindowStep s t.window := by
  rcases step_next h with ⟨i, u, hf, hx, hr, he⟩ | hq
  · cases he with
    | start => exact .start ⟨_, _, _, hf⟩ (by rw [← hr.window]; rfl)
    | zlib => exact .setSize hx _ (by rw [← hr.window]; rfl)
    | raw b => exact .put (.inl hx) b (by rw [← hr.window]; rfl)
    | lit b => exact .put (.inr hx) b (by rw [← hr.window]; rfl)
    | copy i x r hi => exact .copy (hi ▸ hx) _ _ (by rw [← hr.window]; rfl)
    | _ => exact .same hr.window
  · cases hq with
    | pull d hc hd hu => exact .drop ⟨hu, d, hc, hd⟩ rfl
    | fails u e hu => exact .same hu.window
    | _ => exact .same rfl

/-! ## The inflate registers -/

/-- What a step makes of the registers of the inflate machine (R30, R31). -/
inductive InflateStep (s : State) (x : Inflate) : Prop where
  | same (h : x = s.inflate)
  | start (hs : s.TakesStart) (h : x = Inflate.started)
  | zlib (hx : s.Expects .zhdr) (h : x = s.inflate.headerDone)
  | block (hx : s.Expects .bhdr) (i : IState) (f b : Bool)
      (h : x = { s.inflate with istate := i, bfinal := f, storedHdr := b })
  | storedLen (hx : s.Expects .storedHdr) (n : BitVec 16) (h : x = s.inflate.storedLen n)
  | storedByte (hx : s.Expects .raw) (h : x = s.inflate.storedByte)
  | goto (hp : s.Pulling) (i : IState) (h : x = s.inflate.goto i)

theorem step_inflate {s t : State} (h : step s = .next t) : InflateStep s t.inflate := by
  rcases step_next h with ⟨i, u, hf, hx, hr, he⟩ | hq
  · cases he with
    | start => exact .start ⟨_, _, _, hf⟩ rfl
    | zlib => exact .zlib hx (by rw [← hr.inflate]; rfl)
    | blockStored => exact .block hx _ _ _ (by rw [← hr.inflate]; rfl)
    | blockFixed => exact .block hx _ _ _ (by rw [← hr.inflate]; rfl)
    | blockDynamic => exact .block hx _ _ _ (by rw [← hr.inflate]; rfl)
    | blockReserved => exact .block hx _ _ _ (by rw [← hr.inflate]; rfl)
    | storedHdr => exact .storedLen hx _ (by rw [← hr.inflate]; rfl)
    | raw => exact .storedByte hx (by rw [← hr.inflate]; rfl)
    | fixed => exact .goto hx.1 _ (by rw [← hr.inflate]; rfl)
    | eob => exact .goto hx.1 _ (by rw [← hr.inflate]; rfl)
    | _ => exact .same hr.inflate
  · cases hq with
    | tables ht => exact .goto ht.1 _ rfl
    | blockEnd hp => exact .goto hp _ rfl
    | fails u e hu => exact .same hu.inflate
    | _ => exact .same rfl

/-! ## The tables -/

/-- What a step makes of the tables (R32). -/
inductive TablesStep (s : State) (x : Tables) : Prop where
  | same (h : x = s.tables)
  | start (hs : s.TakesStart) (h : x = s.tables.started)
  | fixed (hx : s.Expects .fixed)
      (h : x = (s.tables.setLit (buildTable fixedLitLens)).setDist (buildTable fixedDistLens))
  | dynamic (hc : s.HeaderComplete)
      (h : x = (s.tables.setLit (buildTable s.dyn.litLens)).setDist (buildTable s.dyn.distLens))
  | header (hx : s.Expects .dynHdr) (vs : List Nat)
      (h : x = s.tables.setCl (buildTable ((clLensOf vs).map BitVec.toNat)))

theorem step_tables {s t : State} (h : step s = .next t) : TablesStep s t.tables := by
  rcases step_next h with ⟨i, u, hf, hx, hr, he⟩ | hq
  · cases he with
    | start => exact .start ⟨_, _, _, hf⟩ (by rw [← hr.tables]; rfl)
    | fixed ls ds hl hd => exact .fixed hx (by rw [← hr.tables, ← hl, ← hd]; rfl)
    | dyn a b c vs => exact .header hx vs (by rw [← hr.tables]; rfl)
    | _ => exact .same hr.tables
  · cases hq with
    | tables ht => exact .dynamic ht rfl
    | fails u e hu => exact .same hu.tables
    | _ => exact .same rfl

/-! ## The temporaries of a dynamic header -/

/-- What a step makes of the temporaries of a dynamic header (R33); `same` but for the model's flag `hdrRead`. -/
inductive DynStep (s : State) (x : Dyn) : Prop where
  | same (b : Bool) (h : x = { s.dyn with hdrRead := b })
  | counts (a b : BitVec 5) (c : BitVec 4) (h : x = s.dyn.counts a b c)
  | header (a b : BitVec 5) (c : BitVec 4) (vs : List Nat)
      (h : x = { s.dyn.counts a b c with clLens := clLensOf vs, idx := 0, hdrRead := true })
  | fill (n : Nat) (v : BitVec 4) (hn : s.dyn.idx.toNat + n ≤ Config.nlensMax) (h : x = s.dyn.fill n v)

theorem step_dyn {s t : State} (h : step s = .next t) : DynStep s t.dyn := by
  rcases step_next h with ⟨i, u, hf, hx, hr, he⟩ | hq
  · cases he with
    | start => exact .same false (by rw [← hr.dyn]; rfl)
    | blockDynamic => exact .same false (by rw [← hr.dyn]; rfl)
    | dyn a b c vs => exact .header a b c vs (by rw [← hr.dyn]; rfl)
    | dynFails a b c => exact .counts a b c (by rw [← hr.dyn]; rfl)
    | lengths i n v r hi hr' hn => exact .fill n v (hr.dyn ▸ hn) (by rw [← hr.dyn]; rfl)
    | _ => exact .same _ hr.dyn
  · cases hq with
    | tables => exact .same false rfl
    | fails u e hu => exact .same _ hu.dyn
    | _ => exact .same _ rfl

end Sys2Proof.Machine
end

section
/-!
The window invariants (R29): a step that opens no session and changes neither the window nor the machine
keeps them as they are; where the machine runs, the header has been accepted and only a length symbol
leaves a distance awaited.
-/

namespace Sys2Proof.Machine

/-! ## The window alone -/

/-- A START empties the window (R142). -/
theorem Window.Sound.started {w : Window} (h : w.Sound) : w.started.Sound where
  wlog_ge := h.wlog_ge
  rd_lt := w.started.size_pos
  ring := Nat.zero_mod _
  unread_le_hist := Nat.le_refl _
  hist_le_size := Nat.zero_le _
  unread_le_match := Nat.zero_le _

theorem wlogOf_toNat {b : BitVec 4} (hb : b.toNat ≤ 7) : (wlogOf b).toNat = b.toNat + 8 := by
  unfold wlogOf
  bv_omega

/-- The zlib header sizes an empty window (R203). -/
theorem Window.Sound.setSize {w : Window} (n : BitVec 4) (hn : 8 ≤ n.toNat) (hw : w.wr = 0) (hr : w.rd = 0)
    (hu : w.unread = 0) (hh : w.hist = 0) : ({ w with wlog := n } : Window).Sound where
  wlog_ge := hn
  rd_lt := by rw [hr]; exact Window.size_pos _
  ring := by rw [hr, hu, hw]; exact Nat.zero_mod _
  unread_le_hist := by rw [hu]; exact Nat.zero_le _
  hist_le_size := by rw [hh]; exact Nat.zero_le _
  unread_le_match := by rw [hu]; exact Nat.zero_le _

/-! ## With the machine that fills it -/

theorem State.WindowInv.hdrDone {s : State} (h : s.WindowInv) (hi : s.inflate.istate ≠ .begin) :
    s.inflate.hdrDone = true := by
  by_contra hd
  exact hi (h.fresh (by simpa using hd)).1

theorem State.WindowInv.lenPend {s : State} (h : s.WindowInv) (hi : s.inflate.istate ≠ .huffman) :
    s.temps.lenPend = false := by
  by_contra hl
  exact hi (h.pending (by simpa using hl)).1

/-- Nothing the invariants speak of has changed. -/
theorem State.WindowInv.of_same {s t : State} (h : s.WindowInv) (hw : t.window = s.window) (hi : t.inflate = s.inflate)
    (hl : t.temps.lenPend = s.temps.lenPend) (hm : t.temps.mlen = s.temps.mlen) : t.WindowInv where
  sound := hw ▸ h.sound
  fresh hd := by
    rw [hi, hw]
    exact h.fresh (hi ▸ hd)
  pending hp := by
    rw [hi, hm]
    exact h.pending (hl ▸ hp)

theorem State.ReadsTo.windowInv {s u : State} (hr : s.ReadsTo u) (h : s.WindowInv) : u.WindowInv :=
  h.of_same hr.window hr.inflate hr.lenPend hr.mlen

/-- After the zlib header, and with no distance awaited, a sound window is all there is to show. -/
theorem Window.Sound.windowInv {t : State} (h : t.window.Sound) (hd : t.inflate.hdrDone = true)
    (hl : t.temps.lenPend = false) : t.WindowInv where
  sound := h
  fresh hd' := by
    rw [hd] at hd'
    cases hd'
  pending hp := by
    rw [hl] at hp
    cases hp

/-- A turn of the machine that leaves the window alone, from a state in which it is past the zlib header and
awaits no distance. -/
theorem State.WindowInv.turn {s t : State} (h : s.WindowInv) (hd : s.inflate.hdrDone = true)
    (hl : s.temps.lenPend = false) (hw : t.window = s.window) (hd' : t.inflate.hdrDone = s.inflate.hdrDone)
    (hl' : t.temps.lenPend = s.temps.lenPend) : t.WindowInv :=
  Window.Sound.windowInv (hw ▸ h.sound) (hd'.trans hd) (hl'.trans hl)

/-- A turn of the machine from a state between the header and the symbols of a block. -/
theorem State.WindowInv.turn_from {s t : State} {i : IState} (h : s.WindowInv) (hi : s.inflate.istate = i)
    (hb : i ≠ .begin) (hh : i ≠ .huffman) (hw : t.window = s.window) (hd : t.inflate.hdrDone = s.inflate.hdrDone)
    (hl : t.temps.lenPend = s.temps.lenPend) : t.WindowInv :=
  h.turn (h.hdrDone (hi ▸ hb)) (h.lenPend (hi ▸ hh)) hw hd hl

/-- A turn of the machine at a block header. -/
theorem State.WindowInv.turn_block {s t : State} (h : s.WindowInv) (hx : s.Expects .bhdr) (hw : t.window = s.window)
    (hd : t.inflate.hdrDone = s.inflate.hdrDone) (hl : t.temps.lenPend = s.temps.lenPend) : t.WindowInv := by
  obtain ⟨_, hi, hdone⟩ := hx
  exact h.turn hdone (h.lenPend (by rw [hi]; decide)) hw hd hl

theorem State.WindowInv.zlib {s t : State} {n : BitVec 4} (h : s.WindowInv) (hx : s.Expects .zhdr) (hn : 8 ≤ n.toNat)
    (hw : t.window = { s.window with wlog := n }) (hd : t.inflate.hdrDone = true)
    (hl : t.temps.lenPend = s.temps.lenPend) : t.WindowInv := by
  obtain ⟨_, hi, hdone⟩ := hx
  obtain ⟨_, hwr, hrd, hun, hhi⟩ := h.fresh hdone
  exact Window.Sound.windowInv (hw ▸ Window.Sound.setSize n hn hwr hrd hun hhi) hd
    (hl.trans (h.lenPend (by rw [hi]; decide)))

/-- Pulling a byte; before the zlib header there is none. -/
theorem State.WindowInv.pull {s t : State} (h : s.WindowInv) (hu : s.window.unread ≠ 0) (hw : t.window = s.window.drop)
    (hi : t.inflate = s.inflate) (ht : t.temps = s.temps) : t.WindowInv where
  sound := hw ▸ h.sound.drop hu
  fresh hd := by
    obtain ⟨_, _, _, hun, _⟩ := h.fresh (hi ▸ hd)
    exact absurd hun hu
  pending hp := by
    rw [hi, ht]
    exact h.pending (ht ▸ hp)

/-- An element carried out keeps the invariants (R29, R250, R256, R260). -/
theorem Effect.windowInv {s t : State} {i : Instr} (he : Effect s i t) (hx : s.Expects (encode i).fmt) (h : s.WindowInv) :
    t.WindowInv := by
  cases he with
  | start c st hst =>
    exact ⟨h.sound.started, fun _ => ⟨rfl, rfl, rfl, rfl, rfl⟩, nofun⟩
  | zlib a b c d e hb => exact h.zlib hx (by rw [wlogOf_toNat hb]; omega) rfl rfl rfl
  | blockStored | blockFixed | blockDynamic | blockReserved => exact h.turn_block hx rfl rfl rfl
  | storedHdr => exact h.turn_from hx.2.1 nofun nofun rfl rfl rfl
  | fixed => exact h.turn_from hx.2 nofun nofun rfl rfl rfl
  | raw b =>
    obtain ⟨⟨hu, _⟩, hi, _⟩ := hx
    exact Window.Sound.windowInv (h.sound.put hu b) (h.hdrDone (by rw [hi]; decide)) (h.lenPend (by rw [hi]; decide))
  | lit b =>
    obtain ⟨⟨hu, _⟩, hi, hl⟩ := hx
    exact Window.Sound.windowInv (h.sound.put hu b) (h.hdrDone (by rw [hi]; decide)) hl
  | eob =>
    obtain ⟨_, hi, hl⟩ := hx
    exact h.turn (h.hdrDone (by rw [hi]; decide)) hl rfl rfl rfl
  | length i n r hf hr hn =>
    rw [hf] at hx
    obtain ⟨_, hi, _⟩ := hx
    exact ⟨h.sound, h.fresh, fun _ => ⟨hi, hn⟩⟩
  | copy i x r hf hr hn =>
    rw [hf] at hx
    obtain ⟨⟨hu, _⟩, hi, hl⟩ := hx
    exact Window.Sound.windowInv (h.sound.copy hu _ _ hn (h.pending hl).2.2) (h.hdrDone (by rw [hi]; decide)) rfl
  | _ => exact h.of_same rfl rfl rfl rfl

theorem Quiet.windowInv {s t : State} (hq : Quiet s t) (h : s.WindowInv) : t.WindowInv := by
  cases hq with
  | idle => exact h
  | pull d hc hd hu => exact h.pull hu rfl rfl rfl
  | tables ht => exact h.turn_from ht.2.1 nofun nofun rfl rfl rfl
  | blockEnd hp hi => exact h.turn_from hi nofun nofun rfl rfl rfl
  | fails u e hu => exact (hu.windowInv h).of_same rfl rfl rfl rfl

/-- Settles O51: an element is carried out in a state that expects it and still has the invariants; `Put` and
`Copy` find the window drained, and the awaited length and the check of R260 bound what a match appends. -/
theorem stepKeepsTheWindowSound : Obligations.StepKeepsTheWindowSound := by
  intro s t hs h
  rcases step_next h with ⟨i, u, hf, _, hr, he⟩ | hq
  · exact he.windowInv (fetch_expects hf) (hr.windowInv hs)
  · exact hq.windowInv hs

end Sys2Proof.Machine
end

section
/-!
The byte memories: a step writes only cells of the window, and of the row buffers only those of a row
(R26, R27, R73).
-/

namespace Sys2Proof.Machine

/-- What every write of the machine keeps of the window memory, it keeps in every step. -/
theorem WindowStep.mem_kept {s : State} {x : Window} (P : Memory → Prop)
    (hw : ∀ (w : Window) (b : Byte), P w.mem → P (w.put b).mem) (h : WindowStep s x) (hs : P s.window.mem) : P x.mem := by
  cases h with
  | same h => exact h ▸ hs
  | start _ h => exact h ▸ hs
  | setSize _ n h => exact h ▸ hs
  | put _ b h => exact h ▸ hw _ _ hs
  | copy _ n d h =>
    subst h
    generalize s.window = w at hs
    induction n generalizing w with
    | zero => exact hs
    | succ n ih => exact ih _ (hw _ _ hs)
  | drop _ h => exact h ▸ hs

/-- The same for the row buffers: what is kept by writing a row from cell 0 on and by correcting one. -/
theorem ScanStep.buffers_kept {s : State} {x : Scan} (P : Memory → Prop)
    (hw : ∀ (m : Memory) (vs : List Byte), vs.length ≤ Config.rowbytesMax → P m → P (m.writeAll 0 vs))
    (hd : ∀ (p : Predictor) (st : Nat) (prev : Memory) (n : Nat) (m : Memory),
      n ≤ Config.rowbytesMax → P m → P (defilter p st prev 0 n m))
    (hrow : s.scan.rowbytes.toNat ≤ Config.rowbytesMax)
    (hpull : ∀ d, s.port.cmd = .row d → d.length ≤ s.scan.rowbytes.toNat + 1)
    (h : ScanStep s x) (hs : P s.scan.bufA ∧ P s.scan.bufB) : P x.bufA ∧ P x.bufB := by
  obtain ⟨hcur, hprev⟩ := (Scan.buffers P _).1 hs
  have hload : ∀ f d, s.port.cmd = .row (f :: d) → P (s.scan.load f d).bufA ∧ P (s.scan.load f d).bufB := by
    intro f d hc
    have hl := hpull _ hc
    rw [List.length_cons] at hl
    exact Scan.setCur_buffers P hs (hw _ _ (by omega) hcur)
  cases h with
  | same h => exact h ▸ hs
  | start _ st _ h => exact h ▸ hs
  | beginPass _ n hn h =>
    subst h
    exact Scan.setPrev_buffers P hs (hw _ _ (by rw [List.length_replicate]; exact hn.2) hprev)
  | load f d hc _ h => exact h ▸ hload f d hc
  | deliver f d hc _ p h =>
    subst h
    have hl := hload f d hc
    exact Scan.setCur_buffers P hl
      (hd _ _ _ _ _ (by rw [Scan.load_rowbytes]; exact hrow) ((Scan.buffers P _).1 hl).1)

/-- Settles O52: both properties of a memory are kept by every write, `Put` writes at `wr`, and a row is no longer
than a buffer. -/
theorem stepKeepsMemoriesAndCells : Obligations.StepKeepsMemoriesAndCells := by
  intro s t hs h
  obtain ⟨hmem, hbuf⟩ := hs.memory
  obtain ⟨cmem, cbuf⟩ := hs.cells
  have hrow := hs.range.rowbytes_le
  have hpull := hs.command.pulled
  refine ⟨⟨?_, ?_⟩, ?_, ?_⟩
  · exact (step_window h).mem_kept (fun m => m.wf = true) (fun w b => Memory.wf_write _ _) hmem
  · exact (step_scan h).buffers_kept (fun m => m.wf = true) (fun m vs _ => Memory.wf_writeAll _ _)
      (fun p st prev n m _ => defilter_wf _ _ _ _ _) hrow hpull hbuf
  · exact (step_window h).mem_kept (·.Within Config.winMax) (fun w b hw => Memory.within_write _ hw w.wr.isLt) cmem
  · exact (step_scan h).buffers_kept (·.Within Config.rowbytesMax)
      (fun m vs hl hw => Memory.within_writeAll _ hw (by rw [Nat.zero_add]; exact hl))
      (fun p st prev n m hl hw => defilter_within _ _ _ _ _ hw (by rw [Nat.zero_add]; exact hl)) hrow hpull cbuf

end Sys2Proof.Machine
end

section
/-!
The register ranges (R38, R33), part by part, and the session's rules (R22, R141, R360).
-/

namespace Sys2Proof.Machine

/-! ## The scan registers -/

/-- The ranges of `stride` and `rowbytes` (R25, R38). -/
structure Scan.InRange (x : Scan) : Prop where
  stride_ge : 1 ≤ x.stride.toNat
  stride_le : x.stride.toNat ≤ Config.strideMax
  rowbytes_ge : 1 ≤ x.rowbytes.toNat
  rowbytes_le : x.rowbytes.toNat ≤ Config.rowbytesMax

/-- The ranges speak of two registers only. -/
theorem Scan.InRange.of_same {x y : Scan} (h : x.InRange) (hs : y.stride = x.stride) (hr : y.rowbytes = x.rowbytes) :
    y.InRange :=
  ⟨hs ▸ h.stride_ge, hs ▸ h.stride_le, hr ▸ h.rowbytes_ge, hr ▸ h.rowbytes_le⟩

theorem ScanStep.inRange {s : State} {x : Scan} (h : ScanStep s x) (hs : s.scan.InRange) : x.InRange := by
  cases h with
  | same h => exact h ▸ hs
  | start _ st hst h => exact h ▸ ⟨hst.1, hst.2, hs.rowbytes_ge, hs.rowbytes_le⟩
  | beginPass _ n hn h =>
    subst h
    exact ⟨by simpa using hs.stride_ge, by simpa using hs.stride_le, hn.1, hn.2⟩
  | load f d _ _ h => exact h ▸ hs.of_same (Scan.load_stride f d _) (Scan.load_rowbytes f d _)
  | deliver f d _ _ p h => exact hs.of_same (by simp [h]) (by simp [h, Scan.load_rowbytes])

/-! ## The tables -/

/-- The counts and entries of the three tables (R32, R38). -/
structure Tables.InRange (x : Tables) : Prop where
  lit : TableInv Config.nlitMax x.litTab x.litN.toNat
  dist : TableInv Config.ndistMax x.distTab x.distN.toNat
  cl : TableInv Config.ncl x.clTab x.clN.toNat

/-- A table is stored with its count, which the count register holds. -/
theorem TableInv.store_counted {cap n w : Nat} {old : List HuffEntry} {ls : List Nat} (h : TableInv cap old n)
    (hcap : cap ≤ 512) (hw : cap < 2 ^ w) (hl : ls.length ≤ cap) (hb : ∀ b ∈ ls, b ≤ 15) :
    TableInv cap (storeTable (buildTable ls) old) (BitVec.ofNat w (buildTable ls).length).toNat := by
  have hlen := length_buildTable_le ls
  rw [BitVec.toNat_ofNat, Nat.mod_eq_of_lt (by omega)]
  exact h.store hcap hl hb

/-- An empty table in force. -/
theorem TableInv.emptied {cap n : Nat} {t : List HuffEntry} (h : TableInv cap t n) : TableInv cap t 0 :=
  ⟨Nat.zero_le _, h.length_le, h.entry⟩

/-- Both tables of a block, from lengths their alphabets allow. -/
theorem Tables.InRange.load {x : Tables} (h : x.InRange) {ls ds : List Nat} (hl : ls.length ≤ 288) (hd : ds.length ≤ 32)
    (hlb : ∀ b ∈ ls, b ≤ 15) (hdb : ∀ b ∈ ds, b ≤ 15) : ((x.setLit (buildTable ls)).setDist (buildTable ds)).InRange where
  lit := h.lit.store_counted (by decide) (by decide) hl hlb
  dist := h.dist.store_counted (by decide) (by decide) hd hdb
  cl := h.cl

theorem lt_of_mem_map_toNat {w b : Nat} {l : List (BitVec w)} (h : b ∈ l.map BitVec.toNat) : b < 2 ^ w := by
  obtain ⟨v, _, rfl⟩ := List.mem_map.1 h
  exact v.isLt

theorem length_litLens_le (d : Dyn) : d.litLens.length ≤ d.hlit.toNat := by
  rw [Dyn.litLens, List.length_map]
  exact List.length_take_le _ _

theorem length_distLens_le (d : Dyn) : d.distLens.length ≤ d.hdist.toNat := by
  rw [Dyn.distLens, List.length_map]
  exact List.length_take_le _ _

theorem length_clLensOf (vs : List Nat) : (clLensOf vs).length = Config.ncl := by
  have h : ∀ (ps : List (Nat × Nat)) (l : List (BitVec 3)),
      (ps.foldl (fun l p => l.set p.1 (BitVec.ofNat 3 p.2)) l).length = l.length := by
    intro ps
    induction ps with
    | nil => exact fun _ => rfl
    | cons p ps ih => exact fun l => (ih _).trans List.length_set
  exact (h _ _).trans List.length_replicate

theorem length_fixedLitLens : fixedLitLens.length = 288 := by
  simp only [fixedLitLens, List.length_append, List.length_replicate]

theorem length_fixedDistLens : fixedDistLens.length = 32 := List.length_replicate

theorem fixedLitLens_le : ∀ b ∈ fixedLitLens, b ≤ 15 := by
  intro b hb
  simp only [fixedLitLens, List.mem_append, List.mem_replicate] at hb
  omega

theorem fixedDistLens_le : ∀ b ∈ fixedDistLens, b ≤ 15 := by
  intro b hb
  simp only [fixedDistLens, List.mem_replicate] at hb
  omega

theorem TablesStep.inRange {s : State} {x : Tables} (h : TablesStep s x) (hs : s.tables.InRange)
    (hl : s.dyn.hlit.toNat ≤ 288) (hd : s.dyn.hdist.toNat ≤ 32) : x.InRange := by
  cases h with
  | same h => exact h ▸ hs
  | start _ h => exact h ▸ ⟨hs.lit.emptied, hs.dist.emptied, hs.cl.emptied⟩
  | fixed _ h =>
    exact h ▸ hs.load length_fixedLitLens.le length_fixedDistLens.le fixedLitLens_le fixedDistLens_le
  | dynamic _ h =>
    exact h ▸ hs.load ((length_litLens_le _).trans hl) ((length_distLens_le _).trans hd)
      (fun _ hb => Nat.le_of_lt_succ (lt_of_mem_map_toNat hb)) (fun _ hb => Nat.le_of_lt_succ (lt_of_mem_map_toNat hb))
  | header _ vs h =>
    subst h
    refine ⟨hs.lit, hs.dist, hs.cl.store_counted (by decide) (by decide) ?_ fun b hb => ?_⟩
    · rw [List.length_map, length_clLensOf]
    · have := lt_of_mem_map_toNat hb
      omega

/-! ## The temporaries of a dynamic header -/

/-- The ranges of the header's counts, arrays and index (R33). -/
structure Dyn.InRange (d : Dyn) : Prop where
  lens_length : d.lens.length = Config.nlensMax
  clLens_length : d.clLens.length = Config.ncl
  hlit_ge : 257 ≤ d.hlit.toNat
  hlit_le : d.hlit.toNat ≤ 288
  hdist_ge : 1 ≤ d.hdist.toNat
  hdist_le : d.hdist.toNat ≤ 32
  hclen_ge : 4 ≤ d.hclen.toNat
  hclen_le : d.hclen.toNat ≤ 19
  idx_le : d.idx.toNat ≤ Config.nlensMax

theorem hlitOf_toNat (f : BitVec 5) : (hlitOf f).toNat = f.toNat + 257 := by
  unfold hlitOf
  bv_omega

theorem hdistOf_toNat (f : BitVec 5) : (hdistOf f).toNat = f.toNat + 1 := by
  unfold hdistOf
  bv_omega

theorem hclenOf_toNat (f : BitVec 4) : (hclenOf f).toNat = f.toNat + 4 := by
  unfold hclenOf
  bv_omega

/-- The counts of any header are in range (R104). -/
theorem Dyn.InRange.counts {d : Dyn} (h : d.InRange) (a b : BitVec 5) (c : BitVec 4) : (d.counts a b c).InRange := by
  have ha := hlitOf_toNat a
  have hb := hdistOf_toNat b
  have hc := hclenOf_toNat c
  exact { h with
    hlit_ge := show 257 ≤ (hlitOf a).toNat by omega
    hlit_le := show (hlitOf a).toNat ≤ 288 by omega
    hdist_ge := show 1 ≤ (hdistOf b).toNat by omega
    hdist_le := show (hdistOf b).toNat ≤ 32 by omega
    hclen_ge := show 4 ≤ (hclenOf c).toNat by omega
    hclen_le := show (hclenOf c).toNat ≤ 19 by omega }

theorem Dyn.InRange.fill {d : Dyn} (h : d.InRange) {n : Nat} (v : BitVec 4) (hn : d.idx.toNat + n ≤ Config.nlensMax) :
    (d.fill n v).InRange := by
  have hmax : Config.nlensMax = 320 := rfl
  have hi : (d.fill n v).idx.toNat ≤ Config.nlensMax := by
    rw [Dyn.fill_idx (by omega)]
    exact hn
  exact { h with
    lens_length := (Dyn.fill_length (by rw [h.lens_length]; exact hn)).trans h.lens_length
    idx_le := hi }

theorem DynStep.inRange {s : State} {x : Dyn} (h : DynStep s x) (hs : s.dyn.InRange) : x.InRange := by
  cases h with
  | same b h => exact h ▸ { hs with }
  | counts a b c h => exact h ▸ hs.counts a b c
  | header a b c vs h =>
    exact h ▸ { hs.counts a b c with clLens_length := length_clLensOf vs, idx_le := Nat.zero_le _ }
  | fill n v hn h => exact h ▸ hs.fill v hn

/-! ## All the ranges -/

theorem State.rangeInv_iff (s : State) : s.RangeInv ↔ s.scan.InRange ∧ s.tables.InRange ∧ s.dyn.InRange :=
  ⟨fun h => ⟨{ h with }, { h with }, { h with }⟩, fun ⟨hs, ht, hd⟩ => { hs, ht, hd with }⟩

theorem step_rangeInv {s t : State} (hs : s.RangeInv) (h : step s = .next t) : t.RangeInv := by
  obtain ⟨hscan, htab, hdyn⟩ := (State.rangeInv_iff s).1 hs
  exact (State.rangeInv_iff t).2
    ⟨(step_scan h).inRange hscan, (step_tables h).inRange htab hdyn.hlit_le hdyn.hdist_le, (step_dyn h).inRange hdyn⟩

/-! ## The session -/

/-- `result` is 0x00 unless the session has failed, and then a code that can be raised (R22, R360). -/
def Session.Latched (x : Session) : Prop :=
  (x.sstate ≠ .failed → x.result = 0x00) ∧ (x.sstate = .failed → ∃ c : ErrCode, c ≠ .noMem ∧ x.result = c.code)

theorem SessionStep.latched {s : State} {x : Session} (h : SessionStep s x) (hs : s.CommandInv) : x.Latched := by
  cases h with
  | same h => exact h ▸ ⟨hs.ok, hs.latched⟩
  | failed e he h => exact h ▸ ⟨fun hf => absurd rfl hf, fun _ => ⟨e, he, rfl⟩⟩
  | done hc h =>
    have ha := hs.active (by rw [hc]; nofun)
    exact h ▸ ⟨fun _ => hs.ok (by rw [ha]; nofun), nofun⟩
  | start _ h => exact h ▸ ⟨fun _ => rfl, nofun⟩
  | abort _ h => exact h ▸ ⟨fun _ => rfl, nofun⟩

/-- A command that goes on was running in an active session already, and pulls one byte at most. -/
theorem step_commandInv {s t : State} (hs : s.CommandInv) (h : step s = .next t) : t.CommandInv := by
  obtain ⟨hok, hlatched⟩ := (step_session h).latched hs
  refine ⟨fun hc => ?_, fun d hd => ?_, hok, hlatched⟩
  · cases step_command h with
    | ends h => exact absurd h hc
    | starts ha _ => exact ha
    | pulls d b hd _ _ hsame _ =>
      rw [hsame]
      exact hs.active (by rw [hd]; nofun)
    | goesOn hcmd hsame _ =>
      rw [hsame]
      exact hs.active (hcmd ▸ hc)
  · cases step_command h with
    | ends h =>
      rw [h] at hd
      cases hd
    | starts _ h =>
      rcases h with h | h
      · cases h.symm.trans hd
        exact Nat.zero_le _
      · cases h.symm.trans hd
    | pulls e b _ hl h _ hrow =>
      cases h.symm.trans hd
      rw [hrow, List.length_append, List.length_singleton]
      omega
    | goesOn hcmd _ hrow =>
      rw [hrow]
      exact hs.pulled d (hcmd ▸ hd)

/-- Settles O53: every writer of a ranged register writes a value in its range, and only an error, which latches
its code, leaves a result. -/
theorem stepKeepsRangesAndSession : Obligations.StepKeepsRangesAndSession :=
  fun _ _ hs h => ⟨step_rangeInv hs.range h, step_commandInv hs.command h⟩

end Sys2Proof.Machine
end

section
/-!
The source and the writers of the registers (R36, R38), read off what a step does to each part.
-/

namespace Sys2Proof.Machine

/-! ## The source -/

/-- The source only loses answers, and only where a format that reads is expected. -/
theorem ReaderStep.advances_src {s : State} {x : Reader} (h : ReaderStep s x) :
    x.src.bytes <:+ s.reader.src.bytes ∧ x.src.hops <:+ s.reader.src.hops := by
  cases h with
  | same h => exact h ▸ ⟨List.suffix_rfl, List.suffix_rfl⟩
  | start _ h => exact h ▸ ⟨List.suffix_rfl, List.suffix_rfl⟩
  | reads f _ h => exact ⟨h.bytes, h.hops⟩

theorem ReaderStep.src_changed {s : State} {x : Reader} (h : ReaderStep s x) (hne : x.src ≠ s.reader.src) :
    ∃ f, s.Expects f ∧ f.readsSource = true := by
  cases h with
  | same h => exact absurd (h ▸ rfl) hne
  | start _ h => exact absurd h hne
  | reads f hx h => exact ⟨f, hx, by simpa using mt h.source hne⟩

/-- The states of the machine whose step reads nothing: the tables of a fixed block or of a complete dynamic
header, the end of a block, past the end of the stream. -/
def State.ReadsNothing (s : State) : Prop :=
  s.HeaderComplete ∨
    (s.Pulling ∧ (s.inflate.istate = .fixed ∨ s.inflate.istate = .blockEnd ∨ s.inflate.istate = .streamEnd))

theorem State.Expects.not_readsNothing {s : State} {f : Format} (hx : s.Expects f) (hf : f.readsSource = true)
    (h : s.ReadsNothing) : False := by
  have hp : s.Pulling := h.elim (·.1) (·.1)
  unfold State.ReadsNothing State.HeaderComplete at h
  cases f
  case hostCmd | fixed | filt => cases hf
  case ztrl =>
    obtain ⟨_, d, hc, _⟩ := hp
    cases hc.symm.trans hx
  case dynHdr =>
    obtain ⟨_, hi, hd⟩ := hx
    simp [hi, hd] at h
  case clSym =>
    obtain ⟨_, hi, hd, ht⟩ := hx
    simp [hi, Nat.not_le.2 ht] at h
  all_goals
    have hi := hx.2.1
    simp [hi] at h

/-- Settles O57: what changes the source is an element of a format that reads, and each of the steps named expects
none. -/
theorem sourceOnlyMovesForward : Obligations.SourceOnlyMovesForward := by
  intro s t h
  obtain ⟨hb, hh⟩ := (step_reader h).advances_src
  refine ⟨⟨_, List.suffix_iff_eq_drop.1 hb⟩, ⟨_, List.suffix_iff_eq_drop.1 hh⟩, fun hq => ?_⟩
  by_contra hne
  obtain ⟨f, hx, hf⟩ := (step_reader h).src_changed hne
  rcases hx.reading hf with hp | hfin
  · rcases hq with hc | ⟨hu, _⟩ | ⟨d, hc, hd⟩ | hq | hq
    · obtain ⟨_, d, hc', _⟩ := hp
      cases hc.symm.trans hc'
    · exact hu hp.1
    · rw [hx.filt_of_pulled hc hd] at hf
      cases hf
    · exact hx.not_readsNothing hf (.inl hq)
    · exact hx.not_readsNothing hf (.inr hq)
  · rcases hq with hc | ⟨_, hc⟩ | ⟨d, hc, _⟩ | ⟨⟨_, d, hc, _⟩, _⟩ | ⟨⟨_, d, hc, _⟩, _⟩
    · cases hc.symm.trans hfin
    · exact hc hfin
    all_goals cases hc.symm.trans hfin

/-! ## The writers -/

theorem SessionStep.writers {s : State} {x : Session} (h : SessionStep s x) :
    (x.sstate ≠ s.session.sstate →
      x.sstate = .failed ∨ (s.port.cmd = .finish ∧ x.sstate = .done) ∨ s.TakesStart ∨ s.TakesAbort) ∧
    (x.result ≠ s.session.result → x.sstate = .failed ∨ s.TakesStart ∨ s.TakesAbort) := by
  cases h with
  | same h => simp [h]
  | failed e _ h => simp [h]
  | done hc h => simp [h, hc]
  | start hs h => simp [hs]
  | abort hs h => simp [hs]

theorem ReaderStep.writers {s : State} {x : Reader} (h : ReaderStep s x) :
    (x.chunkRem ≠ s.reader.chunkRem → s.TakesStart ∨ ((s.Pulling ∨ s.port.cmd = .finish) ∧ x.src ≠ s.reader.src)) ∧
    (x.bitbuf ≠ s.reader.bitbuf ∨ x.bitcnt ≠ s.reader.bitcnt →
      s.TakesStart ∨ s.Expects .bhdr ∨ s.Expects .storedHdr ∨ s.Expects .dynHdr ∨ s.Expects .clSym ∨
        s.Expects .litLen ∨ s.Expects .dist) := by
  cases h with
  | same h => simp [h]
  | start hs h => simp [hs]
  | reads f hx h =>
    refine ⟨fun hne => .inr ?_, fun hne => .inr ?_⟩
    · have hsrc : x.src ≠ s.reader.src := mt h.chunk hne
      exact ⟨hx.reading (by simpa using mt h.source hsrc), hsrc⟩
    · have hf : f.readsBits = true := by
        by_contra hf
        obtain ⟨hb, hc⟩ := h.bits (by simpa using hf)
        exact hne.elim (· hb) (· hc)
      cases f
      case hostCmd | zhdr | raw | fixed | filt | ztrl => cases hf
      all_goals simp only [hx, true_or, or_true]

theorem ScanStep.writers {s : State} {x : Scan} (h : ScanStep s x) :
    (x.stride ≠ s.scan.stride → s.TakesStart) ∧
    (x.rowbytes ≠ s.scan.rowbytes → s.TakesPassBegin) ∧
    (x.passValid ≠ s.scan.passValid → s.TakesStart ∨ s.TakesPassBegin) ∧
    (x.ftype ≠ s.scan.ftype → s.Expects .filt) ∧
    (x.bufA ≠ s.scan.bufA ∨ x.bufB ≠ s.scan.bufB → s.Expects .filt ∨ s.TakesPassBegin) ∧
    (x.curSel ≠ s.scan.curSel → s.Expects .filt ∨ s.TakesStart) := by
  cases h with
  | same h => simp [h]
  | start hs st _ h => simp [h, hs]
  | beginPass hs n _ h => simp [h, hs]
  | load f d hc hd h =>
    have hx : s.Expects .filt := ⟨_, hc, hd⟩
    simp [h, hx, Scan.load_rowbytes]
  | deliver f d hc hd p h =>
    have hx : s.Expects .filt := ⟨_, hc, hd⟩
    simp [h, hx, Scan.load_rowbytes]

theorem InflateStep.writers {s : State} {x : Inflate} (h : InflateStep s x) :
    (x.istate ≠ s.inflate.istate → s.Pulling ∨ s.TakesStart) ∧
    (x.hdrDone ≠ s.inflate.hdrDone → s.Expects .zhdr ∨ s.TakesStart) ∧
    (x.bfinal ≠ s.inflate.bfinal → s.Expects .bhdr ∨ s.TakesStart) ∧
    (x.storedHdr ≠ s.inflate.storedHdr → s.Expects .bhdr ∨ s.Expects .storedHdr ∨ s.TakesStart) ∧
    (x.storedRem ≠ s.inflate.storedRem → s.Expects .storedHdr ∨ s.Expects .raw ∨ s.TakesStart) := by
  cases h with
  | same h => simp [h]
  | start hs h => simp [hs]
  | zlib hx h => simp [h, hx, hx.1, Inflate.headerDone]
  | block hx i f b h => simp [h, hx, hx.1]
  | storedLen hx n h => simp [h, hx, hx.1, Inflate.storedLen]
  | storedByte hx h => simp [h, hx, hx.1, Inflate.storedByte]
  | goto hp i h => simp [h, hp, Inflate.goto]

theorem WindowStep.writers {s : State} {x : Window} (h : WindowStep s x) :
    (x.wlog ≠ s.window.wlog → s.Expects .zhdr) ∧
    (x.mem ≠ s.window.mem → s.Expects .raw ∨ s.Expects .litLen ∨ s.Expects .dist) ∧
    (x.wr ≠ s.window.wr ∨ x.hist ≠ s.window.hist →
      s.Expects .raw ∨ s.Expects .litLen ∨ s.Expects .dist ∨ s.TakesStart) ∧
    (x.rd ≠ s.window.rd → s.PullsByte ∨ s.TakesStart) ∧
    (x.unread ≠ s.window.unread →
      s.PullsByte ∨ s.Expects .raw ∨ s.Expects .litLen ∨ s.Expects .dist ∨ s.TakesStart) := by
  cases h with
  | same h => simp [h]
  | start hs h => simp [h, hs, Window.started]
  | setSize hx n h => simp [h, hx]
  | put hx b h => rcases hx with hx | hx <;> simp [h, hx]
  | copy hx n d h => simp [h, hx]
  | drop hx h => simp [h, hx]

theorem TablesStep.writers {s : State} {x : Tables} (h : TablesStep s x) :
    (x.litTab ≠ s.tables.litTab ∨ x.distTab ≠ s.tables.distTab → s.Expects .fixed ∨ s.HeaderComplete) ∧
    (x.litN ≠ s.tables.litN ∨ x.distN ≠ s.tables.distN → s.Expects .fixed ∨ s.HeaderComplete ∨ s.TakesStart) ∧
    (x.clTab ≠ s.tables.clTab → s.Expects .dynHdr) ∧
    (x.clN ≠ s.tables.clN → s.Expects .dynHdr ∨ s.TakesStart) := by
  cases h with
  | same h => simp [h]
  | start hs h => simp [h, hs, Tables.started]
  | fixed hx h => simp [h, hx, Tables.setLit, Tables.setDist]
  | dynamic hc h => simp [h, hc, Tables.setLit, Tables.setDist]
  | header hx vs h => simp [h, hx, Tables.setCl]

/-- Settles O58: the writers of each part, one after another. -/
theorem registersHaveTheirWriters : Obligations.RegistersHaveTheirWriters := by
  intro s t h
  obtain ⟨hsstate, hresult⟩ := (step_session h).writers
  obtain ⟨hchunk, hbits⟩ := (step_reader h).writers
  obtain ⟨hstride, hrowbytes, hpass, hftype, hbufs, hsel⟩ := (step_scan h).writers
  obtain ⟨histate, hhdr, hfinal, hsthdr, hstrem⟩ := (step_inflate h).writers
  obtain ⟨hwlog, hmem, hwr, hrd, hunread⟩ := (step_window h).writers
  obtain ⟨htab, hn, hcltab, hcln⟩ := (step_tables h).writers
  exact ⟨hsstate, hresult, hchunk, hbits, hstride, hrowbytes, hpass, hftype, hbufs, hsel, histate, hhdr, hfinal, hsthdr,
    hstrem, hwlog, hmem, hwr, hrd, hunread, htab, hn, hcltab, hcln⟩

end Sys2Proof.Machine
end

section
/-!
The decoder, one equation for each format: what a word that fits its format decodes to (R101 to R104, R106,
R109, R111, R113, R114, R116), and that the encoder is its inverse on words and on well-formed instructions.
-/

namespace Sys2Proof

/-! ## One equation for each format -/

/-- A word is decoded by the rule of its format once it fits it. -/
theorem decode_hostCmd {w : Nat} (o : CmdOperands) (h : w < 2 ^ 3) :
    decode ⟨.hostCmd, w, o⟩ = .ok (decodeCommand (BitVec.ofNat 3 w) o) := if_neg (Nat.not_le.2 h)

theorem decode_zhdr {w : Nat} (o : CmdOperands) (h : w < 2 ^ 16) : decode ⟨.zhdr, w, o⟩ = .ok (decodeZlib w) :=
  if_neg (Nat.not_le.2 h)

theorem decode_bhdr {w : Nat} (o : CmdOperands) (h : w < 2 ^ 3) : decode ⟨.bhdr, w, o⟩ = .ok (decodeBlock w) :=
  if_neg (Nat.not_le.2 h)

theorem decode_storedHdr {w : Nat} (o : CmdOperands) (h : w < 2 ^ 32) :
    decode ⟨.storedHdr, w, o⟩ =
      .ok (.storedHdr (BitVec.ofNat 16 (field w 0 16)) (BitVec.ofNat 16 (field w 16 16))) :=
  if_neg (Nat.not_le.2 h)

theorem decode_raw {w : Nat} (o : CmdOperands) (h : w < 2 ^ 8) : decode ⟨.raw, w, o⟩ = .ok (.raw (BitVec.ofNat 8 w)) :=
  if_neg (Nat.not_le.2 h)

theorem decode_fixed {w : Nat} (o : CmdOperands) (h : w < 2 ^ 0) : decode ⟨.fixed, w, o⟩ = .ok .fixed :=
  if_neg (Nat.not_le.2 h)

theorem decode_dynHdr {w : Nat} (o : CmdOperands) (h : w < 2 ^ 14) : decode ⟨.dynHdr, w, o⟩ = .ok (decodeDyn w) :=
  if_neg (Nat.not_le.2 h)

theorem decode_clSym {w : Nat} (o : CmdOperands) (h : w < 2 ^ 5) :
    decode ⟨.clSym, w, o⟩ =
      if w < 16 then .ok (.clLen (BitVec.ofNat 4 w)) else decodeRow clRows (w - 16) .clSymbol :=
  if_neg (Nat.not_le.2 h)

theorem decode_litLen {w : Nat} (o : CmdOperands) (h : w < 2 ^ 9) :
    decode ⟨.litLen, w, o⟩ =
      if w < 256 then .ok (.lit (BitVec.ofNat 8 w)) else decodeRow litLenRows (w - 256) .litLenSymbol :=
  if_neg (Nat.not_le.2 h)

theorem decode_dist {w : Nat} (o : CmdOperands) (h : w < 2 ^ 5) :
    decode ⟨.dist, w, o⟩ = decodeRow distRows w .distSymbol := if_neg (Nat.not_le.2 h)

theorem decode_filt {w : Nat} (o : CmdOperands) (h : w < 2 ^ 8) : decode ⟨.filt, w, o⟩ = .ok (decodeFilter w) :=
  if_neg (Nat.not_le.2 h)

theorem decode_ztrl {w : Nat} (o : CmdOperands) (h : w < 2 ^ 32) :
    decode ⟨.ztrl, w, o⟩ = .ok (.ztrl (BitVec.ofNat 32 w)) := if_neg (Nat.not_le.2 h)

/-- A word with more bits than its format is rejected (R106, R109, R111). -/
theorem decode_too_wide {e : Element} (h : 2 ^ e.fmt.width ≤ e.word) : ∃ d, decode e = .error d := by
  unfold decode
  rw [if_pos h]
  split <;> exact ⟨_, rfl⟩

theorem decode_ok_lt {e : Element} {i : Instr} (h : decode e = .ok i) : e.word < 2 ^ e.fmt.width := by
  by_contra hw
  obtain ⟨d, hd⟩ := decode_too_wide (Nat.not_lt.1 hw)
  cases hd.symm.trans h

theorem decodeRow_eq_ok {rows : List Instr} {k : Nat} {e : DecodeError} {i : Instr} :
    decodeRow rows k e = .ok i ↔ rows[k]? = some i := by
  unfold decodeRow
  split <;> simp [*]

theorem decodeRow_eq_error {rows : List Instr} {k : Nat} {e d : DecodeError} :
    decodeRow rows k e = .error d ↔ rows.length ≤ k ∧ e = d := by
  unfold decodeRow
  rw [← List.getElem?_eq_none_iff]
  split <;> simp [*]

/-! ## Fields -/

/-- A field read into a register of its own width is what was written there. -/
theorem ofNat_field {w lo n : Nat} {x : BitVec n} (h : field w lo n = x.toNat) : BitVec.ofNat n (field w lo n) = x := by
  rw [h, BitVec.ofNat_toNat, BitVec.setWidth_eq]

theorem field_lt (w lo n : Nat) : field w lo n < 2 ^ n := Nat.mod_lt _ (Nat.two_pow_pos n)

theorem toNat_ofNat_field (w lo n : Nat) : (BitVec.ofNat n (field w lo n)).toNat = field w lo n := by
  rw [BitVec.toNat_ofNat, Nat.mod_eq_of_lt (field_lt w lo n)]

/-- A field of one bit, read as a flag. -/
theorem flag_eq {w lo : Nat} {b : Bool} (h : field w lo 1 = b.toNat) : (field w lo 1 == 1) = b := by
  rw [h]
  cases b <;> rfl

theorem toNat_flag (w lo : Nat) : (field w lo 1 == 1).toNat = field w lo 1 := by
  have := field_lt w lo 1
  rcases Nat.lt_or_ge (field w lo 1) 1 with h | h
  · rw [Nat.lt_one_iff.1 h]; rfl
  · rw [show field w lo 1 = 1 by omega]; rfl

/-! ## Decoding after encoding -/

/-- The zlib header's fields do not overlap (R101). -/
theorem decodeZlib_encode (cm cinfo : BitVec 4) (fcheck : BitVec 5) (fdict : Bool) (flevel : BitVec 2) :
    decodeZlib (encode (.zlib cm cinfo fcheck fdict flevel)).word = .zlib cm cinfo fcheck fdict flevel := by
  have h₀ := cm.isLt
  have h₁ := cinfo.isLt
  have h₂ := fcheck.isLt
  have h₃ := fdict.toNat_le
  have h₄ := flevel.isLt
  unfold decodeZlib
  congr 1
  case e_cm => exact ofNat_field (by simp only [field, encode]; omega)
  case e_cinfo => exact ofNat_field (by simp only [field, encode]; omega)
  case e_fcheck => exact ofNat_field (by simp only [field, encode]; omega)
  case e_fdict => exact flag_eq (by simp only [field, encode]; omega)
  case e_flevel => exact ofNat_field (by simp only [field, encode]; omega)

/-- LEN stands below NLEN (R103). -/
theorem decode_encode_storedHdr (len nlen : BitVec 16) :
    decode (encode (.storedHdr len nlen)) = .ok (.storedHdr len nlen) := by
  have h₀ := len.isLt
  have h₁ := nlen.isLt
  refine (decode_storedHdr _ (Laws.EncodedWord.storedHdr len nlen)).trans ?_
  congr 2
  case e_len => exact ofNat_field (by simp only [field, encode]; omega)
  case e_nlen => exact ofNat_field (by simp only [field, encode]; omega)

/-- HLIT, HDIST and HCLEN do not overlap (R104). -/
theorem decodeDyn_encode (hlit hdist : BitVec 5) (hclen : BitVec 4) :
    decodeDyn (encode (.dyn hlit hdist hclen)).word = .dyn hlit hdist hclen := by
  have h₀ := hlit.isLt
  have h₁ := hdist.isLt
  have h₂ := hclen.isLt
  unfold decodeDyn
  congr 1
  case e_hlit => exact ofNat_field (by simp only [field, encode]; omega)
  case e_hdist => exact ofNat_field (by simp only [field, encode]; omega)
  case e_hclen => exact ofNat_field (by simp only [field, encode]; omega)

/-- The filter-type bytes 5 to 255 are the invalid ones (R113). -/
theorem decodeFilter_invalid {w : Nat} (h : 5 ≤ w) : decodeFilter w = .fInvalid (BitVec.ofNat 8 w) := by
  unfold decodeFilter
  split
  case h_6 => rfl
  all_goals omega

/-- Decoding undoes encoding: the fields of a word are taken apart where they were put together, and a row
without fields is found under its own number. -/
theorem decode_encode {i : Instr} (h : i.wf = true) : decode (encode i) = .ok i := by
  cases i
  case start | passBegin => rfl
  case zlib cm cinfo fcheck fdict flevel =>
    exact (decode_zhdr _ (Laws.EncodedWord.zlib ..)).trans (congrArg _ (decodeZlib_encode ..))
  case blockStored f | blockFixed f | blockDynamic f | blockReserved f => cases f <;> rfl
  case storedHdr len nlen => exact decode_encode_storedHdr len nlen
  case raw b => exact (decode_raw _ b.isLt).trans (by simp)
  case dyn a b c => exact (decode_dynHdr _ (Laws.EncodedWord.dyn ..)).trans (congrArg _ (decodeDyn_encode ..))
  case clLen n => exact (decode_clSym _ (Laws.EncodedWord.clLen n)).trans ((if_pos n.isLt).trans (by simp [encode]))
  case lit b => exact (decode_litLen _ (Laws.EncodedWord.lit b)).trans ((if_pos b.isLt).trans (by simp [encode]))
  case fInvalid t =>
    refine (decode_filt _ t.isLt).trans ?_
    rw [decodeFilter_invalid (of_decide_eq_true h), BitVec.ofNat_toNat, BitVec.setWidth_eq]
  case ztrl a => exact (decode_ztrl _ a.isLt).trans (by simp)
  all_goals decide

/-- Settles O1, by cases on the instruction. -/
theorem decodeEncodeAgree : Obligations.DecodeEncodeAgree := fun _ h => decode_encode h

/-! ## Encoding after decoding -/

theorem word_decodeCommand (c : BitVec 3) (o : CmdOperands) : (encode (decodeCommand c o)).word = c.toNat := by
  have := c.isLt
  unfold decodeCommand
  interval_cases c.toNat <;> rfl

theorem word_decodeZlib {w : Nat} (h : w < 2 ^ 16) : (encode (decodeZlib w)).word = w := by
  simp only [decodeZlib, encode, toNat_ofNat_field, toNat_flag]
  unfold field
  omega

theorem word_decodeBlock {w : Nat} (h : w < 2 ^ 3) : (encode (decodeBlock w)).word = w := by
  have ht := field_lt w 1 2
  have e : 2 * field w 1 2 + field w 0 1 = w := by unfold field; omega
  unfold decodeBlock
  interval_cases field w 1 2 <;> simp only [encode, toNat_flag] <;> omega

theorem word_storedHdr_field {w : Nat} (h : w < 2 ^ 32) :
    (encode (.storedHdr (BitVec.ofNat 16 (field w 0 16)) (BitVec.ofNat 16 (field w 16 16)))).word = w := by
  simp only [encode, toNat_ofNat_field]
  unfold field
  omega

theorem word_decodeDyn {w : Nat} (h : w < 2 ^ 14) : (encode (decodeDyn w)).word = w := by
  simp only [decodeDyn, encode, toNat_ofNat_field]
  unfold field
  omega

theorem word_decodeFilter {w : Nat} (h : w < 2 ^ 8) : (encode (decodeFilter w)).word = w := by
  unfold decodeFilter
  split <;> simp only [encode, BitVec.toNat_ofNat]
  exact Nat.mod_eq_of_lt h

/-- Row `k` of a list of rows numbered from `base` on has the word `base + k`. -/
theorem word_of_row {rows : List Instr} {base k : Nat} {i : Instr}
    (h : rows.map (fun j => (encode j).word) = List.range' base rows.length) (hi : rows[k]? = some i) :
    (encode i).word = base + k := by
  obtain ⟨hk, rfl⟩ := List.getElem?_eq_some_iff.1 hi
  have := List.getElem_of_eq h (by simpa using hk)
  simpa using this

theorem word_of_decodeRow {rows : List Instr} {base w : Nat} {e : DecodeError} {i : Instr}
    (h : rows.map (fun j => (encode j).word) = List.range' base rows.length) (hw : base ≤ w)
    (hi : decodeRow rows (w - base) e = .ok i) : (encode i).word = w := by
  rw [word_of_row h (decodeRow_eq_ok.1 hi)]
  omega

theorem words_of_clRows : clRows.map (fun j => (encode j).word) = List.range' 16 clRows.length := by decide

theorem words_of_litLenRows : litLenRows.map (fun j => (encode j).word) = List.range' 256 litLenRows.length := by decide

theorem words_of_distRows : distRows.map (fun j => (encode j).word) = List.range' 0 distRows.length := by decide

/-- The encoder writes the word an instruction was decoded from: the fields of a format cover its word, and the rows
of an alphabet are numbered in order. -/
theorem word_of_decode {e : Element} {i : Instr} (h : decode e = .ok i) : (encode i).word = e.word := by
  have hw := decode_ok_lt h
  obtain ⟨f, w, o⟩ := e
  cases f
  case hostCmd =>
    cases (decode_hostCmd o hw).symm.trans h
    exact (word_decodeCommand _ o).trans (Nat.mod_eq_of_lt hw)
  case zhdr =>
    cases (decode_zhdr o hw).symm.trans h
    exact word_decodeZlib hw
  case bhdr =>
    cases (decode_bhdr o hw).symm.trans h
    exact word_decodeBlock hw
  case storedHdr =>
    cases (decode_storedHdr o hw).symm.trans h
    exact word_storedHdr_field hw
  case raw =>
    cases (decode_raw o hw).symm.trans h
    exact Nat.mod_eq_of_lt hw
  case fixed =>
    cases (decode_fixed o hw).symm.trans h
    exact (Nat.lt_one_iff.1 hw).symm
  case dynHdr =>
    cases (decode_dynHdr o hw).symm.trans h
    exact word_decodeDyn hw
  case clSym =>
    rw [decode_clSym o hw] at h
    split at h
    next hn =>
      cases h
      exact Nat.mod_eq_of_lt hn
    next hn => exact word_of_decodeRow words_of_clRows (Nat.not_lt.1 hn) h
  case litLen =>
    rw [decode_litLen o hw] at h
    split at h
    next hn =>
      cases h
      exact Nat.mod_eq_of_lt hn
    next hn => exact word_of_decodeRow words_of_litLenRows (Nat.not_lt.1 hn) h
  case dist =>
    rw [decode_dist o hw] at h
    exact word_of_decodeRow words_of_distRows (Nat.zero_le w) h
  case filt =>
    cases (decode_filt o hw).symm.trans h
    exact word_decodeFilter hw
  case ztrl =>
    cases (decode_ztrl o hw).symm.trans h
    exact Nat.mod_eq_of_lt hw

/-! ## Words that are no element -/

/-- A code-length symbol that fits its 5 bits is rejected from 19 on (R106). -/
theorem decode_clSym_rejects {w : Nat} (o : CmdOperands) (h : w < 2 ^ 5) :
    (∃ d, decode ⟨.clSym, w, o⟩ = .error d) ↔ 19 ≤ w := by
  rw [decode_clSym o h]
  split
  · exact iff_of_false (by simp) (by omega)
  · simp only [decodeRow_eq_error, show clRows.length = 3 from rfl, exists_and_left, exists_eq', and_true]
    omega

/-- A literal/length symbol that fits its 9 bits is rejected from 288 on (R109). -/
theorem decode_litLen_rejects {w : Nat} (o : CmdOperands) (h : w < 2 ^ 9) :
    (∃ d, decode ⟨.litLen, w, o⟩ = .error d) ↔ 288 ≤ w := by
  rw [decode_litLen o h]
  split
  · exact iff_of_false (by simp) (by omega)
  · simp only [decodeRow_eq_error, show litLenRows.length = 32 from rfl, exists_and_left, exists_eq', and_true]
    omega

/-- Every distance symbol of 5 bits is an element (R111). -/
theorem decode_dist_accepts {w : Nat} (o : CmdOperands) (h : w < 2 ^ 5) (d : DecodeError) :
    decode ⟨.dist, w, o⟩ ≠ .error d := by
  rw [decode_dist o h, Ne, decodeRow_eq_error]
  exact fun hd => Nat.not_le.2 h hd.1

/-- The rejected words: too wide for their format, or a symbol past the end of its alphabet. -/
theorem decode_rejects_iff (e : Element) : (∃ d, decode e = .error d) ↔
    (2 ^ e.fmt.width ≤ e.word ∨ (e.fmt = .clSym ∧ 19 ≤ e.word) ∨ (e.fmt = .litLen ∧ 288 ≤ e.word)) := by
  rcases Nat.lt_or_ge e.word (2 ^ e.fmt.width) with hw | hw
  case inr => exact iff_of_true (decode_too_wide hw) (.inl hw)
  rw [or_iff_right (Nat.not_le.2 hw)]
  obtain ⟨f, w, o⟩ := e
  cases f
  case clSym => simp [decode_clSym_rejects o hw]
  case litLen => simp [decode_litLen_rejects o hw]
  case dist => simp [decode_dist_accepts o hw]
  case hostCmd => simp [decode_hostCmd o hw]
  case zhdr => simp [decode_zhdr o hw]
  case bhdr => simp [decode_bhdr o hw]
  case storedHdr => simp [decode_storedHdr o hw]
  case raw => simp [decode_raw o hw]
  case fixed => simp [decode_fixed o hw]
  case dynHdr => simp [decode_dynHdr o hw]
  case filt => simp [decode_filt o hw]
  case ztrl => simp [decode_ztrl o hw]

/-- Settles O2, format by format. -/
theorem decodedWordIsTheElementsWord : Obligations.DecodedWordIsTheElementsWord :=
  ⟨fun _ _ h => ⟨Machine.decode_fmt h, word_of_decode h⟩, decode_rejects_iff⟩

/-- Settles O3: each word is decoded by evaluation. -/
theorem writtenOutWordsDecode : Obligations.WrittenOutWordsDecode := by
  unfold Obligations.WrittenOutWordsDecode
  decide

end Sys2Proof
end

section
/-!
The symbols of a match: the value of each length and distance symbol and the copy that ends a match (R110, R111,
R254 to R256), and the symbols a MATCH line names for a given length and distance (R119).
-/

namespace Sys2Proof.Machine

/-! ## Reading inside a meaning -/

theorem State.withBits_ok {s : State} {n x : Nat} {r : Reader} (k : Nat → State → Out)
    (h : s.reader.readBits n = .ok x r) : s.withBits n k = k x (s.setReader r) := by
  unfold State.withBits State.andThen
  rw [h]

theorem State.withBits_raise {s : State} {n : Nat} {c : ErrCode} {r : Reader} (k : Nat → State → Out)
    (h : s.reader.readBits n = .raise c r) : s.withBits n k = .next ((s.setReader r).raise c) := by
  unfold State.withBits State.andThen
  rw [h]
  rfl

theorem lengthSymbol_ok {base ext x : Nat} {s : State} {r : Reader} (h : s.reader.readBits ext = .ok x r) :
    lengthSymbol base ext s =
      .next ((s.setReader r).setTemps { s.temps with mlen := lengthOf base x, lenPend := true }) :=
  State.withBits_ok _ h

/-- A distance within the history and a match within the window are copied (R254, R256). -/
theorem copyMatch_fits {s : State} (hd : s.temps.mdist.toNat ≤ s.window.hist.toNat)
    (hl : s.temps.mlen.toNat ≤ s.window.size) :
    copyMatch s = .next ((s.setWindow (s.window.copy s.temps.mlen.toNat s.temps.mdist.toNat)).setTemps
      { s.temps with lenPend := false }) := by
  unfold copyMatch
  rw [if_neg (Nat.not_lt.2 hd), if_neg (Nat.not_lt.2 hl)]

theorem distSymbol_fits {base ext x : Nat} {s : State} {r : Reader} (h : s.reader.readBits ext = .ok x r)
    (hx : base + x < 65536) (hd : base + x ≤ s.window.hist.toNat) (hl : s.temps.mlen.toNat ≤ s.window.size) :
    distSymbol base ext s =
      .next (((s.setReader r).setWindow (s.window.copy s.temps.mlen.toNat (base + x))).setTemps
        { s.temps with mdist := distanceOf base x, lenPend := false }) := by
  have hm := distanceOf_toNat hx
  have hcopied := copyMatch_fits (s := (s.setReader r).setTemps { s.temps with mdist := distanceOf base x })
    (hm.trans_le hd) hl
  rw [State.setTemps_temps, hm] at hcopied
  exact (State.withBits_ok _ h).trans hcopied

/-! ## The length symbols -/

/-- A length symbol, by its base and number of extra bits (R110, R254). -/
theorem exec_length {i : Instr} {base ext : Nat} (hi : lengthParams i = some (base, ext)) (s : State) :
    (∀ (x : Nat) (r : Reader), s.reader.readBits ext = .ok x r →
      ∃ t, exec i s = .next t ∧ t.temps.mlen.toNat = base + x ∧ 3 ≤ t.temps.mlen.toNat ∧ t.temps.mlen.toNat ≤ 258 ∧
        t = { s with reader := r, temps := { s.temps with mlen := t.temps.mlen, lenPend := true } }) ∧
    ∀ (c : ErrCode) (r : Reader), s.reader.readBits ext = .raise c r → ∃ t, exec i s = .next t ∧ s.FailedWith c.code t := by
  obtain ⟨he, -, hbase, htop⟩ := exec_lengthParams s hi
  rw [he]
  refine ⟨fun x r hr => ?_, fun c r hr => ⟨_, State.withBits_raise _ hr, State.raise_failedWith _ c⟩⟩
  have hx := Reader.readBits_lt hr
  have hlen : (lengthOf base x).toNat = base + x := lengthOf_toNat (by omega)
  exact ⟨_, lengthSymbol_ok hr, hlen, le_of_le_of_eq (by omega) hlen.symm, hlen.trans_le (by omega), rfl⟩

/-- Settles O38: every row has the base and the number of extra bits of its meaning. -/
theorem lengthSymbolsSetTheLength : Obligations.LengthSymbolsSetTheLength := by
  intro p hp
  have hi : lengthParams p.1 = some p.2 := by
    revert p
    decide
  exact exec_length hi

/-! ## The distance symbols -/

/-- Settles O39: every row has the base and the number of extra bits of its meaning, and what is copied, and where, is
what `Copy` does with the distance they give. -/
theorem distanceSymbolsCopyTheMatch : Obligations.DistanceSymbolsCopyTheMatch := by
  intro p hp
  have hi : distanceParams p.1 = some p.2 := by
    revert p
    decide
  clear hp
  obtain ⟨i, base, ext⟩ := p
  intro s x r hr hwf hwr hhist hunread hdist hlen
  dsimp only at hr hdist ⊢
  obtain ⟨he, -, hbase, htop⟩ := exec_distanceParams s hi
  have hx := Reader.readBits_lt hr
  have hd : (distanceOf base x).toNat = base + x := distanceOf_toNat (by omega)
  have hu : s.window.unread.toNat = 0 := congrArg BitVec.toNat hunread
  have hcopied := Window.copy_unread (d := base + x) (w := s.window) (n := s.temps.mlen.toNat) (by omega)
  rw [he]
  refine ⟨_, distSymbol_fits hr (by omega) hdist hlen, hd, le_of_le_of_eq (by omega) hd.symm, hd.trans_le (by omega), ?_⟩
  exact ⟨fun k hk => Window.copy_read hwf hwr (by omega) (by omega) hlen hk,
    fun a ha => Window.copy_read_other hwr ha, Window.copy_wr hwr, hcopied.trans (by omega), Window.copy_hist hhist,
    Window.copy_rd .., Window.copy_wlog .., rfl⟩

/-! ## MATCH lines (R119) -/

/-- The rows leave no gap below `top`: bases rise, and the values of each row reach the next base. -/
def Tiled (rows : List (Nat × Nat)) (top : Nat) : Prop :=
  (rows ++ [(top, 0)]).IsChain fun p q : Nat × Nat => p.1 < q.1 ∧ q.1 ≤ p.1 + 2 ^ p.2

theorem tiled_lengthRows : Tiled lengthRows 259 := by unfold Tiled; decide

theorem tiled_distanceRows : Tiled distanceRows 32769 := by unfold Tiled; decide

theorem tiled_cons_cons {p q : Nat × Nat} {rows : List (Nat × Nat)} {top : Nat} :
    Tiled (p :: q :: rows) top ↔ (p.1 < q.1 ∧ q.1 ≤ p.1 + 2 ^ p.2) ∧ Tiled (q :: rows) top := List.isChain_cons_cons

theorem Tiled.base_le {p r : Nat × Nat} {rows : List (Nat × Nat)} {top : Nat} (h : Tiled (p :: rows) top)
    (hr : r ∈ p :: rows) : p.1 ≤ r.1 := by
  induction rows generalizing p with
  | nil => rw [List.mem_singleton.1 hr]
  | cons q rows ih =>
    obtain ⟨⟨hpq, -⟩, hq⟩ := tiled_cons_cons.1 h
    rcases List.mem_cons.1 hr with rfl | hr
    · exact Nat.le_refl _
    · exact hpq.le.trans (ih hq hr)

theorem lastRow_eq_zero {p : Nat × Nat} {rows : List (Nat × Nat)} {v : Nat} (h : ∀ r ∈ rows, v < r.1) :
    lastRow (p :: rows) v = 0 := by
  have hz : rows.countP (fun r => decide (r.1 ≤ v)) = 0 := List.countP_eq_zero.2 fun r hr => by simpa using h r hr
  unfold lastRow
  rw [List.countP_cons, hz]
  split <;> rfl

theorem lastRow_cons_cons {p q : Nat × Nat} {rows : List (Nat × Nat)} {v : Nat} (hp : p.1 ≤ v) (hq : q.1 ≤ v) :
    lastRow (p :: q :: rows) v = lastRow (q :: rows) v + 1 := by
  simp [lastRow, hp, hq]

/-- Row `k` is the last with a base of at most `v`, and `v` is one of its values. -/
def IsRowOf (rows : List (Nat × Nat)) (v k : Nat) : Prop :=
  ∃ b e, rows[k]? = some (b, e) ∧ b ≤ v ∧ v < b + 2 ^ e ∧ ∀ j b' e', rows[j]? = some (b', e') → b' ≤ v → j ≤ k

theorem IsRowOf.first {p : Nat × Nat} {rows : List (Nat × Nat)} {v : Nat} (hp : p.1 ≤ v) (hv : v < p.1 + 2 ^ p.2)
    (h : ∀ r ∈ rows, v < r.1) : IsRowOf (p :: rows) v 0 := by
  refine ⟨p.1, p.2, rfl, hp, hv, fun j b' e' hj hb => ?_⟩
  cases j with
  | zero => exact Nat.le_refl 0
  | succ j => exact absurd hb (Nat.not_le.2 (h _ (List.mem_of_getElem? hj)))

theorem IsRowOf.cons {rows : List (Nat × Nat)} {v k : Nat} (h : IsRowOf rows v k) (p : Nat × Nat) :
    IsRowOf (p :: rows) v (k + 1) := by
  obtain ⟨b, e, hrow, hb, hv, hlast⟩ := h
  refine ⟨b, e, hrow, hb, hv, fun j b' e' hj hb' => ?_⟩
  cases j with
  | zero => exact Nat.zero_le _
  | succ j => exact Nat.succ_le_succ (hlast j b' e' hj hb')

/-- In rows without a gap, counting the bases of at most `v` finds the row of `v`. -/
theorem Tiled.isRowOf_lastRow {p : Nat × Nat} {rows : List (Nat × Nat)} {top v : Nat} (h : Tiled (p :: rows) top)
    (hp : p.1 ≤ v) (hv : v < top) : IsRowOf (p :: rows) v (lastRow (p :: rows) v) := by
  induction rows generalizing p with
  | nil =>
    obtain ⟨-, htop⟩ : p.1 < top ∧ top ≤ p.1 + 2 ^ p.2 := by simpa [Tiled] using h
    rw [lastRow_eq_zero (by simp)]
    exact .first hp (hv.trans_le htop) (by simp)
  | cons q rows ih =>
    obtain ⟨⟨-, hreach⟩, hrest⟩ := tiled_cons_cons.1 h
    rcases Nat.lt_or_ge v q.1 with hq | hq
    · have hlater : ∀ r ∈ q :: rows, v < r.1 := fun r hr => hq.trans_le (hrest.base_le hr)
      rw [lastRow_eq_zero hlater]
      exact .first hp (hq.trans_le hreach) hlater
    · rw [lastRow_cons_cons hp hq]
      exact (ih hrest hq).cons p

/-- The extra field of `v` in its row. -/
theorem extra_of_row {rows : List (Nat × Nat)} {v k b e : Nat} (hrow : rows[k]? = some (b, e)) (hb : b ≤ v)
    (hv : v < b + 2 ^ e) : b + (v - (rows.getD k (0, 0)).1) = v ∧ v - (rows.getD k (0, 0)).1 < 2 ^ e := by
  rw [List.getD_eq_getElem?_getD, hrow, Option.getD_some]
  omega

/-- Settles O60: the rows of both tables leave no gap, so the row chosen is the one whose values include the length or
the distance. -/
theorem matchNotationNamesTheMatch : Obligations.MatchNotationNamesTheMatch := by
  refine ⟨fun len hlo hhi => ?_, by decide, fun dist hlo hhi => ?_⟩
  · have h : IsRowOf lengthRows len (lastRow lengthRows len) :=
      tiled_lengthRows.isRowOf_lastRow hlo (Nat.lt_succ_of_le hhi)
    obtain ⟨b, e, hrow, hb, hv, -⟩ := h
    obtain ⟨hsum, hfits⟩ := extra_of_row hrow hb hv
    exact ⟨b, e, by simpa [matchLength] using hrow, Nat.le_add_right _ _, hsum, hfits⟩
  · have h : IsRowOf distanceRows dist (lastRow distanceRows dist) :=
      tiled_distanceRows.isRowOf_lastRow hlo (Nat.lt_succ_of_le hhi)
    obtain ⟨b, e, hrow, hb, hv, hlast⟩ := h
    obtain ⟨hsum, hfits⟩ := extra_of_row hrow hb hv
    exact ⟨b, e, hrow, hsum, hfits, hlast⟩

end Sys2Proof.Machine
end

section
/-!
The host commands one by one (spec/40_host_commands.md): what each answers, from its operand check and the
legality table to its response.
-/

namespace Sys2Proof.Machine

/-! ## Taking a command (R140, R116) -/

theorem decode_command (q : HostReq) :
    decode ⟨.hostCmd, q.code.toNat, q.ops⟩ = .ok (decodeCommand q.code q.ops) := by
  rw [decode_hostCmd q.ops q.code.isLt, BitVec.ofNat_toNat, BitVec.setWidth_eq]

theorem fetch_idle {s : State} (hc : s.port.cmd = .waiting) (hq : s.port.cmds = []) : fetch s = .done (.next s) := by
  simp only [fetch, hc, hq]

theorem fetch_command {s : State} {q : HostReq} {qs : List HostReq} (hc : s.port.cmd = .waiting)
    (hq : s.port.cmds = q :: qs) :
    fetch s = .instr (decodeCommand q.code q.ops) (s.setPort { s.port with cmds := qs }) := by
  simp only [fetch, hc, hq]

/-- Settles O4: a waiting machine fetches the oldest command, whose code decodes to it, or stays as it is. -/
theorem nextCommandRuns : Obligations.NextCommandRuns := fun _ hc =>
  ⟨fun hq => step_of_done (fetch_idle hc hq), fun q _ hq => ⟨decode_command q, step_of_fetch (fetch_command hc hq)⟩⟩

/-! ## What the commands answer -/

theorem execStart_legal {st : BitVec 4} (c : BitVec 32) (s : State) (h : 1 ≤ st.toNat ∧ st.toNat ≤ Config.strideMax) :
    execStart c st s = .next ((s.started c st).respond none) := if_neg (by omega)

theorem execStart_outOfRange {st : BitVec 4} (c : BitVec 32) (s : State)
    (h : ¬(1 ≤ st.toNat ∧ st.toNat ≤ Config.strideMax)) : execStart c st s = .refused .operandRange := if_pos (by omega)

theorem State.ifLegal_failed {s : State} (k : State → Out) (h : s.session.sstate = .failed) :
    s.ifLegal k = .next (s.respond none) := by
  rw [State.ifLegal, h]

/-- Outside a session the legality table refuses (R141). -/
theorem State.ifLegal_closed {s : State} (k : State → Out) (h : s.session.sstate = .idle ∨ s.session.sstate = .done) :
    s.ifLegal k = .refused .protocol := by
  rcases h with h | h <;> rw [State.ifLegal, h]

theorem execPassBegin_legal {n : BitVec 11} {s : State} (hs : s.session.sstate = .active)
    (h : 1 ≤ n.toNat ∧ n.toNat ≤ Config.rowbytesMax) :
    execPassBegin n s = .next ((s.setScan (s.scan.beginPass n)).respond none) :=
  (State.ifLegal_active hs).trans (if_neg (by omega))

theorem execPassBegin_outOfRange {n : BitVec 11} {s : State} (hs : s.session.sstate = .active)
    (h : ¬(1 ≤ n.toNat ∧ n.toNat ≤ Config.rowbytesMax)) : execPassBegin n s = .refused .operandRange :=
  (State.ifLegal_active hs).trans (if_pos (by omega))

theorem execRow_legal {s : State} (hs : s.session.sstate = .active) (hp : s.scan.passValid = true) :
    execRow s = .next (s.setPort { s.port with cmd := .row [] }) :=
  (State.ifLegal_active hs).trans (if_pos hp)

theorem execRow_noPass {s : State} (hs : s.session.sstate = .active) (hp : s.scan.passValid = false) :
    execRow s = .refused .protocol :=
  (State.ifLegal_active hs).trans (if_neg (by rw [hp]; nofun))

theorem execFinish_legal {s : State} (hs : s.session.sstate = .active) :
    execFinish s = .next (s.setPort { s.port with cmd := .finish }) :=
  State.ifLegal_active hs

/-- Settles O8: the operand check decides, and a legal START writes the registers R142 names. -/
theorem startOpensASession : Obligations.StartOpensASession := fun s c _ =>
  ⟨fun h => ⟨_, execStart_legal c s h, rfl, rfl, rfl, rfl, rfl, rfl, rfl, rfl, rfl⟩, execStart_outOfRange c s⟩

/-- Settles O10: in an active session the table lets ROW and FINISH start, and the trailer's bytes are not looked
at. -/
theorem rowFinishAndTrailer : Obligations.RowFinishAndTrailer :=
  ⟨fun _ hs => ⟨execRow_legal hs, execRow_noPass hs, execFinish_legal hs⟩, fun _ _ => rfl⟩

/-- Settles O12: ABORT looks at nothing. -/
theorem abortDiscardsTheSession : Obligations.AbortDiscardsTheSession := fun _ => ⟨_, rfl, rfl, rfl⟩

/-- Settles O14: each reserved code has a meaning of its own, which refuses. -/
theorem reservedCodesAreRefused : Obligations.ReservedCodesAreRefused := fun _ _ => ⟨rfl, rfl, rfl, rfl, rfl, rfl⟩

/-! ## PASS_BEGIN (R144) -/

/-- Writing zeros to the first cells reads as zero there and as before elsewhere. -/
theorem Memory.read_writeAll_zeros {m : Memory} (hm : m.wf = true) (n a : Nat) :
    (m.writeAll 0 (List.replicate n 0)).read a = if a < n then 0 else m.read a := by
  rw [Memory.read_writeAll 0 a _ hm, List.length_replicate]
  by_cases h : a < n <;> simp [h]

/-- Settles O9: the operand check decides; only `prev`, `rowbytes` and `pass_valid` are written. -/
theorem passBeginZeroesThePreviousRow : Obligations.PassBeginZeroesThePreviousRow := by
  intro s n hs hprev
  have ha : s.session.sstate = .active := by rw [hs]
  refine ⟨fun hn => ⟨_, execPassBegin_legal ha hn, fun a => ?_, rfl, rfl, by simp, by simp, by simp, by simp, ?_⟩,
    execPassBegin_outOfRange ha⟩
  · simpa using Memory.read_writeAll_zeros hprev n.toNat a
  · simp [State.respond, State.setScan, State.setPort, hs]

/-! ## The legality table (R141) -/

/-- What a verdict of the table asks of the answer to a command. -/
def Verdict.Holds (s : State) (o : Out) : Verdict → Prop
  | .run => ∃ t, o = .next t ∧ t.session.sstate ≠ .failed
  | .latched => o = .next { s with
      port := { s.port with
        cmd := .waiting
        resps := s.port.resps ++ [{ result := s.session.result, sstate := .failed, row := none }] } }
  | .refused => ∃ why, o = .refused why ∧ (why = .protocol ∨ why = .reservedCommand)

theorem verdict_failed {n : Nat} (p : Bool) (hn : n = 2 ∨ n = 3 ∨ n = 4) : verdict n .failed p = .latched := by
  rcases hn with rfl | rfl | rfl <;> rfl

theorem verdict_closed {n : Nat} {st : SState} (p : Bool) (hn : n = 2 ∨ n = 3 ∨ n = 4) (h : st = .idle ∨ st = .done) :
    verdict n st p = .refused := by
  rcases hn with rfl | rfl | rfl <;> rcases h with rfl | rfl <;> rfl

/-- The latched answer of the table. -/
theorem State.respond_latched {s : State} (h : s.session.sstate = .failed) :
    Verdict.Holds s (.next (s.respond none)) .latched := by
  simp [Verdict.Holds, State.respond, State.setPort, h]

/-- PASS_BEGIN, ROW and FINISH obey the table in every state once they obey it in an active session. -/
theorem State.ifLegal_verdict {s : State} {k : State → Out} {n : Nat} (hn : n = 2 ∨ n = 3 ∨ n = 4)
    (hk : s.session.sstate = .active → (verdict n .active s.scan.passValid).Holds s (k s)) :
    (verdict n s.session.sstate s.scan.passValid).Holds s (s.ifLegal k) := by
  have closed (h : s.session.sstate = .idle ∨ s.session.sstate = .done) :
      (verdict n s.session.sstate s.scan.passValid).Holds s (s.ifLegal k) := by
    rw [verdict_closed _ hn h, State.ifLegal_closed k h]
    exact ⟨_, rfl, .inl rfl⟩
  cases hs : s.session.sstate with
  | active =>
    rw [State.ifLegal_active hs]
    exact hk hs
  | failed =>
    rw [State.ifLegal_failed k hs, verdict_failed _ hn]
    exact State.respond_latched hs
  | idle => exact hs ▸ closed (.inl hs)
  | done => exact hs ▸ closed (.inr hs)

theorem execPassBegin_verdict {n : BitVec 11} (s : State) (h : 1 ≤ n.toNat ∧ n.toNat ≤ Config.rowbytesMax) :
    (verdict 2 s.session.sstate s.scan.passValid).Holds s (execPassBegin n s) :=
  State.ifLegal_verdict (.inl rfl) fun hs => ⟨_, if_neg (by omega), by simp [hs]⟩

theorem execRow_verdict (s : State) : (verdict 3 s.session.sstate s.scan.passValid).Holds s (execRow s) := by
  refine State.ifLegal_verdict (.inr (.inl rfl)) fun hs => ?_
  cases hp : s.scan.passValid with
  | true => exact ⟨_, rfl, by simp [hs]⟩
  | false => exact ⟨_, rfl, .inl rfl⟩

theorem execFinish_verdict (s : State) : (verdict 4 s.session.sstate s.scan.passValid).Holds s (execFinish s) :=
  State.ifLegal_verdict (.inr (.inr rfl)) fun hs => ⟨_, rfl, by simp [hs]⟩

/-- A 3-bit code, case by case. -/
theorem code_cases (c : BitVec 3) : c = 0 ∨ c = 1 ∨ c = 2 ∨ c = 3 ∨ c = 4 ∨ c = 5 ∨ c = 6 ∨ c = 7 := by
  revert c
  decide

theorem exec_decodeCommand_verdict {c : BitVec 3} {o : CmdOperands} (s : State) (hwf : (decodeCommand c o).wf = true) :
    (verdict c.toNat s.session.sstate s.scan.passValid).Holds s (exec (decodeCommand c o) s) := by
  rcases code_cases c with rfl | rfl | rfl | rfl | rfl | rfl | rfl | rfl
  · exact ⟨_, rfl, .inr rfl⟩
  · have hst : 1 ≤ o.stride0.toNat ∧ o.stride0.toNat ≤ Config.strideMax := by
      simpa [decodeCommand, Instr.wf] using hwf
    exact ⟨_, execStart_legal _ s hst, nofun⟩
  · exact execPassBegin_verdict s (by simpa [decodeCommand, Instr.wf] using hwf)
  · exact execRow_verdict s
  · exact execFinish_verdict s
  · exact ⟨_, rfl, nofun⟩
  · exact ⟨_, rfl, .inr rfl⟩
  · exact ⟨_, rfl, .inr rfl⟩

/-- Settles O13: one case for each command code; PASS_BEGIN, ROW and FINISH are decided by the session state. -/
theorem commandsKeepTheLegalityTable : Obligations.CommandsKeepTheLegalityTable := by
  intro s q hwf
  have h := exec_decodeCommand_verdict s hwf
  generalize verdict q.code.toNat s.session.sstate s.scan.passValid = v at h ⊢
  cases v <;> exact h

/-! ## FINISH and its trailer (R148, R114) -/

/-- The trailer is any four whole bytes. -/
theorem step_trailer {s : State} (hc : s.port.cmd = .finish) {bs : List Byte} {r : Reader}
    (h : s.reader.readBytes 4 = .ok bs r) :
    step s = execZtrl (BitVec.ofNat 32 (wordOfBytes bs)) (s.setReader r) := by
  have hw : wordOfBytes bs < 2 ^ 32 := by
    have := wordOfBytes_lt bs
    rwa [Reader.readBytes_length h] at this
  have hr : s.reader.readWord 4 = .ok (wordOfBytes bs) r := by rw [Reader.readWord, h, Eff.bind_ok]
  have hf : fetch s = .instr (.ztrl (BitVec.ofNat 32 (wordOfBytes bs))) (s.setReader r) := by
    simp only [fetch, hc, hr, fetchWord, decodeAt, decode_ztrl .none hw]
  exact step_of_fetch hf

/-- A trailer that cannot be read ends FINISH with the reader's error (R148, R380). -/
theorem step_trailer_raise {s : State} (hc : s.port.cmd = .finish) {c : ErrCode} {r : Reader}
    (h : s.reader.readBytes 4 = .raise c r) : step s = .next ((s.setReader r).raise c) := by
  have hr : s.reader.readWord 4 = .raise c r := by rw [Reader.readWord, h, Eff.bind_raise]
  refine step_of_done ?_
  simp only [fetch, hc]
  exact fetchWord_raise hr

/-- A run goes on from the state its first step leads to. -/
theorem run_succ {M : Host.Core} {s t : M.State} (n : Nat) (h : M.step s = .next t) : M.run (n + 1) s = M.run n t := by
  rw [Host.Core.run, h]

/-- Settles O11: the first step starts FINISH, the second reads the trailer and ends the command. -/
theorem finishReadsTheTrailerAndEnds : Obligations.FinishReadsTheTrailerAndEnds := by
  intro s q qs hs hc hq hcode
  have ha : s.session.sstate = .active := by rw [hs]
  let t : State := s.setPort { s.port with cmd := .finish, cmds := qs }
  have h₁ : step s = .next t := by
    rw [step_of_fetch (fetch_command hc hq), hcode]
    exact execFinish_legal ha
  refine ⟨fun bs r hr => ?_, fun c r hr => ⟨Reader.readBytes_raise hr, (t.setReader r).raise c, ?_, rfl, rfl⟩⟩
  · rw [run_succ (M := core) 1 h₁, run_succ (M := core) 0 (step_trailer (s := t) rfl hr)]
    simp [Host.Core.run, t, State.respond, State.setPort, State.setReader, State.setSession, hs]
  · rw [run_succ (M := core) 1 h₁, run_succ (M := core) 0 (step_trailer_raise (s := t) rfl hr)]
    rfl

end Sys2Proof.Machine
end

section
/-!
ROW from the bytes pulled to its response (R146, R330 to R341): the turns of `Pull` while bytes are unread, the
filter element, and the reconstruction the corrected row is.
-/

namespace Sys2Proof.Machine

/-! ## The filter element (R332) -/

theorem step_filter {s : State} {f : Byte} {bytes : List Byte} {i : Instr} (hc : s.port.cmd = .row (f :: bytes))
    (hl : bytes.length = s.scan.rowbytes.toNat) (hfit : s.scan.rowbytes.toNat ≤ Config.rowbytesMax)
    (hd : decode ⟨.filt, f.toNat, .none⟩ = .ok i) : step s = exec i (s.setScan (s.scan.load f bytes)) := by
  have hlong : s.scan.rowbytes.toNat < (f :: bytes).length := by rw [List.length_cons]; omega
  have hf : s.scan.fits = true := by simpa [Scan.fits] using hfit
  refine step_of_fetch ?_
  simp only [fetch, hc, if_pos hlong, fetchFilter, if_pos hf, decodeAt, hd]

/-- Settles O6: `load` puts the first byte in `ftype` and the others in `cur`. -/
theorem filterElementRuns : Obligations.FilterElementRuns := by
  intro s f bytes i hc hl hfit hw hd
  refine ⟨_, step_filter hc hl hfit hd, rfl, fun k => ?_, Scan.load_prev _ _ _, Scan.load_stride _ _ _,
    Scan.load_rowbytes _ _ _, Scan.load_passValid _ _ _, Scan.load_curSel _ _ _⟩
  rw [Scan.load_cur, Memory.read_writeAll 0 k bytes hw, hl]
  simp

/-! ## Pulling unread bytes (R330) -/

/-- The `n` oldest unread bytes, the oldest first. -/
def Window.oldest (n : Nat) (w : Window) : List Byte :=
  (List.range n).map fun k => w.mem.read ((w.rd.toNat + k) % w.size)

/-- The window after `n` turns of `Pull`. -/
def Window.pulled (n : Nat) (w : Window) : Window :=
  { w with rd := BitVec.ofNat 15 ((w.rd.toNat + n) % w.size), unread := w.unread - BitVec.ofNat 9 n }

theorem Window.oldest_succ (n : Nat) {w : Window} (h : w.rd.toNat < w.size) :
    w.oldest (n + 1) =
      w.front :: (List.range n).map fun k => w.mem.read ((w.rd.toNat + 1 + k) % w.size) := by
  simp only [Window.oldest, Window.front, List.range_succ_eq_map, List.map_cons, List.map_map, Nat.add_zero,
    Nat.mod_eq_of_lt h, Function.comp_def, Nat.succ_eq_add_one, Nat.add_right_comm _ 1, Nat.add_assoc]

theorem Window.oldest_drop (n : Nat) (w : Window) :
    w.drop.oldest n = (List.range n).map fun k => w.mem.read ((w.rd.toNat + 1 + k) % w.size) := by
  simp only [Window.oldest, Window.drop_mem, Window.drop_rd, Window.drop_size, Nat.mod_add_mod]

theorem Window.pulled_rd (n : Nat) (w : Window) : (w.pulled n).rd.toNat = (w.rd.toNat + n) % w.size := by
  show (BitVec.ofNat 15 _).toNat = _
  rw [BitVec.toNat_ofNat]
  exact Nat.mod_eq_of_lt (lt_of_lt_of_le (Nat.mod_lt _ w.size_pos) w.size_le)

theorem Window.pulled_unread {n : Nat} {w : Window} (h : n ≤ w.unread.toNat) :
    (w.pulled n).unread.toNat = w.unread.toNat - n := by
  show (w.unread - BitVec.ofNat 9 n).toNat = _
  bv_omega

theorem Window.pulled_zero {w : Window} (h : w.rd.toNat < w.size) : w.pulled 0 = w := by
  simp [Window.pulled, Nat.mod_eq_of_lt h]

theorem Window.pulled_drop (n : Nat) (w : Window) : w.drop.pulled n = w.pulled (n + 1) := by
  have hrd : ((w.rd.toNat + 1) % w.size + n) % w.size = (w.rd.toNat + (n + 1)) % w.size := by
    rw [Nat.mod_add_mod, Nat.add_assoc, Nat.add_comm 1 n]
  have hun : w.unread - 1 - BitVec.ofNat 9 n = w.unread - BitVec.ofNat 9 (n + 1) := by bv_omega
  simp only [Window.pulled, Window.drop_rd, Window.drop_size, Window.drop_unread, hrd, hun]
  rfl

theorem step_pull {s : State} {d : List Byte} (hc : s.port.cmd = .row d) (hd : d.length ≤ s.scan.rowbytes.toNat)
    (hu : s.window.unread ≠ 0) : step s = pullByte d s := by
  refine step_of_done ?_
  simp only [fetch, hc, if_neg (Nat.not_lt.2 hd), if_neg hu]

/-- While the window holds enough bytes, each step pulls one. -/
theorem run_pulls (n : Nat) {s : State} {d : List Byte} (hc : s.port.cmd = .row d)
    (hd : d.length + n ≤ s.scan.rowbytes.toNat + 1) (hu : n ≤ s.window.unread.toNat)
    (hr : s.window.rd.toNat < s.window.size) :
    core.run n s =
      .next ((s.setWindow (s.window.pulled n)).setPort { s.port with cmd := .row (d ++ s.window.oldest n) }) := by
  induction n generalizing s d with
  | zero =>
    have hport : s.port = { s.port with cmd := .row (d ++ s.window.oldest 0) } := by
      simp [Window.oldest, ← hc]
    rw [Window.pulled_zero hr, ← hport]
    rfl
  | succ n ih =>
    have hu0 : s.window.unread ≠ 0 := by
      intro h
      rw [h] at hu
      exact absurd hu (Nat.not_succ_le_zero n)
    have hdrop : (s.window.unread - 1).toNat = s.window.unread.toNat - 1 := by bv_omega
    have hlen : (d ++ [s.window.front]).length + n ≤ s.scan.rowbytes.toNat + 1 := by
      rw [List.length_append, List.length_singleton]
      omega
    have hrd : s.window.drop.rd.toNat < s.window.drop.size := by
      rw [Window.drop_rd]
      exact Nat.mod_lt _ s.window.size_pos
    have ht := ih (s := (s.setWindow s.window.drop).setPort { s.port with cmd := .row (d ++ [s.window.front]) }) rfl hlen
      (show n ≤ (s.window.unread - 1).toNat by omega) hrd
    rw [run_succ (M := core) n (step_pull hc (by omega) hu0)]
    refine ht.trans ?_
    simp only [State.setPort_window, State.setPort_port, State.setWindow_window, Window.pulled_drop,
      Window.oldest_drop, Window.oldest_succ n hr, List.append_assoc, List.singleton_append]
    rfl

/-- A run in two parts. -/
theorem run_add {M : Host.Core} {s t : M.State} {n : Nat} (k : Nat) (h : M.run n s = .next t) :
    M.run (n + k) s = M.run k t := by
  induction n generalizing s with
  | zero =>
    cases h
    rw [Nat.zero_add]
  | succ n ih =>
    rw [Nat.add_right_comm]
    rw [Host.Core.run] at h ⊢
    split at h
    · exact ih h
    · cases h
    · cases h

/-! ## The reconstruction (R333 to R340) -/

theorem Memory.getD_readAll {m : Memory} {n k : Nat} (h : k < n) : (m.readAll 0 n).getD k 0 = m.read k := by
  have hk : k < (m.readAll 0 n).length := by rw [Memory.length_readAll]; exact h
  rw [List.getD_eq_getElem _ _ hk, Memory.getElem_readAll, Nat.zero_add]

/-- A row written from cell 0 on reads back. -/
theorem Memory.readAll_writeAll {m : Memory} (vs : List Byte) (hm : m.wf = true) :
    (m.writeAll 0 vs).readAll 0 vs.length = vs := by
  refine List.ext_getElem (Memory.length_readAll _ _ _) fun k h₁ h₂ => ?_
  rw [Memory.getElem_readAll, Memory.read_writeAll 0 _ vs hm, if_pos (by omega), List.getD_eq_getElem _ _ (by omega)]
  simp

/-- The predictor of each legal filter type, as the number R334 to R338 give. -/
theorem exists_predictor {f : Nat} (h : f ≤ 4) :
    ∃ p, predictorOf (decodeFilter f) = some p ∧ ∀ a b c, (p a b c).toNat = predictByType f a b c := by
  match f, h with
  | 0, _ => exact ⟨predictNone, rfl, fun _ _ _ => rfl⟩
  | 1, _ => exact ⟨predictSub, rfl, fun _ _ _ => rfl⟩
  | 2, _ => exact ⟨predictUp, rfl, fun _ _ _ => rfl⟩
  | 3, _ =>
    refine ⟨predictAvg, rfl, fun a b c => ?_⟩
    show (BitVec.ofNat 8 ((a.toNat + b.toNat) / 2)).toNat = (a.toNat + b.toNat) / 2
    rw [BitVec.toNat_ofNat]
    exact Nat.mod_eq_of_lt (by omega)
  | 4, _ =>
    refine ⟨predictPaeth, rfl, fun a b c => ?_⟩
    have ha : (a.toNat : Int) + b.toNat - c.toNat - a.toNat = b.toNat - c.toNat := by ring
    have hb : (a.toNat : Int) + b.toNat - c.toNat - b.toNat = a.toNat - c.toNat := by ring
    have hc : (a.toNat : Int) + b.toNat - c.toNat - c.toNat = a.toNat + b.toNat - 2 * c.toNat := by ring
    simp only [predictPaeth, predictByType, ha, hb, hc, apply_ite BitVec.toNat]

/-- The corrected row is the reconstruction of what `cur` held above `prev`. -/
theorem Scan.corrected_reconstructs {ft : Nat} {p : Predictor} {x : Scan}
    (hp : ∀ a b c, (p a b c).toNat = predictByType ft a b c) (hw : x.cur.wf = true) (hs : 1 ≤ x.stride.toNat) :
    Reconstructs ft x.stride.toNat (x.cur.readAll 0 x.rowbytes.toNat)
      ((x.corrected p).readAll 0 x.rowbytes.toNat) (fun a => x.prev.read a) := by
  refine ⟨by simp, fun k hk => ?_⟩
  rw [Memory.length_readAll] at hk
  have hleft : (if x.stride.toNat ≤ k then
      ((x.corrected p).readAll 0 x.rowbytes.toNat).getD (k - x.stride.toNat) 0 else 0) =
        leftOf (x.corrected p) x.stride.toNat k := by
    unfold leftOf
    split
    · exact Memory.getD_readAll (by omega)
    · rfl
  have hread := defilter_read p x.stride.toNat x.prev 0 x.rowbytes.toNat k hw hs (Nat.zero_le _) (by omega)
  rw [Memory.getD_readAll hk, Memory.getD_readAll hk, hleft, ← hp]
  exact (congrArg BitVec.toNat hread).trans (BitVec.toNat_add _ _)

/-- A legal filter element on a row just pulled delivers its reconstruction (R340, R341). -/
theorem step_deliver {s : State} {f : Byte} {bytes : List Byte} (hc : s.port.cmd = .row (f :: bytes))
    (hl : bytes.length = s.scan.rowbytes.toNat) (hfit : s.scan.rowbytes.toNat ≤ Config.rowbytesMax) (hf : f.toNat ≤ 4)
    (hw : s.scan.cur.wf = true) (hst : 1 ≤ s.scan.stride.toNat) :
    ∃ (x : Scan) (row : List Byte), step s = .next ((s.setScan x).respond (some row)) ∧
      Reconstructs f.toNat s.scan.stride.toNat bytes row (fun a => s.scan.prev.read a) ∧
      x.ftype = f ∧ (∀ k < s.scan.rowbytes.toNat, x.prev.read k = row.getD k 0) ∧ x.cur = s.scan.prev := by
  obtain ⟨p, hpred, hp⟩ := exists_predictor hf
  let y := s.scan.load f bytes
  have hcur : y.cur = s.scan.cur.writeAll 0 bytes := Scan.load_cur _ _ _
  refine ⟨(y.setCur (y.corrected p)).swap, (y.corrected p).readAll 0 s.scan.rowbytes.toNat, ?_, ?_,
    Scan.setCur_ftype _ _, fun k hk => ?_, ?_⟩
  · rw [step_filter hc hl hfit (decode_filt _ f.isLt), (exec_predictorOf _ hpred).1,
      deliverRow_fits p (by simpa [Scan.load_rowbytes] using hfit)]
    simp [y, Scan.load_rowbytes]
  · have h := y.corrected_reconstructs hp (hcur ▸ Memory.wf_writeAll _ _ hw) (by simpa [y] using hst)
    rwa [hcur, Scan.load_rowbytes, Scan.load_stride, Scan.load_prev, ← hl, Memory.readAll_writeAll _ hw, hl] at h
  · rw [Scan.prev_swap, Scan.cur_setCur, Memory.getD_readAll hk]
  · rw [Scan.cur_swap, Scan.prev_setCur, Scan.load_prev]

/-- Settles O45: `rowbytes` + 1 steps pull the unread bytes, the next one corrects and delivers the row. -/
theorem rowFromSurplus : Obligations.RowFromSurplus := by
  intro s hs hc hu hf
  have hrd := hs.window.sound.rd_lt
  have hwf : s.scan.cur.wf = true := ((Scan.buffers (·.wf = true) s.scan).1 hs.memory.2).1
  have hactive : s.session.sstate = .active := hs.command.active (by rw [hc]; nofun)
  have hok : s.session.result = 0x00 := hs.command.ok (by rw [hactive]; nofun)
  have hpulls := run_pulls (s.scan.rowbytes.toNat + 1) hc (Nat.le_of_eq (Nat.zero_add _)) hu hrd
  rw [List.nil_append, Window.oldest_succ _ hrd] at hpulls
  let u : State := (s.setWindow (s.window.pulled (s.scan.rowbytes.toNat + 1))).setPort { s.port with
    cmd := .row (s.window.front :: (List.range s.scan.rowbytes.toNat).map fun k =>
      s.window.mem.read ((s.window.rd.toNat + 1 + k) % s.window.size)) }
  obtain ⟨x, row, hstep, hrow, hft, hprev, hcur⟩ := step_deliver (s := u) rfl (by simp [u]) hs.range.rowbytes_le hf
    hwf hs.range.stride_ge
  refine ⟨(u.setScan x).respond (some row), row, ?_, hrow, ?_, hft, hprev, hcur, Window.pulled_rd _ _,
    Window.pulled_unread hu, rfl⟩
  · rw [run_add 1 hpulls, run_succ (M := core) 0 hstep]
    rfl
  · simp [State.respond, State.setPort, State.setScan, State.setWindow, u, hactive, hok]

end Sys2Proof.Machine
end

section
/-!
What a step makes of the host's side: the commands still to come, the command running and the responses (R140,
R153). One case for each way a command goes on or ends.
-/

namespace Sys2Proof.Machine

/-! ## An element carried out -/

/-- The port once a command has ended with a response (R140, R153). -/
def Port.answered (x : Port) (y : Session) (row : Option (List Byte)) : Port :=
  { x with cmd := .waiting, resps := x.resps ++ [{ result := y.result, sstate := y.sstate, row := row }] }

/-- What carrying out an element makes of the port. -/
inductive PortEffect (s t : State) (f : Format) : Prop where
  | same (hf : f ≠ .hostCmd) (h : t.port = s.port)
  | starts (hf : f = .hostCmd) (c : Running) (hc : c ≠ .waiting) (h : t.port = { s.port with cmd := c })
  | answers (hf : f = .hostCmd ∨ f = .ztrl) (h : t.port = s.port.answered t.session none)
  | fails (e : ErrCode) (hs : t.session = { sstate := .failed, result := e.code })
      (h : t.port = s.port.answered t.session none)
  | delivers (hf : f = .filt) (row : List Byte) (hs : t.session = s.session)
      (hl : row.length = s.scan.rowbytes.toNat) (h : t.port = s.port.answered t.session (some row))

theorem Effect.port {s t : State} {i : Instr} (h : Effect s i t) : PortEffect s t (encode i).fmt := by
  cases h with
  | start | passBegin | abort => exact .answers (.inl rfl) rfl
  | latched i hi => exact .answers (.inl hi) rfl
  | ztrl => exact .answers (.inr rfl) rfl
  | row => exact .starts rfl (.row []) nofun rfl
  | finish => exact .starts rfl .finish nofun rfl
  | filter i p hi => exact .delivers hi _ rfl (Memory.length_readAll _ _ _) rfl
  | blockReserved | dynFails | copyFails | fails => exact .fails _ rfl rfl
  | lengths i n v r hi => exact .same (by rw [hi]; nofun) rfl
  | length i n r hi => exact .same (by rw [hi]; nofun) rfl
  | copy i x r hi => exact .same (by rw [hi]; nofun) rfl
  | _ => exact .same nofun rfl

/-! ## Fetching -/

/-- The commands still to come once the step has taken the one it waits for, if it waits (R140). -/
def Port.remaining (x : Port) : List HostReq := if x.cmd = .waiting then x.cmds.tail else x.cmds

theorem Port.remaining_waiting {x : Port} (h : x.cmd = .waiting) : x.remaining = x.cmds.tail := if_pos h

theorem Port.remaining_running {x : Port} (h : x.cmd ≠ .waiting) : x.remaining = x.cmds := if_neg h

theorem State.Pulling.running {s : State} (h : s.Pulling) : s.port.cmd ≠ .waiting := by
  obtain ⟨_, d, hd, _⟩ := h
  rw [hd]
  nofun

/-- Whatever is read besides a command is read for the command running. -/
theorem State.Expects.running {s : State} {f : Format} (h : s.Expects f) (hf : f ≠ .hostCmd) :
    s.port.cmd ≠ .waiting := by
  cases f
  case hostCmd => exact absurd rfl hf
  case ztrl =>
    have hc : s.port.cmd = .finish := h
    rw [hc]
    nofun
  case filt =>
    obtain ⟨d, hd, _⟩ := h
    rw [hd]
    nofun
  all_goals exact h.1.running

theorem fetchFilter_port {d : List Byte} {s u : State} {i : Instr} (h : fetchFilter d s = .instr i u) :
    u.port = s.port := by
  unfold fetchFilter at h
  split at h
  · cases h
  · split at h
    · obtain ⟨_, rfl⟩ := decodeAt_instr h
      rfl
    · cases h

/-- Reading an element leaves the host's side alone, and taking a command drops the command. -/
theorem fetch_port {s u : State} {i : Instr} (h : fetch s = .instr i u) :
    u.port = { s.port with cmds := s.port.remaining } := by
  unfold fetch at h
  split at h
  case h_1 hc =>
    split at h
    · cases h
    · rename_i q qs hq
      cases h
      rw [Port.remaining_waiting hc, hq]
      rfl
  case h_2 hc =>
    obtain ⟨w, r, _, _, rfl⟩ := fetchWord_instr h
    rw [Port.remaining_running (by rw [hc]; nofun)]
    rfl
  case h_3 d hc =>
    rw [Port.remaining_running (by rw [hc]; nofun)]
    split at h
    · exact fetchFilter_port h
    · split at h
      · rename_i hd hu
        exact (fetchInflate_instr ⟨hu, d, hc, by omega⟩ h).2.2.2
      · cases h

/-! ## A step -/

/-- What a step makes of the host's side. -/
inductive PortStep (s t : State) : Prop where
  | idle (hc : s.port.cmd = .waiting) (hq : s.port.cmds = []) (h : t = s)
  | runs (c : Running) (hc : c ≠ .waiting) (hf : c = .finish → s.port.cmd = .waiting ∨ s.port.cmd = .finish)
      (h : t.port = { s.port with cmd := c, cmds := s.port.remaining })
  | answers (hc : ∀ d, s.port.cmd ≠ .row d)
      (h : t.port = { s.port with cmds := s.port.remaining }.answered t.session none)
  | fails (e : ErrCode) (hs : t.session = { sstate := .failed, result := e.code })
      (h : t.port = { s.port with cmds := s.port.remaining }.answered t.session none)
  | delivers (d : List Byte) (hc : s.port.cmd = .row d) (row : List Byte) (hs : t.session = s.session)
      (hl : row.length = s.scan.rowbytes.toNat)
      (h : t.port = { s.port with cmds := s.port.remaining }.answered t.session (some row))

/-- A step that leaves the port alone while a command runs. -/
theorem PortStep.of_same {s t : State} (hc : s.port.cmd ≠ .waiting) (h : t.port = s.port) : PortStep s t :=
  .runs s.port.cmd hc .inr (by rw [Port.remaining_running hc, h])

theorem PortStep.of_raise {s u : State} (e : ErrCode) (hc : s.port.cmd ≠ .waiting) (h : u.port = s.port) :
    PortStep s (u.raise e) :=
  .fails e rfl (by rw [Port.remaining_running hc, ← h]; rfl)

theorem Bare.port {s t : State} (h : Bare s (.next t)) : PortStep s t := by
  cases h with
  | idle hc hq h => cases h; exact .idle hc hq rfl
  | pull d hc hd hu h =>
    cases h
    exact .runs (.row (d ++ [s.window.front])) nofun nofun (by rw [Port.remaining_running (by rw [hc]; nofun)]; rfl)
  | tables hp hi hd ht h =>
    obtain ⟨rfl, _⟩ := loadTables_next h.symm
    exact .of_same hp.running rfl
  | blockEnd hp hi h => cases h; exact .of_same hp.running rfl
  | streamEnd hp hi h => cases h; exact .of_raise _ hp.running rfl
  | readError c r hr hc he h =>
    cases h
    refine .of_raise c (hc.elim State.Pulling.running fun hc => ?_) rfl
    rw [hc]
    nofun
  | litLenSymbol hp hi v r hr he hv h => cases h; exact .of_raise _ hp.running rfl
  | distSymbol hp hi v r hr he hv h => cases h; exact .of_raise _ hp.running rfl
  | clSymbol hp v he hv h => cases h
  | noCell hc hr h => cases h

/-- Commands and the trailer are read outside a ROW. -/
theorem State.Expects.not_row {s : State} {f : Format} (h : s.Expects f) (hf : f = .hostCmd ∨ f = .ztrl)
    (d : List Byte) : s.port.cmd ≠ .row d := by
  intro hc
  rcases hf with rfl | rfl
  · exact absurd (hc.symm.trans h) nofun
  · exact absurd (hc.symm.trans h) nofun

theorem step_port {s t : State} (h : step s = .next t) : PortStep s t := by
  rcases step_cases s with ⟨i, u, hf, he⟩ | hb
  · obtain ⟨hx, hr⟩ := fetch_instr hf
    have hu := fetch_port hf
    cases (exec_effect (he.symm.trans h)).port with
    | same hi ht => exact .runs s.port.cmd (hx.running hi) .inr (by rw [ht, hu])
    | starts hi c hc ht => exact .runs c hc (fun _ => .inl (hi ▸ hx : s.Expects .hostCmd)) (by rw [ht, hu])
    | answers hi ht => exact .answers (hx.not_row hi) (by rw [ht, hu])
    | fails e hs ht => exact .fails e hs (by rw [ht, hu])
    | delivers hi row hs hl ht =>
      rw [hi] at hx
      obtain ⟨d, hd, _⟩ := hx
      exact .delivers d hd row (hs.trans hr.session) (by rw [hl, hr.rowbytes]) (by rw [ht, hu])
  · exact (h ▸ hb : Bare s (.next t)).port

/-! ## Responses and the queue (R140, R153) -/

theorem ErrCode.code_ne_zero (e : ErrCode) : e.code ≠ 0x00 := by
  cases e <;> decide

/-- Settles O15: a row is delivered only by a filter element, in an active session; an error's code is not 0x00. -/
theorem responsesCarryResultAndState : Obligations.ResponsesCarryResultAndState := by
  intro s t hs h
  cases step_port h with
  | idle hc hq ht => exact .inl (ht ▸ rfl)
  | runs c hc hf ht => exact .inl (by rw [ht])
  | answers hc ht =>
    exact .inr ⟨none, congrArg Port.resps ht, congrArg Port.cmd ht,
      ⟨nofun, fun ⟨⟨d, hd⟩, _⟩ => absurd hd (hc d)⟩, nofun⟩
  | fails e hse ht =>
    have hne : t.session.result ≠ 0x00 := by
      rw [hse]
      exact e.code_ne_zero
    exact .inr ⟨none, congrArg Port.resps ht, congrArg Port.cmd ht, ⟨nofun, fun ⟨_, hz⟩ => absurd hz hne⟩, nofun⟩
  | delivers d hd row hse hl ht =>
    have hactive : s.session.sstate = .active := hs.command.active (by rw [hd]; nofun)
    have hok : t.session.result = 0x00 := by
      rw [hse]
      exact hs.command.ok (by rw [hactive]; nofun)
    refine .inr ⟨some row, congrArg Port.resps ht, congrArg Port.cmd ht,
      ⟨fun _ => ⟨⟨d, hd⟩, hok⟩, nofun⟩, fun bytes hb => ?_⟩
    cases hb
    exact hl

theorem Port.answered_length (x : Port) (y : Session) (row : Option (List Byte)) :
    (x.answered y row).resps.length = x.resps.length + 1 := by
  simp [Port.answered]

/-- Each step keeps or drops commands as `remaining` says, and one that leaves the machine waiting has answered,
unless nothing was to be done. -/
theorem PortStep.queue {s t : State} (h : PortStep s t) :
    t.port.cmds = s.port.remaining ∧
      ((t.port.cmd ≠ .waiting ∧ t.port.resps = s.port.resps) ∨
        (t.port.cmd = .waiting ∧ t.port.resps.length = s.port.resps.length + 1) ∨
        (s.port.cmd = .waiting ∧ s.port.cmds = [] ∧ t = s)) := by
  cases h with
  | idle hc hq h =>
    refine ⟨?_, .inr (.inr ⟨hc, hq, h⟩)⟩
    rw [h, Port.remaining_waiting hc, hq]
    rfl
  | runs c hc hf h => rw [h]; exact ⟨rfl, .inl ⟨hc, rfl⟩⟩
  | answers hc h => rw [h]; exact ⟨rfl, .inr (.inl ⟨rfl, Port.answered_length _ _ _⟩)⟩
  | fails e hs h => rw [h]; exact ⟨rfl, .inr (.inl ⟨rfl, Port.answered_length _ _ _⟩)⟩
  | delivers d hd row hs hl h => rw [h]; exact ⟨rfl, .inr (.inl ⟨rfl, Port.answered_length _ _ _⟩)⟩

/-- Settles O16: the commands still to come change only where the machine waits, and only the oldest goes. -/
theorem oneCommandAtATime : Obligations.OneCommandAtATime := by
  intro s t h
  obtain ⟨hcmds, hresp⟩ := (step_port h).queue
  refine ⟨fun hc => ⟨by rw [hcmds, Port.remaining_running hc], fun hw => ?_, fun hr => ?_⟩, fun hc =>
    ⟨by rw [hcmds, Port.remaining_waiting hc], fun hq hw => ?_⟩⟩
  · rcases hresp with ⟨hn, _⟩ | ⟨_, hl⟩ | ⟨hs, _⟩
    · exact absurd hw hn
    · exact hl
    · exact absurd hs hc
  · rcases hresp with ⟨_, he⟩ | ⟨hw, _⟩ | ⟨hs, _⟩
    · exact he
    · exact absurd hw hr
    · exact absurd hs hc
  · rcases hresp with ⟨hn, _⟩ | ⟨_, hl⟩ | ⟨_, hs, _⟩
    · exact absurd hw hn
    · exact hl
    · exact absurd hs hq

end Sys2Proof.Machine
end

section
/-!
A running command goes on (R187, R380): in the ranges of R38 every element answers a next state, but for an
over-subscribed code-length set. With it, a host that keeps the protocol keeps it.
-/

namespace Sys2Proof.Machine

/-! ## Elements that go on -/

/-- The answers a running command may get: a next state, or the refusal of an over-subscribed set (R187). -/
def Progress (o : Out) : Prop := (∃ t, o = .next t) ∨ o = .refused .overSubscribed

theorem Progress.next (t : State) : Progress (.next t) := .inl ⟨t, rfl⟩

theorem State.andThen_progress {α : Type} {s : State} {e : Eff Reader α} {k : α → State → Out}
    (h : ∀ a r, e = .ok a r → Progress (k a (s.setReader r))) : Progress (s.andThen e k) := by
  cases e with
  | ok a r => exact h a r rfl
  | raise c r => exact .next _

theorem loadTables_progress (lits dists : List Nat) (s : State) : Progress (loadTables lits dists s) := by
  cases h : loadTables lits dists s with
  | next t => exact .next t
  | fault f => exact absurd h loadTables_ne_fault
  | refused f =>
    obtain rfl := loadTables_stops h
    exact .inr rfl

theorem execDyn_progress (a b : BitVec 5) (c : BitVec 4) (s : State) : Progress (execDyn a b c s) := by
  refine State.andThen_progress fun vs r _ => ?_
  split
  · exact .inr rfl
  · exact .next _

theorem storeLens_progress {n : Nat} (v : BitVec 4) {s : State} (h : s.dyn.idx.toNat + n ≤ Config.nlensMax) :
    Progress (storeLens n v s) := by
  rw [storeLens, if_neg (by omega)]
  exact .next _

/-- A repeat past `total` is an error, and `total` is within the array (R220, R33). -/
theorem repeatLens_progress (n : Nat) (v : BitVec 4) {s : State} (h : s.dyn.total ≤ Config.nlensMax) :
    Progress (repeatLens n v s) := by
  unfold repeatLens
  split
  · exact .next _
  · exact storeLens_progress v (by omega)

theorem execClRep_progress {s : State} (h : s.dyn.total ≤ Config.nlensMax) : Progress (execClRep s) := by
  unfold execClRep
  split
  · exact .next _
  · exact State.andThen_progress fun x r _ => repeatLens_progress _ _ h

theorem lengthSymbol_progress (base ext : Nat) (s : State) : Progress (lengthSymbol base ext s) := by
  unfold lengthSymbol
  exact State.andThen_progress fun x r _ => .next _

theorem distSymbol_progress (base ext : Nat) (s : State) : Progress (distSymbol base ext s) := by
  unfold distSymbol
  exact State.andThen_progress fun x r _ => .inl (copyMatch_goes_on _)

theorem execZlib_progress (a b : BitVec 4) (c : BitVec 5) (d : Bool) (e : BitVec 2) (s : State) :
    Progress (execZlib a b c d e s) := by
  unfold execZlib
  split
  · exact .next _
  · split
    · exact .next _
    · split <;> exact .next _

theorem execStoredHdr_progress (a b : BitVec 16) (s : State) : Progress (execStoredHdr a b s) := by
  unfold execStoredHdr
  split <;> exact .next _

/-- Every element but a command, carried out where it is expected and in the ranges of R33 and R38. -/
theorem exec_progress {i : Instr} {s : State} (hx : s.Expects (encode i).fmt) (hi : (encode i).fmt ≠ .hostCmd)
    (ht : s.dyn.total ≤ Config.nlensMax) (hr : s.scan.rowbytes.toNat ≤ Config.rowbytesMax) : Progress (exec i s) := by
  generalize ho : exec i s = o
  have hs := exec_shape ho
  clear ho
  cases hs with
  | start | passBegin | row | finish | abort => exact absurd rfl hi
  | reserved i h hi' => rcases hi' with rfl | rfl | rfl <;> exact absurd rfl hi
  | zlib a b c d e h => exact h ▸ execZlib_progress a b c d e s
  | storedHdr a b h => exact h ▸ execStoredHdr_progress a b s
  | fixed h => exact h ▸ loadTables_progress _ _ s
  | dyn a b c h => exact h ▸ execDyn_progress a b c s
  | clLen n h =>
    obtain ⟨_, _, _, hidx⟩ := hx
    exact h ▸ storeLens_progress n (by omega)
  | clRep h => exact h ▸ execClRep_progress ht
  | clZeroS h => exact h ▸ State.andThen_progress fun x r _ => repeatLens_progress _ _ ht
  | clZeroL h => exact h ▸ State.andThen_progress fun x r _ => repeatLens_progress _ _ ht
  | length i base ext h => exact h ▸ lengthSymbol_progress base ext s
  | distance i base ext h => exact h ▸ distSymbol_progress base ext s
  | filter i p h => exact h ▸ deliverRow_fits p hr ▸ .next _
  | blockStored f h | blockFixed f h | blockDynamic f h | blockReserved f h => exact h ▸ .next _
  | raw b h | lit b h | fInvalid b h | ztrl a h => exact h ▸ .next _
  | eob h => exact h ▸ .next _
  | lenInvalid i h => exact h ▸ .next _
  | distInvalid i h => exact h ▸ .next _

/-- The symbols of the table in force are symbols of its alphabet (R32). -/
theorem TableInv.sym_lt {cap n : Nat} {t : List HuffEntry} {v : BitVec 9} (h : TableInv cap t n)
    (hv : ∃ e ∈ t.take n, e.sym = v) : v.toNat < cap := by
  obtain ⟨e, he, rfl⟩ := hv
  exact (h.entry e (List.mem_of_mem_take he)).2

theorem State.RangeInv.total_le {s : State} (h : s.RangeInv) : s.dyn.total ≤ Config.nlensMax := by
  have hl := h.hlit_le
  have hd := h.hdist_le
  have hm : Config.nlensMax = 320 := rfl
  unfold Dyn.total
  omega

theorem Bare.progress {s : State} {o : Out} (h : Bare s o) (hs : s.RangeInv) : Progress o := by
  cases h with
  | tables hp hi hd ht h => exact h ▸ loadTables_progress _ _ _
  | clSymbol hp v he hv h =>
    have hlt := hs.cl.sym_lt he
    exact absurd hlt (Nat.not_lt.2 hv)
  | noCell hc hr h => exact absurd hs.rowbytes_le (Nat.not_le.2 hr)
  | idle hc hq h => exact h ▸ .next _
  | pull d hc hd hu h => exact h ▸ .next _
  | blockEnd hp hi h | streamEnd hp hi h => exact h ▸ .next _
  | readError c r hr hc he h => exact h ▸ .next _
  | litLenSymbol hp hi v r hr he hv h | distSymbol hp hi v r hr he hv h => exact h ▸ .next _

/-- A running command is never refused or faulted, but for an over-subscribed set. -/
theorem step_progress {s : State} (hs : s.RangeInv) (hc : s.port.cmd ≠ .waiting) : Progress (step s) := by
  rcases step_cases s with ⟨i, u, hf, he⟩ | hb
  · obtain ⟨hx, hr⟩ := fetch_instr hf
    rw [he]
    refine exec_progress (fetch_expects hf) (fun hi => ?_) (by rw [hr.dyn]; exact hs.total_le)
      (by rw [hr.rowbytes]; exact hs.rowbytes_le)
    rw [hi] at hx
    exact hc hx
  · exact hb.progress hs

/-! ## The protocol, command by command (R141, R142, R144) -/

theorem protocolOk_start (opened pass : Bool) (o : CmdOperands) (qs : List HostReq) :
    protocolOk opened pass ({ code := 1, ops := o } :: qs) =
      (decide (1 ≤ o.stride0.toNat) && decide (o.stride0.toNat ≤ Config.strideMax) && protocolOk true false qs) := rfl

theorem protocolOk_passBegin (opened pass : Bool) (o : CmdOperands) (qs : List HostReq) :
    protocolOk opened pass ({ code := 2, ops := o } :: qs) =
      (opened && decide (1 ≤ o.rowbytes0.toNat) && decide (o.rowbytes0.toNat ≤ Config.rowbytesMax) &&
        protocolOk true true qs) := rfl

theorem protocolOk_row (opened pass : Bool) (o : CmdOperands) (qs : List HostReq) :
    protocolOk opened pass ({ code := 3, ops := o } :: qs) = (opened && pass && protocolOk true true qs) := rfl

theorem protocolOk_finish (opened pass : Bool) (o : CmdOperands) (qs : List HostReq) :
    protocolOk opened pass ({ code := 4, ops := o } :: qs) = (opened && protocolOk false false qs) := rfl

/-! ## The protocol along a step (R141, R384) -/

/-- What the host may assume of the session for the commands still to come. -/
def State.Admits (s : State) (opened pass : Bool) : Prop :=
  opened = true →
    s.session.sstate = .failed ∨
    (s.session.sstate = .active ∧ s.port.cmd ≠ .finish ∧ (pass = true → s.scan.passValid = true))

theorem State.hostKeepsProtocol_iff (s : State) :
    s.HostKeepsProtocol ↔ ∃ opened pass, protocolOk opened pass s.port.cmds = true ∧ s.Admits opened pass := .rfl

theorem ScanStep.passValid_running {s : State} {x : Scan} (h : ScanStep s x) (hc : s.port.cmd ≠ .waiting) :
    x.passValid = s.scan.passValid := by
  cases h with
  | same h => rw [h]
  | start hs => exact absurd hs.waiting hc
  | beginPass hs => exact absurd hs.waiting hc
  | load f d _ _ h => rw [h, Scan.load_passValid]
  | deliver f d _ _ p h => rw [h, Scan.swap_passValid, Scan.setCur_passValid, Scan.load_passValid]

theorem PortStep.finish_running {s t : State} (h : PortStep s t) (hc : s.port.cmd ≠ .waiting)
    (hf : t.port.cmd = .finish) : s.port.cmd = .finish := by
  cases h with
  | idle hw => exact absurd hw hc
  | runs c _ hk h =>
    rw [h] at hf
    exact (hk hf).resolve_left hc
  | answers _ h | fails _ _ h | delivers _ _ _ _ _ h =>
    rw [h] at hf
    cases hf

/-- A step of a running command leaves an open session open or failed. -/
theorem step_admits {s t : State} {opened pass : Bool} (hc : s.port.cmd ≠ .waiting) (h : step s = .next t)
    (hs : s.session.sstate = .active) (ho : s.Admits opened pass) : t.Admits opened pass := by
  intro hopen
  obtain ⟨_, hf, hp⟩ := (ho hopen).resolve_left (by rw [hs]; nofun)
  cases step_session h with
  | same hx =>
    rw [hx, (step_scan h).passValid_running hc]
    exact .inr ⟨hs, fun hfin => hf ((step_port h).finish_running hc hfin), hp⟩
  | failed e _ hx => exact .inl (by rw [hx])
  | done hfin => exact absurd hfin hf
  | start hst => exact absurd hst.waiting hc
  | abort hab => exact absurd hab.waiting hc

/-- A step of a running command leaves the commands still to come as they are, and the session fit for them. -/
theorem hostKeepsProtocol_running {s t : State} (hs : s.CommandInv) (hc : s.port.cmd ≠ .waiting)
    (h : step s = .next t) (hk : s.HostKeepsProtocol) : t.HostKeepsProtocol := by
  obtain ⟨opened, pass, hok, ho⟩ := s.hostKeepsProtocol_iff.1 hk
  refine ⟨opened, pass, ?_, step_admits hc h (hs.active hc) ho⟩
  rwa [(step_port h).queue.1, Port.remaining_running hc]

/-- In an open session the legality table answers; in a failed one whatever comes keeps the protocol (R384). -/
theorem ifLegal_keepsProtocol {s : State} {k : State → Out} {opened pass : Bool}
    (ho : s.session.sstate = .failed ∨ s.session.sstate = .active) (hok : protocolOk opened pass s.port.cmds = true)
    (hk : s.session.sstate = .active → ∃ t, k s = .next t ∧ t.port.cmds = s.port.cmds ∧ t.Admits opened pass) :
    ∃ t, s.ifLegal k = .next t ∧ t.HostKeepsProtocol := by
  rcases ho with hs | hs
  · exact ⟨_, State.ifLegal_failed k hs, opened, pass, hok, fun _ => .inl hs⟩
  · obtain ⟨t, ht, hcmds, hh⟩ := hk hs
    exact ⟨t, (State.ifLegal_active hs).trans ht, opened, pass, by rwa [hcmds], hh⟩

theorem State.Admits.opened {s : State} {pass : Bool} (h : s.Admits true pass) :
    s.session.sstate = .failed ∨ s.session.sstate = .active :=
  (h rfl).imp_right And.left

theorem execPassBegin_keepsProtocol {n : BitVec 11} {s : State} {pass : Bool} (ho : s.Admits true pass)
    (hn : 1 ≤ n.toNat ∧ n.toNat ≤ Config.rowbytesMax) (hok : protocolOk true true s.port.cmds = true) :
    ∃ t, execPassBegin n s = .next t ∧ t.HostKeepsProtocol :=
  ifLegal_keepsProtocol ho.opened hok fun hs => ⟨_, if_neg (by omega), rfl, fun _ => .inr ⟨hs, nofun, fun _ => rfl⟩⟩

theorem execRow_keepsProtocol {s : State} (ho : s.Admits true true) (hok : protocolOk true true s.port.cmds = true) :
    ∃ t, execRow s = .next t ∧ t.HostKeepsProtocol := by
  refine ifLegal_keepsProtocol ho.opened hok fun hs => ?_
  obtain ⟨_, _, hp⟩ := (ho rfl).resolve_left (by rw [hs]; nofun)
  exact ⟨_, if_pos (hp rfl), rfl, fun _ => .inr ⟨hs, nofun, hp⟩⟩

theorem execFinish_keepsProtocol {s : State} {pass : Bool} (ho : s.Admits true pass)
    (hok : protocolOk false false s.port.cmds = true) : ∃ t, execFinish s = .next t ∧ t.HostKeepsProtocol :=
  ifLegal_keepsProtocol ho.opened hok fun _ => ⟨_, rfl, rfl, nofun⟩

/-- A command of the protocol is carried out or answered, and the commands after it keep the protocol. -/
theorem exec_keepsProtocol {s : State} {q : HostReq} {opened pass : Bool}
    (hok : protocolOk opened pass (q :: s.port.cmds) = true) (ho : s.Admits opened pass) :
    ∃ t, exec (decodeCommand q.code q.ops) s = .next t ∧ t.HostKeepsProtocol := by
  obtain ⟨c, o⟩ := q
  rcases code_cases c with rfl | rfl | rfl | rfl | rfl | rfl | rfl | rfl
  · exact absurd hok nofun
  · rw [protocolOk_start] at hok
    simp only [Bool.and_eq_true, decide_eq_true_eq] at hok
    exact ⟨_, execStart_legal _ s hok.1, true, false, hok.2, fun _ => .inr ⟨rfl, nofun, nofun⟩⟩
  · rw [protocolOk_passBegin] at hok
    simp only [Bool.and_eq_true, decide_eq_true_eq] at hok
    obtain ⟨⟨⟨rfl, hlo⟩, hhi⟩, hrest⟩ := hok
    exact execPassBegin_keepsProtocol ho ⟨hlo, hhi⟩ hrest
  · rw [protocolOk_row] at hok
    simp only [Bool.and_eq_true] at hok
    obtain ⟨⟨rfl, rfl⟩, hrest⟩ := hok
    exact execRow_keepsProtocol ho hrest
  · rw [protocolOk_finish, Bool.and_eq_true] at hok
    obtain ⟨rfl, hrest⟩ := hok
    exact execFinish_keepsProtocol ho hrest
  · exact ⟨_, rfl, false, false, hok, nofun⟩
  · exact absurd hok nofun
  · exact absurd hok nofun

/-- A waiting machine takes the first command, which is one of the protocol, or does nothing. -/
theorem step_keepsProtocol_waiting {s : State} (hc : s.port.cmd = .waiting) (hk : s.HostKeepsProtocol) :
    ∃ t, step s = .next t ∧ t.HostKeepsProtocol := by
  cases hq : s.port.cmds with
  | nil => exact ⟨s, step_of_done (fetch_idle hc hq), hk⟩
  | cons q qs =>
    obtain ⟨opened, pass, hok, ho⟩ := s.hostKeepsProtocol_iff.1 hk
    rw [hq] at hok
    rw [step_of_fetch (fetch_command hc hq)]
    exact exec_keepsProtocol (s := s.setPort { s.port with cmds := qs }) hok ho

/-! ## The commands of a session (R413) -/

/-- The rows of a pass, and what comes after them. -/
theorem protocolOk_rows (k : Nat) (qs : List HostReq) :
    protocolOk true true (List.replicate k { code := 3, ops := .none } ++ qs) = protocolOk true true qs := by
  induction k with
  | zero => rfl
  | succ k ih => exact ih

/-- The passes of a session and its FINISH, whether or not a pass has been announced before. -/
theorem protocolOk_passes (pass : Bool) {passes : List (BitVec 11 × Nat)}
    (h : ∀ p ∈ passes, 1 ≤ p.1.toNat ∧ p.1.toNat ≤ Config.rowbytesMax) :
    protocolOk true pass (passes.flatMap passCommands ++ [{ code := 4, ops := .none }]) = true := by
  induction passes generalizing pass with
  | nil => rfl
  | cons p passes ih =>
    have hp := h p List.mem_cons_self
    have hrest := ih true fun r hr => h r (List.mem_cons_of_mem _ hr)
    rw [List.flatMap_cons, List.append_assoc, passCommands, List.cons_append, protocolOk_passBegin, protocolOk_rows,
      hrest]
    simp [hp]

theorem protocolOk_session {st : BitVec 4} (c : BitVec 32) {passes : List (BitVec 11 × Nat)} (hlo : 1 ≤ st.toNat)
    (hhi : st.toNat ≤ Config.strideMax) (h : ∀ p ∈ passes, 1 ≤ p.1.toNat ∧ p.1.toNat ≤ Config.rowbytesMax) :
    protocolOk false false (sessionCommands c st passes) = true := by
  rw [sessionCommands, protocolOk_start, protocolOk_passes false h]
  simp [hlo, hhi]

/-- Settles O55: a waiting machine carries out or answers a command of the protocol, and a running one goes on
without taking any; the commands of R413 are checked pass by pass. -/
theorem aHostThatKeepsTheProtocolIsNeverRefused : Obligations.AHostThatKeepsTheProtocolIsNeverRefused := by
  refine ⟨fun s hs hk => ?_, fun s c st passes hlo hhi hpasses hq => ?_⟩
  · by_cases hc : s.port.cmd = .waiting
    · exact .inl (step_keepsProtocol_waiting hc hk)
    · rcases step_progress hs.range hc with ⟨t, ht⟩ | hover
      · exact .inl ⟨t, ht, hostKeepsProtocol_running hs.command hc ht hk⟩
      · exact .inr hover
  · exact ⟨false, false, hq ▸ protocolOk_session c hlo hhi hpasses, nofun⟩

end Sys2Proof.Machine
end

section
/-!
What the reader's operations take from the stream (R162 to R164): a fetch hops only when the chunk is used up,
bytes are read past the bit buffer, and bits are read in the order of the stream.
-/

namespace Sys2Proof.Machine

/-! ## FetchByte (R162) -/

/-- Empty chunks are hopped over one by one (R162). -/
theorem Reader.hop_replicate_zero (r : Reader) (k : Nat) (hs : List (Option (BitVec 32))) :
    r.hop (List.replicate k (some 0) ++ hs) = r.hop hs := by
  induction k with
  | zero => rfl
  | succ k ih => exact ih

theorem Reader.hop_some {n : BitVec 32} (r : Reader) (hs : List (Option (BitVec 32))) (hn : n ≠ 0) :
    r.hop (some n :: hs) = .ok () { r with chunkRem := n, src := { r.src with hops := hs } } := if_neg hn

theorem Reader.srcByte_some {r : Reader} {b : Byte} {bs : List (Option Byte)} (h : r.src.bytes = some b :: bs) :
    r.srcByte = .ok b { r with chunkRem := r.chunkRem - 1, src := { r.src with bytes := bs } } := by
  rw [Reader.srcByte, h]

/-- A source that answers no byte fails (R161, R361). -/
theorem Reader.srcByte_fails {r : Reader} (h : ∀ b bs, r.src.bytes ≠ some b :: bs) : ∃ t, r.srcByte = .raise .io t := by
  cases hs : r.srcByte with
  | ok b t => exact absurd (Reader.srcByte_ok hs).1 (h b _)
  | raise c t => exact ⟨t, by rw [Reader.srcByte_raise hs]⟩

theorem Reader.fetchByte_of_chunk {r : Reader} (h : r.chunkRem ≠ 0) : r.fetchByte = r.srcByte := if_neg h

theorem Reader.fetchByte_of_no_chunk {r : Reader} (h : r.chunkRem = 0) :
    r.fetchByte = (r.hop r.src.hops).bind fun _ t => t.srcByte := if_pos h

/-- Settles O20: `hop` drops the empty chunks, and what comes after them is the next chunk's length or the
failure. -/
theorem fetchByteHopsOverEmptyChunks : Obligations.FetchByteHopsOverEmptyChunks := by
  refine fun r => ⟨fun b bs => Reader.fetchByte_in_chunk, fun hc hb => ?_, fun k n hs hc hn hh => ?_, fun k hs hc hh => ?_⟩
  · rw [Reader.fetchByte_of_chunk hc]
    exact Reader.srcByte_fails hb
  · rw [Reader.fetchByte_of_no_chunk hc, hh, Reader.hop_replicate_zero, Reader.hop_some r hs hn, Eff.bind_ok]
    exact ⟨fun b bs hb => Reader.srcByte_some (by exact hb), fun hb => Reader.srcByte_fails (by exact hb)⟩
  · rw [Reader.fetchByte_of_no_chunk hc]
    rcases hh with hh | hh
    · rw [hh, ← List.append_nil (List.replicate k _), Reader.hop_replicate_zero]
      exact ⟨_, rfl, rfl⟩
    · rw [hh, Reader.hop_replicate_zero]
      exact ⟨_, rfl, rfl⟩

/-! ## ReadBytes (R164) -/

/-- The bytes read are the next answers of the source, in order. -/
theorem Reader.readBytes_ok {n : Nat} {r t : Reader} {bs : List Byte} (h : r.readBytes n = .ok bs t) :
    r.src.bytes = bs.map some ++ t.src.bytes := by
  induction n generalizing r bs with
  | zero => cases h; rfl
  | succ n ih =>
    obtain ⟨b, u, hb, h⟩ := Eff.bind_eq_ok h
    obtain ⟨bs, v, hbs, h⟩ := Eff.bind_eq_ok h
    cases h
    rw [Reader.fetchByte_ok hb, ih hbs]
    rfl

/-- With a byte left in the chunk, what the fetch leaves. -/
theorem Reader.fetchByte_answered {r : Reader} {b : Byte} {bs : List (Option Byte)} (hc : 1 ≤ r.chunkRem.toNat)
    (hb : r.src.bytes = some b :: bs) :
    ∃ t, r.fetchByte = .ok b t ∧ t.src.bytes = bs ∧ t.src.hops = r.src.hops ∧
      t.chunkRem.toNat = r.chunkRem.toNat - 1 :=
  ⟨_, Reader.fetchByte_in_chunk (fun h => by simp [h] at hc) hb, rfl, rfl,
    show (r.chunkRem - 1).toNat = _ by bv_omega⟩

/-- Within the current chunk the read asks for no hop and succeeds. -/
theorem Reader.readBytes_in_chunk {r : Reader} {bs : List Byte} {rest : List (Option Byte)}
    (hb : r.src.bytes = bs.map some ++ rest) (hc : bs.length ≤ r.chunkRem.toNat) :
    ∃ t, r.readBytes bs.length = .ok bs t ∧ t.src.bytes = rest ∧ t.src.hops = r.src.hops ∧
      t.chunkRem.toNat = r.chunkRem.toNat - bs.length := by
  induction bs generalizing r with
  | nil => exact ⟨r, rfl, hb, rfl, rfl⟩
  | cons b bs ih =>
    rw [List.length_cons] at hc
    obtain ⟨u, hu, hub, huh, huc⟩ := Reader.fetchByte_answered (by omega) hb
    obtain ⟨t, ht, htb, hth, htc⟩ := ih hub (by omega)
    refine ⟨t, ?_, htb, hth.trans huh, ?_⟩
    · rw [List.length_cons, Reader.readBytes, hu, Eff.bind_ok, ht, Eff.bind_ok]
    · rw [htc, huc, List.length_cons]
      omega

/-- Settles O19: the bytes are the next answers, and no fetch touches the buffered bits. -/
theorem readBytesBypassesTheBitBuffer : Obligations.ReadBytesBypassesTheBitBuffer := by
  intro r n
  have hf := r.fetches_readBytes n
  refine ⟨fun bs t h => ?_, fun c t h => ?_, fun bs rest hb hn hc => ?_⟩
  · rw [h] at hf
    exact ⟨Reader.readBytes_length h, Reader.readBytes_ok h, hf.bitbuf, hf.bitcnt, hf.mv, hf.mhave⟩
  · rw [h] at hf
    exact ⟨Reader.readBytes_raise h, hf.bitbuf, hf.bitcnt⟩
  · subst hn
    exact Reader.readBytes_in_chunk hb hc

/-! ## ReadBits (R163) -/

/-- The bits read are the first of the stream, the first of them bit 0 of the number. -/
theorem Reader.readBits_ok {n v : Nat} {r t : Reader} (hr : r.Tidy) (h : r.readBits n = .ok v t) :
    ∃ bs, bs.length = n ∧ r.streamBits = bs ++ t.streamBits ∧ v = numberOf bs ∧ t.Tidy ∧ t.mv = r.mv ∧
      t.mhave = r.mhave := by
  induction n generalizing r v with
  | zero => cases h; exact ⟨[], rfl, rfl, rfl, hr, rfl, rfl⟩
  | succ n ih =>
    obtain ⟨b, u, hb, h⟩ := Eff.bind_eq_ok h
    obtain ⟨w, x, hw, h⟩ := Eff.bind_eq_ok h
    cases h
    obtain ⟨hu, hbits, hmv, hmh⟩ := Reader.readBit_ok hr hb
    obtain ⟨bs, hlen, hrest, hnum, ht, hmv', hmh'⟩ := ih hu hw
    exact ⟨b :: bs, by rw [List.length_cons, hlen], by rw [hbits, hrest]; rfl, by rw [hnum]; rfl, ht, hmv'.trans hmv,
      hmh'.trans hmh⟩

/-- With bits enough in the stream, and in the current chunk, the read succeeds. -/
theorem Reader.readBits_total {n : Nat} {r : Reader} (hr : r.Tidy) (hn : n ≤ r.streamBits.length)
    (hc : r.WithinChunk n) : ∃ v t, r.readBits n = .ok v t := by
  induction n generalizing r with
  | zero => exact ⟨0, r, rfl⟩
  | succ n ih =>
    obtain ⟨b, u, hb, hin⟩ := Reader.readBit_total hr (Nat.le_trans (Nat.le_add_left 1 n) hn)
      (Nat.le_trans (Nat.le_add_left 1 n) hc)
    obtain ⟨hu, hbits, _⟩ := Reader.readBit_ok hr hb
    rw [hbits, List.length_cons] at hn
    obtain ⟨v, t, hv⟩ := ih hu (Nat.le_of_succ_le_succ hn) (hin n hc)
    exact ⟨_, t, by rw [Reader.readBits, hb, Eff.bind_ok, hv, Eff.bind_ok]⟩

/-- Settles O18: one bit after another. -/
theorem readBitsTakesTheNextBits : Obligations.ReadBitsTakesTheNextBits := by
  refine fun r n hr => ⟨rfl, fun v t h => ?_, fun c t => Reader.readBits_raise, Reader.readBits_total hr⟩
  obtain ⟨bs, rfl, hbits, hv, ht, hmv, hmh⟩ := Reader.readBits_ok hr h
  rw [hbits, List.take_left, List.drop_left, List.length_append]
  exact ⟨Nat.le_add_right _ _, hv, rfl, ht, hmv, hmh⟩

end Sys2Proof.Machine
end

section
/-!
The reader stays tidy (R168): every read keeps it so, inside an element or before it, whether it succeeds or
fails, and START drops the buffered bits.
-/

namespace Sys2Proof.Machine

/-- START drops the buffered bits (R142). -/
theorem Reader.tidy_started (c : BitVec 32) (r : Reader) : (r.started c).Tidy :=
  ⟨by simp [Reader.started], by simp [Reader.started]⟩

/-- If the answer is a next state, its reader is tidy. -/
def TidyAnswer (o : Out) : Prop := ∀ t, o = .next t → t.reader.Tidy

theorem TidyAnswer.next {t : State} (h : t.reader.Tidy) : TidyAnswer (.next t) := fun _ e => Host.Outcome.next.inj e ▸ h

theorem TidyAnswer.refused (r : Refusal) : TidyAnswer (.refused r) := fun _ h => by cases h

/-- A read inside a meaning keeps the reader tidy, whether it succeeds or fails. -/
theorem State.andThen_tidy {α : Type} {s : State} {e : Eff Reader α} {k : α → State → Out} (he : e.out.Tidy)
    (hk : ∀ a u, u.reader.Tidy → TidyAnswer (k a u)) : TidyAnswer (s.andThen e k) := by
  cases e with
  | ok a r => exact hk a _ he
  | raise c r => exact .next he

theorem State.withBits_tidy {s : State} (n : Nat) {k : Nat → State → Out} (hs : s.reader.Tidy)
    (hk : ∀ x u, u.reader.Tidy → TidyAnswer (k x u)) : TidyAnswer (s.withBits n k) :=
  State.andThen_tidy ((s.reader.moves_readBits n).tidy hs) hk

theorem storeLens_tidy (n : Nat) (v : BitVec 4) {s : State} (hs : s.reader.Tidy) : TidyAnswer (storeLens n v s) := by
  intro t h
  obtain ⟨_, rfl⟩ := storeLens_next h
  exact hs

theorem repeatLens_tidy (n : Nat) (v : BitVec 4) {s : State} (hs : s.reader.Tidy) : TidyAnswer (repeatLens n v s) := by
  intro t h
  rcases repeatLens_next h with ⟨_, rfl⟩ | ⟨_, _, rfl⟩ <;> exact hs

theorem copyMatch_tidy {s : State} (hs : s.reader.Tidy) : TidyAnswer (copyMatch s) := by
  intro t h
  rcases copyMatch_next h with ⟨_, rfl⟩ | ⟨_, _, rfl⟩ | ⟨_, _, rfl⟩ <;> exact hs

theorem execStoredHdr_tidy (a b : BitVec 16) {s : State} (hs : s.reader.Tidy) : TidyAnswer (execStoredHdr a b s) := by
  unfold execStoredHdr
  split
  · exact .next hs
  · exact .next hs

theorem execDyn_tidy (a b : BitVec 5) (c : BitVec 4) {s : State} (hs : s.reader.Tidy) : TidyAnswer (execDyn a b c s) := by
  refine State.andThen_tidy ((s.reader.moves_readLens _).tidy hs) fun vs u hu => ?_
  split
  · exact .refused _
  · exact .next hu

theorem execClRep_tidy {s : State} (hs : s.reader.Tidy) : TidyAnswer (execClRep s) := by
  unfold execClRep
  split
  · exact .next hs
  · exact s.withBits_tidy 2 hs fun x u hu => repeatLens_tidy _ _ hu

/-- An element whose format leaves the buffered bits alone leaves them alone when it is carried out. -/
theorem exec_tidy_of_bytes {i : Instr} {s : State} (hi : (encode i).fmt.readsBits = false) (hs : s.reader.Tidy) :
    TidyAnswer (exec i s) := by
  intro t h
  rcases (exec_effect h).reader with hr | ⟨c, st, _, hr⟩
  · obtain ⟨hb, hc⟩ := hr.bits hi
    unfold Reader.Tidy
    rw [hb, hc]
    exact hs
  · rw [hr]
    exact Reader.tidy_started c _

theorem exec_tidy (i : Instr) {s : State} (hs : s.reader.Tidy) : TidyAnswer (exec i s) := by
  cases hi : (encode i).fmt.readsBits with
  | false => exact exec_tidy_of_bytes hi hs
  | true =>
    obtain ⟨o, ho⟩ : ∃ o, exec i s = o := ⟨_, rfl⟩
    rw [ho]
    have hshape := exec_shape ho
    clear ho
    cases hshape with
    | blockStored f h => exact h ▸ .next hs
    | blockFixed f h => exact h ▸ .next hs
    | blockDynamic f h => exact h ▸ .next hs
    | blockReserved f h => exact h ▸ .next hs
    | storedHdr a b h => exact h ▸ execStoredHdr_tidy a b hs
    | dyn a b c h => exact h ▸ execDyn_tidy a b c hs
    | clLen n h => exact h ▸ storeLens_tidy 1 n hs
    | clRep h => exact h ▸ execClRep_tidy hs
    | clZeroS h => exact h ▸ s.withBits_tidy 3 hs fun x u hu => repeatLens_tidy _ _ hu
    | clZeroL h => exact h ▸ s.withBits_tidy 7 hs fun x u hu => repeatLens_tidy _ _ hu
    | lit b h => exact h ▸ .next hs
    | eob h => exact h ▸ .next hs
    | length _ base ext h => exact h ▸ s.withBits_tidy ext hs fun x u hu => .next hu
    | lenInvalid _ h => exact h ▸ .next hs
    | distance _ base ext h => exact h ▸ s.withBits_tidy ext hs fun x u hu => copyMatch_tidy hu
    | distInvalid _ h => exact h ▸ .next hs
    | reserved _ h => exact h ▸ .refused _
    | filter _ p h hi' => rw [(exec_predictorOf s hi').2] at hi; cases hi
    | _ => cases hi

/-- Settles O50: reading an element, carrying it out and the steps without one each keep the reader tidy. -/
theorem stepKeepsTheReaderTidy : Obligations.StepKeepsTheReaderTidy := by
  intro s t hs h
  rcases step_cases s with ⟨i, u, hf, he⟩ | hb
  · exact exec_tidy i ((fetch_instr hf).2.reader.tidy hs) t (he ▸ h)
  · cases bare_quiet (h ▸ hb) with
    | fails u e hu => exact hu.reader.tidy hs
    | _ => exact hs

end Sys2Proof.Machine
end

section
/-!
The reader does not see where the chunks are cut (R167). Two readers are compared by what `forgetChunks` leaves of
them: every operation answers alike from two that are equal so, unless one of the two ran out of chunks
(`E_IO_CHUNK`).
-/

namespace Sys2Proof.Machine

/-! ## Answers of the reader -/

/-- A reader without the bytes left in its chunk and the chunk lengths still to come. -/
def Reader.forgetChunks (r : Reader) : Reader := { r with chunkRem := 0, src := { r.src with hops := [] } }

/-- An answer of the reader, its reader without chunk boundaries. -/
def Eff.forgetChunks {α : Type} : Eff Reader α → Eff Reader α
  | .ok a r => .ok a r.forgetChunks
  | .raise c r => .raise c r.forgetChunks

/-- A chunk was wanted and there was none (R362). -/
def Eff.NoChunk {α : Type} (e : Eff Reader α) : Prop := ∃ r, e = .raise .ioChunk r

/-- Two answers that differ in chunk boundaries only, or one of which is that there is no chunk. -/
def Eff.Alike {α : Type} (e f : Eff Reader α) : Prop := e.NoChunk ∨ f.NoChunk ∨ e.forgetChunks = f.forgetChunks

theorem Eff.Alike.ok {α : Type} (a : α) {r t : Reader} (h : r.forgetChunks = t.forgetChunks) :
    (Eff.ok a r).Alike (.ok a t) := .inr (.inr (congrArg (Eff.ok a) h))

theorem Eff.Alike.raise {α : Type} (c : ErrCode) {r t : Reader} (h : r.forgetChunks = t.forgetChunks) :
    (Eff.raise c r : Eff Reader α).Alike (.raise c t) := .inr (.inr (congrArg (Eff.raise c) h))

theorem Eff.NoChunk.bind {α β : Type} {e : Eff Reader α} (h : e.NoChunk) (k : α → Reader → Eff Reader β) :
    (e.bind k).NoChunk := by
  obtain ⟨r, rfl⟩ := h
  exact ⟨r, rfl⟩

/-- What two alike answers are where a chunk was not lacking: both a value, the same, or both an error, the same. -/
theorem Eff.Alike.cases {α : Type} {e f : Eff Reader α} (h : e.Alike f) :
    e.NoChunk ∨ f.NoChunk ∨
      (∃ a r t, e = .ok a r ∧ f = .ok a t ∧ r.forgetChunks = t.forgetChunks) ∨
      ∃ c r t, e = .raise c r ∧ f = .raise c t ∧ r.forgetChunks = t.forgetChunks := by
  refine h.imp_right (Or.imp_right fun he => ?_)
  cases e <;> cases f
  case ok.ok a r b t =>
    obtain ⟨rfl, hr⟩ := (Eff.ok.injEq ..).mp he
    exact .inl ⟨a, r, t, rfl, rfl, hr⟩
  case raise.raise c r d t =>
    obtain ⟨rfl, hr⟩ := (Eff.raise.injEq ..).mp he
    exact .inr ⟨c, r, t, rfl, rfl, hr⟩
  all_goals cases he

/-- One operation after another. -/
theorem Eff.Alike.bind {α β : Type} {e f : Eff Reader α} {k : α → Reader → Eff Reader β} (h : e.Alike f)
    (hk : ∀ a r t, r.forgetChunks = t.forgetChunks → (k a r).Alike (k a t)) : (e.bind k).Alike (f.bind k) := by
  rcases h.cases with he | hf | ⟨a, r, t, rfl, rfl, hrt⟩ | ⟨c, r, t, rfl, rfl, hrt⟩
  · exact .inl (he.bind k)
  · exact .inr (.inl (hf.bind k))
  · exact hk a r t hrt
  · exact .raise c hrt

/-! ## FetchByte (R162) -/

/-- A fetch that leaves the bytes of the source alone changes chunk boundaries only. -/
theorem Reader.Fetches.forgetChunks {r t : Reader} (h : r.Fetches t) (hb : t.src.bytes = r.src.bytes) :
    t.forgetChunks = r.forgetChunks := by
  simp only [Reader.forgetChunks, h.bitbuf, h.bitcnt, h.mv, h.mhave, hb]

/-- A byte wanted is a byte requested once the chunks have been hopped, if there is one. -/
theorem Reader.fetchByte_hopped (r : Reader) :
    r.fetchByte.NoChunk ∨ ∃ u : Reader, r.fetchByte = u.srcByte ∧ u.forgetChunks = r.forgetChunks := by
  unfold Reader.fetchByte
  split
  · have hf := r.fetches_hop _ List.suffix_rfl
    cases hh : r.hop r.src.hops with
    | ok x u =>
      rw [hh] at hf
      exact .inr ⟨u, rfl, hf.forgetChunks (Reader.hop_ok_bytes hh)⟩
    | raise c u => exact .inl ⟨u, by rw [Reader.hop_raise hh]; rfl⟩
  · exact .inr ⟨r, rfl, rfl⟩

/-- The answers to requests for bytes are not cut at chunk boundaries (R161). -/
theorem Reader.srcByte_forgetChunks (r : Reader) : r.srcByte.forgetChunks = r.forgetChunks.srcByte.forgetChunks := by
  obtain ⟨_, _, _, _, _, bs, _⟩ := r
  rcases bs with _ | ⟨_ | _, _⟩ <;> rfl

theorem Reader.fetchByte_alike {r t : Reader} (h : r.forgetChunks = t.forgetChunks) : r.fetchByte.Alike t.fetchByte := by
  obtain hr | ⟨x, hx, hr⟩ := r.fetchByte_hopped
  · exact .inl hr
  obtain ht | ⟨y, hy, ht⟩ := t.fetchByte_hopped
  · exact .inr (.inl ht)
  rw [hx, hy]
  refine .inr (.inr ?_)
  rw [x.srcByte_forgetChunks, y.srcByte_forgetChunks, hr, ht, h]

/-! ## Bits, bytes and symbols -/

theorem Reader.shiftBit_alike {r t : Reader} (h : r.forgetChunks = t.forgetChunks) : r.shiftBit.Alike t.shiftBit :=
  .inr (.inr (congrArg Reader.shiftBit h))

theorem Reader.readBit_alike {r t : Reader} (h : r.forgetChunks = t.forgetChunks) : r.readBit.Alike t.readBit := by
  have hc : r.bitcnt = t.bitcnt := (congrArg Reader.bitcnt h :)
  unfold Reader.readBit
  rw [hc]
  split
  · exact (Reader.fetchByte_alike h).bind fun b x y hxy =>
      Reader.shiftBit_alike (congrArg (fun x : Reader => { x with bitbuf := b, bitcnt := 8 }) hxy)
  · exact Reader.shiftBit_alike h

theorem Reader.readBits_alike (n : Nat) {r t : Reader} (h : r.forgetChunks = t.forgetChunks) :
    (r.readBits n).Alike (t.readBits n) := by
  induction n generalizing r t with
  | zero => exact .ok 0 h
  | succ n ih => exact (Reader.readBit_alike h).bind fun b _ _ h => (ih h).bind fun v _ _ h => .ok _ h

theorem Reader.readBytes_alike (n : Nat) {r t : Reader} (h : r.forgetChunks = t.forgetChunks) :
    (r.readBytes n).Alike (t.readBytes n) := by
  induction n generalizing r t with
  | zero => exact .ok [] h
  | succ n ih => exact (Reader.fetchByte_alike h).bind fun b _ _ h => (ih h).bind fun bs _ _ h => .ok _ h

theorem Reader.readWord_alike (n : Nat) {r t : Reader} (h : r.forgetChunks = t.forgetChunks) :
    (r.readWord n).Alike (t.readWord n) := (Reader.readBytes_alike n h).bind fun _ _ _ h => .ok _ h

theorem Reader.readLens_alike (n : Nat) {r t : Reader} (h : r.forgetChunks = t.forgetChunks) :
    (r.readLens n).Alike (t.readLens n) := by
  induction n generalizing r t with
  | zero => exact .ok [] h
  | succ n ih => exact (Reader.readBits_alike 3 h).bind fun v _ _ h => (ih h).bind fun vs _ _ h => .ok _ h

theorem Reader.accumulate_alike (k : Nat) {r t : Reader} (h : r.forgetChunks = t.forgetChunks) :
    (r.accumulate k).Alike (t.accumulate k) := by
  induction k generalizing r t with
  | zero => exact .ok () h
  | succ k ih =>
    exact (Reader.readBit_alike h).bind fun b _ _ h => ih (congrArg
      (fun x : Reader => { x with mv := x.mv ||| (BitVec.ofNat 15 b.toNat <<< x.mhave.toNat), mhave := x.mhave + 1 }) h)

theorem Reader.scanTable_alike (es : List HuffEntry) {r t : Reader} (h : r.forgetChunks = t.forgetChunks) :
    (r.scanTable es).Alike (t.scanTable es) := by
  induction es generalizing r t with
  | nil => exact .raise .noMatch h
  | cons e es ih =>
    have hm : r.mhave = t.mhave := (congrArg Reader.mhave h :)
    unfold Reader.scanTable
    rw [hm]
    refine (Reader.accumulate_alike _ h).bind fun _ x y h => ?_
    have hv : x.mv = y.mv := (congrArg Reader.mv h :)
    rw [hv]
    split
    · exact .ok _ h
    · exact ih h

theorem Reader.matchSymbol_alike (es : List HuffEntry) {r t : Reader} (h : r.forgetChunks = t.forgetChunks) :
    (r.matchSymbol es).Alike (t.matchSymbol es) :=
  Reader.scanTable_alike es (congrArg (fun x : Reader => { x with mv := 0, mhave := 0 }) h)

theorem Reader.readSymbol_alike (es : List HuffEntry) {r t : Reader} (h : r.forgetChunks = t.forgetChunks) :
    (r.readSymbol es).Alike (t.readSymbol es) := (Reader.matchSymbol_alike es h).bind fun _ _ _ h => .ok _ h

end Sys2Proof.Machine
end

section
/-!
No step sees where the chunks are cut (R167). A meaning that reads nothing commutes with `forgetChunks`; one that
reads goes on alike after a read that answered alike.
-/

namespace Sys2Proof.Machine

/-! ## Answers of a meaning -/

/-- An answer, its next state without chunk boundaries. -/
def forgetAnswer : Out → Out
  | .next t => .next t.forgetChunks
  | .fault r => .fault r
  | .refused r => .refused r

/-- The step ended with `E_IO_CHUNK`. -/
def RanOutOfChunks (o : Out) : Prop := ∃ t, o = .next t ∧ t.session.result = 0x11

/-- Two answers that differ in chunk boundaries only, or one of which is that there is no chunk. -/
def AlikeAnswers (o p : Out) : Prop := RanOutOfChunks o ∨ RanOutOfChunks p ∨ forgetAnswer o = forgetAnswer p

theorem RanOutOfChunks.raise (s : State) : RanOutOfChunks (raiseErr .ioChunk s) := ⟨_, rfl, rfl⟩

theorem AlikeAnswers.next {t v : State} (h : t.forgetChunks = v.forgetChunks) : AlikeAnswers (.next t) (.next v) :=
  .inr (.inr (congrArg Host.Outcome.next h))

theorem AlikeAnswers.refused (r : Refusal) : AlikeAnswers (.refused r) (.refused r) := .inr (.inr rfl)

/-- A meaning that commutes with forgetting the chunk boundaries does not depend on them. -/
theorem AlikeAnswers.of_commutes {f : State → Out} (hf : ∀ s, forgetAnswer (f s) = f s.forgetChunks) {s u : State}
    (h : s.forgetChunks = u.forgetChunks) : AlikeAnswers (f s) (f u) := .inr (.inr (by rw [hf, hf, h]))

/-- Taking an error reads nothing. -/
theorem raiseErr_alike (c : ErrCode) {s u : State} (h : s.forgetChunks = u.forgetChunks) :
    AlikeAnswers (raiseErr c s) (raiseErr c u) := .of_commutes (fun _ => rfl) h

theorem State.setReader_forgetChunks {s u : State} {r t : Reader} (h : s.forgetChunks = u.forgetChunks)
    (hr : r.forgetChunks = t.forgetChunks) : (s.setReader r).forgetChunks = (u.setReader t).forgetChunks :=
  congrArg₂ State.setReader h hr

theorem State.reader_alike {s u : State} (h : s.forgetChunks = u.forgetChunks) :
    s.reader.forgetChunks = u.reader.forgetChunks := congrArg State.reader h

/-- Reading inside a meaning. -/
theorem State.andThen_alike {α : Type} {s u : State} {e f : Eff Reader α} {k : α → State → Out}
    (h : s.forgetChunks = u.forgetChunks) (he : e.Alike f) (hk : ∀ a s, forgetAnswer (k a s) = k a s.forgetChunks) :
    AlikeAnswers (s.andThen e k) (u.andThen f k) := by
  rcases he.cases with ⟨r, rfl⟩ | ⟨t, rfl⟩ | ⟨a, r, t, rfl, rfl, hr⟩ | ⟨c, r, t, rfl, rfl, hr⟩
  · exact .inl (.raise _)
  · exact .inr (.inl (.raise _))
  · exact .of_commutes (hk a) (State.setReader_forgetChunks h hr)
  · exact raiseErr_alike c (State.setReader_forgetChunks h hr)

theorem State.withBits_alike {s u : State} (n : Nat) {k : Nat → State → Out} (h : s.forgetChunks = u.forgetChunks)
    (hk : ∀ x s, forgetAnswer (k x s) = k x s.forgetChunks) : AlikeAnswers (s.withBits n k) (u.withBits n k) :=
  State.andThen_alike h (Reader.readBits_alike n (State.reader_alike h)) hk

/-! ## Meanings that read nothing -/

theorem State.ifLegal_forgetChunks {k : State → Out} (hk : ∀ s, forgetAnswer (k s) = k s.forgetChunks) (s : State) :
    forgetAnswer (s.ifLegal k) = s.forgetChunks.ifLegal k := by
  obtain ⟨⟨st, res⟩, _⟩ := s
  cases st
  case active => exact hk _
  all_goals rfl

theorem loadTables_forgetChunks (lits dists : List Nat) (s : State) :
    forgetAnswer (loadTables lits dists s) = loadTables lits dists s.forgetChunks := by
  unfold loadTables
  cases build lits with
  | none => rfl
  | some tl => cases build dists <;> rfl

theorem execFixed_forgetChunks (s : State) : forgetAnswer (execFixed s) = execFixed s.forgetChunks :=
  loadTables_forgetChunks fixedLitLens fixedDistLens s

theorem finishDyn_forgetChunks (s : State) : forgetAnswer (finishDyn s) = finishDyn s.forgetChunks :=
  loadTables_forgetChunks s.dyn.litLens s.dyn.distLens _

theorem storeLens_forgetChunks (n : Nat) (v : BitVec 4) (s : State) :
    forgetAnswer (storeLens n v s) = storeLens n v s.forgetChunks := apply_ite forgetAnswer ..

theorem repeatLens_forgetChunks (n : Nat) (v : BitVec 4) (s : State) :
    forgetAnswer (repeatLens n v s) = repeatLens n v s.forgetChunks := by
  unfold repeatLens
  rw [apply_ite forgetAnswer, storeLens_forgetChunks]
  rfl

theorem copyMatch_forgetChunks (s : State) : forgetAnswer (copyMatch s) = copyMatch s.forgetChunks := by
  unfold copyMatch
  rw [apply_ite forgetAnswer, apply_ite forgetAnswer]
  rfl

theorem deliverRow_forgetChunks (p : Predictor) (s : State) :
    forgetAnswer (deliverRow p s) = deliverRow p s.forgetChunks := apply_ite forgetAnswer ..

theorem execZlib_forgetChunks (a b : BitVec 4) (c : BitVec 5) (d : Bool) (e : BitVec 2) (s : State) :
    forgetAnswer (execZlib a b c d e s) = execZlib a b c d e s.forgetChunks := by
  unfold execZlib
  rw [apply_ite forgetAnswer, apply_ite forgetAnswer, apply_ite forgetAnswer]
  rfl

theorem execStoredHdr_forgetChunks (a b : BitVec 16) (s : State) :
    forgetAnswer (execStoredHdr a b s) = execStoredHdr a b s.forgetChunks := apply_ite forgetAnswer ..

theorem execPassBegin_forgetChunks (n : BitVec 11) (s : State) :
    forgetAnswer (execPassBegin n s) = execPassBegin n s.forgetChunks :=
  s.ifLegal_forgetChunks fun _ => apply_ite forgetAnswer ..

theorem execRow_forgetChunks (s : State) : forgetAnswer (execRow s) = execRow s.forgetChunks :=
  s.ifLegal_forgetChunks fun _ => apply_ite forgetAnswer ..

theorem execFinish_forgetChunks (s : State) : forgetAnswer (execFinish s) = execFinish s.forgetChunks :=
  s.ifLegal_forgetChunks fun _ => rfl

/-- The length of the first chunk is a chunk boundary too (R142). -/
theorem execStart_forgetChunks (c : BitVec 32) (st : BitVec 4) (s : State) :
    forgetAnswer (execStart c st s) = execStart 0 st s.forgetChunks := apply_ite forgetAnswer ..

theorem execStart_alike (c d : BitVec 32) (st : BitVec 4) {s u : State} (h : s.forgetChunks = u.forgetChunks) :
    AlikeAnswers (execStart c st s) (execStart d st u) := by
  refine .inr (.inr ?_)
  rw [execStart_forgetChunks, execStart_forgetChunks, h]

/-! ## Elements -/

theorem execDyn_alike (a b : BitVec 5) (c : BitVec 4) {s u : State} (h : s.forgetChunks = u.forgetChunks) :
    AlikeAnswers (execDyn a b c s) (execDyn a b c u) := by
  have hd : s.dyn = u.dyn := (congrArg State.dyn h :)
  unfold execDyn
  rw [hd]
  refine State.andThen_alike (congrArg (State.setDyn · _) h) (Reader.readLens_alike _ (State.reader_alike h)) fun vs s => ?_
  cases build ((clLensOf vs).map BitVec.toNat) <;> rfl

theorem execClRep_alike {s u : State} (h : s.forgetChunks = u.forgetChunks) :
    AlikeAnswers (execClRep s) (execClRep u) := by
  have hd : s.dyn = u.dyn := (congrArg State.dyn h :)
  unfold execClRep
  rw [hd]
  split
  · exact raiseErr_alike _ h
  · exact State.withBits_alike 2 h fun x s => repeatLens_forgetChunks _ _ s

theorem lengthSymbol_alike (base ext : Nat) {s u : State} (h : s.forgetChunks = u.forgetChunks) :
    AlikeAnswers (lengthSymbol base ext s) (lengthSymbol base ext u) := State.withBits_alike ext h fun _ _ => rfl

theorem distSymbol_alike (base ext : Nat) {s u : State} (h : s.forgetChunks = u.forgetChunks) :
    AlikeAnswers (distSymbol base ext s) (distSymbol base ext u) :=
  State.withBits_alike ext h fun _ _ => copyMatch_forgetChunks _

/-- An element is carried out alike. -/
theorem exec_alike (i : Instr) {s u : State} (h : s.forgetChunks = u.forgetChunks) :
    AlikeAnswers (exec i s) (exec i u) := by
  obtain ⟨o, ho⟩ : ∃ o, exec i s = o := ⟨_, rfl⟩
  rw [ho]
  have hshape := exec_shape ho
  clear ho
  cases hshape with
  | start c st e => exact e ▸ execStart_alike c c st h
  | passBegin n e => exact e ▸ .of_commutes (execPassBegin_forgetChunks n) h
  | row e => exact e ▸ .of_commutes execRow_forgetChunks h
  | finish e => exact e ▸ .of_commutes execFinish_forgetChunks h
  | abort e => exact e ▸ .of_commutes (f := execAbort) (fun _ => rfl) h
  | reserved i e hi => rcases hi with rfl | rfl | rfl <;> exact e ▸ .refused _
  | zlib a b c d x e => exact e ▸ .of_commutes (execZlib_forgetChunks a b c d x) h
  | blockStored f e => exact e ▸ .of_commutes (f := execBlockStored f) (fun _ => rfl) h
  | blockFixed f e => exact e ▸ .of_commutes (f := execBlockFixed f) (fun _ => rfl) h
  | blockDynamic f e => exact e ▸ .of_commutes (f := execBlockDynamic f) (fun _ => rfl) h
  | blockReserved f e => exact e ▸ .of_commutes (f := execBlockReserved f) (fun _ => rfl) h
  | storedHdr a b e => exact e ▸ .of_commutes (execStoredHdr_forgetChunks a b) h
  | raw b e => exact e ▸ .of_commutes (f := execRaw b) (fun _ => rfl) h
  | fixed e => exact e ▸ .of_commutes execFixed_forgetChunks h
  | dyn a b c e => exact e ▸ execDyn_alike a b c h
  | clLen n e => exact e ▸ .of_commutes (storeLens_forgetChunks 1 n) h
  | clRep e => exact e ▸ execClRep_alike h
  | clZeroS e => exact e ▸ State.withBits_alike 3 h fun _ s => repeatLens_forgetChunks _ _ s
  | clZeroL e => exact e ▸ State.withBits_alike 7 h fun _ s => repeatLens_forgetChunks _ _ s
  | lit b e => exact e ▸ .of_commutes (f := execLit b) (fun _ => rfl) h
  | eob e => exact e ▸ .of_commutes (f := execEob) (fun _ => rfl) h
  | length i base ext e hi => exact e ▸ (exec_lengthParams u hi).1 ▸ lengthSymbol_alike base ext h
  | lenInvalid i e hi => rcases hi with rfl | rfl <;> exact e ▸ raiseErr_alike _ h
  | distance i base ext e hi => exact e ▸ (exec_distanceParams u hi).1 ▸ distSymbol_alike base ext h
  | distInvalid i e hi => rcases hi with rfl | rfl <;> exact e ▸ raiseErr_alike _ h
  | filter i p e hi => exact e ▸ (exec_predictorOf u hi).1 ▸ .of_commutes (deliverRow_forgetChunks p) h
  | fInvalid t e => exact e ▸ raiseErr_alike _ h
  | ztrl a e => exact e ▸ .of_commutes (f := execZtrl a) (fun _ => rfl) h

/-! ## A step -/

/-- What a step answers once it has been fetched. -/
def Fetched.answer : Fetched → Out
  | .instr i s => exec i s
  | .done o => o

theorem step_eq_answer (s : State) : step s = (fetch s).answer := by
  unfold step
  cases fetch s <;> rfl

theorem decodeAt_alike (e : Element) {s u : State} (h : s.forgetChunks = u.forgetChunks) :
    AlikeAnswers (decodeAt e s).answer (decodeAt e u).answer := by
  unfold decodeAt
  cases decode e with
  | ok i => exact exec_alike i h
  | error d =>
    cases d with
    | litLenSymbol => exact raiseErr_alike _ h
    | distSymbol => exact raiseErr_alike _ h
    | clSymbol => exact .refused _
    | wordTooWide => exact .refused _

theorem fetchWord_alike (f : Format) {x y : Eff Reader Nat} {s u : State} (h : s.forgetChunks = u.forgetChunks)
    (he : x.Alike y) : AlikeAnswers (fetchWord f x s).answer (fetchWord f y u).answer := by
  rcases he.cases with ⟨r, rfl⟩ | ⟨t, rfl⟩ | ⟨w, r, t, rfl, rfl, hr⟩ | ⟨c, r, t, rfl, rfl, hr⟩
  · exact .inl (.raise _)
  · exact .inr (.inl (.raise _))
  · exact decodeAt_alike _ (State.setReader_forgetChunks h hr)
  · exact raiseErr_alike c (State.setReader_forgetChunks h hr)

theorem fetchLitLen_alike {s u : State} (h : s.forgetChunks = u.forgetChunks) :
    AlikeAnswers (fetchLitLen s).answer (fetchLitLen u).answer := by
  have ht : s.tables = u.tables := (congrArg State.tables h :)
  have hs : s.temps = u.temps := (congrArg State.temps h :)
  have he := Reader.matchSymbol_alike s.tables.lit (State.reader_alike h)
  unfold fetchLitLen
  rw [← ht, ← hs]
  rcases he.cases with ⟨r, hx⟩ | ⟨t, hy⟩ | ⟨v, r, t, hx, hy, hr⟩ | ⟨c, r, t, hx, hy, hr⟩
  · rw [hx]
    exact .inl (.raise _)
  · rw [hy]
    exact .inr (.inl (.raise _))
  · rw [hx, hy]
    exact decodeAt_alike _ (congrArg (State.setTemps · _) (State.setReader_forgetChunks h hr))
  · rw [hx, hy]
    exact raiseErr_alike c (State.setReader_forgetChunks h hr)

theorem fetchInflate_alike {s u : State} (h : s.forgetChunks = u.forgetChunks) :
    AlikeAnswers (fetchInflate s).answer (fetchInflate u).answer := by
  have hr := State.reader_alike h
  have hi : s.inflate = u.inflate := (congrArg State.inflate h :)
  have hd : s.dyn = u.dyn := (congrArg State.dyn h :)
  have ht : s.tables = u.tables := (congrArg State.tables h :)
  have hs : s.temps = u.temps := (congrArg State.temps h :)
  unfold fetchInflate
  rw [hi, hd, ht, hs]
  cases u.inflate.istate with
  | begin =>
    dsimp only
    split
    · exact fetchWord_alike _ h (Reader.readBits_alike 3 hr)
    · exact fetchWord_alike _ h (Reader.readWord_alike 2 hr)
  | stored =>
    dsimp only
    split
    · exact fetchWord_alike _ h (Reader.readWord_alike 1 hr)
    · exact fetchWord_alike _ h (Reader.readWord_alike 4 (congrArg Reader.alignByte hr))
  | fixed => exact exec_alike .fixed h
  | dynamic =>
    dsimp only
    split
    · split
      · exact fetchWord_alike _ h (Reader.readSymbol_alike _ hr)
      · exact .of_commutes finishDyn_forgetChunks h
    · exact fetchWord_alike _ h (Reader.readBits_alike 14 hr)
  | huffman =>
    dsimp only
    split
    · exact fetchWord_alike _ h (Reader.readSymbol_alike _ hr)
    · exact fetchLitLen_alike h
  | blockEnd => exact .of_commutes (f := stepBlockEnd) (fun _ => rfl) h
  | streamEnd => exact raiseErr_alike _ h

theorem fetchFilter_alike (d : List Byte) {s u : State} (h : s.forgetChunks = u.forgetChunks) :
    AlikeAnswers (fetchFilter d s).answer (fetchFilter d u).answer := by
  have hs : s.scan = u.scan := (congrArg State.scan h :)
  unfold fetchFilter
  rw [hs]
  cases d with
  | nil => exact .inr (.inr rfl)
  | cons f bytes =>
    dsimp only
    split
    · exact decodeAt_alike _ (congrArg (State.setScan · _) h)
    · exact .inr (.inr rfl)

/-- A command of the host without the chunk boundary among its operands. -/
def HostReq.forgetChunks (q : HostReq) : HostReq := { q with ops := { q.ops with chunkRem0 := 0 } }

/-- Only START looks at that operand (R116). -/
theorem decodeCommand_forgetChunks {q : HostReq} (h : q.code ≠ 1) :
    decodeCommand q.forgetChunks.code q.forgetChunks.ops = decodeCommand q.code q.ops := by
  obtain ⟨c, o⟩ := q
  rcases code_cases c with rfl | rfl | rfl | rfl | rfl | rfl | rfl | rfl
  case inr.inl => exact absurd rfl h
  all_goals rfl

theorem exec_command_alike {q p : HostReq} {s u : State} (hq : q.forgetChunks = p.forgetChunks)
    (h : s.forgetChunks = u.forgetChunks) :
    AlikeAnswers (exec (decodeCommand q.code q.ops) s) (exec (decodeCommand p.code p.ops) u) := by
  have hc : q.code = p.code := (congrArg HostReq.code hq :)
  by_cases h1 : q.code = 1
  · have hst : q.ops.stride0 = p.ops.stride0 := (congrArg (fun q => q.ops.stride0) hq :)
    rw [← hc, h1]
    show AlikeAnswers (execStart _ q.ops.stride0 s) (execStart _ p.ops.stride0 u)
    rw [hst]
    exact execStart_alike _ _ _ h
  · have hi : decodeCommand q.code q.ops = decodeCommand p.code p.ops := by
      rw [← decodeCommand_forgetChunks h1, hq, decodeCommand_forgetChunks (hc ▸ h1)]
    rw [hi]
    exact exec_alike _ h

theorem State.setCmds_forgetChunks {s u : State} {qs ps : List HostReq} (h : s.forgetChunks = u.forgetChunks)
    (hq : qs.map HostReq.forgetChunks = ps.map HostReq.forgetChunks) :
    (s.setPort { s.port with cmds := qs }).forgetChunks = (u.setPort { u.port with cmds := ps }).forgetChunks :=
  congrArg₂ (fun (x : State) l => x.setPort { x.port with cmds := l }) h hq

/-- A waiting machine takes the same command from alike queues. -/
theorem fetch_waiting_alike {s u : State} (h : s.forgetChunks = u.forgetChunks) (hs : s.port.cmd = .waiting)
    (hu : u.port.cmd = .waiting) : AlikeAnswers (fetch s).answer (fetch u).answer := by
  have hcmds : s.port.cmds.map HostReq.forgetChunks = u.port.cmds.map HostReq.forgetChunks :=
    (congrArg (fun s => s.port.cmds) h :)
  cases hq : s.port.cmds with
  | nil =>
    rw [hq] at hcmds
    rw [fetch_idle hs hq, fetch_idle hu (List.map_eq_nil_iff.1 hcmds.symm)]
    exact .next h
  | cons q qs =>
    rw [hq] at hcmds
    obtain ⟨p, ps, hp, hqp, hrest⟩ := List.map_eq_cons_iff.1 hcmds.symm
    rw [fetch_command hs hq, fetch_command hu hp]
    exact exec_command_alike hqp.symm (State.setCmds_forgetChunks h hrest.symm)

theorem fetch_alike {s u : State} (h : s.forgetChunks = u.forgetChunks) :
    AlikeAnswers (fetch s).answer (fetch u).answer := by
  have hc : s.port.cmd = u.port.cmd := (congrArg (fun s => s.port.cmd) h :)
  have hx : s.scan = u.scan := (congrArg State.scan h :)
  have hw : s.window = u.window := (congrArg State.window h :)
  cases hu : u.port.cmd with
  | waiting => exact fetch_waiting_alike h (hc.trans hu) hu
  | finish =>
    unfold fetch
    rw [hc, hu]
    exact fetchWord_alike _ h (Reader.readWord_alike 4 (State.reader_alike h))
  | row d =>
    unfold fetch
    rw [hc, hu, hx, hw]
    dsimp only
    split
    · exact fetchFilter_alike d h
    · split
      · exact fetchInflate_alike h
      · exact .of_commutes (f := pullByte d) (fun _ => rfl) h

/-- Settles O21: the two steps answer alike, and neither ran out of chunks. -/
theorem chunkSplittingIsTransparent : Obligations.ChunkSplittingIsTransparent := by
  intro s u s' u' h hs hu hs' hu'
  have ha := fetch_alike h
  rw [← step_eq_answer, ← step_eq_answer, hs, hu] at ha
  rcases ha with ⟨t, ht, hc⟩ | ⟨t, ht, hc⟩ | ha
  · exact absurd (Host.Outcome.next.inj ht ▸ hc) hs'
  · exact absurd (Host.Outcome.next.inj ht ▸ hc) hu'
  · exact Host.Outcome.next.inj ha

end Sys2Proof.Machine
end

section
/-!
The tables `Build` makes (spec/42_huffman.md R182 to R187): they are sorted, and where the Kraft sum is at most 1
the canonical codes are in their ranges and no code begins another.
-/

namespace Sys2Proof.Machine

/-! ## The order of a table (R185) -/

theorem insertEntry_sorted {es : List HuffEntry} (e : HuffEntry) (h : es.Pairwise fun x y => x.le y = true) :
    (insertEntry e es).Pairwise fun x y => x.le y = true := by
  induction es with
  | nil => exact List.pairwise_singleton _ _
  | cons x xs ih =>
    obtain ⟨hx, hxs⟩ := List.pairwise_cons.1 h
    unfold insertEntry
    split
    case isTrue he =>
      refine List.pairwise_cons.2 ⟨fun y hy => ?_, h⟩
      rcases List.mem_cons.1 hy with rfl | hy
      · exact he
      · exact HuffEntry.le_trans he (hx y hy)
    case isFalse he =>
      refine List.pairwise_cons.2 ⟨fun y hy => ?_, ih hxs⟩
      rcases List.mem_cons.1 ((insertEntry_perm e xs).mem_iff.1 hy) with rfl | hy
      · exact HuffEntry.le_total he
      · exact hx y hy

theorem sortEntries_sorted (es : List HuffEntry) : (sortEntries es).Pairwise fun x y => x.le y = true := by
  induction es with
  | nil => exact .nil
  | cons e es ih => exact insertEntry_sorted e ih

/-- Settles O23: insertion sort reorders the assigned entries and leaves them in order. -/
theorem tablesAreSorted : Obligations.TablesAreSorted := fun _ =>
  ⟨sortEntries_perm _, (sortEntries_sorted _).imp fun {x y} => (HuffEntry.le_iff x y).1⟩

/-! ## Bit reversal (R184) -/

theorem revBits_lt (b c : Nat) : revBits b c < 2 ^ b := by
  induction b generalizing c with
  | zero => exact Nat.one_pos
  | succ b ih =>
    have hr := ih (c / 2)
    rw [revBits, Nat.pow_succ]
    rcases Nat.mod_two_eq_zero_or_one c with h | h <;> rw [h] <;> omega

/-- The first `a` bits of a reversed code are the reversal of its `a` highest bits. -/
theorem revBits_mod {a b : Nat} (c : Nat) (h : a ≤ b) : revBits b c % 2 ^ a = revBits a (c / 2 ^ (b - a)) := by
  induction b generalizing c with
  | zero =>
    obtain rfl : a = 0 := by omega
    rfl
  | succ b ih =>
    rcases Nat.lt_or_eq_of_le h with hlt | rfl
    · have hd : 2 ^ a ∣ c % 2 * 2 ^ b := (Nat.pow_dvd_pow 2 (by omega)).mul_left _
      rw [revBits, Nat.add_mod, Nat.mod_eq_zero_of_dvd hd, Nat.zero_add, Nat.mod_mod, ih (c / 2) (by omega),
        Nat.div_div_eq_div_mul, ← pow_succ', show b - a + 1 = b + 1 - a by omega]
    · rw [Nat.mod_eq_of_lt (revBits_lt _ c), Nat.sub_self, Nat.pow_zero, Nat.div_one]

/-- The last bit of a reversed code is bit 0 of the code. -/
theorem revBits_succ_div (b c : Nat) : revBits (b + 1) c / 2 ^ b = c % 2 := by
  rw [revBits, Nat.add_comm, Nat.add_mul_div_right _ _ (Nat.two_pow_pos b), Nat.div_eq_of_lt (revBits_lt b _),
    Nat.zero_add]

theorem revBits_succ_mod (b c : Nat) : revBits (b + 1) c % 2 ^ b = revBits b (c / 2) := by
  rw [revBits_mod c (Nat.le_add_right b 1), Nat.add_sub_cancel_left, Nat.pow_one]

theorem revBits_inj {b c d : Nat} (hc : c < 2 ^ b) (hd : d < 2 ^ b) (h : revBits b c = revBits b d) : c = d := by
  induction b generalizing c d with
  | zero => omega
  | succ b ih =>
    rw [Nat.pow_succ] at hc hd
    have hmod : c % 2 = d % 2 := by rw [← revBits_succ_div b, h, revBits_succ_div]
    have hdiv : c / 2 = d / 2 := ih (by omega) (by omega) (by rw [← revBits_succ_mod, h, revBits_succ_mod])
    omega

theorem codeEntry_bits {b : Nat} (c k : Nat) (h : b ≤ 15) : (codeEntry b c k).bits.toNat = revBits b c := by
  have hlt : revBits b c < 2 ^ 15 := Nat.lt_of_lt_of_le (revBits_lt b c) (Nat.pow_le_pow_right (by omega) h)
  simp only [codeEntry, BitVec.toNat_ofNat]
  exact Nat.mod_eq_of_lt hlt

/-! ## First codes and the Kraft sum (R183, R187) -/

/-- The Kraft sum of the lengths up to `b + 1`, from that of the lengths up to `b`. -/
theorem kraftSum_filter_succ (ls : List Nat) (b : Nat) :
    kraftSum (ls.filter (· ≤ b + 1)) = kraftSum (ls.filter (· ≤ b)) + ls.count (b + 1) * 2 ^ (15 - (b + 1)) := by
  induction ls with
  | nil => simp [kraftSum]
  | cons a ls ih =>
    rcases Nat.lt_trichotomy a (b + 1) with h | rfl | h
    · simp [show a ≤ b + 1 by omega, show a ≤ b by omega, kraftSum, ih,
        List.count_cons_of_ne (show a ≠ b + 1 by omega)]
      omega
    · simp [kraftSum, ih, Nat.add_mul, Config.maxBits]
      omega
    · simp [show ¬a ≤ b + 1 by omega, show ¬a ≤ b by omega, ih,
        List.count_cons_of_ne (show a ≠ b + 1 by omega)]

theorem kraftSum_filter_zero (ls : List Nat) : kraftSum (ls.filter (· ≤ 0)) = 0 := by
  induction ls with
  | nil => rfl
  | cons a ls ih =>
    by_cases h : a = 0
    · simpa [h, kraftSum] using ih
    · simpa [h] using ih

theorem kraftSum_filter_le (ls : List Nat) (p : Nat → Bool) : kraftSum (ls.filter p) ≤ kraftSum ls := by
  induction ls with
  | nil => exact Nat.le_refl _
  | cons a ls ih =>
    rw [List.filter_cons]
    split <;> simp only [kraftSum] <;> omega

theorem lengthCount_eq_count (ls : List Nat) {b : Nat} (h : b ≠ 0) : lengthCount ls b = ls.count b := if_neg h

/-- The codes of length up to `b` take up exactly the part of the code space their Kraft sum says. -/
theorem firstCode_add_lengthCount (ls : List Nat) {b : Nat} (h : b ≤ 15) :
    (firstCode ls b + lengthCount ls b) * 2 ^ (15 - b) = kraftSum (ls.filter (· ≤ b)) := by
  induction b with
  | zero => rw [kraftSum_filter_zero, firstCode, lengthCount, if_pos rfl, Nat.zero_mul]
  | succ b ih =>
    have hpow : 2 ^ (15 - b) = 2 * 2 ^ (15 - (b + 1)) := by
      rw [← pow_succ', show 15 - (b + 1) + 1 = 15 - b by omega]
    rw [kraftSum_filter_succ, ← ih (by omega), hpow, firstCode,
      lengthCount_eq_count ls b.succ_ne_zero]
    ring

/-- With a Kraft sum of at most 1 the codes of length `b` have `b` bits. -/
theorem firstCode_add_lengthCount_le {ls : List Nat} {b : Nat} (hk : kraftSum ls ≤ 2 ^ 15) (hb : b ≤ 15) :
    firstCode ls b + lengthCount ls b ≤ 2 ^ b := by
  have h := firstCode_add_lengthCount ls hb
  have hle := kraftSum_filter_le ls (· ≤ b)
  refine Nat.le_of_mul_le_mul_right ?_ (Nat.two_pow_pos (15 - b))
  rw [h, ← Nat.pow_add, show b + (15 - b) = 15 by omega]
  exact hle.trans hk

/-- The first code of a length lies past every extension of a shorter code. -/
theorem firstCode_past {a b : Nat} (ls : List Nat) (h : a < b) :
    (firstCode ls a + lengthCount ls a) * 2 ^ (b - a) ≤ firstCode ls b := by
  induction b, h using Nat.le_induction with
  | base => rw [Nat.succ_eq_add_one, Nat.add_sub_cancel_left, Nat.pow_one, firstCode]
  | succ b hb ih =>
    rw [firstCode, show b + 1 - a = b - a + 1 by omega, Nat.pow_succ, ← Nat.mul_assoc]
    exact Nat.mul_le_mul_right 2 (ih.trans (Nat.le_add_right _ _))

/-! ## The assigned codes (R184) -/

/-- `c` is among the codes that the counters `next` give to the symbols of length `b` of a code-length set. -/
structure Assigns (ls next : List Nat) (b c : Nat) : Prop where
  mem : b ∈ ls
  pos : b ≠ 0
  ge : next.getD b 0 ≤ c
  lt : c < next.getD b 0 + ls.count b

theorem Assigns.of_unused {ls next : List Nat} {b c : Nat} (h : Assigns ls next b c) : Assigns (0 :: ls) next b c :=
  ⟨List.mem_cons_of_mem _ h.mem, h.pos, h.ge, by rw [List.count_cons_of_ne h.pos.symm]; exact h.lt⟩

theorem Assigns.head {ls next : List Nat} {b : Nat} (hb : b ≠ 0) : Assigns (b :: ls) next b (next.getD b 0) :=
  ⟨List.mem_cons_self, hb, Nat.le_refl _, by rw [List.count_cons_self]; omega⟩

/-- The codes given after a symbol of length `b` are among those of the whole set, and the symbol's own is not. -/
theorem Assigns.of_tail {ls next : List Nat} {a b c : Nat} (hlt : a < next.length)
    (h : Assigns ls (next.set a (next.getD a 0 + 1)) b c) :
    Assigns (a :: ls) next b c ∧ (a = b → next.getD a 0 < c) := by
  obtain ⟨hmem, hpos, hge, hc⟩ := h
  by_cases hab : a = b
  · subst hab
    have hset : (next.set a (next.getD a 0 + 1)).getD a 0 = next.getD a 0 + 1 := by
      rw [List.getD_eq_getElem?_getD, List.getElem?_set_self hlt, Option.getD_some]
    rw [hset] at hge hc
    exact ⟨⟨List.mem_cons_self, hpos, by omega, by rw [List.count_cons_self]; omega⟩, fun _ => by omega⟩
  · have hset : (next.set a (next.getD a 0 + 1)).getD b 0 = next.getD b 0 := by
      rw [List.getD_eq_getElem?_getD, List.getElem?_set_ne hab, List.getD_eq_getElem?_getD]
    rw [hset] at hge hc
    exact ⟨⟨List.mem_cons_of_mem _ hmem, hpos, hge, by rwa [List.count_cons_of_ne hab]⟩, fun h => absurd h hab⟩

/-- Every assigned entry is that of a code its length's counter gives. -/
theorem assigns_of_mem {ls next : List Nat} {sym : Nat} {e : HuffEntry} (hn : ∀ b ∈ ls, b < next.length)
    (he : e ∈ assignCodes ls sym next) : ∃ b c k, Assigns ls next b c ∧ e = codeEntry b c k := by
  induction ls generalizing sym next with
  | nil => cases he
  | cons a ls ih =>
    have htail : ∀ b ∈ ls, b < next.length := fun b hb => hn b (List.mem_cons_of_mem _ hb)
    unfold assignCodes at he
    split at he
    case isTrue ha =>
      obtain ⟨b, c, k, h, rfl⟩ := ih htail he
      exact ⟨b, c, k, ha ▸ h.of_unused, rfl⟩
    case isFalse ha =>
      rcases List.mem_cons.1 he with rfl | he
      · exact ⟨a, _, sym, .head ha, rfl⟩
      · obtain ⟨b, c, k, h, rfl⟩ := ih (by simpa using htail) he
        exact ⟨b, c, k, (h.of_tail (hn a List.mem_cons_self)).1, rfl⟩

/-- What holds of any two assigned codes, the later one higher where their lengths agree, holds along the list. -/
theorem assignCodes_pairwise {R : HuffEntry → HuffEntry → Prop} {ls next : List Nat} {sym : Nat}
    (hn : ∀ b ∈ ls, b < next.length)
    (hR : ∀ a b x y k l, Assigns ls next a x → Assigns ls next b y → (a = b → x < y) →
      R (codeEntry a x k) (codeEntry b y l)) : (assignCodes ls sym next).Pairwise R := by
  induction ls generalizing sym next with
  | nil => exact .nil
  | cons a ls ih =>
    have htail : ∀ b ∈ ls, b < next.length := fun b hb => hn b (List.mem_cons_of_mem _ hb)
    have ha := hn a List.mem_cons_self
    unfold assignCodes
    split
    case isTrue h0 =>
      subst h0
      exact ih htail fun b c x y k l hx hy => hR b c x y k l hx.of_unused hy.of_unused
    case isFalse h0 =>
      have htail' : ∀ b ∈ ls, b < (next.set a (next.getD a 0 + 1)).length := by simpa using htail
      refine List.pairwise_cons.2 ⟨fun e he => ?_, ih htail' fun b c x y k l hx hy => ?_⟩
      · obtain ⟨b, y, l, hy, rfl⟩ := assigns_of_mem htail' he
        obtain ⟨hy, hlt⟩ := hy.of_tail ha
        exact hR a b _ y sym l (.head h0) hy hlt
      · exact hR b c x y k l (hx.of_tail ha).1 (hy.of_tail ha).1

/-- The one entry of a used symbol, where the symbols fit their 9 bits. -/
theorem filter_sym_assignCodes {ls next : List Nat} {sym k : Nat} (hb : ∀ b ∈ ls, b ≤ 15) (hk : k < ls.length)
    (hs : sym + ls.length ≤ 512) (h0 : ls[k] ≠ 0) :
    ((assignCodes ls sym next).filter fun e => e.sym.toNat == sym + k).map (fun e => e.len.toNat) = [ls[k]] := by
  induction ls generalizing sym next k with
  | nil => cases hk
  | cons a ls ih =>
    rw [List.length_cons] at hk hs
    have htail : ∀ b ∈ ls, b ≤ 15 := fun b hb' => hb b (List.mem_cons_of_mem _ hb')
    cases k with
    | zero =>
      have ha : a ≠ 0 := h0
      have hrest : ∀ next, (assignCodes ls (sym + 1) next).filter (fun e => e.sym.toNat == sym + 0) = [] := by
        refine fun next => List.filter_eq_nil_iff.2 fun e he => ?_
        obtain ⟨j, c, hj, _, rfl⟩ := mem_assignCodes he
        rw [codeEntry_sym (by omega), beq_iff_eq]
        omega
      have hsym : ∀ c, (codeEntry a c sym).sym.toNat = sym := fun c => codeEntry_sym (by omega)
      rw [assignCodes, if_neg ha, List.filter_cons_of_pos (by simp [hsym]), hrest, List.map_singleton,
        codeEntry_len (hb a List.mem_cons_self), List.getElem_cons_zero]
    | succ k =>
      have hrest : ∀ next, ((assignCodes ls (sym + 1) next).filter fun e => e.sym.toNat == sym + (k + 1)).map
          (fun e => e.len.toNat) = [ls[k]] := fun next => by
        rw [show sym + (k + 1) = sym + 1 + k by omega]
        exact ih htail (by omega) (by omega) h0
      unfold assignCodes
      split
      · exact hrest _
      · rw [List.filter_cons_of_neg (by rw [codeEntry_sym (by omega)]; simp)]
        exact hrest _

/-! ## No code begins another (R186) -/

/-- The counters `Build` starts from: the first code of each length (R183). -/
def firstCodes (ls : List Nat) : List Nat := (List.range 16).map (firstCode ls)

theorem buildTable_perm (ls : List Nat) : (buildTable ls).Perm (assignCodes ls 0 (firstCodes ls)) :=
  (tablesAreSorted ls).1

theorem length_firstCodes (ls : List Nat) : (firstCodes ls).length = 16 := by simp [firstCodes]

theorem lt_length_firstCodes {ls : List Nat} (hb : ∀ b ∈ ls, b ≤ 15) : ∀ b ∈ ls, b < (firstCodes ls).length := by
  intro b h
  rw [length_firstCodes]
  exact Nat.lt_succ_of_le (hb b h)

/-- The codes of length `b` are consecutive, from the first one on (R184). -/
theorem Assigns.range {ls : List Nat} {b c : Nat} (h : Assigns ls (firstCodes ls) b c) (hb : b ≤ 15) :
    firstCode ls b ≤ c ∧ c < firstCode ls b + lengthCount ls b := by
  obtain ⟨_, hpos, hge, hlt⟩ := h
  have hfirst : (firstCodes ls).getD b 0 = firstCode ls b := by
    simp [firstCodes, List.getD_eq_getElem?_getD, List.getElem?_range (show b < 16 by omega)]
  rw [hfirst] at hge hlt
  rw [lengthCount_eq_count ls hpos]
  exact ⟨hge, hlt⟩

/-- The code of `x` begins the code of `y`. -/
def HuffEntry.Begins (x y : HuffEntry) : Prop :=
  x.len.toNat ≤ y.len.toNat ∧ y.bits.toNat % 2 ^ x.len.toNat = x.bits.toNat

/-- Two assigned codes: a longer one lies past every extension of a shorter one, and equally long ones differ. -/
theorem Assigns.not_begins {ls : List Nat} {a b x y k l : Nat} (hb : ∀ b ∈ ls, b ≤ 15) (hk : kraftSum ls ≤ 2 ^ 15)
    (hx : Assigns ls (firstCodes ls) a x) (hy : Assigns ls (firstCodes ls) b y) (hne : a = b → x ≠ y) :
    ¬(codeEntry a x k).Begins (codeEntry b y l) := by
  have ha15 := hb a hx.mem
  have hb15 := hb b hy.mem
  obtain ⟨hxge, hxlt⟩ := hx.range ha15
  obtain ⟨hyge, hylt⟩ := hy.range hb15
  have hxw := firstCode_add_lengthCount_le hk ha15
  have hyw := firstCode_add_lengthCount_le hk hb15
  rintro ⟨hle, hbits⟩
  rw [codeEntry_len ha15, codeEntry_len hb15] at hle
  rw [codeEntry_len ha15, codeEntry_bits _ _ ha15, codeEntry_bits _ _ hb15, revBits_mod y hle] at hbits
  have hpow : 2 ^ b = 2 ^ (b - a) * 2 ^ a := by rw [← Nat.pow_add, Nat.sub_add_cancel hle]
  have hxy : y / 2 ^ (b - a) = x :=
    revBits_inj (Nat.div_lt_of_lt_mul (hpow ▸ by omega)) (by omega) hbits
  rcases Nat.lt_or_eq_of_le hle with hlt | rfl
  · have hpast : (x + 1) * 2 ^ (b - a) ≤ y :=
      calc (x + 1) * 2 ^ (b - a) ≤ (firstCode ls a + lengthCount ls a) * 2 ^ (b - a) := Nat.mul_le_mul_right _ hxlt
        _ ≤ firstCode ls b := firstCode_past ls hlt
        _ ≤ y := hyge
    have := (Nat.le_div_iff_mul_le (Nat.two_pow_pos _)).2 hpast
    omega
  · rw [Nat.sub_self, Nat.pow_zero, Nat.div_one] at hxy
    exact hne rfl hxy.symm

theorem buildTable_prefixFree {ls : List Nat} (hb : ∀ b ∈ ls, b ≤ 15) (hk : kraftSum ls ≤ 2 ^ 15) :
    (buildTable ls).Pairwise fun x y => ¬x.Begins y ∧ ¬y.Begins x := by
  refine ((buildTable_perm ls).pairwise_iff fun h => h.symm).2 ?_
  refine assignCodes_pairwise (lt_length_firstCodes hb) fun a b x y k l hx hy hlt => ?_
  exact ⟨hx.not_begins hb hk hy fun h => (hlt h).ne, hy.not_begins hb hk hx fun h => (hlt h.symm).ne'⟩

theorem buildTable_bits_lt {ls : List Nat} {e : HuffEntry} (hb : ∀ b ∈ ls, b ≤ 15) (he : e ∈ buildTable ls) :
    e.bits.toNat < 2 ^ e.len.toNat := by
  obtain ⟨b, c, k, h, rfl⟩ := assigns_of_mem (lt_length_firstCodes hb) ((buildTable_perm ls).mem_iff.1 he)
  have hb15 := hb b h.mem
  rw [codeEntry_bits _ _ hb15, codeEntry_len hb15]
  exact revBits_lt b c

/-- `Build` of a code-length set that is not over-subscribed decodes (R186). -/
theorem codeTable_buildTable {ls : List Nat} (hl : ls.length ≤ 512) (hb : ∀ b ∈ ls, b ≤ 15)
    (hk : kraftSum ls ≤ 2 ^ 15) : CodeTable (buildTable ls) := by
  have hsorted : (buildTable ls).Pairwise fun x y => x.len.toNat ≤ y.len.toNat :=
    (tablesAreSorted ls).2.imp fun {x y} h => h.elim Nat.le_of_lt fun h => Nat.le_of_eq h.1
  exact
    { len_pos := fun e he => (mem_buildTable hl hb he).1
      bits_lt := fun e he => buildTable_bits_lt hb he
      sorted := hsorted
      free := (hsorted.and (buildTable_prefixFree hb hk)).imp fun h heq => h.2.1 ⟨h.1, heq⟩ }

/-- The one entry of a used symbol (R182, R184). -/
theorem filter_sym_buildTable {ls : List Nat} {k : Nat} (hb : ∀ b ∈ ls, b ≤ 15) (hl : ls.length ≤ 512)
    (hk : k < ls.length) (h0 : ls[k] ≠ 0) :
    ((buildTable ls).filter fun e => e.sym.toNat == k).map (fun e => e.len.toNat) = [ls[k]] := by
  have h := filter_sym_assignCodes (next := firstCodes ls) (sym := 0) hb hk (by omega) h0
  rw [Nat.zero_add] at h
  exact List.perm_singleton.1 (h ▸ ((buildTable_perm ls).filter _).map _)

/-- Settles O22: the set is not over-subscribed, so `build` answers the table of the canonical codes. -/
theorem buildIsPrefixFree : Obligations.BuildIsPrefixFree := fun ls hl hb hk =>
  ⟨if_neg (Nat.not_lt.2 hk), codeTable_buildTable (by omega) hb hk, length_buildTable ls,
    fun _ hlt h0 => filter_sym_buildTable hb (by omega) hlt h0⟩

end Sys2Proof.Machine
end

section
/-!
Where a run stops (R141, R142, R144, R187): a waiting machine may refuse the command it takes, and a running
command is refused only an over-subscribed code-length set.
-/

namespace Sys2Proof.Machine

/-- The answers a command may get: a next state, or one of the refusals the host can cause (R141, R142, R144). -/
def CommandAnswer (o : Out) : Prop :=
  (∃ t, o = .next t) ∨ o = .refused .protocol ∨ o = .refused .reservedCommand ∨ o = .refused .operandRange

theorem CommandAnswer.next (t : State) : CommandAnswer (.next t) := .inl ⟨t, rfl⟩

theorem CommandAnswer.protocol : CommandAnswer (.refused .protocol) := .inr (.inl rfl)

theorem CommandAnswer.reservedCommand : CommandAnswer (.refused .reservedCommand) := .inr (.inr (.inl rfl))

theorem CommandAnswer.operandRange : CommandAnswer (.refused .operandRange) := .inr (.inr (.inr rfl))

/-- The legality table answers, refuses, or leaves the answer to the command (R141). -/
theorem State.ifLegal_commandAnswer {s : State} {k : State → Out} (hk : CommandAnswer (k s)) :
    CommandAnswer (s.ifLegal k) := by
  cases hs : s.session.sstate with
  | active => exact State.ifLegal_active hs ▸ hk
  | failed => exact State.ifLegal_failed k hs ▸ .next _
  | idle => exact State.ifLegal_closed k (.inl hs) ▸ .protocol
  | done => exact State.ifLegal_closed k (.inr hs) ▸ .protocol

theorem execStart_commandAnswer (c : BitVec 32) (st : BitVec 4) (s : State) : CommandAnswer (execStart c st s) := by
  unfold execStart
  split
  · exact .operandRange
  · exact .next _

theorem execPassBegin_commandAnswer (n : BitVec 11) (s : State) : CommandAnswer (execPassBegin n s) := by
  refine State.ifLegal_commandAnswer ?_
  split
  · exact .operandRange
  · exact .next _

theorem execRow_commandAnswer (s : State) : CommandAnswer (execRow s) := by
  refine State.ifLegal_commandAnswer ?_
  split
  · exact .next _
  · exact .protocol

theorem execFinish_commandAnswer (s : State) : CommandAnswer (execFinish s) :=
  State.ifLegal_commandAnswer (.next _)

/-- Every command code has one of these answers, whatever stands beside it (R116, R141). -/
theorem exec_decodeCommand_commandAnswer (c : BitVec 3) (o : CmdOperands) (s : State) :
    CommandAnswer (exec (decodeCommand c o) s) := by
  rcases code_cases c with rfl | rfl | rfl | rfl | rfl | rfl | rfl | rfl
  · exact .reservedCommand
  · exact execStart_commandAnswer _ _ s
  · exact execPassBegin_commandAnswer _ s
  · exact execRow_commandAnswer s
  · exact execFinish_commandAnswer s
  · exact .next _
  · exact .reservedCommand
  · exact .reservedCommand

theorem step_waiting {s : State} (hc : s.port.cmd = .waiting) : CommandAnswer (step s) := by
  cases hq : s.port.cmds with
  | nil => exact step_of_done (fetch_idle hc hq) ▸ .next s
  | cons q qs => exact step_of_fetch (fetch_command hc hq) ▸ exec_decodeCommand_commandAnswer _ _ _

/-- Settles O54: a waiting machine answers as the command it takes, and a running one as its element. -/
theorem onlyTheHostAndOverSubscriptionStopTheMachine : Obligations.OnlyTheHostAndOverSubscriptionStopTheMachine := by
  intro s hs
  by_cases hc : s.port.cmd = .waiting
  · exact (step_waiting hc).imp_right fun h => .inl ⟨hc, h⟩
  · exact (step_progress hs.range hc).imp_right fun h => .inr ⟨hc, h⟩

end Sys2Proof.Machine
end

section
/-!
`Match` (spec/42_huffman.md R188 to R190): after each entry it looks at, it has taken as many bits of the stream as
that entry's code is long, so that the comparison asks whether the code stands at the front of the stream.
-/

namespace Sys2Proof.Machine

/-! ## The number of the first bits -/

theorem numberOf_append (xs ys : List Bool) : numberOf (xs ++ ys) = numberOf xs + 2 ^ xs.length * numberOf ys := by
  induction xs with
  | nil => simp [numberOf]
  | cons b xs ih =>
    rw [List.cons_append, numberOf, numberOf, ih, List.length_cons, Nat.pow_succ]
    ring

theorem numberOf_take (n : Nat) (bs : List Bool) : numberOf (bs.take n) = numberOf bs % 2 ^ n := by
  rcases Nat.le_total n bs.length with h | h
  · have hlen : (bs.take n).length = n := List.length_take_of_le h
    have hlt := numberOf_lt (bs.take n)
    conv_rhs => rw [← List.take_append_drop n bs, numberOf_append, hlen, Nat.add_mul_mod_self_left]
    rw [hlen] at hlt
    exact (Nat.mod_eq_of_lt hlt).symm
  · rw [List.take_of_length_le h]
    exact (Nat.mod_eq_of_lt ((numberOf_lt bs).trans_le (Nat.pow_le_pow_right (by omega) h))).symm

/-- A code stands at the front of the stream where the number of the first bits is the entry's (R188). -/
theorem HuffEntry.code_prefix_iff {e : HuffEntry} {bs : List Bool} (hb : e.bits.toNat < 2 ^ e.len.toNat)
    (hl : e.len.toNat ≤ bs.length) : e.code <+: bs ↔ numberOf bs % 2 ^ e.len.toNat = e.bits.toNat := by
  rw [← numberOf_take]
  constructor
  · rintro ⟨rest, rfl⟩
    have hcode : e.code.length = e.len.toNat := length_bitsOf _ _
    rw [← hcode, List.take_left, HuffEntry.code, numberOf_bitsOf, Nat.mod_eq_of_lt hb]
  · intro h
    have htake : e.code = bs.take e.len.toNat := by
      rw [HuffEntry.code, ← h]
      conv_rhs => rw [← bitsOf_numberOf (bs.take e.len.toNat), List.length_take_of_le hl]
    exact htake ▸ List.take_prefix _ _

theorem HuffEntry.length_le_of_code_prefix {e : HuffEntry} {bs : List Bool} (h : e.code <+: bs) :
    e.len.toNat ≤ bs.length := by
  have := h.length_le
  rwa [HuffEntry.code, length_bitsOf] at this

/-- Of two entries, neither of which begins the other, only one can stand at the front of the stream. -/
theorem HuffEntry.not_code_prefix {x y : HuffEntry} {bs : List Bool} (hx : x.bits.toNat < 2 ^ x.len.toNat)
    (hy : y.bits.toNat < 2 ^ y.len.toNat) (hle : x.len.toNat ≤ y.len.toNat)
    (hfree : y.bits.toNat % 2 ^ x.len.toNat ≠ x.bits.toNat) (h : y.code <+: bs) : ¬x.code <+: bs := by
  have hly := HuffEntry.length_le_of_code_prefix h
  rw [HuffEntry.code_prefix_iff hx (hle.trans hly)]
  rw [← (HuffEntry.code_prefix_iff hy hly).1 h, Nat.mod_mod_of_dvd _ (Nat.pow_dvd_pow 2 hle)] at hfree
  exact hfree

/-! ## The bits taken so far -/

/-- The reader `t` is `r` after `Match` has taken `n` bits of its stream into `mv` (R188). -/
structure Reader.Taken (r : Reader) (n : Nat) (t : Reader) : Prop where
  tidy : t.Tidy
  count : t.mhave.toNat = n
  value : t.mv.toNat = numberOf r.streamBits % 2 ^ n
  rest : t.streamBits = r.streamBits.drop n
  chunk : ∀ m, r.WithinChunk (n + m) → t.WithinChunk m

/-- How `Match` begins. -/
theorem Reader.Taken.start {r : Reader} (hr : r.Tidy) : r.Taken 0 { r with mv := 0, mhave := 0 } where
  tidy := hr
  count := rfl
  value := by simp [Nat.mod_one]
  rest := rfl
  chunk m h := by rwa [Nat.zero_add] at h

/-- One more bit, at its place above the others. -/
theorem numberOf_mod_succ {bs rest : List Bool} {b : Bool} {n : Nat} (h : bs.drop n = b :: rest) :
    numberOf bs % 2 ^ (n + 1) = numberOf bs % 2 ^ n + 2 ^ n * b.toNat := by
  have hn : n ≤ bs.length := by
    by_contra hn
    rw [List.drop_of_length_le (by omega)] at h
    cases h
  have htake : bs.take (n + 1) = bs.take n ++ [b] := by rw [List.take_add, h, List.take_succ_cons, List.take_zero]
  rw [← numberOf_take, ← numberOf_take, htake, numberOf_append, List.length_take_of_le hn]
  rfl

/-- The accumulator with one more bit. -/
theorem mv_or_bit {mv : BitVec 15} {n : Nat} (b : Bool) (hn : n < 15) (h : mv.toNat < 2 ^ n) :
    (mv ||| (BitVec.ofNat 15 b.toNat <<< n)).toNat = mv.toNat + 2 ^ n * b.toNat := by
  have hpow : 2 ^ n < 2 ^ 15 := Nat.pow_lt_pow_right (by omega) hn
  have hbit : (BitVec.ofNat 15 b.toNat <<< n).toNat = 2 ^ n * b.toNat := by
    cases b
    · simp
    · simpa [Nat.shiftLeft_eq] using hpow
  rw [BitVec.toNat_or, hbit, Nat.or_comm, ← Nat.two_pow_add_eq_or_of_lt h, Nat.add_comm]

theorem Reader.Taken.accumulate {r t : Reader} {n k : Nat} (h : r.Taken n t) (hw : n + k ≤ 15)
    (hl : n + k ≤ r.streamBits.length) (hc : r.WithinChunk (n + k)) :
    ∃ u, t.accumulate k = .ok () u ∧ r.Taken (n + k) u := by
  induction k generalizing n t with
  | zero => exact ⟨t, rfl, h⟩
  | succ k ih =>
    have hleft : 1 ≤ bitsLeft t := by
      rw [bitsLeft, h.rest, List.length_drop]
      omega
    have hin : t.WithinChunk (k + 1) := h.chunk _ hc
    obtain ⟨b, v, hb, hchunk⟩ := Reader.readBit_total h.tidy hleft (Nat.le_trans (Nat.le_add_left 1 k) hin)
    obtain ⟨hv, hbits, hmv, hmh⟩ := Reader.readBit_ok h.tidy hb
    rw [h.rest] at hbits
    have hlt : t.mv.toNat < 2 ^ n := h.value ▸ Nat.mod_lt _ (Nat.two_pow_pos n)
    have htaken : r.Taken (n + 1)
        { v with mv := v.mv ||| (BitVec.ofNat 15 b.toNat <<< v.mhave.toNat), mhave := v.mhave + 1 } :=
      { tidy := hv
        count := by
          show (v.mhave + 1).toNat = n + 1
          have hm : v.mhave.toNat = n := hmh ▸ h.count
          bv_omega
        value := by
          show (v.mv ||| (BitVec.ofNat 15 b.toNat <<< v.mhave.toNat)).toNat = _
          rw [hmv, hmh, h.count, mv_or_bit b (by omega) hlt, h.value, numberOf_mod_succ hbits]
        rest := by
          show v.streamBits = _
          rw [← List.drop_drop, hbits, List.drop_succ_cons, List.drop_zero]
        chunk := fun m hm => hchunk m (h.chunk (m + 1) (by rwa [show n + (m + 1) = n + 1 + m by omega])) }
    obtain ⟨u, hu, hru⟩ := ih htaken (by omega) (by omega) (by rwa [show n + 1 + k = n + (k + 1) by omega])
    refine ⟨u, ?_, by rwa [show n + (k + 1) = n + 1 + k by omega]⟩
    rw [Reader.accumulate, hb, Eff.bind_ok, hu]

/-! ## The scan -/

/-- One turn of the scan: the bits the entry needs are taken, and compared. -/
theorem Reader.Taken.scan {r t : Reader} {n : Nat} {e : HuffEntry} (h : r.Taken n t) (hn : n ≤ e.len.toNat)
    (hl : e.len.toNat ≤ r.streamBits.length) (hc : r.WithinChunk e.len.toNat) (hb : e.bits.toNat < 2 ^ e.len.toNat) :
    ∃ u, r.Taken e.len.toNat u ∧ (e.code <+: r.streamBits → ∀ es, t.scanTable (e :: es) = .ok e.sym u) ∧
      (¬e.code <+: r.streamBits → ∀ es, t.scanTable (e :: es) = u.scanTable es) := by
  have hsum : n + (e.len.toNat - n) = e.len.toNat := by omega
  obtain ⟨u, hu, hru⟩ := h.accumulate (k := e.len.toNat - n) (by omega) (by omega) (by rwa [hsum])
  rw [hsum] at hru
  have hiff : u.mv = e.bits ↔ e.code <+: r.streamBits := by
    rw [HuffEntry.code_prefix_iff hb hl, ← hru.value, BitVec.toNat_inj]
  have hscan : ∀ es, t.scanTable (e :: es) = if u.mv = e.bits then .ok e.sym u else u.scanTable es := fun es => by
    rw [Reader.scanTable, h.count, hu, Eff.bind_ok]
  exact ⟨u, hru, fun hp es => by rw [hscan, if_pos (hiff.2 hp)], fun hp es => by rw [hscan, if_neg (mt hiff.1 hp)]⟩

theorem CodeTable.tail {e : HuffEntry} {es : List HuffEntry} (h : CodeTable (e :: es)) : CodeTable es where
  len_pos x hx := h.len_pos x (List.mem_cons_of_mem _ hx)
  bits_lt x hx := h.bits_lt x (List.mem_cons_of_mem _ hx)
  sorted := (List.pairwise_cons.1 h.sorted).2
  free := (List.pairwise_cons.1 h.free).2

/-- The scan comes to the entry whose code is next: no entry before it is longer, and none begins its code. -/
theorem Reader.Taken.scanTable_finds {r t : Reader} {n : Nat} {es : List HuffEntry} {e : HuffEntry} (h : r.Taken n t)
    (ht : CodeTable es) (hn : ∀ x ∈ es, n ≤ x.len.toNat) (he : e ∈ es) (hp : e.code <+: r.streamBits)
    (hc : r.WithinChunk e.len.toNat) : ∃ u, t.scanTable es = .ok e.sym u ∧ r.Taken e.len.toNat u := by
  induction es generalizing n t with
  | nil => cases he
  | cons x es ih =>
    have hle := HuffEntry.length_le_of_code_prefix hp
    have hsorted := (List.pairwise_cons.1 ht.sorted).1
    have hx := ht.bits_lt x List.mem_cons_self
    rcases List.mem_cons.1 he with rfl | he'
    · obtain ⟨u, hu, hfound, _⟩ := h.scan (hn e he) hle hc hx
      exact ⟨u, hfound hp es, hu⟩
    · have hxe := hsorted e he'
      have hnot : ¬x.code <+: r.streamBits := HuffEntry.not_code_prefix hx (ht.bits_lt e he) hxe
        ((List.pairwise_cons.1 ht.free).1 e he') hp
      obtain ⟨u, hu, _, hnext⟩ := h.scan (hn x List.mem_cons_self) (hxe.trans hle) (Nat.le_trans hxe hc) hx
      rw [hnext hnot]
      exact ih hu ht.tail hsorted he'

/-- Where no code is next the scan runs through the table (R189). -/
theorem Reader.Taken.scanTable_fails {r t : Reader} {n : Nat} {es : List HuffEntry} (h : r.Taken n t)
    (ht : CodeTable es) (hn : ∀ x ∈ es, n ≤ x.len.toNat) (hp : ∀ e ∈ es, ¬e.code <+: r.streamBits)
    (hl : ∀ e ∈ es, e.len.toNat ≤ r.streamBits.length ∧ r.WithinChunk e.len.toNat) :
    ∃ u, t.scanTable es = .raise .noMatch u := by
  induction es generalizing n t with
  | nil => exact ⟨t, rfl⟩
  | cons x es ih =>
    obtain ⟨hlen, hc⟩ := hl x List.mem_cons_self
    obtain ⟨u, hu, _, hnext⟩ := h.scan (hn x List.mem_cons_self) hlen hc (ht.bits_lt x List.mem_cons_self)
    rw [hnext (hp x List.mem_cons_self)]
    exact ih hu ht.tail (List.pairwise_cons.1 ht.sorted).1 (fun e he => hp e (List.mem_cons_of_mem _ he))
      fun e he => hl e (List.mem_cons_of_mem _ he)

/-- Settles O24: `Match` scans the table from its first bit on. -/
theorem matchDecodesTheNextCode : Obligations.MatchDecodesTheNextCode := by
  intro t r ht hr
  refine ⟨fun e he hp hc => ?_, fun hp hl => ?_, rfl⟩
  · obtain ⟨u, hu, hru⟩ := (Reader.Taken.start hr).scanTable_finds ht (fun _ _ => Nat.zero_le _) he hp hc
    exact ⟨u, hu, hru.tidy, hru.rest⟩
  · exact (Reader.Taken.start hr).scanTable_fails ht (fun _ _ => Nat.zero_le _) hp hl

end Sys2Proof.Machine
end

section
/-!
Reading an element (R200): the read by which each format's word is taken from the stream, the step it leads to, and
the error of a read that fails. Also that an element placed in the stream is the one read next.
-/

namespace Sys2Proof.Machine

/-! ## The read of each format -/

/-- The read by which the word of a format is taken from the stream (R200, R206, R215); formats that read nothing
take 0. -/
def State.wordRead (s : State) : Format → Eff Reader Nat
  | .zhdr => s.reader.readWord 2
  | .bhdr => s.reader.readBits 3
  | .storedHdr => s.reader.alignByte.readWord 4
  | .raw => s.reader.readWord 1
  | .dynHdr => s.reader.readBits 14
  | .clSym => s.reader.readSymbol s.tables.cl
  | .litLen => s.reader.readSymbol s.tables.lit
  | .dist => s.reader.readSymbol s.tables.dist
  | .ztrl => s.reader.readWord 4
  | .hostCmd | .fixed | .filt => .ok 0 s.reader

theorem Reader.readWord_of_readBytes {n : Nat} {r t : Reader} {bs : List Byte} (h : r.readBytes n = .ok bs t) :
    r.readWord n = .ok (wordOfBytes bs) t := by
  rw [Reader.readWord, h, Eff.bind_ok]

theorem Reader.readWord_of_raise {n : Nat} {r t : Reader} {c : ErrCode} (h : r.readBytes n = .raise c t) :
    r.readWord n = .raise c t := by
  rw [Reader.readWord, h, Eff.bind_raise]

theorem Reader.readSymbol_of_match {es : List HuffEntry} {r t : Reader} {v : BitVec 9} (h : r.matchSymbol es = .ok v t) :
    r.readSymbol es = .ok v.toNat t := by
  rw [Reader.readSymbol, h, Eff.bind_ok]

theorem Reader.readSymbol_of_raise {es : List HuffEntry} {r t : Reader} {c : ErrCode}
    (h : r.matchSymbol es = .raise c t) : r.readSymbol es = .raise c t := by
  rw [Reader.readSymbol, h, Eff.bind_raise]

/-! ## Fetching it -/

/-- A format whose word alone says what is carried out; a literal/length symbol is kept in `sym` too (R251). -/
theorem fetch_of_expects {s : State} {f : Format} (hx : s.Expects f) (hf : f.readsSource = true) (hl : f ≠ .litLen) :
    fetch s = fetchWord f (s.wordRead f) s := by
  cases f with
  | hostCmd | fixed | filt => cases hf
  | litLen => exact absurd rfl hl
  | ztrl => simp only [fetch, show s.port.cmd = .finish from hx, State.wordRead]
  | zhdr | bhdr | storedHdr | raw | dynHdr | dist =>
    obtain ⟨hp, hi, hflag⟩ := hx
    rw [fetch_of_pulling hp]
    simp [fetchInflate, hi, hflag, State.wordRead]
  | clSym =>
    obtain ⟨hp, hi, hflag, hlt⟩ := hx
    rw [fetch_of_pulling hp]
    simp [fetchInflate, hi, hflag, hlt, State.wordRead]

theorem fetch_litLen {s : State} (hx : s.Expects .litLen) : fetch s = fetchLitLen s := by
  obtain ⟨hp, hi, hflag⟩ := hx
  rw [fetch_of_pulling hp]
  simp [fetchInflate, hi, hflag]

theorem fetch_fixed {s : State} (hx : s.Expects .fixed) : fetch s = .instr .fixed s := by
  obtain ⟨hp, hi⟩ := hx
  rw [fetch_of_pulling hp, fetchInflate, hi]

theorem decodeAt_ok {e : Element} {i : Instr} (s : State) (h : decode e = .ok i) : decodeAt e s = .instr i s := by
  rw [decodeAt, h]

theorem fetchWord_ok {f : Format} {e : Eff Reader Nat} {s : State} {w : Nat} {r : Reader} {i : Instr} (h : e = .ok w r)
    (hd : decode ⟨f, w, .none⟩ = .ok i) : fetchWord f e s = .instr i (s.setReader r) := by
  rw [h]
  exact decodeAt_ok _ hd

/-- An element whose bits are read and decode is carried out past them (R200). -/
theorem fetch_of_read {s : State} {f : Format} {w : Nat} {r : Reader} {i : Instr} (hx : s.Expects f)
    (hf : f.readsSource = true) (hl : f ≠ .litLen) (hr : s.wordRead f = .ok w r) (hd : decode ⟨f, w, .none⟩ = .ok i) :
    fetch s = .instr i (s.setReader r) := by
  rw [fetch_of_expects hx hf hl]
  exact fetchWord_ok hr hd

theorem step_of_read {s : State} {f : Format} {w : Nat} {r : Reader} {i : Instr} (hx : s.Expects f)
    (hf : f.readsSource = true) (hl : f ≠ .litLen) (hr : s.wordRead f = .ok w r) (hd : decode ⟨f, w, .none⟩ = .ok i) :
    step s = exec i (s.setReader r) := step_of_fetch (fetch_of_read hx hf hl hr hd)

theorem fetch_of_litLen {s : State} {v : BitVec 9} {r : Reader} {i : Instr} (hx : s.Expects .litLen)
    (hr : s.reader.matchSymbol s.tables.lit = .ok v r) (hd : decode ⟨.litLen, v.toNat, .none⟩ = .ok i) :
    fetch s = .instr i ((s.setReader r).setTemps { s.temps with sym := v }) := by
  rw [fetch_litLen hx, fetchLitLen, hr]
  exact decodeAt_ok _ hd

/-- Whichever the format, an element that is read and decodes is fetched. -/
theorem exists_fetch_of_read {s : State} {f : Format} {w : Nat} {r : Reader} {i : Instr} (hx : s.Expects f)
    (hf : f.readsSource = true) (hr : s.wordRead f = .ok w r) (hd : decode ⟨f, w, .none⟩ = .ok i) :
    ∃ t, fetch s = .instr i t := by
  by_cases hl : f = .litLen
  · subst hl
    obtain ⟨v, hv, rfl⟩ := Reader.readSymbol_ok hr
    exact ⟨_, fetch_of_litLen hx hv hd⟩
  · exact ⟨_, fetch_of_read hx hf hl hr hd⟩

/-- A read that fails ends the command with its error (R380). -/
theorem step_of_read_raise {s : State} {f : Format} {c : ErrCode} {r : Reader} (hx : s.Expects f)
    (hf : f.readsSource = true) (hr : s.wordRead f = .raise c r) : step s = .next ((s.setReader r).raise c) := by
  by_cases hl : f = .litLen
  · subst hl
    rcases Eff.bind_eq_raise hr with hm | ⟨v, u, _, hm⟩
    · refine step_of_done ?_
      rw [fetch_litLen hx, fetchLitLen, hm]
      rfl
    · cases hm
  · refine step_of_done ?_
    rw [fetch_of_expects hx hf hl]
    exact fetchWord_raise hr

theorem failed_of_read_raise {s : State} {f : Format} {c : ErrCode} {r : Reader} (hx : s.Expects f)
    (hf : f.readsSource = true) (hr : s.wordRead f = .raise c r) : ∃ t, step s = .next t ∧ s.FailedWith c.code t :=
  ⟨_, step_of_read_raise hx hf hr, rfl, rfl⟩

/-! ## The words of two and of four bytes -/

theorem wordOfBytes_two (a b : Byte) : wordOfBytes [a, b] = a.toNat + 256 * b.toNat := rfl

theorem wordOfBytes_four (a b c d : Byte) :
    wordOfBytes [a, b, c, d] = a.toNat + 256 * b.toNat + 65536 * c.toNat + 16777216 * d.toNat := by
  simp only [wordOfBytes]
  omega

theorem wordOfBytes_halves (a b c d : Byte) :
    wordOfBytes [a, b, c, d] = (a.toNat + 256 * b.toNat) + 65536 * (c.toNat + 256 * d.toNat) := by
  rw [wordOfBytes_four]
  omega

/-- Settles O5: each format is fetched by its own read, and the error of that read is taken. -/
theorem streamElementRuns : Obligations.StreamElementRuns := by
  refine ⟨fun s i => ⟨?_, ?_, ?_, ?_, ?_, ?_, ?_, ?_, ?_, ?_⟩, fun s c r => ⟨?_, ?_⟩⟩
  · intro cmf flg r hx hr hd
    rw [← wordOfBytes_two] at hd
    exact step_of_read hx rfl nofun (Reader.readWord_of_readBytes hr) hd
  · intro h r hx hr hd
    exact step_of_read hx rfl nofun hr hd
  · intro b₀ b₁ b₂ b₃ r hx hr hd
    rw [← wordOfBytes_halves] at hd
    exact step_of_read hx rfl nofun (Reader.readWord_of_readBytes hr) hd
  · intro b r hx hr hd
    exact step_of_read hx rfl nofun (Reader.readWord_of_readBytes hr) hd
  · intro hx
    exact step_of_fetch (fetch_fixed hx)
  · intro w r hx hr hd
    exact step_of_read hx rfl nofun hr hd
  · intro v r hx hr hd
    exact step_of_read hx rfl nofun (Reader.readSymbol_of_match hr) hd
  · intro v r hx hr hd
    exact step_of_fetch (fetch_of_litLen hx hr hd)
  · intro v r hx hr hd
    exact step_of_read hx rfl nofun (Reader.readSymbol_of_match hr) hd
  · intro b₀ b₁ b₂ b₃ r hx hr hd
    rw [← wordOfBytes_four] at hd
    exact step_of_read hx rfl nofun (Reader.readWord_of_readBytes hr) hd
  · rintro (⟨hx, hr⟩ | ⟨hx, hr⟩ | ⟨hx, hr⟩ | ⟨hx, hr⟩ | ⟨hx, hr⟩ | ⟨hx, hr⟩)
    · exact ⟨Reader.readBytes_raise hr, failed_of_read_raise hx rfl (Reader.readWord_of_raise hr)⟩
    · exact ⟨Reader.readBits_raise hr, failed_of_read_raise hx rfl hr⟩
    · exact ⟨Reader.readBytes_raise hr, failed_of_read_raise hx rfl (Reader.readWord_of_raise hr)⟩
    · exact ⟨Reader.readBytes_raise hr, failed_of_read_raise hx rfl (Reader.readWord_of_raise hr)⟩
    · exact ⟨Reader.readBits_raise hr, failed_of_read_raise hx rfl hr⟩
    · exact ⟨Reader.readBytes_raise hr, failed_of_read_raise hx rfl (Reader.readWord_of_raise hr)⟩
  · rintro (⟨hx, hr⟩ | ⟨hx, hr⟩ | ⟨hx, hr⟩)
    all_goals exact ⟨Reader.matchSymbol_raise hr, failed_of_read_raise hx rfl (Reader.readSymbol_of_raise hr)⟩

/-! ## Bytes of a word, and bits of bytes -/

theorem wordOfBytes_append (xs ys : List Byte) :
    wordOfBytes (xs ++ ys) = wordOfBytes xs + 2 ^ (8 * xs.length) * wordOfBytes ys := by
  induction xs with
  | nil => simp [wordOfBytes]
  | cons x xs ih =>
    rw [List.cons_append, wordOfBytes, ih, wordOfBytes, List.length_cons, Nat.mul_add 8, Nat.pow_add]
    ring

@[simp] theorem length_bytesOfWord (n w : Nat) : (bytesOfWord n w).length = n := by
  induction n generalizing w with
  | zero => rfl
  | succ n ih => rw [bytesOfWord, List.length_cons, ih]

theorem wordOfBytes_bytesOfWord (n w : Nat) : wordOfBytes (bytesOfWord n w) = w % 2 ^ (8 * n) := by
  induction n generalizing w with
  | zero => simp [bytesOfWord, wordOfBytes, Nat.mod_one]
  | succ n ih =>
    rw [bytesOfWord, wordOfBytes, ih, BitVec.toNat_ofNat, Nat.mul_succ, Nat.add_comm (8 * n), Nat.pow_add, Nat.mod_mul]

theorem numberOf_flatMap_bits (bs : List Byte) : numberOf (bs.flatMap bitsOfByte) = wordOfBytes bs := by
  induction bs with
  | nil => rfl
  | cons b bs ih =>
    rw [List.flatMap_cons, numberOf_append, ih, bitsOfByte, numberOf_bitsOf, length_bitsOf, Nat.mod_eq_of_lt b.isLt,
      wordOfBytes]

theorem answeredBytes_map_some (bs : List Byte) : answeredBytes (bs.map some) = bs := by
  induction bs with
  | nil => rfl
  | cons b bs ih => rw [List.map_cons, answeredBytes_some, ih]

/-! ## A reader that serves given bytes -/

theorem Reader.tidy_serving (bs : List Byte) (r : Reader) : (r.serving bs).Tidy :=
  ⟨Nat.zero_le 7, Nat.zero_lt_one⟩

theorem Reader.streamBits_serving (bs : List Byte) (r : Reader) :
    (r.serving bs).streamBits = (bs ++ List.replicate 16 0).flatMap bitsOfByte := by
  rw [Reader.streamBits, Reader.serving, answeredBytes_map_some]
  rfl

theorem Reader.chunkRem_serving {bs : List Byte} (r : Reader) (h : bs.length ≤ 4) :
    (r.serving bs).chunkRem.toNat = bs.length + 16 := by
  rw [Reader.serving, BitVec.toNat_ofNat]
  omega

theorem Reader.readWord_serving {n w : Nat} (r : Reader) (hn : n ≤ 4) (hw : w < 2 ^ (8 * n)) :
    ∃ t, (r.serving (bytesOfWord n w)).readWord n = .ok w t := by
  have hsrc : (r.serving (bytesOfWord n w)).src.bytes =
      (bytesOfWord n w).map some ++ (List.replicate 16 0).map some := List.map_append
  have hc := r.chunkRem_serving (bs := bytesOfWord n w) (by rwa [length_bytesOfWord])
  obtain ⟨t, ht, _⟩ := Reader.readBytes_in_chunk hsrc (by omega)
  rw [length_bytesOfWord] at ht
  refine ⟨t, ?_⟩
  rw [Reader.readWord_of_readBytes ht, wordOfBytes_bytesOfWord, Nat.mod_eq_of_lt hw]

theorem Reader.readBits_serving {n m w : Nat} (r : Reader) (hm : m ≤ 4) (hn : n ≤ 8 * m) (hw : w < 2 ^ n) :
    ∃ t, (r.serving (bytesOfWord m w)).readBits n = .ok w t := by
  have htidy := r.tidy_serving (bytesOfWord m w)
  have hbits := r.streamBits_serving (bytesOfWord m w)
  have hc := r.chunkRem_serving (bs := bytesOfWord m w) (by rwa [length_bytesOfWord])
  rw [length_bytesOfWord] at hc
  obtain ⟨-, hval, -, htotal⟩ := readBitsTakesTheNextBits (r.serving (bytesOfWord m w)) n htidy
  obtain ⟨v, t, h⟩ := htotal (by rw [hbits]; simp [bitsOfByte]; omega) (by unfold Reader.WithinChunk; omega)
  obtain ⟨-, hv, -⟩ := hval v t h
  have hpow : 2 ^ (8 * m) = 2 ^ n * 2 ^ (8 * m - n) := by rw [← Nat.pow_add, Nat.add_sub_cancel' hn]
  rw [hbits, numberOf_take, numberOf_flatMap_bits, wordOfBytes_append, wordOfBytes_bytesOfWord, length_bytesOfWord,
    hpow, Nat.mul_assoc, Nat.add_mul_mod_self_left, Nat.mod_mul_right_mod, Nat.mod_eq_of_lt hw] at hv
  exact ⟨t, hv ▸ h⟩

theorem codeTable_oneCode (w : Nat) : CodeTable (oneCodeTable w) where
  len_pos := by simp [oneCodeTable, codeEntry_len]
  bits_lt := by simp [oneCodeTable, codeEntry_len, codeEntry_bits, revBits]
  sorted := List.pairwise_singleton _ _
  free := List.pairwise_singleton _ _

/-- The one code of the table, the bit 0, is the next of a stream of zeros (R188). -/
theorem Reader.matchSymbol_serving {w : Nat} (r : Reader) (hw : w < 2 ^ 9) :
    ∃ v t, (r.serving []).matchSymbol (oneCodeTable w) = .ok v t ∧ v.toNat = w := by
  have hc := r.chunkRem_serving (bs := []) (Nat.zero_le 4)
  obtain ⟨hfind, -⟩ := matchDecodesTheNextCode (oneCodeTable w) (r.serving []) (codeTable_oneCode w) (r.tidy_serving [])
  obtain ⟨t, ht, -⟩ := hfind (codeEntry 1 0 w) List.mem_cons_self ⟨_, (r.streamBits_serving []).symm⟩
    (by unfold Reader.WithinChunk; rw [codeEntry_len (by decide), hc]; simp)
  exact ⟨_, t, ht, codeEntry_sym hw⟩

theorem Reader.readSymbol_serving {w : Nat} (r : Reader) (hw : w < 2 ^ 9) :
    ∃ t, (r.serving []).readSymbol (oneCodeTable w) = .ok w t := by
  obtain ⟨v, t, h, rfl⟩ := r.matchSymbol_serving hw
  exact ⟨t, Reader.readSymbol_of_match h⟩

/-! ## An element placed in the stream -/

theorem place_session (e : Element) (s : State) : (place e s).session.sstate = .active := by
  unfold place
  cases e.fmt <;> rfl

/-- A placed element of the stream is expected. -/
theorem place_expects {e : Element} (s : State) (hf : e.fmt.readsSource = true) : (place e s).Expects e.fmt := by
  obtain ⟨f, w, o⟩ := e
  cases f with
  | hostCmd | fixed | filt => cases hf
  | ztrl => rfl
  | clSym => exact ⟨⟨rfl, [], rfl, Nat.zero_le _⟩, rfl, rfl, show 0 < 257 + 1 by decide⟩
  | zhdr | bhdr | storedHdr | raw | dynHdr | litLen | dist => exact ⟨⟨rfl, [], rfl, Nat.zero_le _⟩, rfl, rfl⟩

/-- The read of its format gives the word placed. -/
theorem place_wordRead {e : Element} (s : State) (hf : e.fmt.readsSource = true) (hw : e.word < 2 ^ e.fmt.width) :
    ∃ r, (place e s).wordRead e.fmt = .ok e.word r := by
  obtain ⟨f, w, o⟩ := e
  cases f with
  | hostCmd | fixed | filt => cases hf
  | zhdr => exact s.reader.readWord_serving (by decide) hw
  | bhdr => exact s.reader.readBits_serving (by decide) (by decide) hw
  | storedHdr => exact s.reader.readWord_serving (by decide) hw
  | raw => exact s.reader.readWord_serving (by decide) hw
  | dynHdr => exact s.reader.readBits_serving (by decide) (by decide) hw
  | clSym => exact s.reader.readSymbol_serving (hw.trans (show 2 ^ 5 < 2 ^ 9 by decide))
  | litLen => exact s.reader.readSymbol_serving hw
  | dist => exact s.reader.readSymbol_serving (hw.trans (show 2 ^ 5 < 2 ^ 9 by decide))
  | ztrl => exact s.reader.readWord_serving (by decide) hw

/-- Only a command has operands beside its word (R116). -/
theorem decode_ops {f : Format} (w : Nat) (o : CmdOperands) (hf : f ≠ .hostCmd) :
    decode ⟨f, w, .none⟩ = decode ⟨f, w, o⟩ := by
  cases f with
  | hostCmd => exact absurd rfl hf
  | zhdr | bhdr | storedHdr | raw | fixed | dynHdr | clSym | litLen | dist | filt | ztrl => rfl

theorem fetch_place_filt {i : Instr} {w : Nat} (o : CmdOperands) (s : State) (h : decode ⟨.filt, w, o⟩ = .ok i) :
    ∃ t, fetch (place ⟨.filt, w, o⟩ s) = .instr i t := by
  have hlt : w < 2 ^ 8 := decode_ok_lt h
  have hw : (BitVec.ofNat 8 w).toNat = w := by rw [BitVec.toNat_ofNat, Nat.mod_eq_of_lt hlt]
  rw [← decode_ops w o (by decide), ← hw] at h
  exact ⟨_, decodeAt_ok _ h⟩

/-- The next element read is the one placed (R200, R188). -/
theorem fetch_place {e : Element} {i : Instr} (s : State) (h : decode e = .ok i) :
    ∃ t, fetch (place e s) = .instr i t := by
  by_cases hf : e.fmt.readsSource = true
  · have hx := place_expects s hf
    obtain ⟨r, hr⟩ := place_wordRead s hf (decode_ok_lt h)
    have hc : e.fmt ≠ .hostCmd := fun hc => by rw [hc] at hf; cases hf
    exact exists_fetch_of_read hx hf hr ((decode_ops e.word e.ops hc).trans h)
  · obtain ⟨f, w, o⟩ := e
    cases f with
    | zhdr | bhdr | storedHdr | raw | dynHdr | clSym | litLen | dist | ztrl => exact absurd rfl hf
    | hostCmd =>
      have hw := decode_ok_lt h
      rw [decode_hostCmd o hw] at h
      cases h
      exact ⟨_, rfl⟩
    | fixed =>
      have hw := decode_ok_lt h
      rw [decode_fixed o hw] at h
      cases h
      exact ⟨_, rfl⟩
    | filt => exact fetch_place_filt o s h

/-- Settles O7: the encoding decodes, and an element is fetched in a state that expects it. -/
theorem placedElementIsRead : Obligations.PlacedElementIsRead := by
  intro i s hi
  obtain ⟨t, ht⟩ := fetch_place s (decode_encode hi)
  obtain ⟨-, hr⟩ := fetch_instr ht
  exact ⟨t, ht, step_of_fetch ht, by rw [hr.session, place_session], fetch_expects ht⟩

end Sys2Proof.Machine
end

section
/-!
The inflate machine from the zlib header to the end of a stored block (R202 to R209, R222, R223), and the state graph
it moves along (R211).
-/

namespace Sys2Proof.Machine

/-! ## The zlib header (R202, R203) -/

theorem execZlib_accepted {cinfo : BitVec 4} (fcheck : BitVec 5) (flevel : BitVec 2) (s : State)
    (h : cinfo.toNat ≤ 7) : execZlib 8 cinfo fcheck false flevel s =
      .next ((s.setWindow { s.window with wlog := wlogOf cinfo }).setInflate s.inflate.headerDone) := by
  rw [execZlib, if_neg (by simp), if_neg (Nat.not_lt.2 h), if_neg (by simp)]

theorem execZlib_method {cm : BitVec 4} (cinfo : BitVec 4) (fcheck : BitVec 5) (fdict : Bool) (flevel : BitVec 2)
    (s : State) (h : cm ≠ 8) : execZlib cm cinfo fcheck fdict flevel s = .next (s.raise .zlibMethod) := if_pos h

theorem execZlib_window {cinfo : BitVec 4} (fcheck : BitVec 5) (fdict : Bool) (flevel : BitVec 2) (s : State)
    (h : 7 < cinfo.toNat) : execZlib 8 cinfo fcheck fdict flevel s = .next (s.raise .zlibWindow) := by
  rw [execZlib, if_neg (by simp), if_pos h, raiseErr]

theorem execZlib_dictionary {cinfo : BitVec 4} (fcheck : BitVec 5) (flevel : BitVec 2) (s : State)
    (h : cinfo.toNat ≤ 7) : execZlib 8 cinfo fcheck true flevel s = .next (s.raise .zlibFdict) := by
  rw [execZlib, if_neg (by simp), if_neg (Nat.not_lt.2 h), if_pos rfl, raiseErr]

/-- Settles O25: the checks in their order; a window exponent passed by them is CINFO + 8. -/
theorem zlibHeaderIsChecked : Obligations.ZlibHeaderIsChecked := by
  intro s cm cinfo fcheck fdict flevel
  refine ⟨?_, fun hm => ?_, ?_, ?_⟩
  · rintro rfl hw rfl
    have hlog := wlogOf_toNat hw
    exact ⟨_, execZlib_accepted fcheck flevel s hw, hlog, congrArg (2 ^ ·) hlog, rfl⟩
  · exact ⟨_, execZlib_method cinfo fcheck fdict flevel s hm, s.raise_failedWith .zlibMethod⟩
  · rintro rfl hw
    exact ⟨_, execZlib_window fcheck fdict flevel s hw, s.raise_failedWith .zlibWindow⟩
  · rintro rfl hw rfl
    exact ⟨_, execZlib_dictionary fcheck flevel s hw, s.raise_failedWith .zlibFdict⟩

/-! ## Block headers and stored blocks (R205 to R209) -/

/-- Settles O26: one arm for each block type. -/
theorem blockHeaderDispatches : Obligations.BlockHeaderDispatches := fun _ _ =>
  ⟨rfl, rfl, rfl, _, rfl, ⟨rfl, rfl⟩, rfl, rfl⟩

/-- Settles O27: the complement check decides. -/
theorem storedHeaderIsChecked : Obligations.StoredHeaderIsChecked := fun _ _ _ =>
  ⟨fun h => if_neg (not_not.2 h), fun h => ⟨_, if_pos h, ⟨rfl, rfl⟩, rfl⟩⟩

theorem Inflate.storedByte_istate (x : Inflate) :
    x.storedByte.istate = if x.storedRem = 1 then .blockEnd else x.istate := by
  simp only [Inflate.storedByte, sub_eq_zero]

/-- Settles O28: `Put` writes the byte, and the count of the block's bytes goes down. -/
theorem rawByteEntersTheWindow : Obligations.RawByteEntersTheWindow := by
  intro s b hm hr
  have hrem : (s.inflate.storedRem - 1).toNat = s.inflate.storedRem.toNat - 1 := by bv_omega
  exact ⟨_, rfl, fun a => Memory.read_write _ a b hm, Window.put_wr b s.window, rfl, rfl, rfl, rfl, hrem,
    s.inflate.storedByte_istate, rfl⟩

/-! ## The end of a block (R222, R223) -/

/-- Settles O35: in these two states a step reads no element. -/
theorem blockEndAndStreamEnd : Obligations.BlockEndAndStreamEnd := by
  intro s d hc hd hu
  have hp : s.Pulling := ⟨hu, d, hc, hd⟩
  refine ⟨fun hi => ?_, fun hi => ⟨_, ?_, s.raise_failedWith .streamEnd⟩⟩
  all_goals
    refine step_of_done ?_
    rw [fetch_of_pulling hp]
    simp only [fetchInflate, hi]
    rfl

/-! ## The state graph (R211) -/

/-- The next states of `istate`: as it was, along an edge of the graph, or put back by a START. -/
def State.FollowsGraph (s t : State) : Prop :=
  t.inflate.istate = s.inflate.istate ∨ (s.Pulling ∧ (s.inflate.istate, t.inflate.istate) ∈ stateEdges) ∨
    (s.port.cmd = .waiting ∧ t.inflate.istate = .begin ∧ s.TakesStart)

theorem State.FollowsGraph.edge {s t : State} (i j : IState) (hp : s.Pulling) (hi : s.inflate.istate = i)
    (hj : t.inflate.istate = j) (he : (i, j) ∈ stateEdges) : s.FollowsGraph t :=
  .inr (.inl ⟨hp, by rwa [hi, hj]⟩)

/-- In a stored block only a byte or a header that ends it moves the machine (R206, R207). -/
theorem State.FollowsGraph.stored {s t : State} {p : Prop} [Decidable p] (hp : s.Pulling)
    (hi : s.inflate.istate = .stored) (hj : t.inflate.istate = if p then .blockEnd else s.inflate.istate) :
    s.FollowsGraph t := by
  split at hj
  · exact .edge .stored .blockEnd hp hi hj (by decide)
  · exact .inl hj

/-- The end of a block (R222). -/
theorem State.FollowsGraph.afterBlock {s t : State} (hp : s.Pulling) (hi : s.inflate.istate = .blockEnd)
    (hj : t.inflate.istate = if s.inflate.bfinal then .streamEnd else .begin) : s.FollowsGraph t := by
  split at hj
  · exact .edge .blockEnd .streamEnd hp hi hj (by decide)
  · exact .edge .blockEnd .begin hp hi hj (by decide)

/-- Settles O36: each element that moves `istate` is carried out in the state its edge starts from. -/
theorem inflateStateFollowsItsGraph : Obligations.InflateStateFollowsItsGraph := by
  intro s t h
  show s.FollowsGraph t
  rcases step_next h with ⟨i, u, hf, hx, hr, he⟩ | hq
  · have hu := hr.inflate
    cases he with
    | start => exact .inr (.inr ⟨hx, rfl, _, _, _, hf⟩)
    | blockStored => exact .edge .begin .stored hx.1 hx.2.1 rfl (by decide)
    | blockFixed => exact .edge .begin .fixed hx.1 hx.2.1 rfl (by decide)
    | blockDynamic => exact .edge .begin .dynamic hx.1 hx.2.1 rfl (by decide)
    | storedHdr a => exact .stored (p := a = 0) hx.1 hx.2.1 (by rw [← hu]; rfl)
    | raw => exact .stored (p := s.inflate.storedRem - 1 = 0) hx.1 hx.2.1 (by rw [← hu]; rfl)
    | fixed => exact .edge .fixed .huffman hx.1 hx.2 rfl (by decide)
    | eob => exact .edge .huffman .blockEnd hx.1 hx.2.1 rfl (by decide)
    | _ => exact .inl (by rw [← hu]; rfl)
  · cases hq with
    | tables hc =>
      obtain ⟨hp, hi, -⟩ := hc
      exact .edge .dynamic .huffman hp hi rfl (by decide)
    | blockEnd hp hi => exact .afterBlock hp hi rfl
    | fails v e hv => exact .inl (by rw [← hv.inflate]; rfl)
    | _ => exact .inl rfl

end Sys2Proof.Machine
end

section
/-!
The dynamic block header (R210 to R221): the code-length alphabet's lengths in their order, the runs of coded lengths,
and the two tables built from them.
-/

namespace Sys2Proof.Machine

/-! ## One coded length (R216) -/

/-- The length array after a run of `n` cells that ends within it. -/
theorem Dyn.fill_cells {d : Dyn} {n : Nat} (v : BitVec 4) (hl : d.lens.length = 320) (hn : d.idx.toNat + n ≤ 320) :
    (∀ j, (d.fill n v).lens.getD j 0 =
      if d.idx.toNat ≤ j ∧ j < d.idx.toNat + n then v else d.lens.getD j 0) ∧
    (d.fill n v).lens.length = 320 ∧ (d.fill n v).idx.toNat = d.idx.toNat + n :=
  ⟨fun _ => Dyn.fill_getD (by omega), (Dyn.fill_length (by omega)).trans hl, Dyn.fill_idx (by omega)⟩

theorem storeLens_fits {n : Nat} (v : BitVec 4) {s : State} (h : s.dyn.idx.toNat + n ≤ Config.nlensMax) :
    storeLens n v s = .next (s.setDyn (s.dyn.fill n v)) := if_neg (Nat.not_lt.2 h)

/-- Settles O31: a run of one cell, which the array holds. -/
theorem codedLengthIsStored : Obligations.CodedLengthIsStored := by
  intro s n hl hi
  obtain ⟨hcells, hlen, hidx⟩ := Dyn.fill_cells (n := 1) n hl hi
  refine ⟨_, storeLens_fits n hi, fun j => (hcells j).trans ?_, hlen, hidx, rfl⟩
  rw [if_congr (show s.dyn.idx.toNat ≤ j ∧ j < s.dyn.idx.toNat + 1 ↔ j = s.dyn.idx.toNat by omega) rfl rfl]

/-! ## Repeats and runs of zeros (R217 to R220) -/

theorem repeatLens_overflows {n : Nat} (v : BitVec 4) {s : State} (h : s.dyn.total < s.dyn.idx.toNat + n) :
    repeatLens n v s = .next (s.raise .lensOverflow) := if_pos h

/-- What a run of `n` cells `v` does, once its extra bits have been read (R220). -/
def RunAnswers (s : State) (r : Reader) (n : Nat) (v : BitVec 4) (o : Out) : Prop :=
  (s.dyn.total < s.dyn.idx.toNat + n → ∃ t, o = .next t ∧ s.FailedWith 0x39 t ∧ t.dyn = s.dyn) ∧
  (s.dyn.idx.toNat + n ≤ s.dyn.total → ∃ t, o = .next t ∧
    (∀ j, t.dyn.lens.getD j 0 =
      if s.dyn.idx.toNat ≤ j ∧ j < s.dyn.idx.toNat + n then v else s.dyn.lens.getD j 0) ∧
    t.dyn.idx.toNat = s.dyn.idx.toNat + n ∧
    t = { s with reader := r, dyn := { s.dyn with lens := t.dyn.lens, idx := t.dyn.idx } })

theorem repeatLens_answers {s : State} (r : Reader) (n : Nat) (v : BitVec 4) (hl : s.dyn.lens.length = 320)
    (ht : s.dyn.total ≤ 320) : RunAnswers s r n v (repeatLens n v (s.setReader r)) := by
  refine ⟨fun h => ?_, fun h => ?_⟩
  · exact ⟨_, repeatLens_overflows v h, ⟨rfl, rfl⟩, rfl⟩
  · obtain ⟨hcells, -, hidx⟩ := Dyn.fill_cells v hl (h.trans ht)
    exact ⟨_, repeatLens_fits h ht, hcells, hidx, rfl⟩

/-- The three repeats have one shape: `k` extra bits, then the run (R217 to R219). -/
theorem withBits_repeatLens_answers {s : State} (k base : Nat) (v : State → BitVec 4)
    (hv : ∀ r, v (s.setReader r) = v s) (hl : s.dyn.lens.length = 320) (ht : s.dyn.total ≤ 320) :
    (∀ (x : Nat) (r : Reader), s.reader.readBits k = .ok x r →
      RunAnswers s r (base + x) (v s) (s.withBits k fun x s => repeatLens (base + x) (v s) s)) ∧
    (∀ (c : ErrCode) (r : Reader), s.reader.readBits k = .raise c r →
      ∃ t, (s.withBits k fun x s => repeatLens (base + x) (v s) s) = .next t ∧ s.FailedWith c.code t) := by
  refine ⟨fun x r hr => ?_, fun c r hr => ⟨_, State.withBits_raise _ hr, rfl, rfl⟩⟩
  rw [State.withBits_ok _ hr, hv]
  exact repeatLens_answers r _ _ hl ht

theorem execClRep_first {s : State} (h : s.dyn.idx = 0) : execClRep s = .next (s.raise .repeatFirst) := if_pos h

theorem execClRep_later {s : State} (h : s.dyn.idx ≠ 0) :
    execClRep s = s.withBits 2 fun x s => repeatLens (3 + x) (s.dyn.lens.getD (s.dyn.idx.toNat - 1) 0) s := if_neg h

/-- Settles O32: as the first coded length an error, else a run of the length before `idx`. -/
theorem repeatCopiesThePreviousLength : Obligations.RepeatCopiesThePreviousLength := by
  intro s hl ht
  have hrun := withBits_repeatLens_answers 2 3 (fun s => s.dyn.lens.getD (s.dyn.idx.toNat - 1) 0)
    (fun _ => rfl) hl ht
  refine ⟨fun h0 => ⟨_, execClRep_first h0, s.raise_failedWith .repeatFirst, rfl⟩, fun x r h0 hr => ?_,
    fun c r h0 hr => ?_⟩
  · rw [← execClRep_later h0] at hrun
    exact hrun.1 x r hr
  · rw [← execClRep_later h0] at hrun
    exact hrun.2 c r hr

/-- Settles O33: both are runs of the length 0. -/
theorem zeroRunsFillWithZero : Obligations.ZeroRunsFillWithZero := by
  intro s hl ht p hp
  simp only [List.mem_cons, List.not_mem_nil, or_false] at hp
  rcases hp with rfl | rfl
  · exact withBits_repeatLens_answers 3 3 (fun _ => 0) (fun _ => rfl) hl ht
  · exact withBits_repeatLens_answers 7 11 (fun _ => 0) (fun _ => rfl) hl ht

/-! ## The code-length alphabet (R213) -/

theorem Reader.readLens_ok {n : Nat} {r t : Reader} {vs : List Nat} (h : r.readLens n = .ok vs t) :
    vs.length = n ∧ ∀ v ∈ vs, v < 8 := by
  induction n generalizing r vs with
  | zero => cases h; exact ⟨rfl, by simp⟩
  | succ n ih =>
    obtain ⟨v, u, hv, h⟩ := Eff.bind_eq_ok h
    obtain ⟨vs, x, hvs, h⟩ := Eff.bind_eq_ok h
    cases h
    obtain ⟨hlen, hlt⟩ := ih hvs
    refine ⟨by rw [List.length_cons, hlen], fun w hw => ?_⟩
    rcases List.mem_cons.1 hw with rfl | hw
    · exact Reader.readBits_lt hv
    · exact hlt w hw

/-- Values written to the cells `ns`, as many as there are, one after another. -/
def scatter (ns : List Nat) (vs : List Nat) (l : List (BitVec 3)) : List (BitVec 3) :=
  (ns.zip vs).foldl (fun l p => l.set p.1 (BitVec.ofNat 3 p.2)) l

theorem scatter_other {ns : List Nat} {a : Nat} (vs : List Nat) (l : List (BitVec 3)) (h : a ∉ ns) :
    (scatter ns vs l).getD a 0 = l.getD a 0 := by
  induction ns generalizing vs l with
  | nil => rfl
  | cons n ns ih =>
    obtain ⟨hne, hns⟩ := not_or.1 (List.mem_cons.not.1 h)
    cases vs with
    | nil => rfl
    | cons v vs =>
      refine (ih vs _ hns).trans ?_
      rw [List.getD_eq_getElem?_getD, List.getElem?_set_ne (Ne.symm hne), List.getD_eq_getElem?_getD]

/-- The cell named `k`-th holds the `k`-th value, or what it held when there is none. -/
theorem scatter_getD {ns : List Nat} {k : Nat} (vs : List Nat) {l : List (BitVec 3)} (hd : ns.Nodup)
    (hn : ∀ n ∈ ns, n < l.length) (hk : k < ns.length) :
    (scatter ns vs l).getD ns[k] 0 = if k < vs.length then BitVec.ofNat 3 (vs.getD k 0) else l.getD ns[k] 0 := by
  induction ns generalizing vs l k with
  | nil => cases hk
  | cons n ns ih =>
    obtain ⟨hnew, hd⟩ := List.nodup_cons.1 hd
    cases vs with
    | nil => rfl
    | cons v vs =>
      have hset : ∀ m ∈ ns, m < (l.set n (BitVec.ofNat 3 v)).length := fun m hm => by
        rw [List.length_set]
        exact hn m (List.mem_cons_of_mem _ hm)
      cases k with
      | zero =>
        refine (scatter_other vs _ hnew).trans ?_
        rw [List.getD_eq_getElem?_getD, List.getElem?_set_self (hn n List.mem_cons_self)]
        rfl
      | succ k =>
        have hk : k < ns.length := Nat.lt_of_succ_lt_succ hk
        have hne : n ≠ ns[k] := fun e => hnew (e ▸ List.getElem_mem hk)
        refine (ih vs hd hset hk).trans ?_
        rw [List.length_cons, List.getElem_cons_succ, List.getD_eq_getElem?_getD (l := l.set _ _),
          List.getElem?_set_ne hne, List.getD_eq_getElem?_getD (l := l)]
        simp only [Nat.succ_lt_succ_iff, List.getD_cons_succ]

theorem clLensOf_eq_scatter (vs : List Nat) : clLensOf vs = scatter clOrder vs (List.replicate Config.ncl 0) := rfl

/-- `CLORD` names each of the 19 symbols once (R105), and a symbol whose length is not sent has length 0 (R213). -/
theorem clLensOf_getD {vs : List Nat} {k : Nat} (hv : ∀ v ∈ vs, v < 8) (hk : k < 19) :
    ((clLensOf vs).getD (clOrder.getD k 0) 0).toNat = if k < vs.length then vs.getD k 0 else 0 := by
  have hlen : k < clOrder.length := hk
  have hsym : ∀ n ∈ clOrder, n < Config.ncl := by decide
  rw [clLensOf_eq_scatter, List.getD_eq_getElem _ _ hlen,
    scatter_getD vs (by decide) (by rwa [List.length_replicate]) hlen]
  split
  · rename_i hlt
    rw [List.getD_eq_getElem _ _ hlt, BitVec.toNat_ofNat]
    exact Nat.mod_eq_of_lt (hv _ (List.getElem_mem hlt))
  · rw [List.getD_replicate _ (hsym _ (List.getElem_mem hlen))]
    rfl

/-! ## DYN (R212 to R214) -/

theorem build_valid {ls : List Nat} (h : kraftSum ls ≤ 2 ^ 15) : build ls = some (buildTable ls) :=
  if_neg (Nat.not_lt.2 h)

theorem build_overSubscribed {ls : List Nat} (h : 2 ^ 15 < kraftSum ls) : build ls = none := if_pos h

theorem State.andThen_ok {α : Type} {s : State} {e : Eff Reader α} {a : α} {r : Reader} (k : α → State → Out)
    (h : e = .ok a r) : s.andThen e k = k a (s.setReader r) := by
  rw [h, State.andThen]

theorem State.andThen_raise {α : Type} {s : State} {e : Eff Reader α} {c : ErrCode} {r : Reader} (k : α → State → Out)
    (h : e = .raise c r) : s.andThen e k = .next ((s.setReader r).raise c) := by
  rw [h, State.andThen, raiseErr]

/-- What a header whose code-length lengths have been read leaves. -/
def State.withHeader (hlit hdist : BitVec 5) (hclen : BitVec 4) (vs : List Nat) (r : Reader) (s : State) : State :=
  ((s.setReader r).setDyn
    { s.dyn.counts hlit hdist hclen with clLens := clLensOf vs, idx := 0, hdrRead := true }).setTables
    (s.tables.setCl (buildTable ((clLensOf vs).map BitVec.toNat)))

theorem execDyn_valid {s : State} (hlit hdist : BitVec 5) {hclen : BitVec 4} {vs : List Nat} {r : Reader}
    (h : s.reader.readLens (hclen.toNat + 4) = .ok vs r) (hk : kraftSum ((clLensOf vs).map BitVec.toNat) ≤ 2 ^ 15) :
    execDyn hlit hdist hclen s = .next (s.withHeader hlit hdist hclen vs r) := by
  rw [← hclenOf_toNat] at h
  rw [execDyn, State.andThen_ok _ h, build_valid hk]
  rfl

theorem execDyn_overSubscribed {s : State} (hlit hdist : BitVec 5) {hclen : BitVec 4} {vs : List Nat} {r : Reader}
    (h : s.reader.readLens (hclen.toNat + 4) = .ok vs r) (hk : 2 ^ 15 < kraftSum ((clLensOf vs).map BitVec.toNat)) :
    execDyn hlit hdist hclen s = .refused .overSubscribed := by
  rw [← hclenOf_toNat] at h
  rw [execDyn, State.andThen_ok _ h, build_overSubscribed hk]

theorem execDyn_raise {s : State} (hlit hdist : BitVec 5) {hclen : BitVec 4} {c : ErrCode} {r : Reader}
    (h : s.reader.readLens (hclen.toNat + 4) = .raise c r) :
    execDyn hlit hdist hclen s = .next (((s.setDyn (s.dyn.counts hlit hdist hclen)).setReader r).raise c) := by
  rw [← hclenOf_toNat] at h
  rw [execDyn, State.andThen_raise _ h]

theorem length_clTable_lt (vs : List Nat) : (buildTable ((clLensOf vs).map BitVec.toNat)).length < 32 := by
  have h := length_buildTable_le ((clLensOf vs).map BitVec.toNat)
  rw [List.length_map, length_clLensOf] at h
  exact h.trans_lt (by decide)

/-- Settles O30: the lengths read are scattered in `CLORD` order, and the temporary table is built from them. -/
theorem dynamicHeaderStartsTheLengthArray : Obligations.DynamicHeaderStartsTheLengthArray := by
  intro s hlit hdist hclen
  refine ⟨fun vs r hr => ?_, fun c r hr => ⟨_, execDyn_raise hlit hdist hr, rfl, rfl⟩⟩
  obtain ⟨hlen, hlt⟩ := Reader.readLens_ok hr
  refine ⟨clLensOf vs, length_clLensOf vs, fun k hk => ?_, fun hk => ?_, execDyn_overSubscribed hlit hdist hr⟩
  · rw [← hlen]
    exact clLensOf_getD hlt hk
  · exact ⟨_, execDyn_valid hlit hdist hr hk, hlitOf_toNat hlit, hdistOf_toNat hdist, hclenOf_toNat hclen, rfl, rfl,
      rfl, Tables.cl_setCl _ (length_clTable_lt vs), rfl, rfl, rfl, rfl, rfl, rfl⟩

/-! ## The end of the header (R221) -/

theorem loadTables_overSubscribed {lits dists : List Nat} (s : State)
    (h : 2 ^ 15 < kraftSum lits ∨ 2 ^ 15 < kraftSum dists) : loadTables lits dists s = .refused .overSubscribed := by
  rcases h with h | h
  · rw [loadTables, build_overSubscribed h]
  · rw [loadTables, build_overSubscribed h]
    cases build lits <;> rfl

/-- Settles O34: the step reads no element and loads the two tables from the two parts of the array. -/
theorem dynamicHeaderEndsWithTwoTables : Obligations.DynamicHeaderEndsWithTwoTables := by
  intro s d hc hd hu hi hh ht hlit hdist lits dists
  have hstep : step s = finishDyn s := by
    refine step_of_done ?_
    rw [fetch_of_pulling ⟨hu, d, hc, hd⟩]
    simp [fetchInflate, hi, hh, Nat.not_lt.2 ht]
  rw [hstep]
  refine ⟨fun hkl hkd => ?_, loadTables_overSubscribed _⟩
  have hl : (buildTable lits).length < 512 :=
    ((length_buildTable_le _).trans ((length_litLens_le s.dyn).trans hlit)).trans_lt (by decide)
  have hdl : (buildTable dists).length < 64 :=
    ((length_buildTable_le _).trans ((length_distLens_le s.dyn).trans hdist)).trans_lt (by decide)
  exact ⟨_, loadTables_valid _ hkl hkd, Tables.lit_setLit s.tables hl, Tables.dist_setDist _ hdl, rfl, rfl, rfl, rfl⟩

end Sys2Proof.Machine
end

section
/-!
The code of each symbol in a table (R184), and the two fixed tables (R107, R108, R208).
-/

namespace Sys2Proof.Machine

/-! ## The code of a symbol -/

theorem bitsOf_succ_last (n v : Nat) : bitsOf (n + 1) v = bitsOf n (v % 2 ^ n) ++ [v / 2 ^ n % 2 == 1] := by
  induction n generalizing v with
  | zero => simp [bitsOf]
  | succ n ih =>
    have hdiv : v % 2 ^ (n + 1) / 2 = v / 2 % 2 ^ n := by
      rw [Nat.pow_succ', Nat.mod_mul_right_div_self]
    have hmod : v % 2 ^ (n + 1) % 2 = v % 2 := Nat.mod_mod_of_dvd v (dvd_pow_self 2 (Nat.succ_ne_zero n))
    rw [bitsOf, ih, bitsOf, hdiv, hmod, Nat.div_div_eq_div_mul, ← Nat.pow_succ']
    rfl

/-- A pattern stored in reverse is the code most significant bit first (R77, R184). -/
theorem bitsOf_revBits (b c : Nat) : bitsOf b (revBits b c) = codeBits b c := by
  induction b generalizing c with
  | zero => rfl
  | succ b ih =>
    have hlast : (c % 2 % 2 == 1) = (c % 2 == 1) := by rw [Nat.mod_mod]
    rw [bitsOf_succ_last, revBits_succ_mod, revBits_succ_div, ih, hlast, codeBits, codeBits, bitsOf, List.reverse_cons]

/-- Advancing the counter of length `a` counts one more symbol of that length. -/
theorem counter_set {next : List Nat} {a : Nat} (b : Nat) (ls : List Nat) (ha : a < next.length) :
    (next.set a (next.getD a 0 + 1)).getD b 0 + ls.count b = next.getD b 0 + (a :: ls).count b := by
  by_cases hab : a = b
  · subst hab
    rw [List.count_cons_self, List.getD_eq_getElem?_getD, List.getElem?_set_self ha, Option.getD_some]
    omega
  · rw [List.count_cons_of_ne hab, List.getD_eq_getElem?_getD, List.getElem?_set_ne hab, List.getD_eq_getElem?_getD]

/-- The code of a used symbol: its length's counter, advanced by the symbols of that length before it (R184). -/
theorem codeEntry_mem_assignCodes {ls next : List Nat} {sym k : Nat} (hn : ∀ b ∈ ls, b < next.length)
    (hk : k < ls.length) (h0 : ls[k] ≠ 0) :
    codeEntry ls[k] (next.getD ls[k] 0 + (ls.take k).count ls[k]) (sym + k) ∈ assignCodes ls sym next := by
  induction ls generalizing sym next k with
  | nil => cases hk
  | cons a ls ih =>
    cases k with
    | zero =>
      have ha : a ≠ 0 := h0
      rw [assignCodes, if_neg ha]
      exact List.mem_cons_self
    | succ k =>
      have hk : k < ls.length := Nat.lt_of_succ_lt_succ hk
      have h0 : ls[k] ≠ 0 := h0
      have ha : a < next.length := hn a List.mem_cons_self
      have htail : ∀ b ∈ ls, b < next.length := fun b hb => hn b (List.mem_cons_of_mem _ hb)
      rw [List.getElem_cons_succ, List.take_succ_cons, show sym + (k + 1) = sym + 1 + k by omega]
      unfold assignCodes
      split
      · rename_i hz
        rw [List.count_cons_of_ne (by omega)]
        exact ih htail hk h0
      · refine List.mem_cons_of_mem _ ?_
        rw [← counter_set _ _ ha]
        exact ih (by rwa [List.length_set]) hk h0

theorem getD_firstCodes (ls : List Nat) {b : Nat} (h : b ≤ 15) : (firstCodes ls).getD b 0 = firstCode ls b := by
  rw [List.getD_eq_getElem _ _ (by rw [length_firstCodes]; omega)]
  simp [firstCodes]

/-- The canonical code of the `k`-th symbol of a code-length set (R183, R184). -/
def canonicalCode (ls : List Nat) (k b : Nat) : Nat := firstCode ls b + (ls.take k).count b

/-- A used symbol stands in the table once, with its canonical code most significant bit first (R184). -/
theorem codeOf_buildTable {ls : List Nat} {k b : Nat} (hl : ls.length ≤ 512) (hb : ∀ b ∈ ls, b ≤ 15)
    (hk : ls[k]? = some b) (h0 : b ≠ 0) : codeOf (buildTable ls) k = some (codeBits b (canonicalCode ls k b)) := by
  obtain ⟨hlt, rfl⟩ := List.getElem?_eq_some_iff.1 hk
  have hb15 := hb _ (List.getElem_mem hlt)
  have hmem := codeEntry_mem_assignCodes (sym := 0) (lt_length_firstCodes hb) hlt h0
  rw [getD_firstCodes ls hb15, Nat.zero_add, ← (buildTable_perm ls).mem_iff] at hmem
  obtain ⟨e, he⟩ := List.length_eq_one_iff.1 (by
    simpa using congrArg List.length (filter_sym_buildTable hb hl hlt h0))
  have hsym : ∀ c, (codeEntry ls[k] c k).sym.toNat = k := fun c => codeEntry_sym (by omega)
  have hin := List.mem_filter (p := fun e => e.sym.toNat == k) |>.2 ⟨hmem, beq_iff_eq.2 (hsym _)⟩
  rw [he, List.mem_singleton] at hin
  rw [codeOf, ← List.head?_filter, he, ← hin, List.head?_cons, Option.map_some, codeEntry_len hb15,
    codeEntry_bits _ _ hb15, bitsOf_revBits]
  rfl

/-! ## The fixed code lengths (R107, R108) -/

theorem kraftSum_append (xs ys : List Nat) : kraftSum (xs ++ ys) = kraftSum xs + kraftSum ys := by
  induction xs with
  | nil => simp [kraftSum]
  | cons x xs ih => rw [List.cons_append, kraftSum, kraftSum, ih, Nat.add_assoc]

theorem kraftSum_replicate (n : Nat) {b : Nat} (h : b ≠ 0) : kraftSum (List.replicate n b) = n * 2 ^ (15 - b) := by
  induction n with
  | zero => simp [kraftSum]
  | succ n ih => rw [List.replicate_succ, kraftSum, if_neg h, ih, Nat.succ_mul, Nat.add_comm]; rfl

theorem kraftSum_fixedLitLens : kraftSum fixedLitLens ≤ 2 ^ Config.maxBits := by
  rw [fixedLitLens, kraftSum_append, kraftSum_append, kraftSum_append]
  iterate 4 rw [kraftSum_replicate _ (by decide)]
  decide

theorem kraftSum_fixedDistLens : kraftSum fixedDistLens ≤ 2 ^ Config.maxBits := by
  rw [fixedDistLens, kraftSum_replicate _ (by decide)]
  decide

theorem getElem?_fixedLitLens {k : Nat} (hk : k < 288) :
    fixedLitLens[k]? = some (if k < 144 then 8 else if k < 256 then 9 else if k < 280 then 7 else 8) := by
  simp only [fixedLitLens, List.getElem?_append, List.getElem?_replicate, List.length_append, List.length_replicate]
  grind

/-- How many of the first `k` fixed literal/length codes have `b` bits. -/
theorem count_take_fixedLitLens (k b : Nat) :
    (fixedLitLens.take k).count b = (if b = 8 then min k 144 + min (k - 280) 8 else 0) +
      (if b = 9 then min (k - 144) 112 else 0) + (if b = 7 then min (k - 256) 24 else 0) := by
  simp only [fixedLitLens, List.take_append, List.take_replicate, List.length_append, List.length_replicate,
    List.count_append, List.count_replicate, beq_iff_eq]
  grind

theorem firstCode_fixedLitLens : firstCode fixedLitLens 7 = 0 ∧ firstCode fixedLitLens 8 = 0x30 ∧
    firstCode fixedLitLens 9 = 0x190 := by
  have hcount : ∀ b, fixedLitLens.count b =
      (if b = 8 then 152 else 0) + (if b = 9 then 112 else 0) + (if b = 7 then 24 else 0) := fun b => by
    have h := count_take_fixedLitLens 288 b
    rwa [List.take_of_length_le length_fixedLitLens.le] at h
  simp only [firstCode, lengthCount, hcount]
  decide

theorem firstCode_fixedDistLens : firstCode fixedDistLens 5 = 0 := by
  simp only [firstCode, lengthCount, fixedDistLens, List.count_replicate]
  decide

theorem length_buildTable_of_used {ls : List Nat} (h : ∀ b ∈ ls, b ≠ 0) : (buildTable ls).length = ls.length := by
  rw [length_buildTable, List.countP_eq_length.2 fun b hb => decide_eq_true (h b hb)]

/-- Every symbol of both fixed sets is used. -/
theorem length_buildTable_fixed :
    (buildTable fixedLitLens).length = 288 ∧ (buildTable fixedDistLens).length = 32 := by
  refine ⟨(length_buildTable_of_used fun b hb => ?_).trans length_fixedLitLens,
    (length_buildTable_of_used fun b hb => ?_).trans length_fixedDistLens⟩
  · simp only [fixedLitLens, List.mem_append, List.mem_replicate] at hb
    omega
  · simp only [fixedDistLens, List.mem_replicate] at hb
    omega

/-- What loading the two fixed tables puts in force (R208). -/
structure Tables.Fixed (x : Tables) : Prop where
  litN : x.litN = 288
  distN : x.distN = 32
  lit : x.lit = buildTable fixedLitLens
  dist : x.dist = buildTable fixedDistLens

theorem Tables.fixed_load (x : Tables) :
    ((x.setLit (buildTable fixedLitLens)).setDist (buildTable fixedDistLens)).Fixed := by
  obtain ⟨hl, hd⟩ := length_buildTable_fixed
  refine ⟨?_, ?_, Tables.lit_setLit x (by omega), Tables.dist_setDist _ (by omega)⟩
  · show BitVec.ofNat 9 (buildTable fixedLitLens).length = 288
    rw [hl]
    rfl
  · show BitVec.ofNat 6 (buildTable fixedDistLens).length = 32
    rw [hd]
    rfl

theorem Tables.Fixed.length_lit {x : Tables} (h : x.Fixed) : x.lit.length = 288 := by
  rw [h.lit, length_buildTable_fixed.1]

theorem Tables.Fixed.length_dist {x : Tables} (h : x.Fixed) : x.dist.length = 32 := by
  rw [h.dist, length_buildTable_fixed.2]

/-- The code of symbol `k` in the fixed literal/length table (R107). -/
theorem Tables.Fixed.codeOf_lit {x : Tables} {k b c : Nat} (h : x.Fixed) (hk : k < 288)
    (hb : (if k < 144 then 8 else if k < 256 then 9 else if k < 280 then 7 else 8) = b)
    (hc : canonicalCode fixedLitLens k b = c) : codeOf x.lit k = some (codeBits b c) := by
  have hlen : fixedLitLens.length ≤ 512 := length_fixedLitLens.trans_le (by decide)
  rw [h.lit, ← hc]
  refine codeOf_buildTable hlen fixedLitLens_le (by rw [getElem?_fixedLitLens hk, hb]) ?_
  split_ifs at hb <;> omega

/-- The code of symbol `k` in the fixed distance table (R108). -/
theorem Tables.Fixed.codeOf_dist {x : Tables} {k : Nat} (h : x.Fixed) (hk : k < 32) :
    codeOf x.dist k = some (codeBits 5 k) := by
  have hlen : fixedDistLens.length ≤ 512 := length_fixedDistLens.trans_le (by decide)
  have hcode : canonicalCode fixedDistLens k 5 = k := by
    rw [canonicalCode, firstCode_fixedDistLens, fixedDistLens, List.take_replicate, List.count_replicate_self]
    omega
  rw [h.dist, codeOf_buildTable hlen fixedDistLens_le (List.getElem?_replicate_of_lt hk) (by decide), hcode]

/-- Loading the two real tables leaves the temporary table and every other part alone. -/
theorem State.withTables_frame (lits dists : List Nat) (s : State) :
    (s.withTables lits dists).tables.clTab = s.tables.clTab ∧ (s.withTables lits dists).tables.clN = s.tables.clN ∧
    s.withTables lits dists =
      { s with tables := (s.withTables lits dists).tables, inflate := { s.inflate with istate := .huffman } } :=
  ⟨rfl, rfl, rfl⟩

theorem execFixed_next (s : State) : execFixed s = .next (s.withTables fixedLitLens fixedDistLens) := by
  rw [execFixed, loadTables_valid s kraftSum_fixedLitLens kraftSum_fixedDistLens, State.withTables]

/-- Settles O29: neither fixed set is over-subscribed, and the code of each symbol is the canonical one. -/
theorem fixedBlockBuildsTheFixedTables : Obligations.FixedBlockBuildsTheFixedTables := by
  intro s
  have hx : (s.withTables fixedLitLens fixedDistLens).tables.Fixed := s.tables.fixed_load
  obtain ⟨h7, h8, h9⟩ := firstCode_fixedLitLens
  refine ⟨_, execFixed_next s, hx.litN, hx.distN, hx.length_lit, hx.length_dist, fun k hk => ?_, fun k hlo hhi => ?_,
    fun k hlo hhi => ?_, fun k hlo hhi => ?_, fun k => hx.codeOf_dist, s.withTables_frame _ _⟩
  all_goals
    refine hx.codeOf_lit (by omega) (by grind) ?_
    simp only [canonicalCode, h7, h8, h9, count_take_fixedLitLens]
    grind

end Sys2Proof.Machine
end

section
/-!
Literals, the end of a block, and a whole match (R252 to R260): the errors of a match in the order they are raised
(R382), and a length symbol with the distance symbol the next step reads.
-/

namespace Sys2Proof.Machine

/-! ## A literal and the end of a block (R252, R253) -/

/-- Settles O37: LIT is one `Put`, and EOB a move to another state. -/
theorem literalAndEndOfBlock : Obligations.LiteralAndEndOfBlock := fun s =>
  ⟨fun b hm =>
    ⟨_, rfl, fun a => Memory.read_write _ a b hm, Window.put_wr b s.window, rfl, Window.put_hist b s.window, rfl, rfl, rfl⟩,
    rfl⟩

/-! ## The errors of a match (R257 to R260) -/

theorem copyMatch_tooFar {s : State} (hd : s.window.hist.toNat < s.temps.mdist.toNat) :
    copyMatch s = .next (s.raise .distTooFar) := if_pos hd

theorem copyMatch_overruns {s : State} (hd : s.temps.mdist.toNat ≤ s.window.hist.toNat)
    (hl : s.window.size < s.temps.mlen.toNat) : copyMatch s = .next (s.raise .windowOverrun) := by
  rw [copyMatch, if_neg (Nat.not_lt.2 hd), if_pos hl, raiseErr]

/-- A distance symbol whose extra bits are read, and the match it ends is still to be checked (R254, R255). -/
theorem distSymbol_ok {base ext x : Nat} {s : State} {r : Reader} (h : s.reader.readBits ext = .ok x r) :
    distSymbol base ext s = copyMatch ((s.setReader r).setTemps { s.temps with mdist := distanceOf base x }) :=
  State.withBits_ok _ h

/-- How a distance symbol fails: by the read of its extra bits, then by its distance, then by the match's length. -/
theorem distSymbol_errors {base ext : Nat} {s : State} (hb : base + 2 ^ ext ≤ 32769) :
    (∀ (c : ErrCode) (r : Reader), s.reader.readBits ext = .raise c r →
      ∃ t, distSymbol base ext s = .next t ∧ s.FailedWith c.code t ∧ t.window = s.window) ∧
    (∀ (x : Nat) (r : Reader), s.reader.readBits ext = .ok x r →
      (s.window.hist.toNat < base + x →
        ∃ t, distSymbol base ext s = .next t ∧ s.FailedWith 0x3C t ∧ t.window = s.window ∧ t.reader = r) ∧
      (base + x ≤ s.window.hist.toNat → s.window.size < s.temps.mlen.toNat →
        ∃ t, distSymbol base ext s = .next t ∧ s.FailedWith 0x3B t ∧ t.window = s.window ∧ t.reader = r)) := by
  refine ⟨fun c r hr => ⟨_, State.withBits_raise _ hr, State.raise_failedWith _ c, rfl⟩, fun x r hr => ?_⟩
  have hx := Reader.readBits_lt hr
  have hm : (distanceOf base x).toNat = base + x := distanceOf_toNat (by omega)
  refine ⟨fun hfar => ⟨_, (distSymbol_ok hr).trans (copyMatch_tooFar (hfar.trans_eq hm.symm)), ?_, rfl, rfl⟩,
    fun hd hl => ⟨_, (distSymbol_ok hr).trans (copyMatch_overruns (hm.trans_le hd) hl), ?_, rfl, rfl⟩⟩
  · exact State.raise_failedWith _ .distTooFar
  · exact State.raise_failedWith _ .windowOverrun

/-- Settles O40: an invalid symbol is its error, and every distance row fails as its meaning does. -/
theorem matchErrorsInOrder : Obligations.MatchErrorsInOrder := by
  refine ⟨fun s i hi => ?_, fun s i hi => ?_, fun p hp s => ?_⟩
  · rcases hi with rfl | rfl <;> exact ⟨_, rfl, State.raise_failedWith s .lenCode, rfl⟩
  · rcases hi with rfl | rfl <;> exact ⟨_, rfl, State.raise_failedWith s .distCode, rfl⟩
  · have hi : distanceParams p.1 = some p.2 := by
      revert p
      decide
    obtain ⟨he, -, -, htop⟩ := exec_distanceParams s hi
    rw [he]
    exact distSymbol_errors htop

/-! ## The step of a length symbol and the step of a distance symbol -/

theorem lengthParams_of_row :
    ∀ k < lengthRows.length, litLenRows[k + 1]?.bind lengthParams = lengthRows[k]? := by decide

theorem distanceParams_of_row :
    ∀ k < distanceRows.length, distRows[k]?.bind distanceParams = distanceRows[k]? := by decide

/-- The symbols 257 to 285 decode to the instructions of R110's rows. -/
theorem decode_lengthRow {w base ext : Nat} (hw : 257 ≤ w) (hrow : lengthRows[w - 257]? = some (base, ext)) :
    ∃ i, decode ⟨.litLen, w, .none⟩ = .ok i ∧ lengthParams i = some (base, ext) := by
  obtain ⟨hlt, -⟩ := List.getElem?_eq_some_iff.1 hrow
  obtain ⟨i, hi, hp⟩ := Option.bind_eq_some_iff.1 ((lengthParams_of_row _ hlt).trans hrow)
  have hlen : lengthRows.length = 29 := rfl
  refine ⟨i, ?_, hp⟩
  rw [decode_litLen _ (by omega), if_neg (by omega), decodeRow_eq_ok, show w - 256 = w - 257 + 1 by omega]
  exact hi

/-- The symbols 0 to 29 decode to the instructions of R111's rows. -/
theorem decode_distanceRow {w base ext : Nat} (hrow : distanceRows[w]? = some (base, ext)) :
    ∃ i, decode ⟨.dist, w, .none⟩ = .ok i ∧ distanceParams i = some (base, ext) := by
  obtain ⟨hlt, -⟩ := List.getElem?_eq_some_iff.1 hrow
  obtain ⟨i, hi, hp⟩ := Option.bind_eq_some_iff.1 ((distanceParams_of_row _ hlt).trans hrow)
  have hlen : distanceRows.length = 30 := rfl
  refine ⟨i, ?_, hp⟩
  rw [decode_dist _ (by omega), decodeRow_eq_ok]
  exact hi

theorem step_length {s : State} {v : BitVec 9} {r : Reader} {base ext : Nat} (hx : s.Expects .litLen)
    (hm : s.reader.matchSymbol s.tables.lit = .ok v r) (hv : 257 ≤ v.toNat)
    (hrow : lengthRows[v.toNat - 257]? = some (base, ext)) :
    step s = lengthSymbol base ext ((s.setReader r).setTemps { s.temps with sym := v }) := by
  obtain ⟨i, hd, hp⟩ := decode_lengthRow hv hrow
  rw [step_of_fetch (fetch_of_litLen hx hm hd), (exec_lengthParams _ hp).1]

theorem step_distance {s : State} {d : BitVec 9} {r : Reader} {base ext : Nat} (hx : s.Expects .dist)
    (hm : s.reader.matchSymbol s.tables.dist = .ok d r) (hrow : distanceRows[d.toNat]? = some (base, ext)) :
    step s = distSymbol base ext (s.setReader r) := by
  obtain ⟨i, hd, hp⟩ := decode_distanceRow hrow
  rw [step_of_read hx rfl (by decide) (Reader.readSymbol_of_match hm) hd, (exec_distanceParams _ hp).1]

/-- The distance symbols from 30 on are E_DIST_CODE, those above 31 too, which are no element (R254, R258). -/
theorem step_distance_invalid {s : State} {d : BitVec 9} {r : Reader} (hx : s.Expects .dist)
    (hm : s.reader.matchSymbol s.tables.dist = .ok d r) (hd : 30 ≤ d.toNat) :
    step s = .next ((s.setReader r).raise .distCode) := by
  have hread : s.wordRead .dist = .ok d.toNat r := Reader.readSymbol_of_match hm
  rcases Nat.lt_or_ge d.toNat 32 with h | h
  · obtain h | h : d.toNat = 30 ∨ d.toNat = 31 := by omega
    all_goals
      rw [h] at hread
      exact step_of_read hx rfl (by decide) hread rfl
  · obtain ⟨e, he⟩ := decode_too_wide (e := ⟨.dist, d.toNat, .none⟩) h
    obtain ⟨rfl, -⟩ := decode_dist_error he
    refine step_of_done ?_
    rw [fetch_of_expects hx rfl (by decide), hread, fetchWord, decodeAt, he]
    rfl

/-! ## A whole match (R254) -/

theorem run_one {M : Host.Core} (s : M.State) : M.run 1 s = M.step s := by
  rw [Host.Core.run]
  cases M.step s <;> rfl

theorem run_two {M : Host.Core} {s t : M.State} (h : M.step s = .next t) : M.run 2 s = M.step t :=
  (run_succ 1 h).trans (run_one t)

/-- Between a length symbol and its distance symbol: `sym` and `mlen` are set, and the distance comes next. -/
def State.withLength (v : BitVec 9) (base x : Nat) (r : Reader) (s : State) : State :=
  (s.setReader r).setTemps { s.temps with sym := v, mlen := lengthOf base x, lenPend := true }

theorem State.withLength_expects {s : State} (v : BitVec 9) (base x : Nat) (r : Reader) (hx : s.Expects .litLen) :
    (s.withLength v base x r).Expects .dist := by
  obtain ⟨hp, hi, -⟩ := hx
  exact ⟨hp, hi, rfl⟩

/-- Settles O41: the first step reads the length and leaves the distance to the second, whose errors and whose copy are
those of the distance symbol. -/
theorem lengthThenDistanceIsOneMatch : Obligations.LengthThenDistanceIsOneMatch := by
  intro s v lb le x r₁ r₂ hx hsym hv hrow
  have hstep := step_length hx hsym hv hrow
  refine ⟨fun c hr => ⟨_, hstep.trans (State.withBits_raise _ hr), State.raise_failedWith _ c⟩, fun hr => ?_⟩
  have hfirst : step s = .next (s.withLength v lb x r₂) := hstep.trans (lengthSymbol_ok hr)
  have hexp := s.withLength_expects v lb x r₂ hx
  have hmlen : (s.withLength v lb x r₂).temps.mlen.toNat = lb + x := by
    obtain ⟨i, -, hi⟩ := decode_lengthRow hv hrow
    obtain ⟨-, -, -, htop⟩ := exec_lengthParams s hi
    have hlt := Reader.readBits_lt hr
    exact lengthOf_toNat (by omega)
  have hrun : Sys2Proof.core.run 2 s = step (s.withLength v lb x r₂) := run_two (M := core) hfirst
  rw [hrun]
  refine ⟨fun c r₃ hd => failed_of_read_raise hexp rfl (Reader.readSymbol_of_raise hd), fun d r₃ hd => ⟨fun hinv => ?_,
    fun db de y r₄ hdrow => ?_⟩⟩
  · exact ⟨_, step_distance_invalid hexp hd hinv, State.raise_failedWith _ .distCode⟩
  obtain ⟨i, -, hi⟩ := decode_distanceRow hdrow
  obtain ⟨-, -, -, htop⟩ := exec_distanceParams s hi
  obtain ⟨hraise, hchecks⟩ := distSymbol_errors (s := (s.withLength v lb x r₂).setReader r₃) htop
  rw [step_distance hexp hd hdrow]
  refine ⟨fun c hy => ?_, fun hy => ⟨fun hfar => ?_, fun hnear hlong => ?_, fun hnear hfit => ?_⟩⟩
  · obtain ⟨t, ht, hf, -⟩ := hraise c r₄ hy
    exact ⟨t, ht, hf⟩
  · obtain ⟨t, ht, hf, -⟩ := (hchecks y r₄ hy).1 hfar
    exact ⟨t, ht, hf⟩
  · obtain ⟨t, ht, hf, -⟩ := (hchecks y r₄ hy).2 hnear (hlong.trans_eq hmlen.symm)
    exact ⟨t, ht, hf⟩
  · have hlt := Reader.readBits_lt hy
    rw [distSymbol_fits (s := (s.withLength v lb x r₂).setReader r₃) hy (by omega) hnear (hmlen.trans_le hfit)]
    simp only [State.setReader_temps, State.setReader_window, hmlen]
    rfl

end Sys2Proof.Machine
end

section
/-!
The defilter (R330, R333 to R341): a turn of `Pull`, what a filter type makes of a row, and what an invalid one leaves.
-/

namespace Sys2Proof.Machine

/-! ## The legal filter types (R333 to R341) -/

theorem Memory.readAll_eq_map_range (m : Memory) (n : Nat) : m.readAll 0 n = (List.range n).map fun x => m.read x := by
  refine List.ext_getElem (by simp) fun k _ _ => ?_
  rw [Memory.getElem_readAll, List.getElem_map, List.getElem_range, Nat.zero_add]

/-- The correction stays within the row (R340). -/
theorem Scan.corrected_read_beyond (p : Predictor) {x : Scan} {k : Nat} (h : x.rowbytes.toNat ≤ k) :
    (x.corrected p).read k = x.cur.read k :=
  defilter_read_other p _ _ 0 _ k _ (.inr (by omega))

/-- The five legal filter types, each with the number of its byte (R113). -/
theorem decodeFilter_legal :
    ∀ p ∈ ([(.fNone, 0), (.fSub, 1), (.fUp, 2), (.fAvg, 3), (.fPaeth, 4)] : List (Instr × Nat)),
      p.2 ≤ 4 ∧ decodeFilter p.2 = p.1 := by
  decide

/-- Settles O43: each of the five delivers the row its predictor corrects, which is the reconstruction; the swap makes
that row `prev`. -/
theorem filterTypesReconstructTheRow : Obligations.FilterTypesReconstructTheRow := by
  intro ⟨i, f⟩ hmem s hw hs hfit
  obtain ⟨hf, rfl⟩ : f ≤ 4 ∧ decodeFilter f = i := decodeFilter_legal _ hmem
  obtain ⟨p, hpred, hp⟩ := exists_predictor hf
  refine ⟨_, _, (exec_predictorOf s hpred).1.trans (deliverRow_fits p hfit), ?_, fun x => ?_, ?_, ?_, Scan.setCur_stride _ _, Scan.setCur_rowbytes _ _,
    Scan.setCur_passValid _ _, Scan.setCur_ftype _ _, rfl⟩
  · rw [← Memory.readAll_eq_map_range]
    exact Scan.corrected_reconstructs hp hw hs
  · rw [State.respond_scan, State.setScan_scan, Scan.prev_swap, Scan.cur_setCur]
    split
    · exact (Memory.getD_readAll ‹_›).symm
    · exact Scan.corrected_read_beyond p (Nat.le_of_not_lt ‹_›)
  · exact (Scan.cur_swap _).trans (Scan.prev_setCur _ _)
  · exact congrArg not (Scan.setCur_curSel _ _)

/-! ## A turn of Pull (R330) -/

/-- Settles O42: with a byte unread the step is the turn of `Pull` that drops the front of the window. -/
theorem pullTakesTheOldestByte : Obligations.PullTakesTheOldestByte := by
  intro s d hc hd hu
  have hcount : (s.window.unread - 1).toNat = s.window.unread.toNat - 1 := by bv_omega
  exact ⟨_, step_pull hc hd hu, rfl, Window.drop_rd _, hcount, rfl⟩

/-! ## An invalid filter type (R339) -/

/-- The error comes once the row pulled has been loaded, and before any byte is corrected. -/
theorem step_filter_invalid {s : State} {f : Byte} {bytes : List Byte} (hf : 5 ≤ f.toNat)
    (hc : s.port.cmd = .row (f :: bytes)) (hl : bytes.length = s.scan.rowbytes.toNat)
    (hfit : s.scan.rowbytes.toNat ≤ Config.rowbytesMax) :
    step s = .next ((s.setScan (s.scan.load f bytes)).raise .filterType) :=
  step_filter hc hl hfit ((decode_filt _ f.isLt).trans (congrArg _ (decodeFilter_invalid hf)))

/-- Settles O44: the element raises and does no more, so `prev` stays and `cur` keeps what `load` put there. -/
theorem invalidFilterTypeFails : Obligations.InvalidFilterTypeFails := by
  refine ⟨fun s f => ⟨_, rfl, s.raise_failedWith .filterType, rfl⟩, fun s f bytes hf hc hl hfit hw => ?_⟩
  refine ⟨_, step_filter_invalid hf hc hl hfit, State.raise_failedWith _ .filterType, Scan.load_prev _ _ _,
    Scan.load_curSel _ _ _, fun k hk => ?_⟩
  rw [State.raise_scan, State.setScan_scan, Scan.load_cur, Memory.read_writeAll 0 k bytes hw, if_pos (by omega),
    Nat.sub_zero]

end Sys2Proof.Machine
end

section
/-!
Errors and the session (spec/60_exceptions.md): what taking an error leaves (R380), that the first one is sticky (R384),
and which codes a command can answer with (R392).
-/

namespace Sys2Proof.Machine

/-! ## Taking an error (R380) -/

/-- Settles O46: an error is taken in one way, whatever its cause and state; the codes are read off `ErrCode.code`. -/
theorem raiseEndsTheCommand : Obligations.RaiseEndsTheCommand :=
  ⟨fun s c => ⟨s.raise c, rfl, s.raise_failedWith c⟩, by decide⟩

/-! ## The first error is sticky (R384) -/

/-- The codes of PASS_BEGIN, ROW and FINISH, the commands that need a session (R141). -/
abbrev NeedsSession (c : BitVec 3) : Prop := c = 2 ∨ c = 3 ∨ c = 4

/-- The session state is looked at before the operand, so every operand is answered alike (log 9). -/
theorem exec_decodeCommand_failed {c : BitVec 3} (o : CmdOperands) {s : State} (hs : s.session.sstate = .failed)
    (hc : NeedsSession c) : exec (decodeCommand c o) s = .next (s.respond none) := by
  rcases hc with rfl | rfl | rfl
  · exact (State.ifLegal_failed _ hs : execPassBegin o.rowbytes0 s = _)
  · exact (State.ifLegal_failed _ hs : execRow s = _)
  · exact (State.ifLegal_failed _ hs : execFinish s = _)

/-- The step by which a failed session answers such a command. -/
theorem step_command_failed {s : State} {q : HostReq} {qs : List HostReq} (hs : s.session.sstate = .failed)
    (hc : s.port.cmd = .waiting) (hq : s.port.cmds = q :: qs) (hcode : NeedsSession q.code) :
    step s = .next ((s.setPort { s.port with cmds := qs }).respond none) := by
  rw [step_of_fetch (fetch_command hc hq)]
  exact exec_decodeCommand_failed q.ops hs hcode

/-- Each command answered adds one copy of the latched response. -/
theorem run_commands_failed {qs rest : List HostReq} {s : State} (hs : s.session.sstate = .failed)
    (hc : s.port.cmd = .waiting) (hq : s.port.cmds = qs ++ rest) (hcode : ∀ q ∈ qs, NeedsSession q.code) :
    Sys2Proof.core.run qs.length s = .next { s with
      port := { cmd := .waiting, cmds := rest,
                resps := s.port.resps ++
                  List.replicate qs.length { result := s.session.result, sstate := .failed, row := none } } } := by
  induction qs generalizing s with
  | nil =>
    rw [List.nil_append] at hq
    rw [List.length_nil, List.replicate_zero, List.append_nil, ← hc, ← hq]
    rfl
  | cons q qs ih =>
    have hstep := step_command_failed hs hc hq (hcode q List.mem_cons_self)
    have hrest := ih (s := (s.setPort { s.port with cmds := qs ++ rest }).respond none) hs rfl rfl fun p hp =>
      hcode p (List.mem_cons_of_mem q hp)
    refine (run_succ (M := core) qs.length hstep).trans (hrest.trans ?_)
    simp [State.respond, State.setPort, hs, List.replicate_succ]

/-- Settles O17: one latched response for each command; ABORT and START look at no session state. -/
theorem failedSessionIsSticky : Obligations.FailedSessionIsSticky :=
  ⟨fun _ _ _ hs hc hq hcode => run_commands_failed hs hc hq hcode, fun s c _ _ hlo hhi =>
    ⟨⟨_, rfl, rfl⟩, _, execStart_legal c s ⟨hlo, hhi⟩, rfl⟩⟩

/-! ## The code a response carries (R153) -/

/-- A step that answers has left the code in `result`. -/
theorem response_result {s t : State} {p : Response} (hs : s.Inv) (h : step s = .next t)
    (hp : t.port.resps = s.port.resps ++ [p]) : p.result = t.session.result := by
  rcases responsesCarryResultAndState s t hs h with he | ⟨row, he, _⟩
  · simp [he] at hp
  · obtain rfl : p = _ := by simpa [he] using hp.symm
    rfl

/-- A running command is one of a session without an error (R22). -/
theorem State.CommandInv.result_running {s : State} (h : s.CommandInv) (hc : s.port.cmd ≠ .waiting) :
    s.session.result = 0x00 :=
  h.ok (by rw [h.active hc]; nofun)

/-! ## Commands (R141 to R150) -/

/-- The latched answer keeps the session, so a command keeps it if it does so when carried out. -/
theorem State.ifLegal_session {s t : State} {k : State → Out} (hk : ∀ u, k s = .next u → u.session = s.session)
    (h : s.ifLegal k = .next t) : t.session = s.session := by
  rcases State.ifLegal_next h with ⟨_, h⟩ | ⟨_, rfl⟩
  · exact hk t h
  · rfl

theorem execPassBegin_session {n : BitVec 11} {s t : State} (h : execPassBegin n s = .next t) : t.session = s.session := by
  refine State.ifLegal_session (fun u hu => ?_) h
  split at hu
  · cases hu
  · exact Host.Outcome.next.inj hu ▸ rfl

theorem execRow_session {s t : State} (h : execRow s = .next t) : t.session = s.session := by
  refine State.ifLegal_session (fun u hu => ?_) h
  split at hu
  · exact Host.Outcome.next.inj hu ▸ rfl
  · cases hu

theorem execFinish_session {s t : State} (h : execFinish s = .next t) : t.session = s.session := by
  refine State.ifLegal_session (fun u hu => ?_) h
  exact Host.Outcome.next.inj hu ▸ rfl

/-- START and ABORT clear `result`, the commands of a session keep it, and the others are refused. -/
theorem exec_decodeCommand_session {c : BitVec 3} {o : CmdOperands} {s t : State}
    (h : exec (decodeCommand c o) s = .next t) :
    t.session.result = 0x00 ∨ (t.session = s.session ∧ NeedsSession c) := by
  rcases code_cases c with rfl | rfl | rfl | rfl | rfl | rfl | rfl | rfl
  · exact absurd h nofun
  · by_cases hst : 1 ≤ o.stride0.toNat ∧ o.stride0.toNat ≤ Config.strideMax
    · obtain rfl := Host.Outcome.next.inj ((execStart_legal o.chunkRem0 s hst).symm.trans h)
      exact .inl rfl
    · exact absurd ((execStart_outOfRange o.chunkRem0 s hst).symm.trans h) nofun
  · exact .inr ⟨execPassBegin_session h, .inl rfl⟩
  · exact .inr ⟨execRow_session h, .inr (.inl rfl)⟩
  · exact .inr ⟨execFinish_session h, .inr (.inr rfl)⟩
  · exact .inl (Host.Outcome.next.inj h ▸ rfl)
  · exact absurd h nofun
  · exact absurd h nofun

/-- START and ABORT answer 0x00, and every other command what the session holds. -/
theorem step_waiting_result {s t : State} (hs : s.CommandInv) (hc : s.port.cmd = .waiting) (h : step s = .next t)
    (ht : t.port.resps ≠ s.port.resps) :
    t.session.result = 0x00 ∨ (s.session.sstate = .failed ∧ t.session.result = s.session.result ∧
      ∃ q qs, s.port.cmds = q :: qs ∧ NeedsSession q.code) := by
  cases hq : s.port.cmds with
  | nil =>
    obtain rfl := Host.Outcome.next.inj ((step_of_done (fetch_idle hc hq)).symm.trans h)
    exact absurd rfl ht
  | cons q qs =>
    rw [step_of_fetch (fetch_command hc hq)] at h
    rcases exec_decodeCommand_session h with hz | ⟨hsame, hcode⟩
    · exact .inl hz
    · rw [hsame]
      by_cases hf : s.session.sstate = .failed
      · exact .inr ⟨hf, rfl, q, qs, rfl, hcode⟩
      · exact .inl (hs.ok hf)

/-! ## FINISH (R148) -/

/-- Only the trailer is read, and its bytes are not looked at. -/
theorem step_finish_result {s t : State} (hs : s.CommandInv) (hc : s.port.cmd = .finish) (h : step s = .next t) :
    t.session.result = 0x00 ∨ t.session.result = 0x10 ∨ t.session.result = 0x11 := by
  cases hr : s.reader.readBytes 4 with
  | ok bs r =>
    obtain rfl := Host.Outcome.next.inj ((step_trailer hc hr).symm.trans h)
    exact .inl (hs.result_running (by rw [hc]; nofun))
  | raise c r =>
    obtain rfl := Host.Outcome.next.inj ((step_trailer_raise hc hr).symm.trans h)
    rcases Reader.readBytes_raise hr with rfl | rfl
    · exact .inr (.inl rfl)
    · exact .inr (.inr rfl)

/-! ## Errors of the zlib header (R202) -/

/-- The codes of the three errors a zlib header can be refused with. -/
abbrev HeaderCode (x : BitVec 8) : Prop := x = 0x30 ∨ x = 0x31 ∨ x = 0x32

/-- The answer leaves no such code in `result`. -/
def SparesHeader (o : Out) : Prop := ∀ t, o = .next t → ¬HeaderCode t.session.result

theorem SparesHeader.next {t : State} (h : ¬HeaderCode t.session.result) : SparesHeader (.next t) :=
  fun _ hu => Host.Outcome.next.inj hu ▸ h

theorem SparesHeader.fault (f : Fault) : SparesHeader (.fault f) := fun _ h => absurd h nofun

theorem SparesHeader.refused (f : Refusal) : SparesHeader (.refused f) := fun _ h => absurd h nofun

theorem SparesHeader.raise {c : ErrCode} {s : State} (h : ¬HeaderCode c.code) : SparesHeader (raiseErr c s) := .next h

/-- A read can fail only for want of bytes (R161, R166). -/
theorem State.andThen_sparesHeader {α : Type} {s : State} {e : Eff Reader α} {k : α → State → Out}
    (he : ∀ c r, e = .raise c r → c = .io ∨ c = .ioChunk) (hk : ∀ a r, SparesHeader (k a (s.setReader r))) :
    SparesHeader (s.andThen e k) := by
  cases e with
  | ok a r => exact hk a r
  | raise c r => exact .raise (by rcases he c r rfl with rfl | rfl <;> decide)

theorem State.withBits_sparesHeader {s : State} {n : Nat} {k : Nat → State → Out}
    (hk : ∀ x r, SparesHeader (k x (s.setReader r))) : SparesHeader (s.withBits n k) :=
  State.andThen_sparesHeader (fun _ _ => Reader.readBits_raise) hk

section
variable {s : State} (hs : ¬HeaderCode s.session.result)
include hs

theorem loadTables_sparesHeader (lits dists : List Nat) : SparesHeader (loadTables lits dists s) := by
  intro t h
  obtain ⟨rfl, _⟩ := loadTables_next h
  exact hs

theorem execDyn_sparesHeader (a b : BitVec 5) (c : BitVec 4) : SparesHeader (execDyn a b c s) := by
  refine State.andThen_sparesHeader (fun _ _ => Reader.readLens_raise) fun vs r => ?_
  split
  · exact .refused _
  · exact .next hs

theorem storeLens_sparesHeader (n : Nat) (v : BitVec 4) : SparesHeader (storeLens n v s) := by
  intro t h
  obtain ⟨_, rfl⟩ := storeLens_next h
  exact hs

theorem repeatLens_sparesHeader (n : Nat) (v : BitVec 4) : SparesHeader (repeatLens n v s) := by
  unfold repeatLens
  split
  · exact .raise (by decide)
  · exact storeLens_sparesHeader hs n v

theorem execClRep_sparesHeader : SparesHeader (execClRep s) := by
  unfold execClRep
  split
  · exact .raise (by decide)
  · exact State.withBits_sparesHeader fun x r => repeatLens_sparesHeader (s := s.setReader r) hs _ _

theorem lengthSymbol_sparesHeader (base ext : Nat) : SparesHeader (lengthSymbol base ext s) :=
  State.withBits_sparesHeader fun _ _ => .next hs

theorem copyMatch_sparesHeader : SparesHeader (copyMatch s) := by
  unfold copyMatch
  split
  · exact .raise (by decide)
  · split
    · exact .raise (by decide)
    · exact .next hs

theorem distSymbol_sparesHeader (base ext : Nat) : SparesHeader (distSymbol base ext s) :=
  State.withBits_sparesHeader fun _ _ => copyMatch_sparesHeader hs

theorem execStoredHdr_sparesHeader (a b : BitVec 16) : SparesHeader (execStoredHdr a b s) := by
  unfold execStoredHdr
  split
  · exact .raise (by decide)
  · exact .next hs

theorem deliverRow_sparesHeader (p : Predictor) : SparesHeader (deliverRow p s) := by
  intro t h
  obtain ⟨_, rfl⟩ := deliverRow_next h
  exact hs

/-- No element but the zlib header itself. -/
theorem exec_sparesHeader {i : Instr} (hi : (encode i).fmt ≠ .hostCmd) (hz : (encode i).fmt ≠ .zhdr) :
    SparesHeader (exec i s) := by
  generalize ho : exec i s = o
  have hsh := exec_shape ho
  clear ho
  cases hsh with
  | start | passBegin | row | finish | abort => exact absurd rfl hi
  | reserved i h hr => rcases hr with rfl | rfl | rfl <;> exact absurd rfl hi
  | zlib => exact absurd rfl hz
  | blockStored f h | blockFixed f h | blockDynamic f h => exact h ▸ .next hs
  | raw b h | lit b h | ztrl b h => exact h ▸ .next hs
  | eob h => exact h ▸ .next hs
  | blockReserved f h | fInvalid f h => exact h ▸ .raise (by decide)
  | lenInvalid i h | distInvalid i h => exact h ▸ .raise (by decide)
  | storedHdr a b h => exact h ▸ execStoredHdr_sparesHeader hs a b
  | fixed h => exact h ▸ loadTables_sparesHeader hs _ _
  | dyn a b c h => exact h ▸ execDyn_sparesHeader hs a b c
  | clLen n h => exact h ▸ storeLens_sparesHeader hs 1 n
  | clRep h => exact h ▸ execClRep_sparesHeader hs
  | clZeroS h | clZeroL h =>
    exact h ▸ State.withBits_sparesHeader fun x r => repeatLens_sparesHeader (s := s.setReader r) hs _ _
  | length i base ext h => exact h ▸ lengthSymbol_sparesHeader hs base ext
  | distance i base ext h => exact h ▸ distSymbol_sparesHeader hs base ext
  | filter i p h => exact h ▸ deliverRow_sparesHeader hs p

theorem Bare.sparesHeader {o : Out} (h : Bare s o) : SparesHeader o := by
  cases h with
  | idle hc hq h => exact h ▸ .next hs
  | pull d hc hd hu h => exact h ▸ .next hs
  | tables hp hi hd ht h => exact h ▸ loadTables_sparesHeader (s := s.setDyn { s.dyn with hdrRead := false }) hs _ _
  | blockEnd hp hi h => exact h ▸ .next hs
  | streamEnd hp hi h => exact h ▸ .raise (by decide)
  | readError c r hr hc he h => exact h ▸ .raise (by rcases he with rfl | rfl | ⟨rfl, _⟩ <;> decide)
  | litLenSymbol hp hi v r hr he hv h | distSymbol hp hi v r hr he hv h => exact h ▸ .raise (by decide)
  | clSymbol hp v he hv h => exact h ▸ .refused _
  | noCell hc hr h => exact h ▸ .fault _

end

/-- A step of a running command that ends in an error of the zlib header was to read that header. -/
theorem expects_zhdr_of_headerCode {s t : State} (hs : s.CommandInv) (hc : s.port.cmd ≠ .waiting)
    (h : step s = .next t) (ht : HeaderCode t.session.result) : s.Expects .zhdr := by
  have hz : ¬HeaderCode s.session.result := by rw [hs.result_running hc]; decide
  rcases step_cases s with ⟨i, u, hf, he⟩ | hb
  · obtain ⟨hx, hr⟩ := fetch_instr hf
    by_contra hn
    refine exec_sparesHeader (s := u) (by rwa [hr.session]) (fun hi => hc ?_) (fun hi => hn (hi ▸ hx)) t (he ▸ h) ht
    exact (hi ▸ hx : s.Expects .hostCmd)
  · exact absurd ht (hb.sparesHeader hz t h)

/-! ## The codes of each command (R392) -/

/-- A session keeps to 0x00 and the codes of causes that can be raised (R360, R377). -/
theorem Session.Latched.result {x : Session} (h : x.Latched) :
    x.result = 0x00 ∨ ∃ c : ErrCode, c ≠ .noMem ∧ x.result = c.code := by
  by_cases hf : x.sstate = .failed
  · exact .inr (h.2 hf)
  · exact .inl (h.1 hf)

/-- Settles O47: a response carries the `result` its step leaves, which each kind of command bounds in its own way. -/
theorem commandsReturnOnlyTheirCodes : Obligations.CommandsReturnOnlyTheirCodes := by
  intro s t p hs h hp
  rw [response_result hs h hp]
  refine ⟨fun hc => step_waiting_result hs.command hc h (by simp [hp]), fun hc => step_finish_result hs.command hc h,
    fun d hc => ⟨((step_session h).latched hs.command).result, fun ht => ?_⟩⟩
  obtain ⟨_, _, hdone⟩ := expects_zhdr_of_headerCode hs.command (by rw [hc]; nofun) h ht
  exact hdone

end Sys2Proof.Machine
end

section
/-!
The state after hardware reset (R41, R410): what it allows, and that it has every invariant.
-/

namespace Sys2Proof.Machine

/-- Settles O48: no session is open, so the legality table refuses all but START and ABORT (R141). -/
theorem resetState : Obligations.ResetState :=
  have hidle : State.reset.session.sstate = .idle ∨ State.reset.session.sstate = .done := .inl rfl
  ⟨rfl, rfl, rfl, fun c _ hlo hhi => ⟨_, execStart_legal c _ ⟨hlo, hhi⟩⟩, ⟨_, rfl⟩,
    fun n => (State.ifLegal_closed _ hidle : execPassBegin n State.reset = _),
    (State.ifLegal_closed _ hidle : execRow State.reset = _),
    (State.ifLegal_closed _ hidle : execFinish State.reset = _)⟩

/-! ## The invariants, part by part -/

/-- A table memory that has stored nothing. -/
theorem TableInv.empty (cap : Nat) : TableInv cap [] 0 := ⟨Nat.le_refl _, Nat.zero_le _, nofun⟩

theorem State.reset_windowInv : State.reset.WindowInv where
  sound :=
    { wlog_ge := by decide
      rd_lt := by decide
      ring := by decide
      unread_le_hist := by decide
      hist_le_size := by decide
      unread_le_match := by decide }
  fresh _ := ⟨rfl, rfl, rfl, rfl, rfl⟩
  pending := nofun

theorem State.reset_cellsInv : State.reset.CellsInv :=
  ⟨Memory.within_nil _, Memory.within_nil _, Memory.within_nil _⟩

theorem State.reset_dyn_inRange : State.reset.dyn.InRange where
  lens_length := List.length_replicate
  clLens_length := List.length_replicate
  hlit_ge := by decide
  hlit_le := by decide
  hdist_ge := by decide
  hdist_le := by decide
  hclen_ge := by decide
  hclen_le := by decide
  idx_le := by decide

theorem State.reset_rangeInv : State.reset.RangeInv :=
  (State.rangeInv_iff _).2
    ⟨⟨by decide, by decide, by decide, by decide⟩, ⟨.empty _, .empty _, .empty _⟩, State.reset_dyn_inRange⟩

theorem State.reset_commandInv : State.reset.CommandInv where
  active h := absurd rfl h
  pulled := nofun
  ok _ := rfl
  latched := nofun

/-- Settles O49: the reset values are in their ranges, the memories list nothing and no command runs. -/
theorem resetSatisfiesTheInvariant : Obligations.ResetSatisfiesTheInvariant where
  reader := ⟨by decide, by decide⟩
  window := State.reset_windowInv
  memory := State.reset_memory_wf
  cells := State.reset_cellsInv
  range := State.reset_rangeInv
  command := State.reset_commandInv

end Sys2Proof.Machine
end

section
/-!
Reads take bits of the stream (R75, R163, R164): how many fewer a read leaves to come where it succeeds. Every
element that asks the source for a byte takes one bit at least, and carrying an element out gives none back.
-/

namespace Sys2Proof.Machine

/-! ## Reads that succeed -/

/-- The reader `t` is tidy and has at least `n` bits of the stream fewer to come than `r`. -/
structure Reader.Spent (n : Nat) (r t : Reader) : Prop where
  tidy : t.Tidy
  left : bitsLeft t + n ≤ bitsLeft r

/-- Where the read succeeds it has spent at least `n` bits. -/
def Eff.Spends {α : Type} (n : Nat) (r : Reader) (e : Eff Reader α) : Prop := ∀ a t, e = .ok a t → r.Spent n t

theorem Reader.Spent.trans {m n : Nat} {r t u : Reader} (h : r.Spent m t) (g : t.Spent n u) : r.Spent (m + n) u :=
  ⟨g.tidy, by have := h.left; have := g.left; omega⟩

theorem Eff.Spends.mono {α : Type} {m n : Nat} {r : Reader} {e : Eff Reader α} (h : e.Spends n r) (hmn : m ≤ n) :
    e.Spends m r := fun a t he => ⟨(h a t he).tidy, by have := (h a t he).left; omega⟩

theorem Eff.Spends.ok {α : Type} (a : α) {r : Reader} (hr : r.Tidy) : (Eff.ok a r).Spends 0 r := by
  intro b t h
  cases h
  exact ⟨hr, Nat.le_refl _⟩

theorem Eff.Spends.raise {α : Type} (n : Nat) (c : ErrCode) (r t : Reader) : (Eff.raise c t : Eff Reader α).Spends n r :=
  fun _ _ h => by cases h

theorem Eff.Spends.bind {α β : Type} {m n : Nat} {r : Reader} {e : Eff Reader α} {k : α → Reader → Eff Reader β}
    (he : e.Spends m r) (hk : ∀ a t, t.Tidy → (k a t).Spends n t) : (e.bind k).Spends (m + n) r := by
  intro b u h
  obtain ⟨a, t, hat, h⟩ := Eff.bind_eq_ok h
  exact (he a t hat).trans (hk a t (he a t hat).tidy b u h)

/-- The bits left are those buffered and eight for each byte the source still answers with. -/
theorem bitsLeft_eq (r : Reader) : bitsLeft r = r.bitcnt.toNat + 8 * (answeredBytes r.src.bytes).length := by
  simp [bitsLeft, Reader.streamBits, bitsOfByte, List.length_flatMap, Nat.mul_comm]

theorem Reader.fetchByte_spends {r : Reader} (hr : r.Tidy) : r.fetchByte.Spends 8 r := by
  intro b t h
  have hf := r.fetches_fetchByte
  rw [h, Eff.out_ok] at hf
  refine ⟨hf.moves.tidy hr, ?_⟩
  rw [bitsLeft_eq, bitsLeft_eq, Reader.fetchByte_ok h, hf.bitcnt, answeredBytes_some, List.length_cons]
  omega

theorem Reader.readBytes_spends (n : Nat) {r : Reader} (hr : r.Tidy) : (r.readBytes n).Spends (8 * n) r := by
  induction n generalizing r with
  | zero => exact .ok [] hr
  | succ n ih =>
    exact ((Reader.fetchByte_spends hr).bind fun b t ht => (ih ht).bind fun bs u hu => .ok _ hu).mono (by omega)

theorem Reader.readWord_spends (n : Nat) {r : Reader} (hr : r.Tidy) : (r.readWord n).Spends (8 * n) r :=
  (Reader.readBytes_spends n hr).bind fun _ _ ht => .ok _ ht

theorem Reader.readBit_spends {r : Reader} (hr : r.Tidy) : r.readBit.Spends 1 r := by
  intro b t h
  obtain ⟨ht, hbits, _⟩ := Reader.readBit_ok hr h
  exact ⟨ht, by rw [bitsLeft, bitsLeft, hbits, List.length_cons]⟩

theorem Reader.readBits_spends (n : Nat) {r : Reader} (hr : r.Tidy) : (r.readBits n).Spends n r := by
  intro v t h
  obtain ⟨bs, hlen, hbits, _, ht, _⟩ := Reader.readBits_ok hr h
  exact ⟨ht, by rw [bitsLeft, bitsLeft, hbits, List.length_append, hlen, Nat.add_comm]⟩

theorem Reader.readLens_spends (n : Nat) {r : Reader} (hr : r.Tidy) : (r.readLens n).Spends 0 r := by
  induction n generalizing r with
  | zero => exact .ok [] hr
  | succ n ih =>
    exact ((Reader.readBits_spends 3 hr).bind fun v t ht => (ih ht).bind fun vs u hu => .ok _ hu).mono (Nat.zero_le _)

theorem Reader.accumulate_spends (k : Nat) {r : Reader} (hr : r.Tidy) : (r.accumulate k).Spends k r := by
  induction k generalizing r with
  | zero => exact .ok () hr
  | succ k ih =>
    refine ((Reader.readBit_spends hr).bind fun b t ht a u h => ?_).mono (Nat.le_of_eq (Nat.add_comm k 1))
    have hu := ih (r := { t with mv := t.mv ||| (BitVec.ofNat 15 b.toNat <<< t.mhave.toNat), mhave := t.mhave + 1 }) ht a u h
    exact ⟨hu.tidy, hu.left⟩

/-- A scan takes the bits the first entry needs (R188). -/
theorem Reader.scanTable_cons_spends (e : HuffEntry) (es : List HuffEntry) {r : Reader} (hr : r.Tidy) :
    (Reader.scanTable (e :: es) r).Spends (e.len.toNat - r.mhave.toNat) r := by
  induction es generalizing e r with
  | nil =>
    refine (Reader.accumulate_spends _ hr).bind (n := 0) fun _ t ht => ?_
    split
    · exact .ok _ ht
    · exact .raise 0 .noMatch t t
  | cons x es ih =>
    refine (Reader.accumulate_spends _ hr).bind (n := 0) fun _ t ht => ?_
    split
    · exact .ok _ ht
    · exact (ih x ht).mono (Nat.zero_le _)

/-- An empty table has no match, and every code has a bit (R180, R189). -/
theorem Reader.matchSymbol_spends {es : List HuffEntry} {r : Reader} (hes : ∀ e ∈ es, 1 ≤ e.len.toNat) (hr : r.Tidy) :
    (r.matchSymbol es).Spends 1 r := by
  cases es with
  | nil => exact .raise 1 .noMatch r _
  | cons e es =>
    intro v t h
    have hscan := Reader.scanTable_cons_spends e es (r := { r with mv := 0, mhave := 0 }) hr
    obtain ⟨ht, hleft⟩ := hscan.mono (hes e List.mem_cons_self) v t h
    exact ⟨ht, hleft⟩

theorem Reader.readSymbol_spends {es : List HuffEntry} {r : Reader} (hes : ∀ e ∈ es, 1 ≤ e.len.toNat) (hr : r.Tidy) :
    (r.readSymbol es).Spends 1 r :=
  (Reader.matchSymbol_spends hes hr).bind fun _ _ ht => .ok _ ht

/-- Dropping the partial byte loses bits and gains none (R165). -/
theorem Reader.spent_alignByte {r : Reader} (hr : r.Tidy) : r.Spent 0 r.alignByte := by
  refine ⟨r.moves_alignByte.tidy hr, ?_⟩
  rw [bitsLeft_eq, bitsLeft_eq]
  simp [Reader.alignByte]

/-! ## Elements -/

/-- The entries of a table in force have codes (R32, R180). -/
theorem TableInv.len_pos {cap n : Nat} {t : List HuffEntry} (h : TableInv cap t n) : ∀ e ∈ t.take n, 1 ≤ e.len.toNat :=
  fun e he => (h.entry e (List.mem_of_mem_take he)).1

/-- The word of a format that reads takes a bit at least. -/
theorem State.wordRead_spends {s : State} {f : Format} (hs : s.RangeInv) (hr : s.reader.Tidy)
    (hf : f.readsSource = true) : (s.wordRead f).Spends 1 s.reader := by
  cases f with
  | hostCmd | fixed | filt => cases hf
  | zhdr => exact (Reader.readWord_spends 2 hr).mono (by decide)
  | bhdr => exact (Reader.readBits_spends 3 hr).mono (by decide)
  | storedHdr =>
    have ha := Reader.spent_alignByte hr
    intro w t h
    obtain ⟨ht, hleft⟩ := ha.trans (Reader.readWord_spends 4 ha.tidy w t h)
    exact ⟨ht, by omega⟩
  | raw => exact Reader.readWord_spends 1 hr |>.mono (by decide)
  | dynHdr => exact (Reader.readBits_spends 14 hr).mono (by decide)
  | clSym => exact Reader.readSymbol_spends hs.cl.len_pos hr
  | litLen => exact Reader.readSymbol_spends hs.lit.len_pos hr
  | dist => exact Reader.readSymbol_spends hs.dist.len_pos hr
  | ztrl => exact (Reader.readWord_spends 4 hr).mono (by decide)

/-- The reader an element is carried out with is the one its word was read with. -/
theorem fetch_wordRead {s u : State} {i : Instr} (h : fetch s = .instr i u) (hf : (encode i).fmt.readsSource = true) :
    ∃ w, s.wordRead (encode i).fmt = .ok w u.reader := by
  have hx := (fetch_instr h).1
  by_cases hl : (encode i).fmt = .litLen
  · rw [hl] at hx ⊢
    rw [fetch_litLen hx, fetchLitLen] at h
    split at h
    · rename_i v r he
      obtain ⟨_, rfl⟩ := decodeAt_instr h
      exact ⟨_, Reader.readSymbol_of_match he⟩
    · cases h
  · rw [fetch_of_expects hx hf hl] at h
    obtain ⟨w, r, he, _, rfl⟩ := fetchWord_instr h
    exact ⟨w, he⟩

/-- If the answer is a next state in which a command runs, at most `n` bits are left in it. -/
def LeavesBits (n : Nat) (o : Out) : Prop := ∀ t, o = .next t → t.port.cmd ≠ .waiting → bitsLeft t.reader ≤ n

theorem LeavesBits.next {n : Nat} {t : State} (h : bitsLeft t.reader ≤ n) : LeavesBits n (.next t) :=
  fun _ e _ => Host.Outcome.next.inj e ▸ h

/-- A step that ends the command leaves nothing to bound. -/
theorem LeavesBits.ends (n : Nat) {t : State} (h : t.port.cmd = .waiting) : LeavesBits n (.next t) :=
  fun _ e hc => absurd h (Host.Outcome.next.inj e ▸ hc)

theorem LeavesBits.raise (n : Nat) (c : ErrCode) (s : State) : LeavesBits n (raiseErr c s) := .ends n rfl

theorem LeavesBits.refused (n : Nat) (f : Refusal) : LeavesBits n (.refused f) := fun _ h => by cases h

/-- A read inside a meaning spends bits, or ends the command. -/
theorem State.andThen_leavesBits {α : Type} {n : Nat} {s : State} {e : Eff Reader α} {k : α → State → Out}
    (hn : bitsLeft s.reader ≤ n) (he : e.Spends 0 s.reader)
    (hk : ∀ a u, bitsLeft u.reader ≤ n → LeavesBits n (k a u)) : LeavesBits n (s.andThen e k) := by
  cases e with
  | ok a r => exact hk a _ (Nat.le_trans (he a r rfl).left hn)
  | raise c r => exact .raise n c _

section
variable {n : Nat} {s : State} (hn : bitsLeft s.reader ≤ n)
include hn

theorem loadTables_leavesBits (lits dists : List Nat) : LeavesBits n (loadTables lits dists s) := by
  intro t h _
  obtain ⟨rfl, _⟩ := loadTables_next h
  exact hn

theorem storeLens_leavesBits (k : Nat) (v : BitVec 4) : LeavesBits n (storeLens k v s) := by
  intro t h _
  obtain ⟨_, rfl⟩ := storeLens_next h
  exact hn

theorem repeatLens_leavesBits (k : Nat) (v : BitVec 4) : LeavesBits n (repeatLens k v s) := by
  unfold repeatLens
  split
  · exact .raise n _ s
  · exact storeLens_leavesBits hn k v

theorem copyMatch_leavesBits : LeavesBits n (copyMatch s) := by
  intro t h _
  rcases copyMatch_next h with ⟨_, rfl⟩ | ⟨_, _, rfl⟩ | ⟨_, _, rfl⟩ <;> exact hn

theorem execZlib_leavesBits (a b : BitVec 4) (c : BitVec 5) (d : Bool) (e : BitVec 2) :
    LeavesBits n (execZlib a b c d e s) := by
  unfold execZlib
  split
  · exact .raise n _ s
  · split
    · exact .raise n _ s
    · split
      · exact .raise n _ s
      · exact .next hn

theorem execStoredHdr_leavesBits (a b : BitVec 16) : LeavesBits n (execStoredHdr a b s) := by
  unfold execStoredHdr
  split
  · exact .raise n _ s
  · exact .next hn

variable (hr : s.reader.Tidy)
include hr

theorem State.withBits_leavesBits (k : Nat) {g : Nat → State → Out}
    (hg : ∀ x u, bitsLeft u.reader ≤ n → LeavesBits n (g x u)) : LeavesBits n (s.withBits k g) :=
  State.andThen_leavesBits hn ((Reader.readBits_spends k hr).mono (Nat.zero_le _)) hg

theorem execDyn_leavesBits (a b : BitVec 5) (c : BitVec 4) : LeavesBits n (execDyn a b c s) := by
  refine State.andThen_leavesBits hn (Reader.readLens_spends _ hr) fun vs u hu => ?_
  split
  · exact .refused n _
  · exact .next hu

theorem execClRep_leavesBits : LeavesBits n (execClRep s) := by
  unfold execClRep
  split
  · exact .raise n _ s
  · exact State.withBits_leavesBits hn hr 2 fun x u hu => repeatLens_leavesBits hu _ _

/-- Carrying an element out gives no bit back; only a START, which ends with its response, sets the reader. -/
theorem exec_leavesBits {i : Instr} (hi : (encode i).fmt ≠ .hostCmd) : LeavesBits n (exec i s) := by
  generalize ho : exec i s = o
  have hsh := exec_shape ho
  clear ho
  cases hsh with
  | start | passBegin | row | finish | abort => exact absurd rfl hi
  | reserved i h hr => rcases hr with rfl | rfl | rfl <;> exact absurd rfl hi
  | zlib a b c d e h => exact h ▸ execZlib_leavesBits hn a b c d e
  | blockStored f h | blockFixed f h | blockDynamic f h => exact h ▸ .next hn
  | raw b h | lit b h => exact h ▸ .next hn
  | eob h => exact h ▸ .next hn
  | blockReserved f h | fInvalid f h => exact h ▸ .raise n _ _
  | lenInvalid i h | distInvalid i h => exact h ▸ .raise n _ _
  | ztrl a h => exact h ▸ .ends n rfl
  | storedHdr a b h => exact h ▸ execStoredHdr_leavesBits hn a b
  | fixed h => exact h ▸ loadTables_leavesBits hn _ _
  | dyn a b c h => exact h ▸ execDyn_leavesBits hn hr a b c
  | clLen k h => exact h ▸ storeLens_leavesBits hn 1 k
  | clRep h => exact h ▸ execClRep_leavesBits hn hr
  | clZeroS h => exact h ▸ State.withBits_leavesBits hn hr 3 fun x u hu => repeatLens_leavesBits hu _ _
  | clZeroL h => exact h ▸ State.withBits_leavesBits hn hr 7 fun x u hu => repeatLens_leavesBits hu _ _
  | length i base ext h => exact h ▸ State.withBits_leavesBits hn hr ext fun x u hu => .next hu
  | distance i base ext h => exact h ▸ State.withBits_leavesBits hn hr ext fun x u hu => copyMatch_leavesBits hu
  | filter i p h =>
    intro t ht hc
    obtain ⟨_, rfl⟩ := deliverRow_next (h.trans ht)
    exact absurd rfl hc

end

/-- A step that reads an element and goes on with its command takes a bit of the stream at least. -/
theorem step_takes_bit {s u t : State} {i : Instr} (hs : s.Inv) (hf : fetch s = .instr i u)
    (hi : (encode i).fmt.readsSource = true) (h : exec i u = .next t) (ht : t.port.cmd ≠ .waiting) :
    bitsLeft t.reader < bitsLeft s.reader := by
  obtain ⟨w, hw⟩ := fetch_wordRead hf hi
  obtain ⟨hu, hleft⟩ := State.wordRead_spends hs.range hs.reader hi w _ hw
  exact Nat.lt_of_le_of_lt
    (exec_leavesBits (Nat.le_refl _) hu (fun e => by rw [e] at hi; cases hi) t h ht) hleft

end Sys2Proof.Machine
end

section
/-!
Every command ends (R430): a step of a command that goes on takes a bit of the stream, pulls a byte of the row, or
moves the inflate machine out of a state that reads nothing. The budget of a state counts all three.
-/

namespace Sys2Proof.Machine

/-! ## The budget -/

/-- The steps the inflate machine may take in a state before it reads or ends the command. -/
def IState.silentSteps : IState → Nat
  | .fixed | .dynamic | .blockEnd => 1
  | .begin | .stored | .huffman | .streamEnd => 0

theorem IState.silentSteps_le (i : IState) : i.silentSteps ≤ 1 := by cases i <;> decide

/-- The bytes a running ROW has still to pull (R330). -/
def State.toPull (s : State) : Nat :=
  match s.port.cmd with
  | .row d => s.scan.rowbytes.toNat + 1 - d.length
  | .waiting | .finish => 0

/-- A bound for the steps of the running command: two for each bit of the stream, one for each byte to pull, one for a
state that reads nothing, and the last. -/
def State.budget (s : State) : Nat := 2 * bitsLeft s.reader + s.toPull + s.inflate.istate.silentSteps + 1

theorem State.toPull_row {s : State} {d : List Byte} (h : s.port.cmd = .row d) :
    s.toPull = s.scan.rowbytes.toNat + 1 - d.length := by
  simp only [State.toPull, h]

theorem State.toPull_le (s : State) : s.toPull ≤ s.scan.rowbytes.toNat + 1 := by
  unfold State.toPull
  split <;> omega

theorem State.toPull_congr {s t : State} (hc : t.port.cmd = s.port.cmd) (hr : t.scan.rowbytes = s.scan.rowbytes) :
    t.toPull = s.toPull := by
  simp only [State.toPull, hc, hr]

theorem State.budget_le (s : State) : s.budget ≤ 2 * bitsLeft s.reader + s.scan.rowbytes.toNat + 8 := by
  have hpull := s.toPull_le
  have hsilent := s.inflate.istate.silentSteps_le
  unfold State.budget
  omega

/-- A step that takes a bit may lead to a state that reads nothing. -/
theorem State.budget_lt_of_bit {s t : State} (hb : bitsLeft t.reader < bitsLeft s.reader) (hp : t.toPull = s.toPull) :
    t.budget < s.budget := by
  have hsilent := t.inflate.istate.silentSteps_le
  unfold State.budget
  omega

/-- A step that reads nothing leads to a state that reads or ends the command. -/
theorem State.budget_lt_of_silent {s t : State} (hr : t.reader = s.reader) (hp : t.toPull = s.toPull)
    (hi : t.inflate.istate.silentSteps < s.inflate.istate.silentSteps) : t.budget < s.budget := by
  unfold State.budget
  rw [hr, hp]
  omega

/-! ## A step within the budget -/

/-- An element of a running command that goes on leaves the command as it is. -/
theorem Effect.port_running {s t : State} {i : Instr} (h : Effect s i t) (hi : (encode i).fmt ≠ .hostCmd)
    (ht : t.port.cmd ≠ .waiting) : t.port = s.port := by
  cases h.port with
  | same _ h => exact h
  | starts hf => exact absurd hf hi
  | answers _ h | fails _ _ h | delivers _ _ _ _ h => exact absurd (congrArg Port.cmd h) ht

/-- A filter element ends its ROW, with the row or with an error (R146, R339). -/
theorem Effect.ends_of_filt {s t : State} {i : Instr} (h : Effect s i t) (hi : (encode i).fmt = .filt) :
    t.port.cmd = .waiting := by
  cases h with
  | latched | filter | fails => rfl
  | lengths i n v r hf => rw [hf] at hi; cases hi
  | length i n r hf => rw [hf] at hi; cases hi
  | copy i x r hf => rw [hf] at hi; cases hi
  | copyFails => rfl
  | _ => cases hi

theorem ScanStep.rowbytes_running {s : State} {x : Scan} (h : ScanStep s x) (hc : s.port.cmd ≠ .waiting) :
    x.rowbytes = s.scan.rowbytes := by
  cases h with
  | same h => rw [h]
  | start hs => exact absurd hs.waiting hc
  | beginPass hs => exact absurd hs.waiting hc
  | load f d _ _ h => rw [h, Scan.load_rowbytes]
  | deliver f d _ _ p h => rw [h, Scan.swap_rowbytes, Scan.setCur_rowbytes, Scan.load_rowbytes]

/-- Where the two tables of a block are stored its symbols come next, and they are read (R208, R221). -/
theorem budget_lt_of_loadTables {s u t : State} {lits dists : List Nat} (hr : u.reader = s.reader)
    (hp : u.toPull = s.toPull) (hi : s.inflate.istate.silentSteps = 1) (h : loadTables lits dists u = .next t) :
    t.budget < s.budget := by
  obtain ⟨rfl, _⟩ := loadTables_next h
  exact State.budget_lt_of_silent hr hp (hi ▸ Nat.zero_lt_one)

/-- The setup of a fixed block (R208). -/
theorem budget_lt_of_fixed {s t : State} (hx : s.Expects .fixed) (h : execFixed s = .next t) : t.budget < s.budget :=
  budget_lt_of_loadTables rfl rfl (by rw [hx.2]; rfl) h

/-- The end of a dynamic header (R221). -/
theorem budget_lt_of_finishDyn {s t : State} (hi : s.inflate.istate = .dynamic) (h : finishDyn s = .next t) :
    t.budget < s.budget :=
  budget_lt_of_loadTables (u := s.setDyn { s.dyn with hdrRead := false }) rfl rfl (by rw [hi]; rfl) h

/-- The end of a block leads to the next block header or to the end of the stream (R222). -/
theorem budget_lt_of_blockEnd {s : State} (hi : s.inflate.istate = .blockEnd) :
    (s.setInflate s.inflate.afterBlock).budget < s.budget := by
  refine State.budget_lt_of_silent rfl rfl ?_
  rw [hi, State.setInflate_inflate, Inflate.afterBlock]
  cases s.inflate.bfinal <;> exact Nat.zero_lt_one

/-- A turn of `Pull` (R330). -/
theorem budget_lt_of_pull {s : State} {d : List Byte} (hc : s.port.cmd = .row d) (hd : d.length ≤ s.scan.rowbytes.toNat)
    (x : Window) (b : Byte) : ((s.setWindow x).setPort { s.port with cmd := .row (d ++ [b]) }).budget < s.budget := by
  unfold State.budget
  rw [State.toPull_row hc, State.toPull_row rfl]
  simp only [State.setPort_reader, State.setPort_scan, State.setPort_inflate, State.setWindow_reader,
    State.setWindow_scan, State.setWindow_inflate, List.length_append, List.length_singleton]
  omega

/-- Each step of a command that goes on lowers the budget. -/
theorem step_budget {s t : State} (hs : s.Inv) (hc : s.port.cmd ≠ .waiting) (h : step s = .next t)
    (ht : t.port.cmd ≠ .waiting) : t.budget < s.budget := by
  rcases step_cases s with ⟨i, u, hf, he⟩ | hb
  · have hx := (fetch_instr hf).1
    have hi : (encode i).fmt ≠ .hostCmd := fun e => hc (e ▸ hx : s.Expects .hostCmd)
    have heff := exec_effect (he ▸ h)
    cases hsrc : (encode i).fmt.readsSource with
    | true =>
      refine State.budget_lt_of_bit (step_takes_bit hs hf hsrc (he ▸ h) ht) (State.toPull_congr ?_ ?_)
      · rw [heff.port_running hi ht, (fetch_instr hf).2.cmd]
      · exact (step_scan h).rowbytes_running hc
    | false =>
      cases hfmt : (encode i).fmt
      case fixed =>
        rw [hfmt] at hx
        obtain ⟨rfl, rfl⟩ := Fetched.instr.inj (hf.symm.trans (fetch_fixed hx))
        exact budget_lt_of_fixed hx (he.symm.trans h)
      case filt => exact absurd (heff.ends_of_filt hfmt) ht
      case hostCmd => exact absurd hfmt hi
      all_goals rw [hfmt] at hsrc; cases hsrc
  · rw [h] at hb
    cases hb with
    | idle hw => exact absurd hw hc
    | pull d hd hl hu e => cases e; exact budget_lt_of_pull hd hl _ _
    | tables hp hi hd hl e => exact budget_lt_of_finishDyn hi e.symm
    | blockEnd hp hi e => cases e; exact budget_lt_of_blockEnd hi
    | streamEnd hp hi e => cases e; exact absurd rfl ht
    | readError c r hr hp hk e => cases e; exact absurd rfl ht
    | litLenSymbol hp hi v r hr hv hl e => cases e; exact absurd rfl ht
    | distSymbol hp hi v r hr hv hl e => cases e; exact absurd rfl ht
    | clSymbol hp v hv hl e => cases e
    | noCell hd hr e => cases e

/-! ## A run -/

/-- The invariants are kept together. -/
theorem step_inv {s t : State} (hs : s.Inv) (h : step s = .next t) : t.Inv :=
  let ⟨hmemory, hcells⟩ := stepKeepsMemoriesAndCells s t hs h
  let ⟨hrange, hcommand⟩ := stepKeepsRangesAndSession s t hs h
  { reader := stepKeepsTheReaderTidy s t hs.reader h
    window := stepKeepsTheWindowSound s t hs.window h
    memory := hmemory
    cells := hcells
    range := hrange
    command := hcommand }

/-- The running command ends within `n` steps, or an over-subscribed set ends the run (R187). -/
def State.EndsWithin (n : Nat) (s : State) : Prop :=
  ∃ k ≤ n, (∃ t, Sys2Proof.core.run k s = .next t ∧ t.port.cmd = .waiting) ∨
    Sys2Proof.core.run k s = .refused .overSubscribed

theorem State.EndsWithin.of_step {n : Nat} {s t : State} (h : step s = .next t) (ht : t.EndsWithin n) :
    s.EndsWithin (n + 1) := by
  obtain ⟨k, hk, hrun⟩ := ht
  refine ⟨k + 1, Nat.succ_le_succ hk, ?_⟩
  rwa [run_succ (M := core) k h]

/-- The last step of a command. -/
theorem State.EndsWithin.last {s : State} (n : Nat)
    (h : (∃ t, step s = .next t ∧ t.port.cmd = .waiting) ∨ step s = .refused .overSubscribed) : s.EndsWithin (n + 1) := by
  refine ⟨1, Nat.succ_le_succ (Nat.zero_le n), ?_⟩
  rw [show core.run 1 s = step s from run_one (M := core) s]
  exact h

theorem endsWithin_of_budget {n : Nat} {s : State} (hs : s.Inv) (hc : s.port.cmd ≠ .waiting) (hn : s.budget ≤ n) :
    s.EndsWithin n := by
  induction n generalizing s with
  | zero => exact absurd hn (Nat.not_succ_le_zero _)
  | succ n ih =>
    rcases step_progress hs.range hc with ⟨t, h⟩ | h
    · by_cases ht : t.port.cmd = .waiting
      · exact .last n (.inl ⟨t, h, ht⟩)
      · have hlt := step_budget hs hc h ht
        exact .of_step h (ih (step_inv hs h) ht (by omega))
    · exact .last n (.inr h)

/-- Settles O56: the budget falls with each step that does not end the command, and is within the bound. -/
theorem everyCommandEnds : Obligations.EveryCommandEnds := fun s hs hc => endsWithin_of_budget hs hc s.budget_le

end Sys2Proof.Machine
end

section
/-!
Window cells of an earlier session (R259, R417). Two states that differ in such cells only are one state with two
window memories. A step reads the byte at `rd`, which is not yet pulled, and a source of `Copy`, which the check of
R259 keeps within `hist`; so both answer the same, and the memories go on to agree in the cells of the history.
-/

namespace Sys2Proof.Machine

/-! ## A window with another memory -/

/-- The window with another memory. -/
def Window.withMem (m : Memory) (w : Window) : Window := { w with mem := m }

/-- The memory holds what the window's own does in the cells at most `hist` behind the write cursor (R28). -/
def Window.Remembers (w : Window) (m : Memory) : Prop :=
  ∀ k, 1 ≤ k → k ≤ w.hist.toNat → m.read (w.behind k) = w.mem.read (w.behind k)

theorem Window.alike_iff {w v : Window} : w.Alike v ↔ v = w.withMem v.mem ∧ w.Remembers v.mem := .rfl

/-- Without a history there is nothing to remember (R142). -/
theorem Window.remembers_of_empty {w : Window} (m : Memory) (h : w.hist = 0) : w.Remembers m := by
  intro k h₁ h₂
  rw [h] at h₂
  exact absurd (h₁.trans h₂) (by decide)

/-- A memory that may stand in for the window's own: it agrees in the history, both are in canonical form, and the
cursor and the history lie within the ring. -/
structure Window.Twin (w : Window) (m : Memory) : Prop where
  agree : w.Remembers m
  wr_lt : w.wr.toNat < w.size
  hist_le : w.hist.toNat ≤ w.size
  wf : w.mem.wf = true
  wf_twin : m.wf = true

theorem Window.behind_zero {w : Window} (h : w.wr.toNat < w.size) : w.behind 0 = w.wr.toNat := by
  unfold Window.behind
  rw [Int.natCast_zero, Int.sub_zero, ← Int.natCast_emod, Int.toNat_natCast, Nat.mod_eq_of_lt h]

/-- `Put` moves the write cursor on, so every byte lies one cell farther behind it. -/
theorem Window.put_behind_succ (b : Byte) (w : Window) (k : Nat) : (w.put b).behind (k + 1) = w.behind k := by
  unfold Window.behind
  rw [Window.put_size, Window.put_wr]
  push_cast
  rw [Int.emod_sub_emod, Int.add_sub_add_right]

/-- The oldest byte not yet pulled is `unread` behind the write cursor (R29). -/
theorem Window.Sound.behind_unread {w : Window} (h : w.Sound) : w.behind w.unread.toNat = w.rd.toNat := by
  unfold Window.behind
  rw [← h.ring]
  push_cast
  rw [Int.emod_sub_emod, Int.add_sub_cancel, ← Int.natCast_emod, Int.toNat_natCast, Nat.mod_eq_of_lt h.rd_lt]

/-- It is of the history. -/
theorem Window.Twin.front {w : Window} {m : Memory} (h : w.Twin m) (hs : w.Sound) (hu : w.unread ≠ 0) :
    (w.withMem m).front = w.front := by
  have hpos : 1 ≤ w.unread.toNat := by bv_omega
  have hread := h.agree _ hpos hs.unread_le_hist
  rwa [hs.behind_unread] at hread

/-- A byte put into both (R250). -/
theorem Window.Twin.put {w : Window} {m : Memory} (h : w.Twin m) (b : Byte) :
    (w.put b).Twin (m.write w.wr.toNat b) where
  wr_lt := by
    rw [Window.put_wr, Window.put_size]
    exact Nat.mod_lt _ w.size_pos
  hist_le := by
    rw [Window.put_hist_toNat b h.hist_le, Window.put_size]
    exact Nat.min_le_right _ _
  wf := Memory.wf_write _ _ h.wf
  wf_twin := Memory.wf_write _ _ h.wf_twin
  agree := by
    intro k h₁ h₂
    obtain ⟨j, rfl⟩ := Nat.exists_eq_add_of_le' h₁
    rw [Window.put_hist_toNat b h.hist_le] at h₂
    rw [Window.put_behind_succ, Window.put_mem, Memory.read_write _ _ _ h.wf, Memory.read_write _ _ _ h.wf_twin]
    split
    · rfl
    · rename_i hne
      refine h.agree j (Nat.pos_of_ne_zero fun hj => hne ?_) (by omega)
      rw [hj, Window.behind_zero h.wr_lt]

/-- A match copied within the history: each byte read is of the history, which only grows (R256). -/
theorem Window.Twin.copy {w : Window} {m : Memory} {d : Nat} (n : Nat) (h : w.Twin m) (hd : 1 ≤ d)
    (hh : d ≤ w.hist.toNat) :
    ∃ m', (w.withMem m).copy n d = (w.copy n d).withMem m' ∧ (w.copy n d).Remembers m' := by
  induction n generalizing w m with
  | zero => exact ⟨m, rfl, h.agree⟩
  | succ n ih =>
    have hread : (w.withMem m).mem.read ((w.withMem m).behind d) = w.mem.read (w.behind d) := h.agree d hd hh
    have hhist := Window.put_hist_toNat (w.mem.read (w.behind d)) h.hist_le
    have hle := h.hist_le
    rw [Window.copy, Window.copy, hread]
    exact ih (h.put _) (by omega)

/-! ## Answers that differ in the window memory only -/

/-- The state with another window memory. -/
def State.withMem (m : Memory) (s : State) : State := s.setWindow (s.window.withMem m)

@[simp] theorem State.withMem_session (m : Memory) (s : State) : (s.withMem m).session = s.session := rfl
@[simp] theorem State.withMem_reader (m : Memory) (s : State) : (s.withMem m).reader = s.reader := rfl
@[simp] theorem State.withMem_scan (m : Memory) (s : State) : (s.withMem m).scan = s.scan := rfl
@[simp] theorem State.withMem_window (m : Memory) (s : State) : (s.withMem m).window = s.window.withMem m := rfl
@[simp] theorem State.withMem_inflate (m : Memory) (s : State) : (s.withMem m).inflate = s.inflate := rfl
@[simp] theorem State.withMem_tables (m : Memory) (s : State) : (s.withMem m).tables = s.tables := rfl
@[simp] theorem State.withMem_dyn (m : Memory) (s : State) : (s.withMem m).dyn = s.dyn := rfl
@[simp] theorem State.withMem_temps (m : Memory) (s : State) : (s.withMem m).temps = s.temps := rfl
@[simp] theorem State.withMem_port (m : Memory) (s : State) : (s.withMem m).port = s.port := rfl

/-- Where the first answer is a next state, the second is that state with a memory that agrees in the history. -/
def Follows (o p : Out) : Prop := ∀ t, o = .next t → ∃ m, p = .next (t.withMem m) ∧ t.window.Remembers m

theorem Follows.next {t : State} {m : Memory} (h : t.window.Remembers m) : Follows (.next t) (.next (t.withMem m)) := by
  intro u e
  cases e
  exact ⟨m, rfl, h⟩

theorem Follows.fault (f : Fault) (p : Out) : Follows (.fault f) p := fun _ h => by cases h

theorem Follows.refused (f : Refusal) (p : Out) : Follows (.refused f) p := fun _ h => by cases h

/-- A check that both make alike. -/
theorem Follows.ite {c : Prop} [Decidable c] {o o' p p' : Out} (h : c → Follows o p) (h' : ¬c → Follows o' p') :
    Follows (if c then o else o') (if c then p else p') := by
  split
  · exact h ‹_›
  · exact h' ‹_›

/-! ## Meanings that leave the window alone -/

section
variable {s : State} {m : Memory} (h : s.window.Remembers m)
include h

theorem raiseErr_follows (c : ErrCode) : Follows (raiseErr c s) (raiseErr c (s.withMem m)) :=
  .next (t := s.raise c) h

theorem State.andThen_follows {α : Type} {e : Eff Reader α} {k : α → State → Out}
    (hk : ∀ a r, e = .ok a r → Follows (k a (s.setReader r)) (k a ((s.setReader r).withMem m))) :
    Follows (s.andThen e k) ((s.withMem m).andThen e k) := by
  cases e with
  | ok a r => exact hk a r rfl
  | raise c r => exact raiseErr_follows (s := s.setReader r) h c

theorem State.ifLegal_follows {k : State → Out} (hk : Follows (k s) (k (s.withMem m))) :
    Follows (s.ifLegal k) ((s.withMem m).ifLegal k) := by
  unfold State.ifLegal
  rw [State.withMem_session]
  cases s.session.sstate with
  | active => exact hk
  | failed => exact .next (t := s.respond none) h
  | idle | done => exact .refused .protocol _

theorem loadTables_follows (lits dists : List Nat) :
    Follows (loadTables lits dists s) (loadTables lits dists (s.withMem m)) := by
  unfold loadTables
  cases build lits with
  | none => exact .refused .overSubscribed _
  | some tl =>
    cases build dists with
    | none => exact .refused .overSubscribed _
    | some td => exact .next (m := m) h

theorem storeLens_follows (n : Nat) (v : BitVec 4) : Follows (storeLens n v s) (storeLens n v (s.withMem m)) :=
  .ite (fun _ => .fault .noSuchCell _) fun _ => .next (m := m) h

theorem repeatLens_follows (n : Nat) (v : BitVec 4) : Follows (repeatLens n v s) (repeatLens n v (s.withMem m)) :=
  .ite (fun _ => raiseErr_follows h _) fun _ => storeLens_follows h n v

theorem deliverRow_follows (p : Predictor) : Follows (deliverRow p s) (deliverRow p (s.withMem m)) :=
  .ite (fun _ => .next (m := m) h) fun _ => .fault .noSuchCell _

theorem execPassBegin_follows (n : BitVec 11) : Follows (execPassBegin n s) (execPassBegin n (s.withMem m)) :=
  State.ifLegal_follows h (.ite (fun _ => .refused .operandRange _) fun _ => .next (m := m) h)

theorem execRow_follows : Follows (execRow s) (execRow (s.withMem m)) :=
  State.ifLegal_follows h (.ite (fun _ => .next (m := m) h) fun _ => .refused .protocol _)

theorem execFinish_follows : Follows (execFinish s) (execFinish (s.withMem m)) :=
  State.ifLegal_follows h (.next (m := m) h)

theorem execStoredHdr_follows (a b : BitVec 16) : Follows (execStoredHdr a b s) (execStoredHdr a b (s.withMem m)) :=
  .ite (fun _ => raiseErr_follows h _) fun _ => .next (m := m) h

theorem execDyn_follows (a b : BitVec 5) (c : BitVec 4) : Follows (execDyn a b c s) (execDyn a b c (s.withMem m)) := by
  refine State.andThen_follows (s := s.setDyn (s.dyn.counts a b c)) h fun vs r _ => ?_
  cases build ((clLensOf vs).map BitVec.toNat) with
  | none => exact .refused .overSubscribed _
  | some t => exact .next (m := m) h

theorem execClRep_follows : Follows (execClRep s) (execClRep (s.withMem m)) :=
  .ite (fun _ => raiseErr_follows h _) fun _ =>
    State.andThen_follows h fun _ r _ => repeatLens_follows (s := s.setReader r) h _ _

theorem lengthSymbol_follows (base ext : Nat) : Follows (lengthSymbol base ext s) (lengthSymbol base ext (s.withMem m)) := by
  unfold lengthSymbol State.withBits
  exact State.andThen_follows h fun _ _ _ => .next (m := m) h

end

/-! ## Meanings that change the window -/

/-- START empties the window (R142). -/
theorem execStart_follows (c : BitVec 32) (st : BitVec 4) (s : State) (m : Memory) :
    Follows (execStart c st s) (execStart c st (s.withMem m)) :=
  .ite (fun _ => .refused .operandRange _) fun _ =>
    .next (t := (s.started c st).respond none) (Window.remembers_of_empty m rfl)

/-- The zlib header sizes an empty window (R203). -/
theorem execZlib_follows (a b : BitVec 4) (c : BitVec 5) (d : Bool) (e : BitVec 2) {s : State} (m : Memory)
    (h : s.window.hist = 0) : Follows (execZlib a b c d e s) (execZlib a b c d e (s.withMem m)) := by
  have hm := Window.remembers_of_empty m h
  exact .ite (fun _ => raiseErr_follows hm _) fun _ => .ite (fun _ => raiseErr_follows hm _) fun _ =>
    .ite (fun _ => raiseErr_follows hm _) fun _ => .next (m := m) (Window.remembers_of_empty m h)

section
variable {s : State} {m : Memory} (h : s.window.Twin m)
include h

theorem execRaw_follows (b : Byte) : Follows (execRaw b s) (execRaw b (s.withMem m)) :=
  .next (m := m.write s.window.wr.toNat b) (h.put b).agree

theorem execLit_follows (b : Byte) : Follows (execLit b s) (execLit b (s.withMem m)) :=
  .next (m := m.write s.window.wr.toNat b) (h.put b).agree

/-- The check of R259 comes before the copy. -/
theorem copyMatch_follows (hd : 1 ≤ s.temps.mdist.toNat) : Follows (copyMatch s) (copyMatch (s.withMem m)) := by
  refine .ite (fun _ => raiseErr_follows h.agree _) fun hfar => .ite (fun _ => raiseErr_follows h.agree _) fun _ => ?_
  obtain ⟨m', hcopy, hm'⟩ := h.copy s.temps.mlen.toNat hd (Nat.le_of_not_lt hfar)
  rw [State.withMem_window, State.withMem_temps, hcopy]
  exact .next (m := m') hm'

/-- No distance is 0 (R111). -/
theorem distSymbol_follows {base ext : Nat} (hb : 1 ≤ base) (hx : base + 2 ^ ext ≤ 32769) :
    Follows (distSymbol base ext s) (distSymbol base ext (s.withMem m)) := by
  unfold distSymbol State.withBits
  refine State.andThen_follows h.agree fun x r hr => ?_
  have hlt := Reader.readBits_lt hr
  refine copyMatch_follows (s := (s.setReader r).setTemps { s.temps with mdist := distanceOf base x }) h ?_
  rw [State.setTemps_temps, distanceOf_toNat (by omega)]
  omega

/-- An element is carried out alike. The one that sizes the window finds it empty. -/
theorem exec_follows (i : Instr) (hz : (encode i).fmt = .zhdr → s.window.hist = 0) :
    Follows (exec i s) (exec i (s.withMem m)) := by
  have ha := h.agree
  generalize ho : exec i s = o
  have hsh := exec_shape ho
  clear ho
  cases hsh with
  | start c st e => exact e ▸ execStart_follows c st s m
  | passBegin n e => exact e ▸ execPassBegin_follows ha n
  | row e => exact e ▸ execRow_follows ha
  | finish e => exact e ▸ execFinish_follows ha
  | abort e => exact e ▸ .next (m := m) ha
  | reserved i e => exact e ▸ .refused .reservedCommand _
  | zlib a b c d x e => exact e ▸ execZlib_follows a b c d x m (hz rfl)
  | blockStored f e | blockFixed f e | blockDynamic f e | ztrl f e => exact e ▸ .next (m := m) ha
  | eob e => exact e ▸ .next (m := m) ha
  | blockReserved f e => exact e ▸ raiseErr_follows (s := s.setInflate (s.inflate.final f)) ha _
  | storedHdr a b e => exact e ▸ execStoredHdr_follows ha a b
  | raw b e => exact e ▸ execRaw_follows h b
  | fixed e => exact e ▸ loadTables_follows ha fixedLitLens fixedDistLens
  | dyn a b c e => exact e ▸ execDyn_follows ha a b c
  | clLen n e => exact e ▸ storeLens_follows ha 1 n
  | clRep e => exact e ▸ execClRep_follows ha
  | clZeroS e | clZeroL e =>
    exact e ▸ State.andThen_follows ha fun _ r _ => repeatLens_follows (s := s.setReader r) ha _ _
  | lit b e => exact e ▸ execLit_follows h b
  | length i base ext e hi => exact e ▸ (exec_lengthParams (s.withMem m) hi).1 ▸ lengthSymbol_follows ha base ext
  | lenInvalid i e hi => rcases hi with rfl | rfl <;> exact e ▸ raiseErr_follows ha _
  | distance i base ext e hi =>
    obtain ⟨hexec, _, hb, hx⟩ := exec_distanceParams (s.withMem m) hi
    exact e ▸ hexec ▸ distSymbol_follows h hb hx
  | distInvalid i e hi => rcases hi with rfl | rfl <;> exact e ▸ raiseErr_follows ha _
  | filter i p e hi => exact e ▸ (exec_predictorOf (s.withMem m) hi).1 ▸ deliverRow_follows ha p
  | fInvalid t e => exact e ▸ raiseErr_follows ha _

/-! ## A step -/

theorem decodeAt_follows (e : Element) (hz : e.fmt = .zhdr → s.window.hist = 0) :
    Follows (decodeAt e s).answer (decodeAt e (s.withMem m)).answer := by
  unfold decodeAt
  cases hd : decode e with
  | ok i => exact exec_follows h i fun hi => hz ((decode_fmt hd).symm.trans hi)
  | error d =>
    cases d with
    | litLenSymbol | distSymbol => exact raiseErr_follows h.agree _
    | clSymbol | wordTooWide => exact .refused .noSuchSymbol _

theorem fetchWord_follows (f : Format) (e : Eff Reader Nat) (hz : f = .zhdr → s.window.hist = 0) :
    Follows (fetchWord f e s).answer (fetchWord f e (s.withMem m)).answer := by
  cases e with
  | ok w r => exact decodeAt_follows (s := s.setReader r) h _ hz
  | raise c r => exact raiseErr_follows (s := s.setReader r) h.agree c

theorem fetchLitLen_follows : Follows (fetchLitLen s).answer (fetchLitLen (s.withMem m)).answer := by
  unfold fetchLitLen
  rw [State.withMem_reader, State.withMem_tables]
  cases s.reader.matchSymbol s.tables.lit with
  | ok v r => exact decodeAt_follows (s := (s.setReader r).setTemps { s.temps with sym := v }) h _ nofun
  | raise c r => exact raiseErr_follows (s := s.setReader r) h.agree c

theorem fetchFilter_follows (d : List Byte) :
    Follows (fetchFilter d s).answer (fetchFilter d (s.withMem m)).answer := by
  unfold fetchFilter
  cases d with
  | nil => exact .fault .noSuchCell _
  | cons f bytes =>
    rw [State.withMem_scan]
    dsimp only
    split
    · exact decodeAt_follows (s := s.setScan (s.scan.load f bytes)) h _ nofun
    · exact .fault .noSuchCell _

theorem fetchInflate_follows (hs : s.WindowInv) :
    Follows (fetchInflate s).answer (fetchInflate (s.withMem m)).answer := by
  unfold fetchInflate
  rw [State.withMem_inflate, State.withMem_dyn, State.withMem_temps, State.withMem_reader, State.withMem_tables]
  cases s.inflate.istate with
  | begin =>
    dsimp only
    split
    · exact fetchWord_follows h _ _ nofun
    · rename_i hd
      obtain ⟨_, _, _, _, hempty⟩ := hs.fresh (by simpa using hd)
      exact fetchWord_follows h _ _ fun _ => hempty
  | stored =>
    dsimp only
    split
    · exact fetchWord_follows h _ _ nofun
    · exact fetchWord_follows h _ _ nofun
  | fixed => exact exec_follows h .fixed nofun
  | dynamic =>
    dsimp only
    split
    · split
      · exact fetchWord_follows h _ _ nofun
      · exact loadTables_follows (s := s.setDyn { s.dyn with hdrRead := false }) h.agree _ _
    · exact fetchWord_follows h _ _ nofun
  | huffman =>
    dsimp only
    split
    · exact fetchWord_follows h _ _ nofun
    · exact fetchLitLen_follows h
  | blockEnd => exact .next (m := m) h.agree
  | streamEnd => exact raiseErr_follows h.agree _

/-- A turn of `Pull` takes the same byte from both (R330). -/
theorem pullByte_follows (d : List Byte) (hs : s.window.Sound) (hu : s.window.unread ≠ 0) :
    Follows (pullByte d s) (pullByte d (s.withMem m)) := by
  unfold pullByte
  rw [State.withMem_window, h.front hs hu]
  exact .next (m := m) h.agree

theorem step_follows (hs : s.WindowInv) : Follows (step s) (step (s.withMem m)) := by
  rw [step_eq_answer, step_eq_answer]
  unfold fetch
  rw [State.withMem_port, State.withMem_scan, State.withMem_reader]
  cases s.port.cmd with
  | waiting =>
    cases hq : s.port.cmds with
    | nil => exact .next h.agree
    | cons q qs =>
      refine exec_follows (s := s.setPort { s.port with cmds := qs }) h _ fun hf => ?_
      rw [fmt_decodeCommand] at hf
      cases hf
  | finish => exact fetchWord_follows h _ _ nofun
  | row d =>
    dsimp only
    split
    · exact fetchFilter_follows h d
    · by_cases hu : s.window.unread = 0
      · rw [if_pos hu, if_pos (show (s.withMem m).window.unread = 0 from hu)]
        exact fetchInflate_follows h hs
      · rw [if_neg hu, if_neg (show ¬(s.withMem m).window.unread = 0 from hu)]
        exact pullByte_follows h d hs.sound hu

end

/-- Settles O59: the second state is the first with another window memory, and its step follows. -/
theorem staleWindowCellsHaveNoEffect : Obligations.StaleWindowCellsHaveNoEffect := by
  intro s u s' hs hu ha hw h
  obtain ⟨hwin, hmem⟩ := Window.alike_iff.1 ha
  have htwin : s.window.Twin u.window.mem :=
    ⟨hmem, hs.window.sound.wr_lt, hs.window.sound.hist_le_size, hs.memory.1, hw⟩
  have hsame : u = s.withMem u.window.mem := hu.trans (congrArg s.setWindow hwin)
  obtain ⟨m, hm, hrem⟩ := step_follows htwin hs.window s' h
  rw [← hsame] at hm
  exact ⟨s'.withMem m, hm, rfl, rfl, hrem⟩

end Sys2Proof.Machine
end
